-- ==== Sys2Proof/Word.lean ====
section
/-! DEFINITION. The machine words of CFE: buffer bytes and 32-bit registers (00_scope.md R7), and the 64-bit
register pairs (10_state.md R38 to R40, R54). -/

namespace Sys2Proof

/-- One byte of the frame buffer (10_state.md R66). -/
abbrev Byte := BitVec 8

/-- One 32-bit register or RAM word (00_scope.md R7). -/
abbrev Word32 := BitVec 32

/-- A register pair {HI, LO} read as one value (10_state.md R38 to R40, R54). -/
abbrev Word64 := BitVec 64

end Sys2Proof
end

