-- ==== Sys2Proof/Config.lean ====
section
/-! DEFINITION. What an instance of CFE fixes (the parameters of 00_scope.md R7), the closed set of frame kinds,
and the free values of the spec's unspecified host reads and script expressions. -/

namespace Sys2Proof

/-- The OPEN implementation parameters (00_scope.md R7; 93_implementation_defined.md I1, I2). They stand in State,
so a claim about every state is a claim about every instance (log 1). -/
structure Params where
  /-- BUF_SIZE, the bytes of the frame buffer. -/
  bufSize : Nat
  /-- N_DESC, the descriptors of a kind and the entries of the result table. -/
  nDesc : Nat
deriving DecidableEq, Repr

/-- The bounds 00_scope.md R7 puts on an instance. -/
abbrev Params.legal (p : Params) : Prop :=
  p.bufSize % 4 = 0 ∧ 16 ≤ p.bufSize ∧ p.bufSize ≤ 16384 ∧ 1 ≤ p.nDesc ∧ p.nDesc ≤ 32

/-- The default instance of 00_scope.md R7, which every vector of 95_test_vectors.md uses. -/
def Params.default : Params := { bufSize := 1024, nDesc := 32 }

/-- The closed tagged variant of frame kinds (00_scope.md R16; 10_state.md R47), in slot order. -/
inductive Kind where
  | settings
  | sensorValues
  | strings
  | ambientColor
  | soundData
deriving DecidableEq, Repr

/-- Every kind slot, in the order of 10_state.md R47. -/
def Kind.all : List Kind := [.settings, .sensorValues, .strings, .ambientColor, .soundData]

/-- What FRAME.DECODE's SEL names (30_encoding.md R132): an expected kind, or any enabled kind (SEL = 7). -/
inductive DecodeSel where
  | kind (k : Kind)
  | any
deriving DecidableEq, Repr

/-- FREE VALUE (log 6): what a host read of any address but STATUS and CMD returns while a command is in flight
(20_memory.md R109), as a function of a counter of the state that every such read advances. -/
opaque Config.busyRead : Nat → Word32

/-- FREE VALUE (log 5): what a host read of a descriptor or result word not written since reset returns
(40_command.md R166), as a function of the state's counter and of the word's address. -/
opaque Config.unwrittenWord : Nat → Nat → Word32

/-- FREE VALUE (log 5): what the lane of a window read shows whose byte is not written since reset
(20_memory.md R102), as a function of the state's counter and of the byte's index. -/
opaque Config.unwrittenByte : Nat → Nat → Byte

/-- FREE VALUE (log 25): what `x mod 0` gives in a script expression, as a function of x; 00_scope.md R9 defines `mod` for a
positive modulus only. -/
opaque Config.modByZero : Word32 → Word32

/-- FREE VALUE (log 25): what a script variable reads as that the script has not assigned, as a function of its number;
30_encoding.md R139 states no value. -/
opaque Config.unassignedVariable : Nat → Word32

end Sys2Proof
end

