-- ==== Sys2Proof/Syntax.lean ====
section
/-! DEFINITION. The command set: one constructor per row of spec/opcode_table.json (30_encoding.md R134). -/

namespace Sys2Proof

/-- A command, with its SEL as a kind and its IDX as a descriptor index (30_encoding.md R131). -/
inductive Instr where
  /-- NOP (40_command.md R167). -/
  | nop
  /-- CSUM.COMPUTE k (41_checksum.md R189). -/
  | csumCompute (k : Kind)
  /-- CSUM.VERIFY k (41_checksum.md R190). -/
  | csumVerify (k : Kind)
  /-- TRAILER.VERIFY k (41_checksum.md R191). -/
  | trailerVerify (k : Kind)
  /-- TRAILER.APPEND k (41_checksum.md R192). -/
  | trailerAppend (k : Kind)
  /-- FIELD.EXTRACT k, i (42_field.md R233). -/
  | fieldExtract (k : Kind) (idx : BitVec 8)
  /-- FIELD.INSERT k, i (42_field.md R234). -/
  | fieldInsert (k : Kind) (idx : BitVec 8)
  /-- SCHEMA.CHECK k (43_frame.md R265). -/
  | schemaCheck (k : Kind)
  /-- FRAME.DECODE k, or FRAME.DECODE any (43_frame.md R266). -/
  | frameDecode (sel : DecodeSel)
  /-- FRAME.ENCODE k (43_frame.md R269). -/
  | frameEncode (k : Kind)
deriving DecidableEq, Repr

end Sys2Proof
end

