-- ==== Sys2Proof/WellFormed.lean ====
section
/-! DEFINITION. Which commands an instance with N_DESC = nDesc can encode: the ranges 30_encoding.md R135 puts on
operands that the types of `Instr` do not already hold (SEL is a kind, so it is in range by type). -/

namespace Sys2Proof

/-- 30_encoding.md R133: IDX < N_DESC for FIELD.EXTRACT and FIELD.INSERT. -/
def Instr.wellFormed (nDesc : Nat) (i : Instr) : Bool :=
  match i with
  | .nop => true
  | .csumCompute _ => true
  | .csumVerify _ => true
  | .trailerVerify _ => true
  | .trailerAppend _ => true
  | .fieldExtract _ idx => decide (idx.toNat < nDesc)
  | .fieldInsert _ idx => decide (idx.toNat < nDesc)
  | .schemaCheck _ => true
  | .frameDecode _ => true
  | .frameEncode _ => true

end Sys2Proof
end

