-- ==== Sys2Proof/Decode.lean ====
section
/-! DEFINITION. The command decoder and encoder (30_encoding.md R130 to R138), and the slot numbers of the kinds. -/

namespace Sys2Proof

/-- The slot number of a kind (10_state.md R47). -/
def Kind.index : Kind → Nat
  | .settings => 0
  | .sensorValues => 1
  | .strings => 2
  | .ambientColor => 3
  | .soundData => 4

/-- SEL of a kind (30_encoding.md R132). -/
def Kind.code : Kind → BitVec 3
  | .settings => 0
  | .sensorValues => 1
  | .strings => 2
  | .ambientColor => 3
  | .soundData => 4

/-- The kind a SEL value names (30_encoding.md R132): none for 5, 6 and 7. -/
def Kind.ofCode (sel : BitVec 3) : Option Kind :=
  if sel = 0 then some .settings
  else if sel = 1 then some .sensorValues
  else if sel = 2 then some .strings
  else if sel = 3 then some .ambientColor
  else if sel = 4 then some .soundData
  else none

/-- SEL of a FRAME.DECODE operand: 7 means any enabled kind (30_encoding.md R132). -/
def DecodeSel.code : DecodeSel → BitVec 3
  | .kind k => k.code
  | .any => 7

/-- The operand a FRAME.DECODE's SEL names (30_encoding.md R132): none for 5 and 6. -/
def DecodeSel.ofCode (sel : BitVec 3) : Option DecodeSel :=
  if sel = 7 then some .any else (Kind.ofCode sel).map .kind

/-- OPC, bits [7:0] (30_encoding.md R130). -/
def opcOf (w : Word32) : BitVec 8 := w.extractLsb' 0 8
/-- SEL, bits [10:8] (30_encoding.md R130). -/
def selOf (w : Word32) : BitVec 3 := w.extractLsb' 8 3
/-- RSV0, bits [15:11] (30_encoding.md R130). -/
def rsv0Of (w : Word32) : BitVec 5 := w.extractLsb' 11 5
/-- IDX, bits [23:16] (30_encoding.md R130). -/
def idxOf (w : Word32) : BitVec 8 := w.extractLsb' 16 8
/-- RSV1, bits [31:24] (30_encoding.md R130). -/
def rsv1Of (w : Word32) : BitVec 8 := w.extractLsb' 24 8

/-- `Legal(w)` as 30_encoding.md R135 writes it. The decoder below does not use it. -/
def legal (nDesc : Nat) (w : Word32) : Bool :=
  let opc := opcOf w
  let sel := selOf w
  let idx := idxOf w
  if rsv0Of w ≠ 0 ∨ rsv1Of w ≠ 0 then false
  else if opc = 0x00 then decide (sel = 0 ∧ idx = 0)
  else if opc = 0x01 ∨ opc = 0x02 ∨ opc = 0x03 ∨ opc = 0x04 then decide (sel.toNat ≤ 4 ∧ idx = 0)
  else if opc = 0x20 ∨ opc = 0x31 then decide (sel.toNat ≤ 4 ∧ idx = 0)
  else if opc = 0x10 ∨ opc = 0x11 then decide (sel.toNat ≤ 4 ∧ idx.toNat < nDesc)
  else if opc = 0x30 then decide ((sel.toNat ≤ 4 ∨ sel = 7) ∧ idx = 0)
  else false

/-- Why a word is no command (30_encoding.md R135; 60_exceptions.md R308). Every one of these makes the command
complete with ILLEGAL_COMMAND. -/
inductive DecodeError where
  /-- A bit of RSV0 or RSV1 is set. -/
  | reservedBit
  /-- OPC is in no row of 30_encoding.md R134. -/
  | reservedOpcode
  /-- SEL is outside the opcode's range. -/
  | illegalSel
  /-- IDX is non-zero where unused, or not below N_DESC. -/
  | illegalIdx
deriving DecidableEq, Repr

/-- The kind of a command with SEL in 0..4 and IDX = 0. -/
def decodeKind (sel : BitVec 3) (idx : BitVec 8) : Except DecodeError Kind :=
  match Kind.ofCode sel with
  | none => .error .illegalSel
  | some k => if idx = 0 then .ok k else .error .illegalIdx

/-- The operands of a FIELD command: SEL in 0..4 and IDX < N_DESC. -/
def decodeField (nDesc : Nat) (sel : BitVec 3) (idx : BitVec 8) : Except DecodeError (Kind × BitVec 8) :=
  match Kind.ofCode sel with
  | none => .error .illegalSel
  | some k => if idx.toNat < nDesc then .ok (k, idx) else .error .illegalIdx

/-- The row of 30_encoding.md R134 that OPC selects, with its SEL and IDX ranges. -/
def decodeRow (nDesc : Nat) (opc : BitVec 8) (sel : BitVec 3) (idx : BitVec 8) : Except DecodeError Instr :=
  if opc = 0x00 then
    if sel ≠ 0 then .error .illegalSel else if idx ≠ 0 then .error .illegalIdx else .ok .nop
  else if opc = 0x01 then (decodeKind sel idx).map .csumCompute
  else if opc = 0x02 then (decodeKind sel idx).map .csumVerify
  else if opc = 0x03 then (decodeKind sel idx).map .trailerVerify
  else if opc = 0x04 then (decodeKind sel idx).map .trailerAppend
  else if opc = 0x10 then (decodeField nDesc sel idx).map fun p => .fieldExtract p.1 p.2
  else if opc = 0x11 then (decodeField nDesc sel idx).map fun p => .fieldInsert p.1 p.2
  else if opc = 0x20 then (decodeKind sel idx).map .schemaCheck
  else if opc = 0x30 then
    match DecodeSel.ofCode sel with
    | none => .error .illegalSel
    | some q => if idx = 0 then .ok (.frameDecode q) else .error .illegalIdx
  else if opc = 0x31 then (decodeKind sel idx).map .frameEncode
  else .error .reservedOpcode

/-- The command a word is in an instance with N_DESC = nDesc, or why it is none (30_encoding.md R135, R140). -/
def decode (nDesc : Nat) (w : Word32) : Except DecodeError Instr :=
  if rsv0Of w ≠ 0 ∨ rsv1Of w ≠ 0 then .error .reservedBit
  else decodeRow nDesc (opcOf w) (selOf w) (idxOf w)

/-- `word = OPC | (SEL << 8) | (IDX << 16)` (30_encoding.md R130). -/
def commandWord (opc : BitVec 8) (sel : BitVec 3) (idx : BitVec 8) : Word32 :=
  opc.setWidth 32 ||| (sel.setWidth 32 <<< 8) ||| (idx.setWidth 32 <<< 16)

/-- The word of a command (30_encoding.md R134). -/
def encode : Instr → Word32
  | .nop => commandWord 0x00 0 0
  | .csumCompute k => commandWord 0x01 k.code 0
  | .csumVerify k => commandWord 0x02 k.code 0
  | .trailerVerify k => commandWord 0x03 k.code 0
  | .trailerAppend k => commandWord 0x04 k.code 0
  | .fieldExtract k idx => commandWord 0x10 k.code idx
  | .fieldInsert k idx => commandWord 0x11 k.code idx
  | .schemaCheck k => commandWord 0x20 k.code 0
  | .frameDecode sel => commandWord 0x30 sel.code 0
  | .frameEncode k => commandWord 0x31 k.code 0

/-- The opcode of a mnemonic (30_encoding.md R134). -/
def mnemonicOpc : List (String × BitVec 8) :=
  [("NOP", 0x00), ("CSUM.COMPUTE", 0x01), ("CSUM.VERIFY", 0x02), ("TRAILER.VERIFY", 0x03), ("TRAILER.APPEND", 0x04),
   ("FIELD.EXTRACT", 0x10), ("FIELD.INSERT", 0x11), ("SCHEMA.CHECK", 0x20), ("FRAME.DECODE", 0x30),
   ("FRAME.ENCODE", 0x31)]

/-- SEL of a kind operand as the assembler writes it (30_encoding.md R137); an omitted operand is 0. -/
def kindToken : String → Option (BitVec 3)
  | "" => some 0
  | "0" => some 0
  | "1" => some 1
  | "2" => some 2
  | "3" => some 3
  | "4" => some 4
  | "settings" => some 0
  | "sensor" => some 1
  | "strings" => some 2
  | "ambient" => some 3
  | "sound" => some 4
  | _ => none

/-- The word of `MNEMONIC [kind] [, idx]` (30_encoding.md R137): `kind` is the text of the operand, empty where it is
omitted, and `idx` its value, 0 where it is omitted. `any` stands for SEL = 7 with FRAME.DECODE only, and NOP takes
no operand. -/
def assemble (mnemonic kind : String) (idx : BitVec 8) : Option Word32 :=
  match mnemonicOpc.lookup mnemonic with
  | none => none
  | some opc =>
    if opc = 0x00 then if kind = "" ∧ idx = 0 then some (commandWord opc 0 0) else none
    else if opc = 0x30 ∧ kind = "any" then some (commandWord opc 7 idx)
    else (kindToken kind).map fun sel => commandWord opc sel idx

/-- The public operations of the source as single commands (30_encoding.md R138). -/
def aliasCommands (k : Kind) : List (String × Instr) :=
  [("compute", .csumCompute k), ("verify", .csumVerify k), ("decode", .frameDecode .any),
   ("decode_settings", .frameDecode (.kind .settings)), ("decode_sensor_values", .frameDecode (.kind .sensorValues)),
   ("encode", .frameEncode k), ("encode_settings", .frameEncode .settings),
   ("encode_ambient_color", .frameEncode .ambientColor), ("encode_sound_data", .frameEncode .soundData)]

/-- The command a row's word decodes to in the default instance (N_DESC = 32), the word's bits numbered as
spec/opcode_table.json numbers them. A command is exactly one 32-bit word (30_encoding.md R136). -/
def decodeTableWord (nbits w : Nat) : Option Instr :=
  if nbits ≤ 32 then
    match decode Params.default.nDesc (BitVec.ofNat 32 (w % 2 ^ nbits)) with
    | .ok i => some i
    | .error _ => none
  else none

end Sys2Proof
end

