-- ==== Sys2Proof/Machine/State.lean ====
section
/-! DEFINITION. The state of one CFE instance (10_state.md R30 to R73) and of the agents that act on it, as plain data,
and the state right after reset. INVENTORY.md lists each field with its rule and reset value. -/

namespace Sys2Proof.Machine

/-- A memory in canonical form: pairs of a key and what it holds, keys strictly rising. A key that is not listed has
not been written since reset: presence IS the written mark of 10_state.md R69, and there is no value to read (log 4). -/
abbrev Memory (α : Type) := List (Nat × α)

/-- The canonical form of a memory. -/
abbrev Memory.wf {α : Type} (m : Memory α) : Prop := (m.map Prod.fst).Pairwise (· < ·)

/-- One value for each of the five kind slots (10_state.md R47). -/
structure PerKind (α : Type) where
  settings : α
  sensorValues : α
  strings : α
  ambientColor : α
  soundData : α
deriving DecidableEq, Repr

/-- The result codes of 60_exceptions.md R301: ERR.CODE takes exactly these values. -/
inductive ResultCode where
  | ok
  | tooShort
  | unknownFrameType
  | lengthMismatch
  | checksumMismatch
  | fieldOutOfRange
  | configError
  | illegalCommand
  | operandError
deriving DecidableEq, Repr

/-- STATUS (10_state.md R33), one Bool per flag; `Status.word` is what the host reads (log 16). -/
structure Status where
  /-- [0] DONE -/
  done : Bool
  /-- [1] BUSY -/
  busy : Bool
  /-- [2] ERRV -/
  errv : Bool
  /-- [3] MATCH -/
  matched : Bool
  /-- [4] SNAP_VALID -/
  snapValid : Bool
deriving DecidableEq, Repr

/-- ERR (10_state.md R34); `Err.word` is what the host reads (log 16). -/
structure Err where
  /-- [7:0] CODE -/
  code : ResultCode
  /-- [15:8] FIDX -/
  fidx : BitVec 8
  /-- [18:16] KIND -/
  kind : BitVec 3
deriving DecidableEq, Repr

/-- The configuration registers of one kind slot (10_state.md R47 to R54). A register holding fewer than 32 bits
stores only those bits (R31). -/
structure KindSlot where
  /-- +0x00 KCFG, bits [14:0] (R48; bit 5 is reserved and always 0, log 18) -/
  kcfg : BitVec 15
  /-- +0x04 KDISC (R49) -/
  kdisc : Word32
  /-- +0x08 KLENOFF (R50) -/
  klenOff : BitVec 16
  /-- +0x0C KPAYMIN (R51) -/
  kpayMin : BitVec 16
  /-- +0x10 KPAYMAX (R51) -/
  kpayMax : BitVec 16
  /-- +0x14 KCSSTART (R52) -/
  kcsStart : BitVec 16
  /-- +0x18 KNDESC (R53) -/
  kndesc : BitVec 8
  /-- +0x20, +0x24 KPOLY (R54) -/
  kpoly : Word64
  /-- +0x28, +0x2C KINIT (R54) -/
  kinit : Word64
  /-- +0x30, +0x34 KXOROUT (R54) -/
  kxorOut : Word64
deriving DecidableEq, Repr

/-- A script expression on 32-bit values (30_encoding.md R139, with the operators of 00_scope.md R9; log 10). -/
inductive HostExpr where
  | lit (v : Word32)
  | var (x : Nat)
  | or (a b : HostExpr)
  | and (a b : HostExpr)
  | xor (a b : HostExpr)
  | shl (a b : HostExpr)
  | shr (a b : HostExpr)
  | add (a b : HostExpr)
  | sub (a b : HostExpr)
  | mul (a b : HostExpr)
  | mod (a b : HostExpr)
  /-- `a[hi:lo]` -/
  | slice (a : HostExpr) (hi lo : Nat)
deriving DecidableEq, Repr

/-- A statement of a host script (30_encoding.md R139). Script variables and labels are numbered. `CMD`, `LOADB` and
`WAIT` expand to these (`commandStmts`, `loadBytes`, `waitStmts`). -/
inductive HostStmt where
  /-- `WR a, v` -/
  | wr (a v : HostExpr)
  /-- `RD a -> $x` -/
  | rd (a : HostExpr) (x : Nat)
  /-- `label:` -/
  | label (n : Nat)
  /-- `BZ e, label` -/
  | bz (e : HostExpr) (n : Nat)
  /-- `BNZ e, label` -/
  | bnz (e : HostExpr) (n : Nat)
  /-- `SET $x = e` -/
  | set (x : Nat) (e : HostExpr)
  /-- `EXPECT e == v` -/
  | expect (e v : HostExpr)
  /-- A host access of another size than 32 bits, which 20_memory.md R101 refuses (log 9). -/
  | otherSize (bytes : Nat) (a : HostExpr)
  /-- The system asserts reset here (70_reset_and_hazards.md R330, R331; log 17). -/
  | reset
deriving DecidableEq, Repr

/-- The host agent (10_state.md R30): the script it runs and where it is in it (log 2). -/
structure HostAgent where
  script : List HostStmt
  /-- The index of the next statement. -/
  pos : Nat
  /-- The script variables assigned so far. -/
  vars : Memory Word32
  /-- How many EXPECT assertions have not held. -/
  failedExpects : Nat
deriving DecidableEq, Repr

/-- Why the machine stops. Each is a case for which the spec says that a model records a fault, or in which an
operation is not defined. -/
inductive Fault where
  /-- Raised by a command that reads a buffer byte not written since reset (40_command.md R166; I13). Safe: the
  command's outcome is unspecified, and a model gives it no result. -/
  | unwrittenBuffer
  /-- Raised by a command that reads a descriptor word not written since reset (40_command.md R166; I13). Safe, as
  above. -/
  | unwrittenDescriptor
  /-- Raised by a command that reads a result word not written since reset (40_command.md R166; I13). Safe, as
  above. -/
  | unwrittenResult
  /-- Raised by MemRead and MemWrite beyond BUF_SIZE, where 00_scope.md R12 does not define them. Safe: no reachable
  state raises it (60_exceptions.md R309; log 8). -/
  | outsideBuffer
  /-- Raised by a host write to any address while STATUS.BUSY = 1 (60_exceptions.md R316; I12). Safe: the effect is
  unpredictable, and a model records a fault. -/
  | hostWriteWhileBusy
deriving DecidableEq, Repr

/-- Why the machine has no meaning for what it is asked to do. -/
inductive Refusal where
  /-- Raised by `exec` for an instruction that has no meaning yet. Safe. No arm of this model raises it. -/
  | notModelled (mnemonic : String)
  /-- Raised by a host access of another size than 32 bits (20_memory.md R101; I10). Safe: it is not part of the
  interface. -/
  | accessSize
  /-- Raised by a host access at an address that is no multiple of 4 (20_memory.md R101; I10). Safe, as above. -/
  | misaligned
  /-- Raised by a host access at an address of more than 16 bits (20_memory.md R100). Safe, as above. -/
  | addressWidth
  /-- Raised by a branch of the host script to a label it does not hold (30_encoding.md R139; log 10). Safe: no
  script of the notation does it. -/
  | unknownLabel
deriving DecidableEq, Repr

/-- How a part of a command ends early: in a fault, or by `raise E(fidx)` (00_scope.md R13). -/
inductive Stop where
  | fault (f : Fault)
  | raise (code : ResultCode) (fidx : BitVec 8)
deriving DecidableEq, Repr

/-- The state of one CFE instance and of what acts on it. -/
structure State where
  /-- The instance's parameters (00_scope.md R7). -/
  params : Params
  /-- CMD (R32) -/
  cmd : Word32
  /-- STATUS (R33) -/
  status : Status
  /-- ERR (R34) -/
  err : Err
  /-- FRAMELEN (R35) -/
  frameLen : BitVec 16
  /-- ARG0 (R36) -/
  arg0 : BitVec 16
  /-- ARG1 (R37) -/
  arg1 : BitVec 16
  /-- EXP (R38) -/
  exp : Word64
  /-- CSUM (R39) -/
  csum : Word64
  /-- CSRX (R40) -/
  csrx : Word64
  /-- KIND_OUT (R41) -/
  kindOut : BitVec 3
  /-- PAYLEN (R42) -/
  payLen : BitVec 16
  /-- HDRCFG, bits [18:0] (R45) -/
  hdrCfg : BitVec 19
  /-- DISCOFF (R46) -/
  discOff : BitVec 16
  /-- The five kind slots (R47) -/
  slots : PerKind KindSlot
  /-- The VALID bits (R67), which KVALID shows (R44) -/
  valid : PerKind Bool
  /-- The in-flight flag (R68) -/
  pending : Bool
  /-- Descriptor RAM, keyed by host byte address (R56) -/
  desc : Memory Word32
  /-- Result RAM, keyed by host byte address (R61) -/
  res : Memory Word32
  /-- Frame buffer, keyed by buffer index (R66) -/
  buf : List Host.Cell
  /-- MODEL: the host agent (log 2) -/
  host : HostAgent
  /-- MODEL: host steps that still come before the engine's step (log 3) -/
  latency : Nat
  /-- MODEL: the latencies of the commands still to be issued (log 3) -/
  latencies : List Nat
  /-- MODEL: the counter the free values of host reads are applied to (log 5, log 6) -/
  draws : Nat
deriving DecidableEq, Repr

/-- What every step and every meaning answers. -/
abbrev Outcome := Host.Outcome State Fault Refusal

/-- Every slot register resets to 0 (10_state.md R72). -/
def KindSlot.reset : KindSlot :=
  { kcfg := 0, kdisc := 0, klenOff := 0, kpayMin := 0, kpayMax := 0, kcsStart := 0, kndesc := 0,
    kpoly := 0, kinit := 0, kxorOut := 0 }

/-- The machine right after reset (10_state.md R72, R73; 70_reset_and_hazards.md R330), as the default instance, with
an empty host script. -/
def State.reset : State :=
  { params := Params.default
    cmd := 0
    status := { done := false, busy := false, errv := false, matched := false, snapValid := false }
    err := { code := .ok, fidx := 0, kind := 0 }
    frameLen := 0
    arg0 := 0
    arg1 := 0
    exp := 0
    csum := 0
    csrx := 0
    kindOut := 0
    payLen := 0
    hdrCfg := 0
    discOff := 0
    slots := { settings := .reset, sensorValues := .reset, strings := .reset, ambientColor := .reset, soundData := .reset }
    valid := { settings := false, sensorValues := false, strings := false, ambientColor := false, soundData := false }
    pending := false
    desc := []
    res := []
    buf := []
    host := { script := [], pos := 0, vars := [], failedExpects := 0 }
    latency := 0
    latencies := []
    draws := 0 }

end Sys2Proof.Machine
end

