-- ==== Sys2Proof/Machine/Flags.lean ====
section
/-! DEFINITION. The flags: what issue and completion make of STATUS (40_command.md R160, R162), and the words the host
reads from STATUS and ERR (10_state.md R33, R34). -/

namespace Sys2Proof.Machine

/-- The number of a result code (60_exceptions.md R301). -/
def ResultCode.number : ResultCode → Nat
  | .ok => 0
  | .tooShort => 1
  | .unknownFrameType => 2
  | .lengthMismatch => 3
  | .checksumMismatch => 4
  | .fieldOutOfRange => 5
  | .configError => 6
  | .illegalCommand => 7
  | .operandError => 8

/-- STATUS as issue leaves it (40_command.md R160). -/
def Status.issued : Status :=
  { done := false, busy := true, errv := false, matched := false, snapValid := false }

/-- STATUS as `Finish(code, fidx, kind, match, snap)` leaves it (40_command.md R162). -/
def Status.completed (code : ResultCode) (matched snap : Bool) : Status :=
  { done := true, busy := false, errv := decide (code ≠ .ok), matched := matched, snapValid := snap }

/-- STATUS as a word: bits [31:5] are reserved and read as 0 (10_state.md R33). -/
def Status.word (s : Status) : Word32 :=
  BitVec.ofNat 32 (s.done.toNat + 2 * s.busy.toNat + 4 * s.errv.toNat + 8 * s.matched.toNat + 16 * s.snapValid.toNat)

/-- ERR as a word: bits [31:19] are reserved and read as 0 (10_state.md R34). -/
def Err.word (e : Err) : Word32 :=
  BitVec.ofNat 32 (e.code.number + 0x100 * e.fidx.toNat + 0x10000 * e.kind.toNat)

end Sys2Proof.Machine
end

