-- ==== Sys2Proof/Machine/Ops.lean ====
section
/-! DEFINITION. The named operations over memories, kind slots and the frame buffer, the life cycle of a command
(issue, completion, `raise`), and reset. CFE has no exceptions (60_exceptions.md R300): its one way to report an error
is `State.raise`, and there is nothing to return from. -/

namespace Sys2Proof.Machine

/-! ## Memories -/

/-- What a memory holds at a key: none where nothing has been written since reset (10_state.md R69). -/
def Memory.read {α : Type} : Memory α → Nat → Option α
  | [], _ => none
  | (b, v) :: m, a => if a = b then some v else Memory.read m a

/-- The memory with `v` written at `a`; it keeps the keys strictly rising. -/
def Memory.write {α : Type} : Memory α → Nat → α → Memory α
  | [], a, v => [(a, v)]
  | (b, w) :: m, a, v =>
    if a < b then (a, v) :: (b, w) :: m
    else if a = b then (a, v) :: m
    else (b, w) :: Memory.write m a v

/-- The `n` values at `a`, `a + stride`, ...: none if one of them is not written. -/
def Memory.readSeq {α : Type} (m : Memory α) (stride : Nat) : Nat → Nat → Option (List α)
  | _, 0 => some []
  | a, n + 1 =>
    match m.read a with
    | none => none
    | some v => (Memory.readSeq m stride (a + stride) n).map (v :: ·)

/-- The memory with `vs` written at `a`, `a + stride`, .... -/
def Memory.writeSeq {α : Type} (stride : Nat) : Memory α → Nat → List α → Memory α
  | m, _, [] => m
  | m, a, v :: vs => Memory.writeSeq stride (m.write a v) (a + stride) vs

/-! ## One value per kind -/

/-- `K[k]`, or `VALID[k]` (00_scope.md R11). -/
def PerKind.get {α : Type} (p : PerKind α) : Kind → α
  | .settings => p.settings
  | .sensorValues => p.sensorValues
  | .strings => p.strings
  | .ambientColor => p.ambientColor
  | .soundData => p.soundData

/-- The value of kind `k` replaced. -/
def PerKind.set {α : Type} (p : PerKind α) (k : Kind) (v : α) : PerKind α :=
  match k with
  | .settings => { p with settings := v }
  | .sensorValues => { p with sensorValues := v }
  | .strings => { p with strings := v }
  | .ambientColor => { p with ambientColor := v }
  | .soundData => { p with soundData := v }

/-- The register group of kind slot `k` (10_state.md R47). -/
def State.slot (s : State) (k : Kind) : KindSlot := s.slots.get k

/-- VALID[k] (10_state.md R67). -/
def State.isValid (s : State) (k : Kind) : Bool := s.valid.get k

/-- `VALID[k] <- v`. -/
def State.setValid (s : State) (k : Kind) (v : Bool) : State := { s with valid := s.valid.set k v }

/-- Every VALID bit 0 (10_state.md R67, R72). -/
def allInvalid : PerKind Bool :=
  { settings := false, sensorValues := false, strings := false, ambientColor := false, soundData := false }

/-- Every VALID bit cleared (10_state.md R67). -/
def State.clearAllValid (s : State) : State := { s with valid := allInvalid }

/-! ## The life cycle of a command -/

/-- `Finish(code, fidx, kind, match, snap)` and the clearing of `pending` (40_command.md R161, R162). -/
def State.complete (s : State) (code : ResultCode) (fidx : BitVec 8) (kind : BitVec 3) (matched snap : Bool) : State :=
  { s with
    err := { code := code, fidx := fidx, kind := kind }
    status := Status.completed code matched snap
    pending := false }

/-- `raise E(fidx)`: `Finish(E, fidx, kind, 0, 0)` (00_scope.md R13; 40_command.md R162). -/
def State.raise (s : State) (code : ResultCode) (fidx : BitVec 8) (kind : BitVec 3) : State :=
  s.complete code fidx kind false false

/-- `finish OK(fidx, match, snap)`: `Finish(0, fidx, kind, match, snap)` (40_command.md R162). -/
def State.finish (s : State) (fidx : BitVec 8) (kind : BitVec 3) (matched snap : Bool) : State :=
  s.complete .ok fidx kind matched snap

/-- What a command answers when a part of it ended early. -/
def State.stop (s : State) (kind : BitVec 3) : Stop → Outcome
  | .fault f => .fault f
  | .raise code fidx => .next (s.raise code fidx kind)

/-- `if not p: raise E(fidx)`. -/
def require (p : Bool) (code : ResultCode) (fidx : BitVec 8) : Except Stop Unit :=
  if p then .ok () else .error (.raise code fidx)

/-- A host write of `w` to CMD while BUSY = 0 (40_command.md R160). The latency and the counter are the model's own
(log 3, log 5). -/
def State.issue (s : State) (w : Word32) : State :=
  { s with
    cmd := w
    status := Status.issued
    pending := true
    latency := s.latencies.headD 0
    latencies := s.latencies.tail
    draws := s.draws + 1 }

/-- Reset asserted in state `s` (70_reset_and_hazards.md R330, R331): every register, VALID bit and RAM of the block as
after reset, a pending command discarded. The parameters, the host's script and the latencies are not the block's
(log 17). -/
def State.resetBlock (s : State) : State :=
  { State.reset with params := s.params, host := s.host, latencies := s.latencies, draws := s.draws + 1 }

/-! ## The frame buffer -/

/-- `MemRead(a, n)` (00_scope.md R12): not defined beyond BUF_SIZE, and a read of an unwritten byte has no outcome
(40_command.md R166). -/
def State.memRead (s : State) (a n : Nat) : Except Stop (List Byte) :=
  if a + n ≤ s.params.bufSize then
    match Memory.readSeq s.buf 1 a n with
    | none => .error (.fault .unwrittenBuffer)
    | some bs => .ok bs
  else .error (.fault .outsideBuffer)

/-- `MemWrite(a, n, bytes)` with n the number of the bytes (00_scope.md R12). -/
def State.memWrite (s : State) (a : Nat) (bytes : List Byte) : Except Stop State :=
  if a + bytes.length ≤ s.params.bufSize then .ok { s with buf := Memory.writeSeq 1 s.buf a bytes }
  else .error (.fault .outsideBuffer)

/-! ## Descriptor and result RAM -/

/-- The host byte address of word j of descriptor i of a kind (10_state.md R56). -/
def descAddr (k : Kind) (i j : Nat) : Nat := 0x2000 + 0x400 * k.index + 0x20 * i + 4 * j

/-- The host byte address of word j of result entry i (10_state.md R61). -/
def resAddr (i j : Nat) : Nat := 0x4000 + 0x20 * i + 4 * j

/-- An engine read of word j of descriptor i of kind k (40_command.md R166). -/
def State.descWord (s : State) (k : Kind) (i j : Nat) : Except Stop Word32 :=
  match Memory.read s.desc (descAddr k i j) with
  | none => .error (.fault .unwrittenDescriptor)
  | some w => .ok w

/-- An engine read of n words of result entry i, from word j on (40_command.md R166). -/
def State.resWords (s : State) (i j n : Nat) : Except Stop (List Word32) :=
  match Memory.readSeq s.res 4 (resAddr i j) n with
  | none => .error (.fault .unwrittenResult)
  | some ws => .ok ws

/-- An engine write of words of result entry i, from word j on. -/
def State.setResWords (s : State) (i j : Nat) (ws : List Word32) : State :=
  { s with res := Memory.writeSeq 4 s.res (resAddr i j) ws }

/-! ## Constant and derived registers -/

/-- CAP (10_state.md R43): BUFSZ, NDESC, and NKINDS = 5. -/
def State.capWord (s : State) : Word32 :=
  BitVec.ofNat 32 (s.params.bufSize + 0x10000 * s.params.nDesc + 0x1000000 * 5)

/-- KVALID (10_state.md R44). -/
def State.kvalidWord (s : State) : Word32 :=
  BitVec.ofNat 32 (s.valid.settings.toNat + 2 * s.valid.sensorValues.toNat + 4 * s.valid.strings.toNat
    + 8 * s.valid.ambientColor.toNat + 16 * s.valid.soundData.toNat)

end Sys2Proof.Machine
end

