-- ==== Sys2Proof/Machine/Command.lean ====
section
/-! DEFINITION. NOP, and what an illegal word does (40_command.md R161, R167). -/

namespace Sys2Proof.Machine

/-- NOP (40_command.md R167). -/
def execNop (s : State) : Outcome := .next (s.finish 0 0 false false)

/-- A pending word that is not legal completes with ILLEGAL_COMMAND, FIDX 0 and KIND = w[10:8], and does nothing else
(60_exceptions.md R308). -/
def illegalCommand (s : State) : Outcome := .next (s.raise .illegalCommand 0 (selOf s.cmd))

end Sys2Proof.Machine
end

