-- ==== Sys2Proof/Machine/Operands.lean ====
section
/-! DEFINITION. The operand forms: width codes, byte order, two's complement, the fields of HDRCFG and KCFG, checksum
profiles, descriptors and their ranges, and values in the result table. -/

namespace Sys2Proof.Machine

/-! ## Numbers (00_scope.md R10) -/

/-- `sint_n(p)`: an n-bit pattern read as two's complement. -/
def sint (n p : Nat) : Int := if 2 ^ (n - 1) ≤ p then (p : Int) - 2 ^ n else p

/-- The n-bit pattern of an integer, its value mod 2^n: `zext_n` and `sext_n` of a value in their range. -/
def pattern (n : Nat) (r : Int) : Nat := (r % 2 ^ n).toNat

/-- The number a list of 32-bit words holds, the first word lowest (10_state.md R61). -/
def wordsToNat : List Word32 → Nat
  | [] => 0
  | w :: ws => w.toNat + 2 ^ 32 * wordsToNat ws

/-- The n 32-bit words of a number, the lowest first. -/
def natToWords : Nat → Nat → List Word32
  | 0, _ => []
  | n + 1, p => BitVec.ofNat 32 p :: natToWords n (p / 2 ^ 32)

/-- `bytes(c) = 2^c` (42_field.md R222). -/
def widthBytes (c : BitVec 2) : Nat := 2 ^ c.toNat

/-! ## Byte order (42_field.md R223, R224) -/

/-- An order bit: 0 is little-endian, 1 is big-endian (20_memory.md R103). -/
inductive ByteOrder where
  | little
  | big
deriving DecidableEq, Repr

/-- The order an order bit names. -/
def ByteOrder.ofBit (b : Bool) : ByteOrder := if b then .big else .little

/-- The number of a list of bytes, the first byte the least significant. -/
def leToNat : List Byte → Nat
  | [] => 0
  | b :: bs => b.toNat + 2 ^ 8 * leToNat bs

/-- The w low bytes of a number, the least significant first. -/
def natToLe : Nat → Nat → List Byte
  | 0, _ => []
  | w + 1, u => BitVec.ofNat 8 u :: natToLe w (u / 2 ^ 8)

/-- The number of bytes in rising addresses, in a byte order. -/
def bytesToNat (ord : ByteOrder) (bs : List Byte) : Nat :=
  match ord with
  | .little => leToNat bs
  | .big => leToNat bs.reverse

/-- The w bytes of a number in rising addresses, in a byte order. -/
def natToBytes (ord : ByteOrder) (w u : Nat) : List Byte :=
  match ord with
  | .little => natToLe w u
  | .big => (natToLe w u).reverse

/-- `ReadUInt(a, w, ord)` (42_field.md R223). -/
def State.readUInt (s : State) (a w : Nat) (ord : ByteOrder) : Except Stop Nat :=
  (s.memRead a w).map (bytesToNat ord)

/-- `WriteUInt(a, w, ord, u)` (42_field.md R224). -/
def State.writeUInt (s : State) (a w : Nat) (ord : ByteOrder) (u : Nat) : Except Stop State :=
  s.memWrite a (natToBytes ord w u)

/-! ## The header registers (10_state.md R45, R46) -/

/-- HDRCFG.HDRLEN -/
def State.hdrLen (s : State) : Nat := (s.hdrCfg.extractLsb' 0 16).toNat
/-- HDRCFG.DISCW, a width code -/
def State.discW (s : State) : BitVec 2 := s.hdrCfg.extractLsb' 16 2
/-- HDRCFG.DISCORD -/
def State.discOrd (s : State) : ByteOrder := .ofBit (s.hdrCfg.getLsbD 18)

/-! ## The fields of KCFG (10_state.md R48) -/

/-- KCFG.EN -/
def KindSlot.en (q : KindSlot) : Bool := q.kcfg.getLsbD 0
/-- KCFG.LENMODE: true for a length-prefixed kind -/
def KindSlot.lenMode (q : KindSlot) : Bool := q.kcfg.getLsbD 1
/-- KCFG.LENW as a number of bytes -/
def KindSlot.lenBytes (q : KindSlot) : Nat := widthBytes (q.kcfg.extractLsb' 2 2)
/-- KCFG.LENORD -/
def KindSlot.lenOrd (q : KindSlot) : ByteOrder := .ofBit (q.kcfg.getLsbD 4)

/-- KCFG.ALG (41_checksum.md R180): 3 is illegal. -/
inductive Alg where
  | sum
  | xor
  | crc
  | illegal
deriving DecidableEq, Repr

/-- The algorithm a value of KCFG.ALG names. -/
def Alg.ofBits (b : BitVec 2) : Alg :=
  if b = 0 then .sum else if b = 1 then .xor else if b = 2 then .crc else .illegal

/-- KCFG.SUMFIN (41_checksum.md R180): 3 is illegal. -/
inductive SumFin where
  | none
  | ones
  | twos
  | illegal
deriving DecidableEq, Repr

/-- The finish a value of KCFG.SUMFIN names. -/
def SumFin.ofBits (b : BitVec 2) : SumFin :=
  if b = 0 then .none else if b = 1 then .ones else if b = 2 then .twos else .illegal

/-- A checksum profile (41_checksum.md R180). -/
structure Profile where
  /-- CSW, in bytes -/
  csw : Nat
  csOrd : ByteOrder
  alg : Alg
  refIn : Bool
  refOut : Bool
  sumFin : SumFin
  poly : Nat
  init : Nat
  xorOut : Nat
deriving DecidableEq, Repr

/-- W = 8 * CSW, the checksum width in bits (41_checksum.md R180). -/
def Profile.w (p : Profile) : Nat := 8 * p.csw

/-- `Profile(k)`, read from the slot's registers (41_checksum.md R180). -/
def KindSlot.profile (q : KindSlot) : Profile :=
  { csw := widthBytes (q.kcfg.extractLsb' 6 2)
    csOrd := .ofBit (q.kcfg.getLsbD 8)
    alg := .ofBits (q.kcfg.extractLsb' 9 2)
    refIn := q.kcfg.getLsbD 11
    refOut := q.kcfg.getLsbD 12
    sumFin := .ofBits (q.kcfg.extractLsb' 13 2)
    poly := q.kpoly.toNat
    init := q.kinit.toNat
    xorOut := q.kxorOut.toNat }

/-- `Profile(k)` (41_checksum.md R180). -/
def State.profile (s : State) (k : Kind) : Profile := (s.slot k).profile

/-! ## Descriptors (42_field.md R220) -/

/-- A decoded descriptor. -/
structure Desc where
  offset : Nat
  /-- The width in bytes. -/
  w : Nat
  ord : ByteOrder
  sgn : Bool
  rangeEn : Bool
  /-- UNIT, which nothing reads (42_field.md R235). -/
  unit : BitVec 8
  snum : Int
  sden : Nat
  min : Int
  max : Int
deriving DecidableEq, Repr

/-- MIN or MAX as the words {hi, lo} give it: sint_64 when SGN = 1, uint_64 when SGN = 0 (10_state.md R59). -/
def boundOf (sgn : Bool) (lo hi : Word32) : Int :=
  if sgn then sint 64 (wordsToNat [lo, hi]) else wordsToNat [lo, hi]

/-- The descriptor that the words D0, D1, D2, D4, D5, D6, D7 hold (42_field.md R220). -/
def Desc.ofWords (d0 d1 d2 d4 d5 d6 d7 : Word32) : Desc :=
  { offset := (d0.extractLsb' 0 16).toNat
    w := widthBytes (d0.extractLsb' 16 2)
    ord := .ofBit (d0.getLsbD 18)
    sgn := d0.getLsbD 19
    rangeEn := d0.getLsbD 20
    unit := d0.extractLsb' 24 8
    snum := sint 32 d1.toNat
    sden := d2.toNat
    min := boundOf (d0.getLsbD 19) d4 d5
    max := boundOf (d0.getLsbD 19) d6 d7 }

/-- `Desc(k, i)` (42_field.md R220): it reads every word of the descriptor but D3. -/
def State.readDesc (s : State) (k : Kind) (i : Nat) : Except Stop Desc := do
  let d0 ← s.descWord k i 0
  let d1 ← s.descWord k i 1
  let d2 ← s.descWord k i 2
  let d4 ← s.descWord k i 4
  let d5 ← s.descWord k i 5
  let d6 ← s.descWord k i 6
  let d7 ← s.descWord k i 7
  return Desc.ofWords d0 d1 d2 d4 d5 d6 d7

/-- The descriptors of a kind at the given indexes, in order. -/
def State.readDescs (s : State) (k : Kind) : List Nat → Except Stop (List Desc)
  | [] => .ok []
  | i :: is => do
    let d ← s.readDesc k i
    let ds ← State.readDescs s k is
    return d :: ds

/-- `Pos(k, i)`: the first byte of a field in the frame buffer (42_field.md R221). -/
def State.fieldPos (s : State) (d : Desc) : Nat := s.hdrLen + d.offset

/-! ## Raw integers, ranges and values (42_field.md R225 to R232) -/

/-- `Lo(d)` (42_field.md R226). -/
def Desc.lo (d : Desc) : Int := if d.sgn then -(2 ^ (8 * d.w - 1)) else 0

/-- `Hi(d)` (42_field.md R226). -/
def Desc.hi (d : Desc) : Int := if d.sgn then 2 ^ (8 * d.w - 1) - 1 else 2 ^ (8 * d.w) - 1

/-- `VLo(d)` (42_field.md R227). -/
def Desc.vlo (d : Desc) : Int := if d.rangeEn then d.min else d.lo

/-- `VHi(d)` (42_field.md R227). -/
def Desc.vhi (d : Desc) : Int := if d.rangeEn then d.max else d.hi

/-- `InRange(d, r)` (42_field.md R227). -/
def Desc.inRange (d : Desc) (r : Int) : Bool := decide (d.vlo ≤ r) && decide (r ≤ d.vhi)

/-- The raw integer of an unsigned reading of a field (42_field.md R225). -/
def Desc.rawOf (d : Desc) (u : Nat) : Int := if d.sgn then sint (8 * d.w) u else u

/-- `ReadRaw(a, d)` (42_field.md R225). -/
def State.readRaw (s : State) (a : Nat) (d : Desc) : Except Stop Int :=
  (s.readUInt a d.w d.ord).map d.rawOf

/-- `Pattern(d, r)`: the pattern written into the frame (42_field.md R225). -/
def Desc.pattern (d : Desc) (r : Int) : Nat := Machine.pattern (8 * d.w) r

/-- `Res[i].RAW <- Pattern64(d, r)` (42_field.md R229; 10_state.md R62): sext_64 or zext_64 of r is r mod 2^64. -/
def State.storeRaw (s : State) (i : Nat) (r : Int) : State :=
  s.setResWords i 0 (natToWords 2 (pattern 64 r))

/-- `StoreValue(i, r, d)` (42_field.md R229): RAW, VNUM = sext_128(r * SNUM) and VDEN = SDEN. -/
def State.storeValue (s : State) (i : Nat) (r : Int) (d : Desc) : State :=
  ((s.storeRaw i r).setResWords i 2 (natToWords 4 (pattern 128 (r * d.snum)))).setResWords i 6
    [BitVec.ofNat 32 d.sden]

/-- round_half_away(n / d) for d ≠ 0 (42_field.md R231): nearest integer, ties away from zero. -/
def roundHalfAway (n d : Int) : Int :=
  n.sign * d.sign * (((2 * n.natAbs + d.natAbs) / (2 * d.natAbs) : Nat) : Int)

/-- `InvScale(i, d)` (42_field.md R231). -/
def State.invScale (s : State) (i : Nat) (d : Desc) : Except Stop Int :=
  match s.resWords i 2 4, s.resWords i 6 1 with
  | .ok ns, .ok vs =>
    if wordsToNat vs = 0 then .error (.raise .operandError (BitVec.ofNat 8 i))
    else .ok (roundHalfAway (sint 128 (wordsToNat ns) * d.sden) (wordsToNat vs * d.snum))
  | .error e, _ => .error e
  | .ok _, .error e => .error e

end Sys2Proof.Machine
end

