-- ==== Sys2Proof/Machine/Field.lean ====
section
/-! DEFINITION. The field commands (42_field.md R233, R234). -/

namespace Sys2Proof.Machine

/-- The checks both field commands make first, and the descriptor they act on (42_field.md R233, R234). -/
def State.fieldChecks (s : State) (k : Kind) (idx : BitVec 8) : Except Stop Desc := do
  require (s.isValid k) .configError 0xFF
  require (decide (idx.toNat < (s.slot k).kndesc.toNat)) .operandError idx
  let d ← s.readDesc k idx.toNat
  require (decide (s.frameLen.toNat ≤ s.params.bufSize ∧ s.fieldPos d + d.w ≤ s.frameLen.toNat)) .operandError idx
  return d

/-- FIELD.EXTRACT's descriptor and raw integer (42_field.md R233). -/
def State.fieldExtracted (s : State) (k : Kind) (idx : BitVec 8) : Except Stop (Desc × Int) := do
  let d ← s.fieldChecks k idx
  let r ← s.readRaw (s.fieldPos d) d
  require (d.inRange r) .fieldOutOfRange idx
  return (d, r)

/-- FIELD.EXTRACT k, i (42_field.md R233). -/
def execFieldExtract (k : Kind) (idx : BitVec 8) (s : State) : Outcome :=
  match s.fieldExtracted k idx with
  | .error e => s.stop k.code e
  | .ok (d, r) => .next ((s.storeValue idx.toNat r d).finish idx k.code false false)

/-- The raw integer an encode input becomes, checked (42_field.md R231, R232). -/
def State.encodeRaw (s : State) (i : Nat) (d : Desc) : Except Stop Int := do
  let r ← s.invScale i d
  require (d.inRange r) .fieldOutOfRange (BitVec.ofNat 8 i)
  return r

/-- A raw integer written into the frame and into the result entry's RAW (42_field.md R234; 43_frame.md R269). -/
def State.putField (s : State) (i : Nat) (d : Desc) (r : Int) : Except Stop State := do
  let t ← s.writeUInt (s.fieldPos d) d.w d.ord (d.pattern r)
  return t.storeRaw i r

/-- The state FIELD.INSERT leaves but for its completion (42_field.md R234). -/
def State.fieldInserted (s : State) (k : Kind) (idx : BitVec 8) : Except Stop State := do
  let d ← s.fieldChecks k idx
  let r ← s.encodeRaw idx.toNat d
  s.putField idx.toNat d r

/-- FIELD.INSERT k, i (42_field.md R234). -/
def execFieldInsert (k : Kind) (idx : BitVec 8) (s : State) : Outcome :=
  match s.fieldInserted k idx with
  | .error e => s.stop k.code e
  | .ok t => .next (t.finish idx k.code false false)

end Sys2Proof.Machine
end

