-- ==== Sys2Proof/Machine/Checksum.lean ====
section
/-! DEFINITION. The checksum engine and its four commands (41_checksum.md). Checksums are natural numbers below 2^W, as
the spec writes them (00_scope.md R9), and become 64-bit words in CSUM and CSRX. -/

namespace Sys2Proof.Machine

/-- `ProfileLegal(k)` (41_checksum.md R182). -/
def Profile.legal (p : Profile) : Bool :=
  if p.alg = .illegal then false
  else if 2 ^ p.w ≤ p.init ∨ 2 ^ p.w ≤ p.xorOut then false
  else if p.alg = .xor ∧ p.csw ≠ 1 then false
  else if p.alg = .sum ∧ p.sumFin = .illegal then false
  else if p.alg = .crc ∧ ¬(0 < p.poly ∧ p.poly < 2 ^ p.w) then false
  else true

/-! ## The algorithms -/

/-- The accumulator of SUM after some bytes (41_checksum.md R184). -/
def sumAcc (w : Nat) : Nat → List Byte → Nat
  | acc, [] => acc
  | acc, b :: bs => sumAcc w ((acc + b.toNat) % 2 ^ w) bs

/-- The finishing step of SUM (41_checksum.md R184). A legal profile never has the illegal one. -/
def sumFinish (fin : SumFin) (w acc : Nat) : Nat :=
  match fin with
  | .none => acc
  | .ones => acc ^^^ (2 ^ w - 1)
  | .twos => (2 ^ w - acc) % 2 ^ w
  | .illegal => acc

/-- `SumCsum(P, bytes)` (41_checksum.md R184). -/
def sumCsum (p : Profile) (bytes : List Byte) : Nat :=
  sumFinish p.sumFin p.w (sumAcc p.w p.init bytes) ^^^ p.xorOut

/-- The accumulator of XOR after some bytes (41_checksum.md R185). -/
def xorAcc : Nat → List Byte → Nat
  | acc, [] => acc
  | acc, b :: bs => xorAcc (acc ^^^ b.toNat) bs

/-- `XorCsum(P, bytes)` (41_checksum.md R185). -/
def xorCsum (p : Profile) (bytes : List Byte) : Nat := xorAcc p.init bytes ^^^ p.xorOut

/-- `Reflect(v, n)`: the n low bits in reverse order (41_checksum.md R187). -/
def reflect : Nat → Nat → Nat
  | 0, _ => 0
  | n + 1, v => (v % 2) <<< n ||| reflect n (v / 2)

/-- One bit of the CRC register's loop (41_checksum.md R186). -/
def crcBit (w poly reg : Nat) : Nat :=
  if reg.testBit (w - 1) then ((reg <<< 1) ^^^ poly) % 2 ^ w else (reg <<< 1) % 2 ^ w

/-- n bits of the CRC register's loop (41_checksum.md R186). -/
def crcBits (w poly : Nat) : Nat → Nat → Nat
  | 0, reg => reg
  | n + 1, reg => crcBits w poly n (crcBit w poly reg)

/-- The byte as it enters the CRC register (41_checksum.md R186). -/
def crcInput (refIn : Bool) (b : Byte) : Nat := if refIn then reflect 8 b.toNat else b.toNat

/-- The CRC register after some bytes (41_checksum.md R186). -/
def crcReg (w poly : Nat) (refIn : Bool) : Nat → List Byte → Nat
  | reg, [] => reg
  | reg, b :: bs => crcReg w poly refIn (crcBits w poly 8 (reg ^^^ (crcInput refIn b <<< (w - 8)))) bs

/-- `CrcCsum(P, bytes)` (41_checksum.md R186). -/
def crcCsum (p : Profile) (bytes : List Byte) : Nat :=
  let reg := crcReg p.w p.poly p.refIn p.init bytes
  (if p.refOut then reflect p.w reg else reg) ^^^ p.xorOut

/-- The checksum of a list of bytes under a profile (41_checksum.md R183). No command computes one under an illegal
profile; the value there stands for nothing. -/
def Profile.csum (p : Profile) (bytes : List Byte) : Nat :=
  match p.alg with
  | .sum => sumCsum p bytes
  | .xor => xorCsum p bytes
  | .crc => crcCsum p bytes
  | .illegal => 0

/-- `Csum(k, a, n)` (41_checksum.md R183). -/
def State.csumOf (s : State) (k : Kind) (a n : Nat) : Except Stop Nat :=
  (s.memRead a n).map (s.profile k).csum

/-- The checks of CSUM.COMPUTE and CSUM.VERIFY, then their checksum (41_checksum.md R189, R190). -/
def State.rangeCsum (s : State) (k : Kind) : Except Stop Nat := do
  require (s.profile k).legal .configError 0xFF
  require (decide (s.arg0.toNat + s.arg1.toNat ≤ s.params.bufSize)) .operandError 0
  s.csumOf k s.arg0.toNat s.arg1.toNat

/-- The checks of TRAILER.VERIFY and TRAILER.APPEND (41_checksum.md R191, R192). -/
def State.trailerChecks (s : State) (k : Kind) : Except Stop Unit := do
  require (s.profile k).legal .configError 0xFF
  require (decide (s.frameLen.toNat ≤ s.params.bufSize ∧
    (s.slot k).kcsStart.toNat + (s.profile k).csw ≤ s.frameLen.toNat)) .operandError 0

/-- The checksum of a frame of kind k and total length t, over the range of 41_checksum.md R193. -/
def State.frameCsum (s : State) (k : Kind) (t : Nat) : Except Stop Nat :=
  s.csumOf k (s.slot k).kcsStart.toNat (t - (s.profile k).csw - (s.slot k).kcsStart.toNat)

/-- The trailer of a frame of kind k and total length t (41_checksum.md R193). -/
def State.frameTrailer (s : State) (k : Kind) (t : Nat) : Except Stop Nat :=
  s.readUInt (t - (s.profile k).csw) (s.profile k).csw (s.profile k).csOrd

/-- The frame's trailer overwritten with x (41_checksum.md R193). -/
def State.putTrailer (s : State) (k : Kind) (t x : Nat) : Except Stop State :=
  s.writeUInt (t - (s.profile k).csw) (s.profile k).csw (s.profile k).csOrd x

/-- `CSUM <- zext_64(x)` -/
def State.setCsum (s : State) (x : Nat) : State := { s with csum := BitVec.ofNat 64 x }

/-- `CSRX <- zext_64(x)` -/
def State.setCsrx (s : State) (x : Nat) : State := { s with csrx := BitVec.ofNat 64 x }

/-! ## The commands -/

/-- CSUM.COMPUTE k (41_checksum.md R189). -/
def execCsumCompute (k : Kind) (s : State) : Outcome :=
  match s.rangeCsum k with
  | .error e => s.stop k.code e
  | .ok x => .next ((s.setCsum x).finish 0 k.code false false)

/-- CSUM.VERIFY k (41_checksum.md R190). -/
def execCsumVerify (k : Kind) (s : State) : Outcome :=
  match s.rangeCsum k with
  | .error e => s.stop k.code e
  | .ok x => .next ((s.setCsum x).finish 0 k.code (decide (BitVec.ofNat 64 x = s.exp)) false)

/-- The two values TRAILER.VERIFY compares (41_checksum.md R191). -/
def State.trailerValues (s : State) (k : Kind) : Except Stop (Nat × Nat) := do
  s.trailerChecks k
  let x ← s.frameCsum k s.frameLen.toNat
  let rx ← s.frameTrailer k s.frameLen.toNat
  return (x, rx)

/-- TRAILER.VERIFY k (41_checksum.md R191). -/
def execTrailerVerify (k : Kind) (s : State) : Outcome :=
  match s.trailerValues k with
  | .error e => s.stop k.code e
  | .ok (x, rx) => .next (((s.setCsum x).setCsrx rx).finish 0 k.code (decide (x = rx)) false)

/-- The state TRAILER.APPEND leaves but for its completion (41_checksum.md R192). -/
def State.trailerAppended (s : State) (k : Kind) : Except Stop State := do
  s.trailerChecks k
  let x ← s.frameCsum k s.frameLen.toNat
  let t ← s.putTrailer k s.frameLen.toNat x
  return t.setCsum x

/-- TRAILER.APPEND k (41_checksum.md R192). -/
def execTrailerAppend (k : Kind) (s : State) : Outcome :=
  match s.trailerAppended k with
  | .error e => s.stop k.code e
  | .ok t => .next (t.finish 0 k.code false false)

end Sys2Proof.Machine
end

