-- ==== Sys2Proof/Machine/Schema.lean ====
section
/-! DEFINITION. Schema validation (43_frame.md R263 to R265). -/

namespace Sys2Proof.Machine

/-- The ranges [a, a + n) and [b, b + m) have no byte in common. -/
def disjointRanges (a n b m : Nat) : Bool := decide (a + n ≤ b) || decide (b + m ≤ a)

/-- Condition 14 of 43_frame.md R263 for one other kind: not both enabled and with kind k's discriminator. -/
def State.noClash (s : State) (k j : Kind) : Bool :=
  decide (j = k) || !(s.slot j).en || decide ((s.slot j).kdisc ≠ (s.slot k).kdisc)

/-- `KindChecksOK(k)`: the fourteen conditions of 43_frame.md R263, in its order. -/
def State.kindChecksOk (s : State) (k : Kind) : Bool :=
  let q := s.slot k
  let dw := widthBytes s.discW
  let c := (s.profile k).csw
  q.en
  && (s.profile k).legal
  && decide (s.discW ≠ 3)
  && decide (s.discOff.toNat + dw ≤ s.hdrLen)
  && decide (q.kdisc.toNat < 2 ^ (8 * dw))
  && (!q.lenMode || decide (q.klenOff.toNat + q.lenBytes ≤ s.hdrLen))
  && (!q.lenMode || disjointRanges q.klenOff.toNat q.lenBytes s.discOff.toNat dw)
  && (!q.lenMode || decide (q.kpayMin.toNat ≤ q.kpayMax.toNat))
  && (!q.lenMode || decide (q.kpayMax.toNat < 2 ^ (8 * q.lenBytes)))
  && (q.lenMode || decide (q.kpayMin = q.kpayMax))
  && decide (s.hdrLen + q.kpayMax.toNat + c ≤ s.params.bufSize)
  && decide (q.kcsStart.toNat ≤ s.hdrLen)
  && decide (q.kndesc.toNat ≤ s.params.nDesc)
  && Kind.all.all (s.noClash k)

/-- The four conditions of 43_frame.md R264 on a descriptor, given the descriptors of lower index. -/
def descOk (payMin : Nat) (lower : List Desc) (d : Desc) : Bool :=
  decide (d.sden ≠ 0) && decide (d.snum ≠ 0)
  && decide (d.offset + d.w ≤ payMin)
  && (!d.rangeEn || (decide (d.lo ≤ d.min) && decide (d.min ≤ d.max) && decide (d.max ≤ d.hi)))
  && lower.all fun e => disjointRanges d.offset d.w e.offset e.w

/-- The index of the first descriptor of the list that fails, the list starting at index i. -/
def descFailFrom (payMin : Nat) (lower : List Desc) (i : Nat) : List Desc → Option Nat
  | [] => none
  | d :: ds => if descOk payMin lower d then descFailFrom payMin (lower ++ [d]) (i + 1) ds else some i

/-- The indexes 0 .. KNDESC-1 of a kind's descriptors. -/
def State.descIndexes (s : State) (k : Kind) : List Nat := List.range (s.slot k).kndesc.toNat

/-- `DescFail(k)` (43_frame.md R264). It reads every descriptor before it judges any (log 21). -/
def State.descFail (s : State) (k : Kind) : Except Stop (Option Nat) :=
  (s.readDescs k (s.descIndexes k)).map (descFailFrom (s.slot k).kpayMin.toNat [] 0)

/-- SCHEMA.CHECK k (43_frame.md R265). -/
def execSchemaCheck (k : Kind) (s : State) : Outcome :=
  if s.kindChecksOk k then
    match s.descFail k with
    | .error e => s.stop k.code e
    | .ok (some i) => .next ((s.setValid k false).raise .configError (BitVec.ofNat 8 i) k.code)
    | .ok none => .next ((s.setValid k true).finish 0 k.code false false)
  else .next ((s.setValid k false).raise .configError 0xFF k.code)

end Sys2Proof.Machine
end

