-- ==== Sys2Proof/Machine/Frame.lean ====
section
/-! DEFINITION. The frame decoder and the frame encoder (43_frame.md R266 to R270). -/

namespace Sys2Proof.Machine

/-- The bytes of the discriminator (43_frame.md R261). -/
def State.discBytes (s : State) : Nat := widthBytes s.discW

/-- `Disc()` (43_frame.md R261). -/
def State.disc (s : State) : Except Stop Nat := s.readUInt s.discOff.toNat s.discBytes s.discOrd

/-- The kind is enabled and has this discriminator. -/
def State.carries (s : State) (d : Nat) (j : Kind) : Bool := (s.slot j).en && decide ((s.slot j).kdisc.toNat = d)

/-- `Resolve(s, d)` (43_frame.md R268). When every enabled kind is valid at most one carries d; the lowest is named
elsewhere (log 11). -/
def State.resolve (s : State) (sel : DecodeSel) (d : Nat) : Option Kind :=
  match sel with
  | .kind k => if (s.slot k).kdisc.toNat = d then some k else none
  | .any => Kind.all.find? (s.carries d)

/-- FRAME.DECODE's configuration check (43_frame.md R266). -/
def State.decodeConfigOk (s : State) (sel : DecodeSel) : Bool :=
  match sel with
  | .kind k => s.isValid k
  | .any => (Kind.all.any fun j => (s.slot j).en) && Kind.all.all fun j => !(s.slot j).en || s.isValid j

/-- FRAME.DECODE up to the resolved kind: the configuration and operand checks, and steps 1 and 2 (43_frame.md R266). -/
def State.decodeKindOf (s : State) (sel : DecodeSel) : Except Stop Kind := do
  require (s.decodeConfigOk sel) .configError 0xFF
  require (decide (s.frameLen.toNat ≤ s.params.bufSize)) .operandError 0
  require (decide (s.hdrLen ≤ s.frameLen.toNat)) .tooShort 0
  let d ← s.disc
  match s.resolve sel d with
  | none => .error (.raise .unknownFrameType 0)
  | some k => .ok k

/-- The payload length is in [KPAYMIN, KPAYMAX]. -/
def KindSlot.payloadOk (q : KindSlot) (p : Nat) : Bool := decide (q.kpayMin.toNat ≤ p) && decide (p ≤ q.kpayMax.toNat)

/-- The length field (43_frame.md R262). -/
def State.lengthField (s : State) (k : Kind) : Except Stop Nat :=
  s.readUInt (s.slot k).klenOff.toNat (s.slot k).lenBytes (s.slot k).lenOrd

/-- `T = HDRLEN + p + CSW` (43_frame.md R260). -/
def State.totalLength (s : State) (k : Kind) (p : Nat) : Nat := s.hdrLen + p + (s.profile k).csw

/-- FRAME.DECODE's step 3: the payload length, checked (43_frame.md R266). -/
def State.decodePayload (s : State) (k : Kind) : Except Stop Nat := do
  if (s.slot k).lenMode then
    let p ← s.lengthField k
    require ((s.slot k).payloadOk p) .lengthMismatch 0
    require (decide (s.frameLen.toNat = s.totalLength k p)) .lengthMismatch 0
    return p
  else
    let p := (s.slot k).kpayMin.toNat
    require (decide (s.frameLen.toNat = s.totalLength k p)) .lengthMismatch 0
    return p

/-- FRAME.DECODE's step 4: the computed checksum and the trailer (43_frame.md R266). -/
def State.decodeChecksums (s : State) (k : Kind) (t : Nat) : Except Stop (Nat × Nat) := do
  let x ← s.frameCsum k t
  let rx ← s.frameTrailer k t
  return (x, rx)

/-- FRAME.DECODE's step 5: the descriptors at the given indexes with their raw integers, each checked
(43_frame.md R266). -/
def State.decodeFields (s : State) (k : Kind) : List Nat → Except Stop (List (Desc × Int))
  | [] => .ok []
  | i :: is => do
    let d ← s.readDesc k i
    let r ← s.readRaw (s.fieldPos d) d
    require (d.inRange r) .fieldOutOfRange (BitVec.ofNat 8 i)
    let rs ← State.decodeFields s k is
    return (d, r) :: rs

/-- FRAME.DECODE's step 6: the values stored from entry i on (43_frame.md R266, R267). -/
def State.storeValues (s : State) (i : Nat) : List (Desc × Int) → State
  | [] => s
  | (d, r) :: rs => State.storeValues (s.storeValue i r d) (i + 1) rs

/-- `KIND_OUT <- k; PAYLEN <- p` -/
def State.setSnapshot (s : State) (k : Kind) (p : Nat) : State :=
  { s with kindOut := k.code, payLen := BitVec.ofNat 16 p }

/-- FRAME.DECODE's steps 5 and 6, once the checksums agree (43_frame.md R266). -/
def State.decodeCommit (s : State) (k : Kind) (p : Nat) : Outcome :=
  match s.decodeFields k (s.descIndexes k) with
  | .error e => s.stop k.code e
  | .ok rs => .next (((s.storeValues 0 rs).setSnapshot k p).finish 0 k.code false true)

/-- FRAME.DECODE from step 4 on (43_frame.md R266): CSUM and CSRX are written before they are compared. -/
def State.decodeBody (s : State) (k : Kind) (p : Nat) : Outcome :=
  match s.decodeChecksums k (s.totalLength k p) with
  | .error e => s.stop k.code e
  | .ok (x, rx) =>
    let t := (s.setCsum x).setCsrx rx
    if x = rx then t.decodeCommit k p else .next (t.raise .checksumMismatch 0 k.code)

/-- FRAME.DECODE s (43_frame.md R266). From the resolved kind on, ERR.KIND is that kind (40_command.md R164). -/
def execFrameDecode (sel : DecodeSel) (s : State) : Outcome :=
  match s.decodeKindOf sel with
  | .error e => s.stop sel.code e
  | .ok k =>
    match s.decodePayload k with
    | .error e => s.stop k.code e
    | .ok p => s.decodeBody k p

/-! ## The encoder -/

/-- The payload length FRAME.ENCODE uses, checked (43_frame.md R262, R269). -/
def State.encodePayload (s : State) (k : Kind) : Except Stop Nat :=
  if (s.slot k).lenMode then
    if (s.slot k).payloadOk s.payLen.toNat then .ok s.payLen.toNat else .error (.raise .operandError 0xFF)
  else .ok (s.slot k).kpayMin.toNat

/-- The descriptors at the given indexes with the raw integers their values become, each checked before any write
(43_frame.md R269). -/
def State.encodeFields (s : State) (k : Kind) : List Nat → Except Stop (List (Desc × Int))
  | [] => .ok []
  | i :: is => do
    let d ← s.readDesc k i
    let r ← s.encodeRaw i d
    let rs ← State.encodeFields s k is
    return (d, r) :: rs

/-- The discriminator written (43_frame.md R269). -/
def State.putDisc (s : State) (k : Kind) : Except Stop State :=
  s.writeUInt s.discOff.toNat s.discBytes s.discOrd (s.slot k).kdisc.toNat

/-- The length field of a length-prefixed kind written (43_frame.md R269). -/
def State.putLength (s : State) (k : Kind) (p : Nat) : Except Stop State :=
  if (s.slot k).lenMode then s.writeUInt (s.slot k).klenOff.toNat (s.slot k).lenBytes (s.slot k).lenOrd p else .ok s

/-- The fields and their RAW words written, from entry i on (43_frame.md R269). -/
def State.putFields (s : State) (i : Nat) : List (Desc × Int) → Except Stop State
  | [] => .ok s
  | (d, r) :: rs => do
    let t ← s.putField i d r
    State.putFields t (i + 1) rs

/-- `CSUM <- zext_64(x); FRAMELEN <- T; PAYLEN <- p` -/
def State.setEncoded (s : State) (x t p : Nat) : State :=
  { s with csum := BitVec.ofNat 64 x, frameLen := BitVec.ofNat 16 t, payLen := BitVec.ofNat 16 p }

/-- FRAME.ENCODE's writes, in its order (43_frame.md R269): the checksum covers every other write. -/
def State.encodeWrites (s : State) (k : Kind) (p : Nat) (rs : List (Desc × Int)) : Except Stop State := do
  let s1 ← s.putDisc k
  let s2 ← s1.putLength k p
  let s3 ← s2.putFields 0 rs
  let x ← s3.frameCsum k (s.totalLength k p)
  let s4 ← s3.putTrailer k (s.totalLength k p) x
  return s4.setEncoded x (s.totalLength k p) p

/-- The state FRAME.ENCODE leaves but for its completion (43_frame.md R269). -/
def State.frameEncoded (s : State) (k : Kind) : Except Stop State := do
  require (s.isValid k) .configError 0xFF
  let p ← s.encodePayload k
  let rs ← s.encodeFields k (s.descIndexes k)
  s.encodeWrites k p rs

/-- FRAME.ENCODE k (43_frame.md R269). -/
def execFrameEncode (k : Kind) (s : State) : Outcome :=
  match s.frameEncoded k with
  | .error e => s.stop k.code e
  | .ok t => .next (t.finish 0 k.code false false)

end Sys2Proof.Machine
end

