-- ==== Sys2Proof/Machine/Dispatch.lean ====
section
/-! DEFINITION. What each command does: one arm per constructor of `Instr` (40_command.md R161). -/

namespace Sys2Proof.Machine

def exec (i : Instr) (s : State) : Host.Outcome State Fault Refusal :=
  match i with
  | .nop => Sys2Proof.Machine.execNop s
  | .csumCompute k => Sys2Proof.Machine.execCsumCompute k s
  | .csumVerify k => Sys2Proof.Machine.execCsumVerify k s
  | .trailerVerify k => Sys2Proof.Machine.execTrailerVerify k s
  | .trailerAppend k => Sys2Proof.Machine.execTrailerAppend k s
  | .fieldExtract k idx => Sys2Proof.Machine.execFieldExtract k idx s
  | .fieldInsert k idx => Sys2Proof.Machine.execFieldInsert k idx s
  | .schemaCheck k => Sys2Proof.Machine.execSchemaCheck k s
  | .frameDecode sel => Sys2Proof.Machine.execFrameDecode sel s
  | .frameEncode k => Sys2Proof.Machine.execFrameEncode k s

end Sys2Proof.Machine
end

