-- ==== Sys2Proof/Machine/HostAgent.lean ====
section
/-! DEFINITION. The host register space (20_memory.md R100 to R109; 10_state.md R31 to R66) and the host agent that
reaches it (30_encoding.md R139). -/

namespace Sys2Proof.Machine

/-! ## The address map (20_memory.md R108) -/

/-- The global registers (10_state.md §2). -/
inductive GlobalReg where
  | cmd | status | err | frameLen | arg0 | arg1 | expLo | expHi | csumLo | csumHi | csrxLo | csrxHi
  | kindOut | payLen | cap | kvalid | hdrCfg | discOff
deriving DecidableEq, Repr

/-- The registers of a kind slot (10_state.md §3). -/
inductive SlotReg where
  | kcfg | kdisc | klenOff | kpayMin | kpayMax | kcsStart | kndesc
  | kpolyLo | kpolyHi | kinitLo | kinitHi | kxorOutLo | kxorOutHi
deriving DecidableEq, Repr

/-- What a word address of the host register space names. -/
inductive Location where
  | global (r : GlobalReg)
  | slot (k : Kind) (r : SlotReg)
  /-- Word j of descriptor i of kind k, j ≠ 3. -/
  | desc (k : Kind) (i j : Nat)
  /-- Word j of result entry i, j ≠ 7. -/
  | res (i j : Nat)
  /-- The window word that shows the buffer bytes a .. a+3. -/
  | window (a : Nat)
  /-- Reserved: reads as 0, writes ignored (10_state.md R31, R55). -/
  | reserved
deriving DecidableEq, Repr

/-- The global register at a word offset (10_state.md §2). -/
def globalAt : Nat → Location
  | 0 => .global .cmd
  | 1 => .global .status
  | 2 => .global .err
  | 3 => .global .frameLen
  | 4 => .global .arg0
  | 5 => .global .arg1
  | 6 => .global .expLo
  | 7 => .global .expHi
  | 8 => .global .csumLo
  | 9 => .global .csumHi
  | 10 => .global .csrxLo
  | 11 => .global .csrxHi
  | 12 => .global .kindOut
  | 13 => .global .payLen
  | 14 => .global .cap
  | 15 => .global .kvalid
  | 16 => .global .hdrCfg
  | 17 => .global .discOff
  | _ => .reserved

/-- The slot register at a word offset of a slot (10_state.md R47). -/
def slotRegAt : Nat → Option SlotReg
  | 0 => some .kcfg
  | 1 => some .kdisc
  | 2 => some .klenOff
  | 3 => some .kpayMin
  | 4 => some .kpayMax
  | 5 => some .kcsStart
  | 6 => some .kndesc
  | 8 => some .kpolyLo
  | 9 => some .kpolyHi
  | 10 => some .kinitLo
  | 11 => some .kinitHi
  | 12 => some .kxorOutLo
  | 13 => some .kxorOutHi
  | _ => none

/-- The kind of a slot number (10_state.md R47). -/
def kindAt : Nat → Option Kind
  | 0 => some .settings
  | 1 => some .sensorValues
  | 2 => some .strings
  | 3 => some .ambientColor
  | 4 => some .soundData
  | _ => none

/-- The slot register at an offset from 0x100 (10_state.md R47, R55). -/
def slotAt (off : Nat) : Location :=
  match kindAt (off / 0x40), slotRegAt (off % 0x40 / 4) with
  | some k, some r => .slot k r
  | _, _ => .reserved

/-- The descriptor word at an offset from 0x2000 (10_state.md R56, R60). -/
def descAt (nDesc off : Nat) : Location :=
  let i := off % 0x400 / 0x20
  let j := off % 0x20 / 4
  match kindAt (off / 0x400) with
  | some k => if i < nDesc ∧ j ≠ 3 then .desc k i j else .reserved
  | none => .reserved

/-- The result word at an offset from 0x4000 (10_state.md R61). -/
def resAt (nDesc off : Nat) : Location :=
  let i := off / 0x20
  let j := off % 0x20 / 4
  if i < nDesc ∧ j ≠ 7 then .res i j else .reserved

/-- The address map (20_memory.md R108), for a multiple of 4. -/
def locate (p : Params) (a : Nat) : Location :=
  if a < 0x100 then globalAt (a / 4)
  else if a < 0x240 then slotAt (a - 0x100)
  else if a < 0x2000 then .reserved
  else if a < 0x3400 then descAt p.nDesc (a - 0x2000)
  else if a < 0x4000 then .reserved
  else if a < 0x8000 then resAt p.nDesc (a - 0x4000)
  else if a < 0x8000 + p.bufSize then .window (a - 0x8000)
  else .reserved

/-! ## Halves of register pairs -/

/-- The low word of a pair. -/
def loWord (v : Word64) : Word32 := v.extractLsb' 0 32
/-- The high word of a pair. -/
def hiWord (v : Word64) : Word32 := v.extractLsb' 32 32
/-- The pair with its low word written. -/
def setLo (v : Word64) (w : Word32) : Word64 := hiWord v ++ w
/-- The pair with its high word written. -/
def setHi (v : Word64) (w : Word32) : Word64 := w ++ loWord v

/-! ## Host reads -/

/-- A global register as the host reads it while no command is in flight (10_state.md §2). -/
def State.readGlobal (s : State) : GlobalReg → Word32
  | .cmd => s.cmd
  | .status => s.status.word
  | .err => s.err.word
  | .frameLen => s.frameLen.setWidth 32
  | .arg0 => s.arg0.setWidth 32
  | .arg1 => s.arg1.setWidth 32
  | .expLo => loWord s.exp
  | .expHi => hiWord s.exp
  | .csumLo => loWord s.csum
  | .csumHi => hiWord s.csum
  | .csrxLo => loWord s.csrx
  | .csrxHi => hiWord s.csrx
  | .kindOut => s.kindOut.setWidth 32
  | .payLen => s.payLen.setWidth 32
  | .cap => s.capWord
  | .kvalid => s.kvalidWord
  | .hdrCfg => s.hdrCfg.setWidth 32
  | .discOff => s.discOff.setWidth 32

/-- A slot register as the host reads it (10_state.md §3). -/
def KindSlot.readReg (q : KindSlot) : SlotReg → Word32
  | .kcfg => q.kcfg.setWidth 32
  | .kdisc => q.kdisc
  | .klenOff => q.klenOff.setWidth 32
  | .kpayMin => q.kpayMin.setWidth 32
  | .kpayMax => q.kpayMax.setWidth 32
  | .kcsStart => q.kcsStart.setWidth 32
  | .kndesc => q.kndesc.setWidth 32
  | .kpolyLo => loWord q.kpoly
  | .kpolyHi => hiWord q.kpoly
  | .kinitLo => loWord q.kinit
  | .kinitHi => hiWord q.kinit
  | .kxorOutLo => loWord q.kxorOut
  | .kxorOutHi => hiWord q.kxorOut

/-- A descriptor or result word as the host reads it: an unspecified value where nothing has been written since reset
(40_command.md R166; log 5). -/
def State.ramWord (s : State) (m : Memory Word32) (a : Nat) : Word32 :=
  match Memory.read m a with
  | some w => w
  | none => Config.unwrittenWord s.draws a

/-- A byte lane of the window: an unspecified byte where nothing has been written since reset (20_memory.md R102;
log 5). -/
def State.lane (s : State) (a : Nat) : Byte :=
  match Memory.read s.buf a with
  | some b => b
  | none => Config.unwrittenByte s.draws a

/-- The window word that shows buf[a .. a+3], little-endian by lane (20_memory.md R102). -/
def State.windowWord (s : State) (a : Nat) : Word32 :=
  s.lane (a + 3) ++ s.lane (a + 2) ++ s.lane (a + 1) ++ s.lane a

/-- What a host read of a location returns while no command is in flight. Reads have no side effect
(20_memory.md R107). -/
def State.readLocation (s : State) : Location → Word32
  | .global r => s.readGlobal r
  | .slot k r => (s.slot k).readReg r
  | .desc k i j => s.ramWord s.desc (descAddr k i j)
  | .res i j => s.ramWord s.res (resAddr i j)
  | .window a => s.windowWord a
  | .reserved => 0

/-- A host read while a command is in flight: STATUS and CMD are defined, any other address gives an unspecified value
(20_memory.md R109; log 6). -/
def State.readBusy (s : State) : Location → Word32 × State
  | .global .status => (s.status.word, s)
  | .global .cmd => (s.cmd, s)
  | _ => (Config.busyRead s.draws, { s with draws := s.draws + 1 })

/-- A host read of the word at an aligned address. -/
def State.readWord (s : State) (a : Nat) : Word32 × State :=
  if s.status.busy then s.readBusy (locate s.params a) else (s.readLocation (locate s.params a), s)

/-! ## Host writes -/

/-- The bits of KCFG that are not reserved (10_state.md R48). -/
def kcfgMask : BitVec 15 := 0x7FDF

/-- A slot register written by the host: a register holding fewer than 32 bits stores only those bits
(10_state.md R31, R48 to R54). -/
def KindSlot.writeReg (q : KindSlot) (r : SlotReg) (v : Word32) : KindSlot :=
  match r with
  | .kcfg => { q with kcfg := v.setWidth 15 &&& kcfgMask }
  | .kdisc => { q with kdisc := v }
  | .klenOff => { q with klenOff := v.setWidth 16 }
  | .kpayMin => { q with kpayMin := v.setWidth 16 }
  | .kpayMax => { q with kpayMax := v.setWidth 16 }
  | .kcsStart => { q with kcsStart := v.setWidth 16 }
  | .kndesc => { q with kndesc := v.setWidth 8 }
  | .kpolyLo => { q with kpoly := setLo q.kpoly v }
  | .kpolyHi => { q with kpoly := setHi q.kpoly v }
  | .kinitLo => { q with kinit := setLo q.kinit v }
  | .kinitHi => { q with kinit := setHi q.kinit v }
  | .kxorOutLo => { q with kxorOut := setLo q.kxorOut v }
  | .kxorOutHi => { q with kxorOut := setHi q.kxorOut v }

/-- A global register written by the host while no command is in flight: CMD issues (40_command.md R160), HDRCFG and
DISCOFF clear every VALID bit (10_state.md R45, R46), a read-only register ignores the write (R31). -/
def State.writeGlobal (s : State) (r : GlobalReg) (v : Word32) : State :=
  match r with
  | .cmd => s.issue v
  | .frameLen => { s with frameLen := v.setWidth 16 }
  | .arg0 => { s with arg0 := v.setWidth 16 }
  | .arg1 => { s with arg1 := v.setWidth 16 }
  | .expLo => { s with exp := setLo s.exp v }
  | .expHi => { s with exp := setHi s.exp v }
  | .payLen => { s with payLen := v.setWidth 16 }
  | .hdrCfg => { s with hdrCfg := v.setWidth 19 }.clearAllValid
  | .discOff => { s with discOff := v.setWidth 16 }.clearAllValid
  | .status => s
  | .err => s
  | .csumLo => s
  | .csumHi => s
  | .csrxLo => s
  | .csrxHi => s
  | .kindOut => s
  | .cap => s
  | .kvalid => s

/-- The four lanes of a window word, the lowest byte first (20_memory.md R102). -/
def laneBytes (v : Word32) : List Byte :=
  [v.extractLsb' 0 8, v.extractLsb' 8 8, v.extractLsb' 16 8, v.extractLsb' 24 8]

/-- A host write to a location while no command is in flight, with its effect on the VALID bits (10_state.md R67). -/
def State.writeLocation (s : State) (l : Location) (v : Word32) : State :=
  match l with
  | .global r => s.writeGlobal r v
  | .slot k r => { s with slots := s.slots.set k ((s.slot k).writeReg r v) }.clearAllValid
  | .desc k i j => { s with desc := Memory.write s.desc (descAddr k i j) v }.setValid k false
  | .res i j => { s with res := Memory.write s.res (resAddr i j) v }
  | .window a => { s with buf := Memory.writeSeq 1 s.buf a (laneBytes v) }
  | .reserved => s

/-- Why an access at an address is no part of the interface (20_memory.md R100, R101). -/
def accessRefusal (a : Word32) : Option Refusal :=
  if 0x10000 ≤ a.toNat then some .addressWidth
  else if a.toNat % 4 ≠ 0 then some .misaligned
  else none

/-- A host write of `v` at address `a`: a violation of the host protocol while BUSY = 1 (60_exceptions.md R316). -/
def State.hostWrite (s : State) (a v : Word32) : Outcome :=
  match accessRefusal a with
  | some r => .refused r
  | none =>
    if s.status.busy then .fault .hostWriteWhileBusy
    else .next (s.writeLocation (locate s.params a.toNat) v)

/-! ## Host scripts (30_encoding.md R139) -/

/-- `x mod y` on 32-bit values; 00_scope.md R9 defines it for y > 0 only, and the value for y = 0 is free (log 25). -/
def scriptMod (x y : Word32) : Word32 := if y = 0 then Config.modByZero x else x % y

/-- The value of a script variable: free where the script has not assigned it (log 25). -/
def scriptVar (vars : Memory Word32) (x : Nat) : Word32 :=
  match Memory.read vars x with
  | some v => v
  | none => Config.unassignedVariable x

/-- The value of a script expression, on 32-bit values (30_encoding.md R139; log 10). -/
def HostExpr.eval (vars : Memory Word32) : HostExpr → Word32
  | .lit v => v
  | .var x => scriptVar vars x
  | .or a b => a.eval vars ||| b.eval vars
  | .and a b => a.eval vars &&& b.eval vars
  | .xor a b => a.eval vars ^^^ b.eval vars
  | .shl a b => a.eval vars <<< (b.eval vars).toNat
  | .shr a b => a.eval vars >>> (b.eval vars).toNat
  | .add a b => a.eval vars + b.eval vars
  | .sub a b => a.eval vars - b.eval vars
  | .mul a b => a.eval vars * b.eval vars
  | .mod a b => scriptMod (a.eval vars) (b.eval vars)
  | .slice a hi lo => ((a.eval vars).extractLsb' lo (hi + 1 - lo)).setWidth 32

/-- The value of an expression with the variables the host has assigned so far. -/
def State.hostValue (s : State) (e : HostExpr) : Word32 := e.eval s.host.vars

/-- The script has no statement left. -/
def HostAgent.ended (h : HostAgent) : Bool := decide (h.script.length ≤ h.pos)

/-- The statement at the host's position. -/
def HostAgent.current (h : HostAgent) : Option HostStmt := h.script[h.pos]?

/-- The host at its next statement. -/
def HostAgent.advance (h : HostAgent) : HostAgent := { h with pos := h.pos + 1 }

/-- The host at a label, if the script holds it; the first of several of that number (log 10). -/
def HostAgent.jump (h : HostAgent) (n : Nat) : Option HostAgent :=
  (h.script.findIdx? (· = .label n)).map fun p => { h with pos := p }

/-- The state with its host agent at the next statement. -/
def State.hostAdvance (s : State) : State := { s with host := s.host.advance }

/-- A script variable assigned, and the host at its next statement. -/
def State.hostAssign (s : State) (x : Nat) (v : Word32) : State :=
  { s with host := { s.host.advance with vars := Memory.write s.host.vars x v } }

/-- A branch of the script, taken or not. -/
def State.hostBranch (s : State) (taken : Bool) (n : Nat) : Outcome :=
  if taken then
    match s.host.jump n with
    | some h => .next { s with host := h }
    | none => .refused .unknownLabel
  else .next s.hostAdvance

/-- A host read: the value goes into a script variable. -/
def State.hostReadInto (s : State) (a : Word32) (x : Nat) : Outcome :=
  match accessRefusal a with
  | some r => .refused r
  | none => .next ((s.readWord a.toNat).2.hostAssign x (s.readWord a.toNat).1)

/-- An assertion of the script: no bus effect; one that does not hold is counted (log 10). DESIGN CHOICE (log 26): it is
judged where it stands in the script, with the variables assigned so far. -/
def State.hostExpect (s : State) (holds : Bool) : State :=
  { s with host := { s.host.advance with failedExpects := s.host.failedExpects + (!holds).toNat } }

/-- What a statement of the host script does (30_encoding.md R139; when an EXPECT is judged is the model's choice, log 26). -/
def State.runStmt (s : State) : HostStmt → Outcome
  | .wr a v => s.hostAdvance.hostWrite (s.hostValue a) (s.hostValue v)
  | .rd a x => s.hostReadInto (s.hostValue a) x
  | .label _ => .next s.hostAdvance
  | .bz e n => s.hostBranch (decide (s.hostValue e = 0)) n
  | .bnz e n => s.hostBranch (decide (s.hostValue e ≠ 0)) n
  | .set x e => .next (s.hostAssign x (s.hostValue e))
  | .expect e v => .next (s.hostExpect (decide (s.hostValue e = s.hostValue v)))
  | .otherSize _ _ => .refused .accessSize
  | .reset => .next s.hostAdvance.resetBlock

/-- One of the host steps the engine lets pass while a command is pending (log 3). -/
def State.passLatency (s : State) : State := { s with latency := s.latency - s.pending.toNat }

/-- A step of the host agent. With no statement left it does nothing. -/
def hostStep (s : State) : Outcome :=
  match s.host.current with
  | none => .next s
  | some c => s.passLatency.runStmt c

/-- The engine's step is the next one: a command is pending, and the host steps it lets pass are over, or the host has
nothing left to do (70_reset_and_hazards.md R340, R341; log 3). -/
def State.engineTurn (s : State) : Bool := s.pending && (decide (s.latency = 0) || s.host.ended)

/-- `CMD m ...` (30_encoding.md R139). -/
def commandStmts (w : Word32) : List HostStmt := [.wr (.lit 0) (.lit w)]

/-- `WAIT`: the poll loop, with a label and a variable of its own (30_encoding.md R139). -/
def waitStmts (l x : Nat) : List HostStmt := [.label l, .rd (.lit 4) x, .bz (.and (.var x) (.lit 1)) l]

/-- `LOADB a: b0 b1 ...`: little-endian words, the last one padded with 0x00 (30_encoding.md R139). The first argument
bounds the number of words. -/
def loadBytes : Nat → Nat → List Byte → List HostStmt
  | 0, _, _ => []
  | _, _, [] => []
  | n + 1, a, bs =>
    .wr (.lit (BitVec.ofNat 32 (0x8000 + a))) (.lit (BitVec.ofNat 32 (leToNat (bs.take 4))))
      :: loadBytes n (a + 4) (bs.drop 4)

end Sys2Proof.Machine
end

