-- ==== Sys2Proof/Machine/Step.lean ====
section
/-! DEFINITION. One step of the machine: the engine runs the whole pending command atomically (40_command.md R161), or
the host makes its next access (10_state.md R30). -/

namespace Sys2Proof.Machine

/-- The engine's step: the pending command runs to its completion; a word that is no command completes with
ILLEGAL_COMMAND (40_command.md R161). -/
def engineStep (s : State) : Host.Outcome State Fault Refusal :=
  match decode s.params.nDesc s.cmd with
  | .ok i => exec i s
  | .error _ => illegalCommand s

/-- One step: of the engine where it is its turn, of the host otherwise (log 3). -/
def step (s : State) : Host.Outcome State Fault Refusal :=
  if s.engineTurn then engineStep s else hostStep s

/-- The state in which a command word of the table is the pending command (log 24): as a host write of it to CMD leaves
it (40_command.md R160), the engine's step being the very next one. -/
def State.withFetchWord (s : State) (nbits w : Nat) : State :=
  { s with
    cmd := BitVec.ofNat 32 (w % 2 ^ nbits)
    status := Status.issued
    pending := true
    latency := 0 }

end Sys2Proof.Machine
end

