-- ==== Sys2Proof/Safety.lean ====
section
/-! DEFINITION. The terms claims are stated in: what bytes and words a state holds, the invariant of the reachable
states, and what a step that does not stop is. -/

namespace Sys2Proof

/-- The result codes each command may end with (60_exceptions.md R301, R311). A word that is no command ends with
ILLEGAL_COMMAND instead. -/
def Instr.resultCodes : Instr → List Machine.ResultCode
  | .nop => [.ok]
  | .csumCompute _ => [.ok, .configError, .operandError]
  | .csumVerify _ => [.ok, .configError, .operandError]
  | .trailerVerify _ => [.ok, .configError, .operandError]
  | .trailerAppend _ => [.ok, .configError, .operandError]
  | .fieldExtract _ _ => [.ok, .configError, .operandError, .fieldOutOfRange]
  | .fieldInsert _ _ => [.ok, .configError, .operandError, .fieldOutOfRange]
  | .schemaCheck _ => [.ok, .configError]
  | .frameDecode _ =>
    [.ok, .configError, .operandError, .tooShort, .unknownFrameType, .lengthMismatch, .checksumMismatch, .fieldOutOfRange]
  | .frameEncode _ => [.ok, .configError, .operandError, .fieldOutOfRange]

end Sys2Proof

namespace Sys2Proof.Machine

/-- The buffer holds these bytes from index a on, every one written since reset. -/
def State.holdsBytes (s : State) (a : Nat) (bs : List Byte) : Prop :=
  ∀ j, (h : j < bs.length) → Memory.read s.buf (a + j) = some bs[j]

/-- Result entry i holds these words from word j on, every one written since reset. -/
def State.holdsResWords (s : State) (i j : Nat) (ws : List Word32) : Prop :=
  ∀ n, (h : n < ws.length) → Memory.read s.res (resAddr i (j + n)) = some ws[n]

/-- An outcome that does not stop the machine: what a safe step is. -/
def Outcome.goesOn (o : Outcome) : Prop := ∃ t, o = .next t

/-- It is the engine's turn (log 3): a command is pending, and no host step comes before it. -/
def State.atEngine (s : State) : Prop := s.pending = true ∧ (s.latency = 0 ∨ s.host.script.length ≤ s.host.pos)

/-- The ranges [a, a + n) and [b, b + m) have no byte in common (43_frame.md R263, R264). -/
def noCommonByte (a n b m : Nat) : Prop := ∀ x, ¬(a ≤ x ∧ x < a + n ∧ b ≤ x ∧ x < b + m)

/-- The conditions of 43_frame.md R264 on descriptor i of a list, as the rule words them. -/
def descPasses (payMin : Nat) (ds : List Desc) (i : Nat) : Prop :=
  ∃ d, ds[i]? = some d ∧ d.sden ≠ 0 ∧ d.snum ≠ 0 ∧ d.offset + d.w ≤ payMin
    ∧ (d.rangeEn = true → d.lo ≤ d.min ∧ d.min ≤ d.max ∧ d.max ≤ d.hi)
    ∧ ∀ j < i, ∀ e, ds[j]? = some e → noCommonByte d.offset d.w e.offset e.w

/-- The payload length FRAME.DECODE takes for kind k (43_frame.md R262). -/
def State.payloadIs (s : State) (k : Kind) (p : Nat) : Prop :=
  if (s.slot k).lenMode then
    s.lengthField k = .ok p ∧ (s.slot k).kpayMin.toNat ≤ p ∧ p ≤ (s.slot k).kpayMax.toNat
  else p = (s.slot k).kpayMin.toNat

/-- FRAME.DECODE's configuration check passes (43_frame.md R266). -/
def State.configServes (s : State) (sel : DecodeSel) : Prop :=
  match sel with
  | .kind k => s.isValid k = true
  | .any => (∃ j, (s.slot j).en = true) ∧ ∀ j, (s.slot j).en = true → s.isValid j = true

/-- A frame in the buffer that FRAME.DECODE takes up to its kind: the configuration serves it, it fits the buffer and holds
a header, and its discriminator is d (43_frame.md R266, steps 1 and 2). -/
def State.headerRead (s : State) (sel : DecodeSel) (d : Nat) : Prop :=
  s.configServes sel ∧ s.frameLen.toNat ≤ s.params.bufSize ∧ s.hdrLen ≤ s.frameLen.toNat ∧ s.disc = .ok d

/-- `Resolve(s, d) = k` as 43_frame.md R268 words it. -/
def State.resolvesTo (s : State) (sel : DecodeSel) (d : Nat) (k : Kind) : Prop :=
  match sel with
  | .kind j => k = j ∧ (s.slot j).kdisc.toNat = d
  | .any => (s.slot k).en = true ∧ (s.slot k).kdisc.toNat = d
      ∧ ∀ j, (s.slot j).en = true → (s.slot j).kdisc.toNat = d → j = k

/-- `Resolve(s, d) = none` as 43_frame.md R268 words it. -/
def State.resolvesToNone (s : State) (sel : DecodeSel) (d : Nat) : Prop :=
  match sel with
  | .kind j => (s.slot j).kdisc.toNat ≠ d
  | .any => ∀ j, (s.slot j).en = true → (s.slot j).kdisc.toNat ≠ d

/-- Descriptor i of kind k is d, and the frame holds the raw integer r there. -/
def State.holdsField (s : State) (k : Kind) (i : Nat) (d : Desc) (r : Int) : Prop :=
  s.readDesc k i = .ok d ∧ s.readRaw (s.hdrLen + d.offset) d = .ok r

/-- Descriptor i of kind k is d, and result entry i holds a value whose raw integer is r. -/
def State.holdsValue (s : State) (k : Kind) (i : Nat) (d : Desc) (r : Int) : Prop :=
  s.readDesc k i = .ok d ∧ s.invScale i d = .ok r

/-- Result entry i holds raw integer r of descriptor d: RAW its 64-bit pattern, VNUM = r * SNUM as a signed 128-bit
pattern, VDEN = SDEN (10_state.md R61 to R64; 42_field.md R229). -/
def State.holdsEntry (s : State) (i : Nat) (d : Desc) (r : Int) : Prop :=
  ∃ w0 w1 w2 w3 w4 w5 w6 : Word32, s.holdsResWords i 0 [w0, w1, w2, w3, w4, w5, w6]
    ∧ w1 ++ w0 = BitVec.ofInt 64 r ∧ w5 ++ w4 ++ w3 ++ w2 = BitVec.ofInt 128 (r * d.snum)
    ∧ w6 = BitVec.ofNat 32 d.sden

/-- The address of a defined register of a kind slot (10_state.md R47, R55). -/
def isSlotAddr (a : Nat) : Prop :=
  ∃ (k : Kind) (off : Nat), off < 0x40 ∧ off % 4 = 0 ∧ off ≠ 0x1C ∧ off ≠ 0x38 ∧ off ≠ 0x3C
    ∧ a = 0x100 + 0x40 * k.index + off

/-- A register the host reads and writes (10_state.md R31): its address, the bits of a written word that it stores, and the
word a state holds there. -/
structure HostReg where
  addr : Nat
  mask : Nat
  word : State → Nat

/-- A register pair: its low word at the lower address (10_state.md R38, R54). -/
def pairRegs (a : Nat) (x : State → Word64) : List HostReg :=
  [⟨a, 0xFFFFFFFF, fun s => (x s).toNat % 2 ^ 32⟩, ⟨a + 4, 0xFFFFFFFF, fun s => (x s).toNat / 2 ^ 32⟩]

/-- The global registers that hold what the host writes (10_state.md R35 to R38, R42, R45, R46). -/
def globalRegs : List HostReg :=
  [⟨0x00C, 0xFFFF, fun s => s.frameLen.toNat⟩, ⟨0x010, 0xFFFF, fun s => s.arg0.toNat⟩,
    ⟨0x014, 0xFFFF, fun s => s.arg1.toNat⟩, ⟨0x034, 0xFFFF, fun s => s.payLen.toNat⟩,
    ⟨0x040, 0x7FFFF, fun s => s.hdrCfg.toNat⟩, ⟨0x044, 0xFFFF, fun s => s.discOff.toNat⟩]
  ++ pairRegs 0x018 fun s => s.exp

/-- The registers of a kind slot at its base address (10_state.md R48 to R54). -/
def slotRegs (base : Nat) (q : State → KindSlot) : List HostReg :=
  [⟨base + 0x00, 0x7FDF, fun s => (q s).kcfg.toNat⟩, ⟨base + 0x04, 0xFFFFFFFF, fun s => (q s).kdisc.toNat⟩,
    ⟨base + 0x08, 0xFFFF, fun s => (q s).klenOff.toNat⟩, ⟨base + 0x0C, 0xFFFF, fun s => (q s).kpayMin.toNat⟩,
    ⟨base + 0x10, 0xFFFF, fun s => (q s).kpayMax.toNat⟩, ⟨base + 0x14, 0xFFFF, fun s => (q s).kcsStart.toNat⟩,
    ⟨base + 0x18, 0xFF, fun s => (q s).kndesc.toNat⟩]
  ++ pairRegs (base + 0x20) (fun s => (q s).kpoly) ++ pairRegs (base + 0x28) (fun s => (q s).kinit)
  ++ pairRegs (base + 0x30) (fun s => (q s).kxorOut)

/-- Every register the host writes but CMD, the slots at the bases of 10_state.md R47. -/
def hostRegs : List HostReg :=
  globalRegs ++ slotRegs 0x100 (fun s => s.slots.settings) ++ slotRegs 0x140 (fun s => s.slots.sensorValues)
  ++ slotRegs 0x180 (fun s => s.slots.strings) ++ slotRegs 0x1C0 (fun s => s.slots.ambientColor)
  ++ slotRegs 0x200 (fun s => s.slots.soundData)

/-- The address of a defined descriptor word of kind k (10_state.md R56, R60). -/
def isDescAddr (p : Params) (k : Kind) (a : Nat) : Prop :=
  ∃ i j, i < p.nDesc ∧ j < 8 ∧ j ≠ 3 ∧ a = 0x2000 + 0x400 * k.index + 0x20 * i + 4 * j

/-- The address of a defined result word (10_state.md R61). -/
def isResAddr (p : Params) (a : Nat) : Prop :=
  ∃ i j, i < p.nDesc ∧ j < 7 ∧ a = 0x4000 + 0x20 * i + 4 * j

/-- The status a completed command leaves, or a reset, or an issue (10_state.md R71): each flag agrees with ERR. -/
def State.flagsAgree (s : State) : Prop :=
  s.status = State.reset.status ∧ s.err.code = .ok
  ∨ s.status = Status.issued
  ∨ ∃ m p, s.status = Status.completed s.err.code m p
      ∧ (m = true → p = false) ∧ (s.err.code ≠ .ok → m = false ∧ p = false)

/-- VALID[k] says what SCHEMA.CHECK of kind k would say now (10_state.md R67): the kind-level conditions hold, every
descriptor is written, and none fails. -/
def State.schemaHolds (s : State) (k : Kind) : Prop :=
  s.kindChecksOk k = true ∧ s.descFail k = .ok none

/-- The invariant of the reachable states. -/
structure State.Inv (s : State) : Prop where
  /-- The instance is one the spec allows (00_scope.md R7). -/
  params : s.params.legal
  /-- A command is pending exactly while BUSY = 1 (10_state.md R68). -/
  pendingBusy : s.pending = s.status.busy
  /-- STATUS and ERR agree (10_state.md R71). -/
  flags : s.flagsAgree
  /-- The memories have their canonical form. -/
  bufWf : Memory.wf s.buf
  descWf : Memory.wf s.desc
  resWf : Memory.wf s.res
  /-- Every byte of the buffer is one of BUF_SIZE (10_state.md R66). -/
  bufKeys : ∀ c ∈ s.buf, c.1 < s.params.bufSize
  /-- Every descriptor word stands at a defined address (10_state.md R56, R60). -/
  descKeys : ∀ c ∈ s.desc, ∃ k i j, locate s.params c.1 = .desc k i j ∧ c.1 = descAddr k i j
  /-- Every result word stands at a defined address (10_state.md R61). -/
  resKeys : ∀ c ∈ s.res, ∃ i j, locate s.params c.1 = .res i j ∧ c.1 = resAddr i j
  /-- The reserved bit of every KCFG is 0 (10_state.md R31, R48). -/
  kcfgReserved : ∀ k, (s.slot k).kcfg.getLsbD 5 = false
  /-- Every VALID bit means a schema that holds (10_state.md R67). -/
  validSchema : ∀ k, s.isValid k = true → s.schemaHolds k

end Sys2Proof.Machine
end

