-- ==== Sys2Proof/Certificates/Slice0/Obligations.lean ====
section
/-! DEFINITION. The statements for the provers. Each docstring names the rules it formalises. Hypotheses are on the state
and the operands alone; Tests/Slice0.lean meets them together, once for each statement. -/

open Sys2Proof Sys2Proof.Machine

/-! ## Encoding (30_encoding.md) -/

/-- 30_encoding.md R130, R134: decoding the word of a well-formed command gives the command back, in every instance. -/
def Obligations.DecodeGivesBackEncodedCommand : Prop :=
  ∀ (nDesc : Nat) (i : Instr), i.wellFormed nDesc = true → decode nDesc (encode i) = .ok i

/-- 30_encoding.md R135, R140: the words that decode are exactly those `Legal(w)` admits, and each is the word of the
command it decodes to, which is well-formed. -/
def Obligations.DecodableWordsAreTheLegalOnes : Prop :=
  ∀ (nDesc : Nat) (w : Word32),
    ((∃ i, decode nDesc w = .ok i) ↔ legal nDesc w = true)
    ∧ ∀ i, decode nDesc w = .ok i → encode i = w ∧ i.wellFormed nDesc = true

/-- 30_encoding.md R137, R138: words of the rules' examples. -/
def Obligations.SampleWordsDecode : Prop :=
  decode 32 0x00000000#32 = .ok .nop
  ∧ decode 32 0x00000001#32 = .ok (.csumCompute .settings)
  ∧ decode 32 0x00030110#32 = .ok (.fieldExtract .sensorValues 3)
  ∧ decode 32 0x00000420#32 = .ok (.schemaCheck .soundData)
  ∧ decode 32 0x00000730#32 = .ok (.frameDecode .any)
  ∧ decode 32 0x00000331#32 = .ok (.frameEncode .ambientColor)

/-! ## The life cycle of a command (40_command.md) -/

/-- 40_command.md R161: at the engine's turn a step is the meaning of the decoded command; otherwise it is the host's
next statement (the choice of whose turn it is, is the model's: log 3). -/
def Obligations.StepRunsTheDecodedCommand : Prop :=
  ∀ (s : State) (i : Instr),
    (s.atEngine → decode s.params.nDesc s.cmd = .ok i → step s = exec i s)
    ∧ (s.pending = false ∨ (s.latency ≠ 0 ∧ s.host.pos < s.host.script.length) → step s = hostStep s)

/-- 60_exceptions.md R308: a word in CMD that fails Legal(w) completes with ILLEGAL_COMMAND, FIDX 0 and KIND = w[10:8],
and does nothing else. -/
def Obligations.IllegalWordEndsWithIllegalCommand : Prop :=
  ∀ s : State, s.atEngine → legal s.params.nDesc s.cmd = false →
    step s = .next { s with
      err := { code := .illegalCommand, fidx := 0, kind := s.cmd.extractLsb' 8 3 }
      status := { done := true, busy := false, errv := true, matched := false, snapValid := false }
      pending := false }

/-- 40_command.md R160 and 60_exceptions.md R316: a write to CMD while BUSY = 0 issues, and changes no other state of the
block (nothing is said of the model's own `latency`, `latencies` and `draws`); a write to any address while BUSY = 1 is a
fault. -/
def Obligations.CmdWriteIssuesAndBusyWritesFault : Prop :=
  ∀ (s : State) (w : Word32),
    (s.status.busy = false →
      ∃ t, s.hostWrite 0 w = .next t
        ∧ t = { s with
          cmd := w
          status := { done := false, busy := true, errv := false, matched := false, snapValid := false }
          pending := true
          latency := t.latency, latencies := t.latencies, draws := t.draws })
    ∧ ∀ a : Word32, s.status.busy = true → a.toNat < 0x10000 → a.toNat % 4 = 0 → s.hostWrite a w = .fault .hostWriteWhileBusy

/-- 70_reset_and_hazards.md R340, R341 (log 3, the model's form of weak fairness): while a command is pending and it is not
the engine's turn, a host step that does not stop brings the engine's turn one step nearer, unless it asserts reset. -/
def Obligations.PendingCommandComesNearer : Prop :=
  ∀ s t : State, s.pending = true → s.status.busy = true → ¬ s.atEngine → step s = .next t →
    (t.pending = true ∧ t.cmd = s.cmd ∧ t.latency + 1 = s.latency)
    ∨ (t.pending = false ∧ s.host.script[s.host.pos]? = some .reset)

/-- 40_command.md R162 and 60_exceptions.md R301, R311: every command that completes sets DONE, clears BUSY and `pending`,
sets ERRV exactly for a code other than OK, sets MATCH only as a verify that succeeds and SNAP_VALID exactly as a
FRAME.DECODE that succeeds, and ends with one of its own codes. -/
def Obligations.CompletionWritesTheFlags : Prop :=
  ∀ (i : Instr) (s t : State), exec i s = .next t →
    t.pending = false ∧ t.status.done = true ∧ t.status.busy = false
    ∧ (t.status.errv = true ↔ t.err.code ≠ .ok)
    ∧ (t.status.matched = true → t.err.code = .ok ∧ ∃ k, i = .csumVerify k ∨ i = .trailerVerify k)
    ∧ (t.status.snapValid = true ↔ t.err.code = .ok ∧ ∃ sel, i = .frameDecode sel)
    ∧ t.err.code ∈ i.resultCodes

/-- 40_command.md R164: KIND is the SEL of the command word, of an illegal one too, but for a FRAME.DECODE that has resolved
its kind. -/
def Obligations.ErrKindIsSelOrResolvedKind : Prop :=
  (∀ s t : State, s.atEngine → legal s.params.nDesc s.cmd = false → step s = .next t →
    t.err.kind = s.cmd.extractLsb' 8 3)
  ∧ ∀ (i : Instr) (s t : State), exec i s = .next t →
    match i with
    | .frameDecode sel =>
      (∀ k, s.decodeKindOf sel = .ok k → t.err.kind = k.code
        ∧ t.err.code ∈ [ResultCode.ok, .lengthMismatch, .checksumMismatch, .fieldOutOfRange])
      ∧ ((∀ k, s.decodeKindOf sel ≠ .ok k) → t.err.kind = sel.code
        ∧ t.err.code ∈ [ResultCode.configError, .operandError, .tooShort, .unknownFrameType])
    | i => t.err.kind = (encode i).extractLsb' 8 3

/-- 40_command.md R165, but for which descriptor a descriptor-level failure of SCHEMA.CHECK, FRAME.DECODE or FRAME.ENCODE
names (`SchemaCheckJudgesTheSchema` and `LowestFailingDescriptorIsNamed` say that). -/
def Obligations.ErrFidxByCommand : Prop :=
  ∀ (i : Instr) (s t : State), exec i s = .next t →
    match i with
    | .fieldExtract _ idx => t.err.fidx = if t.err.code = .configError then 0xFF else idx
    | .fieldInsert _ idx => t.err.fidx = if t.err.code = .configError then 0xFF else idx
    | .schemaCheck k => (t.err.code = .ok → t.err.fidx = 0)
        ∧ (t.err.code = .configError → s.kindChecksOk k = false → t.err.fidx = 0xFF)
    | .frameDecode _ => t.err.code ≠ .fieldOutOfRange → t.err.fidx = if t.err.code = .configError then 0xFF else 0
    | .frameEncode k => (t.err.code = .configError → t.err.fidx = 0xFF) ∧ (t.err.code = .ok → t.err.fidx = 0)
        ∧ (t.err.code = .operandError → (s.slot k).lenMode = true →
            (s.payLen.toNat < (s.slot k).kpayMin.toNat ∨ (s.slot k).kpayMax.toNat < s.payLen.toNat) → t.err.fidx = 0xFF)
    | _ => t.err.fidx = if t.err.code = .configError then 0xFF else 0

/-- 60_exceptions.md R315 (and 40_command.md R163): a command that ends with an error leaves the state before it, but for
ERR, STATUS, the pair CSUM and CSRX of a FRAME.DECODE past its checksum step, and the VALID bit of a failed
SCHEMA.CHECK. -/
def Obligations.FailedCommandWritesNothingElse : Prop :=
  (∀ s t : State, s.atEngine → legal s.params.nDesc s.cmd = false → step s = .next t →
    t = { s with err := t.err, status := t.status, pending := false })
  ∧ ∀ (i : Instr) (s t : State), exec i s = .next t → t.err.code ≠ .ok →
    t = { s with
          err := t.err, status := t.status, pending := false, csum := t.csum, csrx := t.csrx, valid := t.valid }
    ∧ ((t.csum = s.csum ∧ t.csrx = s.csrx) ∨ ∃ sel, i = .frameDecode sel)
    ∧ (∀ sel, i = .frameDecode sel →
        if t.err.code = .checksumMismatch ∨ t.err.code = .fieldOutOfRange then
          ∃ k p x rx, s.decodeKindOf sel = .ok k ∧ s.payloadIs k p
            ∧ s.frameCsum k (s.totalLength k p) = .ok x ∧ s.frameTrailer k (s.totalLength k p) = .ok rx
            ∧ t.csum = BitVec.ofNat 64 x ∧ t.csrx = BitVec.ofNat 64 rx
        else t.csum = s.csum ∧ t.csrx = s.csrx)
    ∧ match i with
      | .schemaCheck k => t.valid = s.valid.set k false
      | _ => t.valid = s.valid

/-- 40_command.md R167: NOP. -/
def Obligations.NopCompletesWithoutEffect : Prop :=
  (∀ s : State, exec .nop s = .next { s with
      err := { code := .ok, fidx := 0, kind := 0 }
      status := { done := true, busy := false, errv := false, matched := false, snapValid := false }
      pending := false })
  ∧ encode .nop = 0
  ∧ ∀ (nDesc : Nat) (w : Word32), w.extractLsb' 0 8 = 0 → (decode nDesc w = .ok .nop ↔ w = 0)

/-- 20_memory.md R112 and 40_command.md R169: what a command does is a function of the configuration, the operand
registers, the RAMs and the buffer. Two states that differ only in the results of earlier commands (CMD, STATUS, ERR,
`pending`, CSUM, CSRX, KIND_OUT) and in the host's side both stop alike, or both complete with the same results; a
register the command does not write keeps its own value in each. -/
def Obligations.EarlierResultsDoNotInfluenceACommand : Prop :=
  ∀ (i : Instr) (s s' : State),
    s' = { s with
      cmd := s'.cmd, status := s'.status, err := s'.err, pending := s'.pending, csum := s'.csum, csrx := s'.csrx,
      kindOut := s'.kindOut, host := s'.host, latency := s'.latency, latencies := s'.latencies, draws := s'.draws } →
    (∃ f, exec i s = .fault f ∧ exec i s' = .fault f)
    ∨ ∃ t t', exec i s = .next t ∧ exec i s' = .next t'
      ∧ t' = { t with
        cmd := s'.cmd, csum := t'.csum, csrx := t'.csrx, kindOut := t'.kindOut, host := s'.host,
        latency := s'.latency, latencies := s'.latencies, draws := s'.draws }
      ∧ (t'.csum = t.csum ∨ t.csum = s.csum ∧ t'.csum = s'.csum)
      ∧ (t'.csrx = t.csrx ∨ t.csrx = s.csrx ∧ t'.csrx = s'.csrx)
      ∧ (t'.kindOut = t.kindOut ∨ t.kindOut = s.kindOut ∧ t'.kindOut = s'.kindOut)

/-! ## Checksums (41_checksum.md) -/

/-- 41_checksum.md R180, and 10_state.md R45, R48: the profile of a slot, field by field, from the numbers its registers
hold; what an algorithm does not use does not matter, and neither does EN. The other fields of KCFG, and those of HDRCFG, by
their bits. -/
def Obligations.ProfileReadsTheSlotRegisters : Prop :=
  (∀ s : State,
    let h := s.hdrCfg.toNat
    s.hdrLen = h % 2 ^ 16 ∧ s.discW.toNat = h / 2 ^ 16 % 4 ∧ s.discBytes = 2 ^ (h / 2 ^ 16 % 4)
    ∧ (s.discOrd = .big ↔ h / 2 ^ 18 % 2 = 1))
  ∧ ∀ q : KindSlot,
    (let c := q.kcfg.toNat
     (q.en = true ↔ c % 2 = 1) ∧ (q.lenMode = true ↔ c / 2 % 2 = 1) ∧ q.lenBytes = 2 ^ (c / 2 ^ 2 % 4)
     ∧ (q.lenOrd = .big ↔ c / 2 ^ 4 % 2 = 1))
    ∧ (let c := q.kcfg.toNat
     let p := q.profile
     p.csw = 2 ^ (c / 2 ^ 6 % 4) ∧ p.w = 8 * p.csw ∧ (p.csOrd = .big ↔ c / 2 ^ 8 % 2 = 1)
     ∧ (p.alg = .sum ↔ c / 2 ^ 9 % 4 = 0) ∧ (p.alg = .xor ↔ c / 2 ^ 9 % 4 = 1) ∧ (p.alg = .crc ↔ c / 2 ^ 9 % 4 = 2)
     ∧ (p.refIn = true ↔ c / 2 ^ 11 % 2 = 1) ∧ (p.refOut = true ↔ c / 2 ^ 12 % 2 = 1)
     ∧ (p.sumFin = .none ↔ c / 2 ^ 13 % 4 = 0) ∧ (p.sumFin = .ones ↔ c / 2 ^ 13 % 4 = 1)
     ∧ (p.sumFin = .twos ↔ c / 2 ^ 13 % 4 = 2)
     ∧ p.poly = q.kpoly.toNat ∧ p.init = q.kinit.toNat ∧ p.xorOut = q.kxorOut.toNat)
    ∧ { q with kcfg := q.kcfg ^^^ 1 }.profile = q.profile
    ∧ ∀ (p : Profile) (refIn refOut : Bool) (fin : SumFin) (poly : Nat) (bs : List Byte),
      (p.alg ≠ .crc → { p with refIn := refIn, refOut := refOut, poly := poly }.csum bs = p.csum bs
        ∧ { p with refIn := refIn, refOut := refOut, poly := poly }.legal = p.legal)
      ∧ (p.alg ≠ .sum → { p with sumFin := fin }.csum bs = p.csum bs ∧ { p with sumFin := fin }.legal = p.legal)

/-- 41_checksum.md R184, R185: SUM is the sum of the bytes modulo 2^W with its finish, XOR the exclusive or of the bytes. -/
def Obligations.SumAndXorHaveTheirClosedForms : Prop :=
  ∀ (p : Profile) (bs : List Byte), p.legal = true →
    (p.alg = .sum →
      p.csum bs =
        (match p.sumFin with
          | .none => (p.init + (bs.map BitVec.toNat).sum) % 2 ^ p.w
          | .ones => 2 ^ p.w - 1 - (p.init + (bs.map BitVec.toNat).sum) % 2 ^ p.w
          | .twos => (2 ^ p.w - (p.init + (bs.map BitVec.toNat).sum) % 2 ^ p.w) % 2 ^ p.w
          | .illegal => 0) ^^^ p.xorOut)
    ∧ (p.alg = .xor → p.csum bs = (bs.map BitVec.toNat).foldr (· ^^^ ·) p.init ^^^ p.xorOut)

/-- 41_checksum.md R194 ("the register is affine in the data"): the CRC register of R186 is linear in its start value and
its bytes together. -/
def Obligations.CrcRegisterIsLinearInTheData : Prop :=
  ∀ (w poly : Nat) (refIn : Bool) (r r' : Nat) (bs bs' : List Byte), bs.length = bs'.length →
    crcReg w poly refIn (r ^^^ r') (List.zipWith (· ^^^ ·) bs bs')
      = crcReg w poly refIn r bs ^^^ crcReg w poly refIn r' bs'

/-- 41_checksum.md R181: a checksum is below 2^W, and CSUM holds it zero-extended. -/
def Obligations.ChecksumFitsItsWidth : Prop :=
  ∀ (q : KindSlot) (bs : List Byte), q.profile.legal = true →
    q.profile.csum bs < 2 ^ q.profile.w
    ∧ ∀ s : State, (s.setCsum (q.profile.csum bs)).csum.toNat = q.profile.csum bs
      ∧ (s.setCsrx (q.profile.csum bs)).csrx.toNat = q.profile.csum bs

/-- 41_checksum.md R188: the checksum of no bytes, which reads no byte. -/
def Obligations.EmptyRangeChecksum : Prop :=
  (∀ p : Profile, p.legal = true →
    (p.alg = .sum → p.csum [] = sumFinish p.sumFin p.w p.init ^^^ p.xorOut)
    ∧ (p.alg = .xor → p.csum [] = p.init ^^^ p.xorOut)
    ∧ (p.alg = .crc → p.csum [] = (if p.refOut then reflect p.w p.init else p.init) ^^^ p.xorOut))
  ∧ ∀ (s : State) (k : Kind) (a : Nat), a ≤ s.params.bufSize → s.csumOf k a 0 = .ok ((s.profile k).csum [])

/-- 41_checksum.md R187: Reflect reverses the order of the n low bits. -/
def Obligations.ReflectReversesTheLowBits : Prop :=
  (∀ n v : Nat, v < 2 ^ n →
    reflect n v = ∑ i ∈ Finset.range n, (v.testBit i).toNat * 2 ^ (n - 1 - i)
    ∧ ∀ i, (reflect n v).testBit i = (decide (i < n) && v.testBit (n - 1 - i)))
  ∧ reflect 8 0x01 = 0x80 ∧ reflect 16 0x0003 = 0xC000

/-- 41_checksum.md R194: every legal profile detects every single-bit change. -/
def Obligations.EverySingleBitChangeIsDetected : Prop :=
  ∀ (q : KindSlot) (pre post : List Byte) (b : Byte) (j : Nat), q.profile.legal = true → j < 8 →
    q.profile.csum (pre ++ (b ^^^ (1#8 <<< j)) :: post) ≠ q.profile.csum (pre ++ b :: post)

/-- 41_checksum.md R189: CSUM.COMPUTE. -/
def Obligations.CsumComputeMeaning : Prop :=
  ∀ (k : Kind) (s : State),
    ((s.profile k).legal = false → exec (.csumCompute k) s = .next (s.raise .configError 0xFF k.code))
    ∧ ((s.profile k).legal = true → s.params.bufSize < s.arg0.toNat + s.arg1.toNat →
        exec (.csumCompute k) s = .next (s.raise .operandError 0 k.code))
    ∧ ((s.profile k).legal = true → s.arg0.toNat + s.arg1.toNat ≤ s.params.bufSize →
        (∀ bs, bs.length = s.arg1.toNat → s.holdsBytes s.arg0.toNat bs →
          exec (.csumCompute k) s = .next { s with
            csum := BitVec.ofNat 64 ((s.profile k).csum bs)
            err := { code := .ok, fidx := 0, kind := k.code }
            status := { done := true, busy := false, errv := false, matched := false, snapValid := false }
            pending := false })
        ∧ ((∃ j < s.arg1.toNat, Memory.read s.buf (s.arg0.toNat + j) = none) →
          exec (.csumCompute k) s = .fault .unwrittenBuffer))
    ∧ (encode (.csumCompute k)).toNat = 0x01 + 0x100 * k.index

/-- 41_checksum.md R190: CSUM.VERIFY; a mismatch is no error. -/
def Obligations.CsumVerifyMeaning : Prop :=
  ∀ (k : Kind) (s : State),
    ((s.profile k).legal = false → exec (.csumVerify k) s = .next (s.raise .configError 0xFF k.code))
    ∧ ((s.profile k).legal = true → s.params.bufSize < s.arg0.toNat + s.arg1.toNat →
        exec (.csumVerify k) s = .next (s.raise .operandError 0 k.code))
    ∧ ((s.profile k).legal = true → s.arg0.toNat + s.arg1.toNat ≤ s.params.bufSize →
        (∀ bs, bs.length = s.arg1.toNat → s.holdsBytes s.arg0.toNat bs →
          exec (.csumVerify k) s = .next { s with
            csum := BitVec.ofNat 64 ((s.profile k).csum bs)
            err := { code := .ok, fidx := 0, kind := k.code }
            status := { done := true, busy := false, errv := false
                        matched := decide ((s.profile k).csum bs = s.exp.toNat), snapValid := false }
            pending := false })
        ∧ ((∃ j < s.arg1.toNat, Memory.read s.buf (s.arg0.toNat + j) = none) →
          exec (.csumVerify k) s = .fault .unwrittenBuffer))
    ∧ (encode (.csumVerify k)).toNat = 0x02 + 0x100 * k.index

/-- 41_checksum.md R191, R193: TRAILER.VERIFY; a mismatch is no error. -/
def Obligations.TrailerVerifyMeaning : Prop :=
  ∀ (k : Kind) (s : State),
    let T := s.frameLen.toNat
    let a := (s.slot k).kcsStart.toNat
    let p := s.profile k
    (p.legal = false → exec (.trailerVerify k) s = .next (s.raise .configError 0xFF k.code))
    ∧ (p.legal = true → s.params.bufSize < T ∨ T < a + p.csw →
        exec (.trailerVerify k) s = .next (s.raise .operandError 0 k.code))
    ∧ (p.legal = true → T ≤ s.params.bufSize → a + p.csw ≤ T →
        (∀ bs tr, a + bs.length + p.csw = T → tr.length = p.csw → s.holdsBytes a (bs ++ tr) →
          exec (.trailerVerify k) s = .next { s with
            csum := BitVec.ofNat 64 (p.csum bs)
            csrx := BitVec.ofNat 64 (bytesToNat p.csOrd tr)
            err := { code := .ok, fidx := 0, kind := k.code }
            status := { done := true, busy := false, errv := false
                        matched := decide (p.csum bs = bytesToNat p.csOrd tr), snapValid := false }
            pending := false })
        ∧ ((∃ j, a ≤ j ∧ j < T ∧ Memory.read s.buf j = none) → exec (.trailerVerify k) s = .fault .unwrittenBuffer))
    ∧ (encode (.trailerVerify k)).toNat = 0x03 + 0x100 * k.index

/-- 41_checksum.md R192, R193: TRAILER.APPEND writes the checksum's bytes, in the trailer's order, over the last CSW bytes
of the frame, which it never reads, and nothing else of the buffer. -/
def Obligations.TrailerAppendMeaning : Prop :=
  ∀ (k : Kind) (s : State),
    let T := s.frameLen.toNat
    let a := (s.slot k).kcsStart.toNat
    let p := s.profile k
    (p.legal = false → exec (.trailerAppend k) s = .next (s.raise .configError 0xFF k.code))
    ∧ (p.legal = true → s.params.bufSize < T ∨ T < a + p.csw →
        exec (.trailerAppend k) s = .next (s.raise .operandError 0 k.code))
    ∧ (p.legal = true → T ≤ s.params.bufSize → a + p.csw ≤ T →
        (∀ bs, a + bs.length + p.csw = T → s.holdsBytes a bs →
          ∃ t, exec (.trailerAppend k) s = .next t
            ∧ t = { s with
              csum := BitVec.ofNat 64 (p.csum bs)
              buf := t.buf
              err := { code := .ok, fidx := 0, kind := k.code }
              status := { done := true, busy := false, errv := false, matched := false, snapValid := false }
              pending := false }
            ∧ t.holdsBytes (T - p.csw) (natToBytes p.csOrd p.csw (p.csum bs))
            ∧ ∀ c, c < T - p.csw ∨ T ≤ c → Memory.read t.buf c = Memory.read s.buf c)
        ∧ ((∃ j, a ≤ j ∧ j < T - p.csw ∧ Memory.read s.buf j = none) →
            exec (.trailerAppend k) s = .fault .unwrittenBuffer))
    ∧ (encode (.trailerAppend k)).toNat = 0x04 + 0x100 * k.index

/-- 41_checksum.md R192, R191 (corner case of R192): a TRAILER.VERIFY right after a TRAILER.APPEND of the same kind
matches. -/
def Obligations.VerifyAfterAppendMatches : Prop :=
  ∀ (k : Kind) (s t : State), exec (.trailerAppend k) s = .next t → t.err.code = .ok →
    ∃ u, exec (.trailerVerify k) t = .next u ∧ u.err.code = .ok ∧ u.status.matched = true
      ∧ u.csum = t.csum ∧ u.csrx = t.csum ∧ u.buf = t.buf

/-! ## Fields (42_field.md) -/

/-- 42_field.md R223: ReadUInt in both byte orders. -/
def Obligations.ReadUIntIsTheSumOfItsBytes : Prop :=
  ∀ (s : State) (a : Nat) (bs : List Byte), a + bs.length ≤ s.params.bufSize → s.holdsBytes a bs →
    s.readUInt a bs.length .little = .ok (∑ j ∈ Finset.range bs.length, (bs.getD j 0).toNat * 2 ^ (8 * j))
    ∧ s.readUInt a bs.length .big
        = .ok (∑ j ∈ Finset.range bs.length, (bs.getD j 0).toNat * 2 ^ (8 * (bs.length - 1 - j)))
    ∧ ∀ ord u, s.readUInt a bs.length ord = .ok u → u < 2 ^ (8 * bs.length)

/-- 42_field.md R224: WriteUInt is the exact inverse of ReadUInt and changes no other byte. -/
def Obligations.WriteUIntIsInverseToReadUInt : Prop :=
  ∀ (s : State) (a w u : Nat) (ord : ByteOrder), u < 2 ^ (8 * w) → a + w ≤ s.params.bufSize →
    ∃ t, s.writeUInt a w ord u = .ok t ∧ t.readUInt a w ord = .ok u
      ∧ t = { s with buf := t.buf }
      ∧ (∀ c, c < a ∨ a + w ≤ c → Memory.read t.buf c = Memory.read s.buf c)
      ∧ ∀ j < w, Memory.read t.buf (if ord = .little then a + j else a + w - 1 - j)
          = some (BitVec.ofNat 8 (u / 2 ^ (8 * j)))

/-- 42_field.md R220: a descriptor, member by member, from the words of its RAM; one that is not written in full stops the
command that reads it. -/
def Obligations.DescriptorReadsItsWords : Prop :=
  ∀ (s : State) (k : Kind) (i : Nat),
    let at' := fun j => Memory.read s.desc (0x2000 + 0x400 * k.index + 0x20 * i + 4 * j)
    (∀ d0 d1 d2 d4 d5 d6 d7, at' 0 = some d0 → at' 1 = some d1 → at' 2 = some d2 → at' 4 = some d4 → at' 5 = some d5 →
      at' 6 = some d6 → at' 7 = some d7 →
      ∃ d, s.readDesc k i = .ok d ∧ d.offset = d0.toNat % 2 ^ 16 ∧ d.w = 2 ^ (d0.toNat / 2 ^ 16 % 4)
        ∧ (d.ord = .big ↔ d0.toNat / 2 ^ 18 % 2 = 1) ∧ (d.sgn = true ↔ d0.toNat / 2 ^ 19 % 2 = 1)
        ∧ (d.rangeEn = true ↔ d0.toNat / 2 ^ 20 % 2 = 1) ∧ d.unit.toNat = d0.toNat / 2 ^ 24
        ∧ d.snum = d1.toInt ∧ d.sden = d2.toNat
        ∧ d.min = (if d.sgn then (d5 ++ d4).toInt else ((d5 ++ d4).toNat : Int))
        ∧ d.max = (if d.sgn then (d7 ++ d6).toInt else ((d7 ++ d6).toNat : Int)))
    ∧ ((∃ j < 8, j ≠ 3 ∧ at' j = none) → s.readDesc k i = .error (.fault .unwrittenDescriptor))

/-- 42_field.md R226, R225: a field holds exactly the raw integers of [Lo, Hi], and the pattern of a raw integer is the one
it is read from. -/
def Obligations.FieldHoldsItsRepresentableRange : Prop :=
  ∀ d : Desc, d.w = 1 ∨ d.w = 2 ∨ d.w = 4 ∨ d.w = 8 →
    d.lo = (if d.sgn then -(2 ^ (8 * d.w - 1)) else 0)
    ∧ d.hi = (if d.sgn then 2 ^ (8 * d.w - 1) - 1 else 2 ^ (8 * d.w) - 1)
    ∧ (∀ u < 2 ^ (8 * d.w), d.lo ≤ d.rawOf u ∧ d.rawOf u ≤ d.hi ∧ d.pattern (d.rawOf u) = u)
    ∧ ∀ r : Int, d.lo ≤ r → r ≤ d.hi → d.pattern r < 2 ^ (8 * d.w) ∧ d.rawOf (d.pattern r) = r

/-- 42_field.md R229: StoreValue writes RAW, VNUM and VDEN of its entry, and nothing else. -/
def Obligations.StoreValueWritesOneEntry : Prop :=
  ∀ (s : State) (i : Nat) (r : Int) (d : Desc),
    (s.storeValue i r d).holdsEntry i d r
    ∧ s.storeValue i r d = { s with res := (s.storeValue i r d).res }
    ∧ ∀ a, (∀ j < 7, a ≠ 0x4000 + 0x20 * i + 4 * j) → Memory.read (s.storeValue i r d).res a = Memory.read s.res a

/-- 42_field.md R231: the encode input of an entry, an OPERAND_ERROR for VDEN = 0, and rounding to the nearest integer with
ties away from zero; an entry with an unwritten word of VNUM or VDEN stops the command that reads it (40_command.md R166). -/
def Obligations.InverseScalingRoundsHalfAwayFromZero : Prop :=
  (∀ (s : State) (i : Nat) (d : Desc) (n0 n1 n2 n3 v : Word32), s.holdsResWords i 2 [n0, n1, n2, n3, v] →
    s.invScale i d =
      if v.toNat = 0 then .error (.raise .operandError (BitVec.ofNat 8 i))
      else .ok (roundHalfAway ((n3 ++ n2 ++ n1 ++ n0).toInt * d.sden) (v.toNat * d.snum)))
  ∧ (∀ (s : State) (i : Nat) (d : Desc), (∃ j, 2 ≤ j ∧ j < 7 ∧ Memory.read s.res (resAddr i j) = none) →
      s.invScale i d = .error (.fault .unwrittenResult))
  ∧ ∀ n m : Int, m ≠ 0 →
    2 * |n - roundHalfAway n m * m| ≤ |m|
    ∧ (2 * |n - roundHalfAway n m * m| = |m| → |n| < |roundHalfAway n m * m|)

/-- 42_field.md R236: extract then insert gives the raw integer back; an inserted value becomes the nearest raw integer,
exactly where it is a multiple of the scale. -/
def Obligations.FieldRoundTrip : Prop :=
  (∀ (s : State) (i : Nat) (r : Int) (d : Desc), d.snum ≠ 0 → d.sden ≠ 0 → d.sden < 2 ^ 32 → |d.snum| ≤ 2 ^ 31 →
    |r| < 2 ^ 64 → (s.storeValue i r d).invScale i d = .ok r)
  ∧ ∀ n m : Int, m ≠ 0 →
    (∀ q : Int, |n - roundHalfAway n m * m| ≤ |n - q * m|) ∧ ∀ q : Int, n = q * m → roundHalfAway n m = q

/-- 42_field.md R233: FIELD.EXTRACT, with its errors in their order. -/
def Obligations.FieldExtractMeaning : Prop :=
  ∀ (k : Kind) (idx : BitVec 8) (s : State),
    (s.isValid k = false → exec (.fieldExtract k idx) s = .next (s.raise .configError 0xFF k.code))
    ∧ (s.isValid k = true →
        ((s.slot k).kndesc.toNat ≤ idx.toNat → exec (.fieldExtract k idx) s = .next (s.raise .operandError idx k.code))
        ∧ ∀ d, idx.toNat < (s.slot k).kndesc.toNat → s.readDesc k idx.toNat = .ok d →
          (s.params.bufSize < s.frameLen.toNat ∨ s.frameLen.toNat < s.hdrLen + d.offset + d.w →
            exec (.fieldExtract k idx) s = .next (s.raise .operandError idx k.code))
          ∧ (s.frameLen.toNat ≤ s.params.bufSize → s.hdrLen + d.offset + d.w ≤ s.frameLen.toNat →
              (∀ bs, bs.length = d.w → s.holdsBytes (s.hdrLen + d.offset) bs →
                let r := d.rawOf (bytesToNat d.ord bs)
                exec (.fieldExtract k idx) s =
                  if d.vlo ≤ r ∧ r ≤ d.vhi then .next ((s.storeValue idx.toNat r d).finish idx k.code false false)
                  else .next (s.raise .fieldOutOfRange idx k.code))
              ∧ ((∃ j < d.w, Memory.read s.buf (s.hdrLen + d.offset + j) = none) →
                exec (.fieldExtract k idx) s = .fault .unwrittenBuffer)))
    ∧ (encode (.fieldExtract k idx)).toNat = 0x10 + 0x100 * k.index + 0x10000 * idx.toNat

/-- 42_field.md R234, R232: FIELD.INSERT, with its errors in their order: it writes the field's bytes and the entry's RAW,
and nothing else; an unwritten word of VNUM or VDEN stops it (40_command.md R166). -/
def Obligations.FieldInsertMeaning : Prop :=
  ∀ (k : Kind) (idx : BitVec 8) (s : State),
    (s.isValid k = false → exec (.fieldInsert k idx) s = .next (s.raise .configError 0xFF k.code))
    ∧ (s.isValid k = true →
        ((s.slot k).kndesc.toNat ≤ idx.toNat → exec (.fieldInsert k idx) s = .next (s.raise .operandError idx k.code))
        ∧ ∀ d, idx.toNat < (s.slot k).kndesc.toNat → s.readDesc k idx.toNat = .ok d →
          (s.params.bufSize < s.frameLen.toNat ∨ s.frameLen.toNat < s.hdrLen + d.offset + d.w →
            exec (.fieldInsert k idx) s = .next (s.raise .operandError idx k.code))
          ∧ (s.frameLen.toNat ≤ s.params.bufSize → s.hdrLen + d.offset + d.w ≤ s.frameLen.toNat →
              ((∃ j, 2 ≤ j ∧ j < 7 ∧ Memory.read s.res (resAddr idx.toNat j) = none) →
                exec (.fieldInsert k idx) s = .fault .unwrittenResult)
              ∧ (s.invScale idx.toNat d = .error (.raise .operandError idx) →
                exec (.fieldInsert k idx) s = .next (s.raise .operandError idx k.code))
              ∧ ∀ r, s.invScale idx.toNat d = .ok r →
                (¬(d.vlo ≤ r ∧ r ≤ d.vhi) → exec (.fieldInsert k idx) s = .next (s.raise .fieldOutOfRange idx k.code))
                ∧ (d.vlo ≤ r → r ≤ d.vhi →
                  ∃ t, exec (.fieldInsert k idx) s = .next t
                    ∧ t = { s with
                      buf := t.buf, res := t.res
                      err := { code := .ok, fidx := idx, kind := k.code }
                      status := { done := true, busy := false, errv := false, matched := false, snapValid := false }
                      pending := false }
                    ∧ t.holdsBytes (s.hdrLen + d.offset) (natToBytes d.ord d.w (d.pattern r))
                    ∧ (∀ c, c < s.hdrLen + d.offset ∨ s.hdrLen + d.offset + d.w ≤ c →
                        Memory.read t.buf c = Memory.read s.buf c)
                    ∧ t.holdsResWords idx.toNat 0 (natToWords 2 (Machine.pattern 64 r))
                    ∧ ∀ a, a ≠ resAddr idx.toNat 0 → a ≠ resAddr idx.toNat 1 →
                        Memory.read t.res a = Memory.read s.res a)))
    ∧ (encode (.fieldInsert k idx)).toNat = 0x11 + 0x100 * k.index + 0x10000 * idx.toNat

/-- 42_field.md R236, law 1, as commands: FIELD.INSERT right after a FIELD.EXTRACT of the same field succeeds and writes
back the same bytes and the same RAW. -/
def Obligations.InsertAfterExtractWritesBack : Prop :=
  ∀ (k : Kind) (idx : BitVec 8) (s t : State) (d : Desc), exec (.fieldExtract k idx) s = .next t → t.err.code = .ok →
    s.readDesc k idx.toNat = .ok d → d.snum ≠ 0 → d.sden ≠ 0 →
    ∃ u, exec (.fieldInsert k idx) t = .next u ∧ u.err.code = .ok
      ∧ (∀ a, Memory.read u.buf a = Memory.read s.buf a) ∧ ∀ a, Memory.read u.res a = Memory.read t.res a

/-! ## Schemas (43_frame.md R263 to R265) -/

/-- 43_frame.md R263: the fourteen conditions, as the rule words them. -/
def Obligations.KindChecksAreTheFourteenConditions : Prop :=
  ∀ (s : State) (k : Kind),
    let q := s.slot k
    let dw := 2 ^ s.discW.toNat
    s.kindChecksOk k = true ↔
      q.en = true ∧ q.profile.legal = true ∧ s.discW.toNat ≠ 3 ∧ s.discOff.toNat + dw ≤ s.hdrLen
      ∧ q.kdisc.toNat < 2 ^ (8 * dw)
      ∧ (q.lenMode = true → q.klenOff.toNat + q.lenBytes ≤ s.hdrLen
          ∧ noCommonByte q.klenOff.toNat q.lenBytes s.discOff.toNat dw
          ∧ q.kpayMin.toNat ≤ q.kpayMax.toNat ∧ q.kpayMax.toNat < 2 ^ (8 * q.lenBytes))
      ∧ (q.lenMode = false → q.kpayMin = q.kpayMax)
      ∧ s.hdrLen + q.kpayMax.toNat + q.profile.csw ≤ s.params.bufSize
      ∧ q.kcsStart.toNat ≤ s.hdrLen ∧ q.kndesc.toNat ≤ s.params.nDesc
      ∧ ¬∃ j, j ≠ k ∧ (s.slot j).en = true ∧ (s.slot j).kdisc = q.kdisc

/-- 43_frame.md R264: DescFail names the lowest descriptor that fails one of the four conditions, and reads every descriptor
in full. -/
def Obligations.DescFailNamesTheLowestFailingDescriptor : Prop :=
  ∀ (s : State) (k : Kind),
    (∀ ds : List Desc, s.readDescs k (List.range (s.slot k).kndesc.toNat) = .ok ds →
      (s.descFail k = .ok none ↔ ∀ i < ds.length, descPasses (s.slot k).kpayMin.toNat ds i)
      ∧ ∀ i, s.descFail k = .ok (some i) ↔
          i < ds.length ∧ ¬descPasses (s.slot k).kpayMin.toNat ds i
          ∧ ∀ j < i, descPasses (s.slot k).kpayMin.toNat ds j)
    ∧ ((∃ i j, i < (s.slot k).kndesc.toNat ∧ j < 8 ∧ j ≠ 3 ∧ Memory.read s.desc (descAddr k i j) = none) →
        s.descFail k = .error (.fault .unwrittenDescriptor))

/-- 43_frame.md R265: SCHEMA.CHECK sets or clears VALID[k], and changes no other VALID bit. -/
def Obligations.SchemaCheckJudgesTheSchema : Prop :=
  ∀ (k : Kind) (s : State),
    (s.kindChecksOk k = false →
      exec (.schemaCheck k) s = .next ((s.setValid k false).raise .configError 0xFF k.code))
    ∧ (s.kindChecksOk k = true →
      (s.descFail k = .ok none → exec (.schemaCheck k) s = .next ((s.setValid k true).finish 0 k.code false false))
      ∧ (∀ i, s.descFail k = .ok (some i) →
        exec (.schemaCheck k) s = .next ((s.setValid k false).raise .configError (BitVec.ofNat 8 i) k.code))
      ∧ ((∃ i j, i < (s.slot k).kndesc.toNat ∧ j < 8 ∧ j ≠ 3 ∧ Memory.read s.desc (descAddr k i j) = none) →
        exec (.schemaCheck k) s = .fault .unwrittenDescriptor))
    ∧ (∀ v j, (s.setValid k v).isValid j = if j = k then v else s.isValid j)
    ∧ (encode (.schemaCheck k)).toNat = 0x20 + 0x100 * k.index

/-- 10_state.md R67, first half: a step sets a VALID bit only as a SCHEMA.CHECK of that kind that succeeds, its schema
holding. -/
def Obligations.OnlySchemaCheckSetsAValidBit : Prop :=
  ∀ (s t : State) (k : Kind), step s = .next t → s.isValid k = false → t.isValid k = true →
    s.atEngine ∧ decode s.params.nDesc s.cmd = .ok (.schemaCheck k) ∧ t.err.code = .ok ∧ s.schemaHolds k

/-- 10_state.md R67, second half, R60, R61, and 20_memory.md R107: what a host write does to the VALID bits, to the output
registers and to the RAMs; a host read of the RAM word it wrote gives it back. -/
def Obligations.HostWriteEffects : Prop :=
  ∀ (s t : State) (a v : Word32), s.params.legal → s.status.busy = false → s.hostWrite a v = .next t →
    (a.toNat = 0x40 ∨ a.toNat = 0x44 ∨ isSlotAddr a.toNat → ∀ j, t.isValid j = false)
    ∧ (∀ k, isDescAddr s.params k a.toNat → ∀ j, t.isValid j = (decide (j ≠ k) && s.isValid j))
    ∧ (a.toNat ≠ 0x40 → a.toNat ≠ 0x44 → ¬isSlotAddr a.toNat → (∀ k, ¬isDescAddr s.params k a.toNat) → t.valid = s.valid)
    ∧ t.err = s.err ∧ t.csum = s.csum ∧ t.csrx = s.csrx ∧ t.kindOut = s.kindOut ∧ t.params = s.params
    ∧ (a ≠ 0 → t.cmd = s.cmd ∧ t.status = s.status ∧ t.pending = s.pending)
    ∧ (∀ c, ¬(∃ k, isDescAddr s.params k a.toNat ∧ c = a.toNat) → Memory.read t.desc c = Memory.read s.desc c)
    ∧ (∀ c, ¬(isResAddr s.params a.toNat ∧ c = a.toNat) → Memory.read t.res c = Memory.read s.res c)
    ∧ (∀ k, isDescAddr s.params k a.toNat → Memory.read t.desc a.toNat = some v ∧ t.readWord a.toNat = (v, t))
    ∧ (isResAddr s.params a.toNat → Memory.read t.res a.toNat = some v ∧ t.readWord a.toNat = (v, t))

/-! ## Frames (43_frame.md R266 to R274) -/

/-- 43_frame.md R266, R267: FRAME.DECODE of a frame that passes every check. -/
def Obligations.FrameDecodeDeliversTheSnapshot : Prop :=
  ∀ (sel : DecodeSel) (s : State) (d p x : Nat) (k : Kind) (rs : List (Desc × Int)),
    s.headerRead sel d → s.resolvesTo sel d k → s.payloadIs k p →
    s.frameLen.toNat = s.hdrLen + p + (s.profile k).csw →
    s.frameCsum k s.frameLen.toNat = .ok x → s.frameTrailer k s.frameLen.toNat = .ok x →
    rs.length = (s.slot k).kndesc.toNat →
    (∀ (i : Nat) (e : Desc) (r : Int), rs[i]? = some (e, r) → s.holdsField k i e r ∧ e.vlo ≤ r ∧ r ≤ e.vhi) →
    ∃ t, exec (.frameDecode sel) s = .next t
      ∧ t = { s with
        csum := BitVec.ofNat 64 x, csrx := BitVec.ofNat 64 x
        kindOut := k.code, payLen := BitVec.ofNat 16 p, res := t.res
        err := { code := .ok, fidx := 0, kind := k.code }
        status := { done := true, busy := false, errv := false, matched := false, snapValid := true }
        pending := false }
      ∧ (∀ (i : Nat) (e : Desc) (r : Int), rs[i]? = some (e, r) → t.holdsEntry i e r)
      ∧ ∀ a, (∀ i j, i < rs.length → j < 7 → a ≠ resAddr i j) → Memory.read t.res a = Memory.read s.res a

/-- 60_exceptions.md R302, R303: TOO_SHORT for a frame shorter than the header; UNKNOWN_FRAME_TYPE for a discriminator no
kind carries, whatever the bytes outside the discriminator are (43_frame.md R275). -/
def Obligations.ShortAndUnknownFramesAreReported : Prop :=
  ∀ (sel : DecodeSel) (s : State),
    (s.configServes sel → s.frameLen.toNat ≤ s.params.bufSize → s.frameLen.toNat < s.hdrLen →
      exec (.frameDecode sel) s = .next (s.raise .tooShort 0 sel.code))
    ∧ ∀ d, s.headerRead sel d → s.resolvesToNone sel d →
      exec (.frameDecode sel) s = .next (s.raise .unknownFrameType 0 sel.code)

/-- 60_exceptions.md R304: LENGTH_MISMATCH, for a length field out of its bounds and for a total that is not FRAMELEN. -/
def Obligations.WrongLengthIsReported : Prop :=
  ∀ (sel : DecodeSel) (s : State) (d p : Nat) (k : Kind), s.headerRead sel d → s.resolvesTo sel d k →
    ((s.slot k).lenMode = true ∧ s.lengthField k = .ok p
        ∧ (p < (s.slot k).kpayMin.toNat ∨ (s.slot k).kpayMax.toNat < p))
      ∨ (s.payloadIs k p ∧ s.frameLen.toNat ≠ s.hdrLen + p + (s.profile k).csw) →
    exec (.frameDecode sel) s = .next (s.raise .lengthMismatch 0 k.code)

/-- 60_exceptions.md R305: CHECKSUM_MISMATCH, CSUM and CSRX holding the two values; no field is read, so it does not matter
whether one could be. -/
def Obligations.WrongChecksumIsReported : Prop :=
  ∀ (sel : DecodeSel) (s : State) (d p x rx : Nat) (k : Kind), s.headerRead sel d → s.resolvesTo sel d k →
    s.payloadIs k p → s.frameLen.toNat = s.hdrLen + p + (s.profile k).csw →
    s.frameCsum k s.frameLen.toNat = .ok x → s.frameTrailer k s.frameLen.toNat = .ok rx → x ≠ rx →
    exec (.frameDecode sel) s = .next { s with
      csum := BitVec.ofNat 64 x, csrx := BitVec.ofNat 64 rx
      err := { code := .checksumMismatch, fidx := 0, kind := k.code }
      status := { done := true, busy := false, errv := true, matched := false, snapValid := false }
      pending := false }

/-- 60_exceptions.md R307, R309, R310 for the frame commands: they answer CONFIG_ERROR exactly where the configuration does
not serve them; it is checked first, then FRAMELEN (decode) or PAYLEN (encode). -/
def Obligations.FrameCommandsCheckConfigurationThenOperands : Prop :=
  ∀ s : State,
    (∀ sel : DecodeSel,
      (exec (.frameDecode sel) s = .next (s.raise .configError 0xFF sel.code) ↔ ¬s.configServes sel)
      ∧ (s.configServes sel → ∀ t, exec (.frameDecode sel) s = .next t → t.err.code ≠ .configError)
      ∧ (s.configServes sel → s.params.bufSize < s.frameLen.toNat →
        exec (.frameDecode sel) s = .next (s.raise .operandError 0 sel.code)))
    ∧ ∀ k : Kind,
      (exec (.frameEncode k) s = .next (s.raise .configError 0xFF k.code) ↔ s.isValid k = false)
      ∧ (s.isValid k = true → ∀ t, exec (.frameEncode k) s = .next t → t.err.code ≠ .configError)
      ∧ (s.isValid k = true → (s.slot k).lenMode = true →
        (s.payLen.toNat < (s.slot k).kpayMin.toNat ∨ (s.slot k).kpayMax.toNat < s.payLen.toNat) →
        exec (.frameEncode k) s = .next (s.raise .operandError 0xFF k.code))

/-- 60_exceptions.md R306, R310: among descriptors the lowest failing index is named; in an encode VDEN = 0 of a descriptor
comes before its range, and an unwritten word of its VNUM or VDEN stops the command (40_command.md R166). -/
def Obligations.LowestFailingDescriptorIsNamed : Prop :=
  (∀ (sel : DecodeSel) (s : State) (d p x i : Nat) (k : Kind) (e : Desc) (r : Int),
    s.headerRead sel d → s.resolvesTo sel d k → s.payloadIs k p →
    s.frameLen.toNat = s.hdrLen + p + (s.profile k).csw →
    s.frameCsum k s.frameLen.toNat = .ok x → s.frameTrailer k s.frameLen.toNat = .ok x →
    i < (s.slot k).kndesc.toNat →
    (∀ j < i, ∃ e' r', s.holdsField k j e' r' ∧ e'.vlo ≤ r' ∧ r' ≤ e'.vhi) →
    s.holdsField k i e r → ¬(e.vlo ≤ r ∧ r ≤ e.vhi) →
    exec (.frameDecode sel) s
      = .next (((s.setCsum x).setCsrx x).raise .fieldOutOfRange (BitVec.ofNat 8 i) k.code))
  ∧ ∀ (s : State) (p i : Nat) (k : Kind) (e : Desc), s.isValid k = true →
    ((s.slot k).lenMode = true → p = s.payLen.toNat ∧ (s.slot k).kpayMin.toNat ≤ p ∧ p ≤ (s.slot k).kpayMax.toNat) →
    i < (s.slot k).kndesc.toNat →
    (∀ j < i, ∃ e' r', s.holdsValue k j e' r' ∧ e'.vlo ≤ r' ∧ r' ≤ e'.vhi) →
    (s.readDesc k i = .ok e → s.invScale i e = .error (.raise .operandError (BitVec.ofNat 8 i)) →
      exec (.frameEncode k) s = .next (s.raise .operandError (BitVec.ofNat 8 i) k.code))
    ∧ (s.readDesc k i = .ok e → (∃ j, 2 ≤ j ∧ j < 7 ∧ Memory.read s.res (resAddr i j) = none) →
      exec (.frameEncode k) s = .fault .unwrittenResult)
    ∧ ∀ r, s.holdsValue k i e r → ¬(e.vlo ≤ r ∧ r ≤ e.vhi) →
      exec (.frameEncode k) s = .next (s.raise .fieldOutOfRange (BitVec.ofNat 8 i) k.code)

/-- 43_frame.md R274, second half: a frame that decodes, cut by one byte, gives LENGTH_MISMATCH. -/
def Obligations.TruncatedFrameIsALengthMismatch : Prop :=
  ∀ (sel : DecodeSel) (s t : State), exec (.frameDecode sel) s = .next t → t.err.code = .ok →
    ∃ u, exec (.frameDecode sel) { s with frameLen := s.frameLen - 1 } = .next u ∧ u.err.code = .lengthMismatch

/-- 43_frame.md R272: two FRAME.DECODE commands with the same configuration, FRAMELEN and frame bytes give the same result,
whatever else the two states hold. -/
def Obligations.DecodeDependsOnTheFrameOnly : Prop :=
  ∀ (sel : DecodeSel) (s s' : State), s.Inv → s'.Inv →
    s'.params = s.params → s'.hdrCfg = s.hdrCfg → s'.discOff = s.discOff → s'.slots = s.slots → s'.valid = s.valid →
    s'.desc = s.desc → s'.frameLen = s.frameLen →
    (∀ a < s.frameLen.toNat, Memory.read s'.buf a = Memory.read s.buf a) →
    (∃ f, exec (.frameDecode sel) s = .fault f ∧ exec (.frameDecode sel) s' = .fault f)
    ∨ ∃ t t', exec (.frameDecode sel) s = .next t ∧ exec (.frameDecode sel) s' = .next t'
      ∧ t'.err = t.err ∧ t'.status = t.status
      ∧ (t.err.code = .ok ∨ t.err.code = .checksumMismatch ∨ t.err.code = .fieldOutOfRange →
          t'.csum = t.csum ∧ t'.csrx = t.csrx)
      ∧ (t.err.code = .ok → t'.kindOut = t.kindOut ∧ t'.payLen = t.payLen
          ∧ ∀ k, t.kindOut = k.code → ∀ i < (s.slot k).kndesc.toNat, ∀ j < 7,
              Memory.read t'.res (resAddr i j) = Memory.read t.res (resAddr i j))

/-- 43_frame.md R273: a frame that decodes as kind k, with one bit flipped. In the checksummed range outside the
discriminator and the length field, and in the trailer, it gives CHECKSUM_MISMATCH; in the length field LENGTH_MISMATCH; in
the discriminator UNKNOWN_FRAME_TYPE, for an expected kind and where the new value is no enabled kind's; before the
checksummed range and outside both fields it is not detected. -/
def Obligations.FlippedFrameBitIsAChecksumMismatch : Prop :=
  ∀ (sel : DecodeSel) (s t : State) (k : Kind) (b j : Nat) (v : Byte), s.Inv →
    exec (.frameDecode sel) s = .next t → t.err.code = .ok → t.kindOut = k.code → j < 8 →
    Memory.read s.buf b = some v →
    let s' := { s with buf := Memory.write s.buf b (v ^^^ (1#8 <<< j)) }
    let disc := s.discOff.toNat ≤ b ∧ b < s.discOff.toNat + s.discBytes
    let length := (s.slot k).lenMode = true ∧ (s.slot k).klenOff.toNat ≤ b
      ∧ b < (s.slot k).klenOff.toNat + (s.slot k).lenBytes
    let trailer := s.frameLen.toNat - (s.profile k).csw
    (¬disc → ¬length → (s.slot k).kcsStart.toNat ≤ b → b < trailer →
      ∃ u, exec (.frameDecode sel) s' = .next u ∧ u.err.code = .checksumMismatch)
    ∧ (trailer ≤ b → b < s.frameLen.toNat →
      ∃ u, exec (.frameDecode sel) s' = .next u ∧ u.err.code = .checksumMismatch
        ∧ u.csum = t.csum ∧ u.csrx ≠ t.csrx)
    ∧ (length → ∃ u, exec (.frameDecode sel) s' = .next u ∧ u.err.code = .lengthMismatch)
    ∧ (disc → (sel = .kind k ∨ (sel = .any ∧ ∀ d, s'.disc = .ok d → s'.resolvesToNone .any d) →
        ∃ u, exec (.frameDecode sel) s' = .next u ∧ u.err.code = .unknownFrameType))
    ∧ (¬disc → ¬length → b < (s.slot k).kcsStart.toNat →
      exec (.frameDecode sel) s' = .next { t with buf := s'.buf })

/-- 43_frame.md R269, R270: FRAME.ENCODE of values that pass every check, every template byte of the checksum range being
written before or by the command itself: it writes the discriminator, the length field, the fields and the trailer, the
checksum covering them, and no other byte of the buffer. -/
def Obligations.FrameEncodeBuildsTheFrame : Prop :=
  ∀ (k : Kind) (s : State) (p : Nat) (rs : List (Desc × Int)), s.Inv → s.isValid k = true →
    (if (s.slot k).lenMode then
      p = s.payLen.toNat ∧ (s.slot k).kpayMin.toNat ≤ p ∧ p ≤ (s.slot k).kpayMax.toNat
     else p = (s.slot k).kpayMin.toNat) →
    rs.length = (s.slot k).kndesc.toNat →
    (∀ (i : Nat) (e : Desc) (r : Int), rs[i]? = some (e, r) → s.holdsValue k i e r ∧ e.vlo ≤ r ∧ r ≤ e.vhi) →
    (∀ a, (s.slot k).kcsStart.toNat ≤ a → a < s.hdrLen + p → Memory.read s.buf a ≠ none
      ∨ (s.discOff.toNat ≤ a ∧ a < s.discOff.toNat + s.discBytes)
      ∨ ((s.slot k).lenMode = true ∧ (s.slot k).klenOff.toNat ≤ a ∧ a < (s.slot k).klenOff.toNat + (s.slot k).lenBytes)
      ∨ ∃ (i : Nat) (e : Desc) (r : Int), rs[i]? = some (e, r) ∧ s.hdrLen + e.offset ≤ a ∧ a < s.hdrLen + e.offset + e.w) →
    ∃ t x, exec (.frameEncode k) s = .next t
      ∧ t = { s with
        csum := BitVec.ofNat 64 x, frameLen := BitVec.ofNat 16 (s.hdrLen + p + (s.profile k).csw)
        payLen := BitVec.ofNat 16 p, buf := t.buf, res := t.res
        err := { code := .ok, fidx := 0, kind := k.code }
        status := { done := true, busy := false, errv := false, matched := false, snapValid := false }
        pending := false }
      ∧ t.disc = .ok (s.slot k).kdisc.toNat
      ∧ ((s.slot k).lenMode = true → t.lengthField k = .ok p)
      ∧ (∀ (i : Nat) (e : Desc) (r : Int), rs[i]? = some (e, r) → t.holdsField k i e r
          ∧ t.holdsResWords i 0 (natToWords 2 (Machine.pattern 64 r)))
      ∧ t.frameCsum k (s.hdrLen + p + (s.profile k).csw) = .ok x
      ∧ t.frameTrailer k (s.hdrLen + p + (s.profile k).csw) = .ok x
      ∧ (∀ a, (a < s.discOff.toNat ∨ s.discOff.toNat + s.discBytes ≤ a) →
          ((s.slot k).lenMode = true →
            a < (s.slot k).klenOff.toNat ∨ (s.slot k).klenOff.toNat + (s.slot k).lenBytes ≤ a) →
          (∀ (i : Nat) (e : Desc) (r : Int), rs[i]? = some (e, r) → a < s.hdrLen + e.offset ∨ s.hdrLen + e.offset + e.w ≤ a) →
          (a < s.hdrLen + p ∨ s.hdrLen + p + (s.profile k).csw ≤ a) → Memory.read t.buf a = Memory.read s.buf a)
      ∧ ∀ a, (∀ i < rs.length, a ≠ resAddr i 0 ∧ a ≠ resAddr i 1) → Memory.read t.res a = Memory.read s.res a

/-- 43_frame.md R271: a frame that FRAME.ENCODE built decodes, as its kind and as any kind where every enabled kind is
valid, to the same kind, payload length and raw integers. -/
def Obligations.DecodeAfterEncodeRoundTrip : Prop :=
  ∀ (k : Kind) (s t : State) (sel : DecodeSel), s.Inv → exec (.frameEncode k) s = .next t → t.err.code = .ok →
    (sel = .kind k ∨ (sel = .any ∧ s.configServes .any)) →
    ∃ u, exec (.frameDecode sel) t = .next u ∧ u.err.code = .ok ∧ u.status.snapValid = true
      ∧ u.kindOut = k.code ∧ u.payLen = t.payLen ∧ u.csum = t.csum ∧ u.csrx = t.csum ∧ u.buf = t.buf
      ∧ ∀ i < (s.slot k).kndesc.toNat, ∃ e r, s.holdsValue k i e r ∧ u.holdsEntry i e r
          ∧ ∀ j < 2, Memory.read u.res (resAddr i j) = Memory.read t.res (resAddr i j)

/-! ## The invariant and what it rules out -/

/-- Every step keeps the invariant (10_state.md R31, R66 to R68, R71, R73; 40_command.md R160, R162; 43_frame.md R265). -/
def Obligations.StepKeepsTheInvariant : Prop := ∀ s t : State, s.Inv → step s = .next t → t.Inv

/-- The invariant holds after reset, for every legal instance and every host script (10_state.md R72, R73). -/
def Obligations.InvariantHoldsAtReset : Prop :=
  State.reset.Inv ∧ ∀ (p : Params) (h : HostAgent) (ls : List Nat), p.legal →
    State.Inv { State.reset with params := p, host := h, latencies := ls }

/-- 60_exceptions.md R309 and 42_field.md R220: in a state of the invariant no step reads or writes beyond the buffer, and
no command but SCHEMA.CHECK meets an unwritten descriptor word. -/
def Obligations.NoStepLeavesTheBuffer : Prop :=
  ∀ s : State, s.Inv →
    step s ≠ .fault .outsideBuffer
    ∧ (step s = .fault .unwrittenDescriptor → ∃ k, decode s.params.nDesc s.cmd = .ok (.schemaCheck k))

/-! ## The host interface (10_state.md, 20_memory.md) -/

/-- 10_state.md R31, R35 to R38, R42, R45 to R54: a write to a register the host writes completes, the register of that
name then holds the bits it stores and reads back as them, and every other such register is as before; in every idle state a
read gives what the register of that name holds. R32 to R34, R39 to R41, R44 and 60_exceptions.md R301: what the registers
that the engine writes read as, bit by bit. -/
def Obligations.WrittenRegistersReadBack : Prop :=
  (∀ s : State, s.status.busy = false →
    s.readWord 0x000 = (s.cmd, s)
    ∧ (s.readWord 0x004).1.toNat
        = s.status.done.toNat + 2 ^ 2 * s.status.errv.toNat + 2 ^ 3 * s.status.matched.toNat + 2 ^ 4 * s.status.snapValid.toNat
    ∧ (∀ code n, (code, n) ∈ [(ResultCode.ok, 0), (.tooShort, 1), (.unknownFrameType, 2), (.lengthMismatch, 3),
        (.checksumMismatch, 4), (.fieldOutOfRange, 5), (.configError, 6), (.illegalCommand, 7), (.operandError, 8)] →
        s.err.code = code → (s.readWord 0x008).1.toNat = n + 2 ^ 8 * s.err.fidx.toNat + 2 ^ 16 * s.err.kind.toNat)
    ∧ (s.readWord 0x020).1.toNat = s.csum.toNat % 2 ^ 32 ∧ (s.readWord 0x024).1.toNat = s.csum.toNat / 2 ^ 32
    ∧ (s.readWord 0x028).1.toNat = s.csrx.toNat % 2 ^ 32 ∧ (s.readWord 0x02C).1.toNat = s.csrx.toNat / 2 ^ 32
    ∧ (s.readWord 0x030).1.toNat = s.kindOut.toNat
    ∧ (∀ i, (s.readWord 0x03C).1.getLsbD i = true ↔ ∃ k : Kind, k.code.toNat = i ∧ s.isValid k = true))
  ∧ ∀ (s : State) (r : HostReg) (v : Word32), s.status.busy = false → r ∈ hostRegs →
    (s.readWord r.addr).1.toNat = r.word s
    ∧ ∃ t, s.hostWrite (BitVec.ofNat 32 r.addr) v = .next t
      ∧ r.word t = (v &&& BitVec.ofNat 32 r.mask).toNat
      ∧ (t.readWord r.addr).1 = v &&& BitVec.ofNat 32 r.mask
      ∧ ∀ r' ∈ hostRegs, r'.addr ≠ r.addr → r'.word t = r'.word s

/-- 10_state.md R31, R55, R56, R60, R61, R66 and 20_memory.md R108: a read-only register ignores a write; a reserved address
ignores a write and reads as 0. -/
def Obligations.ReadOnlyAndReservedAddressesIgnoreWrites : Prop :=
  ∀ (s : State) (v : Word32) (a : Nat), s.params.legal → s.status.busy = false → a < 0x10000 → a % 4 = 0 →
    (a ∈ [0x004, 0x008, 0x020, 0x024, 0x028, 0x02C, 0x030, 0x038, 0x03C] →
      s.hostWrite (BitVec.ofNat 32 a) v = .next s)
    ∧ ((0x048 ≤ a ∧ a < 0x100) ∨ (0x100 ≤ a ∧ a < 0x2000 ∧ ¬isSlotAddr a)
        ∨ (0x2000 ≤ a ∧ a < 0x4000 ∧ ∀ k, ¬isDescAddr s.params k a)
        ∨ (0x4000 ≤ a ∧ a < 0x8000 ∧ ¬isResAddr s.params a) ∨ 0x8000 + s.params.bufSize ≤ a →
      s.hostWrite (BitVec.ofNat 32 a) v = .next s ∧ s.readWord a = (0, s))

/-- 20_memory.md R102: the buffer window, little-endian by byte lane. That the draw of an unwritten lane is
`Config.unwrittenByte` of `draws` and the byte's index is the model's form of it (log 5). -/
def Obligations.WindowLanesAreLittleEndian : Prop :=
  ∀ (s : State) (m : Nat) (v : Word32), s.params.legal → s.status.busy = false → 4 * m < s.params.bufSize →
    (∃ t, s.hostWrite (BitVec.ofNat 32 (0x8000 + 4 * m)) v = .next t
      ∧ t = { s with buf := t.buf }
      ∧ (∀ j < 4, Memory.read t.buf (4 * m + j) = some (v.extractLsb' (8 * j) 8))
      ∧ ∀ c, c < 4 * m ∨ 4 * m + 4 ≤ c → Memory.read t.buf c = Memory.read s.buf c)
    ∧ (s.readWord (0x8000 + 4 * m)).1.toNat
        = ∑ j ∈ Finset.range 4,
            ((Memory.read s.buf (4 * m + j)).getD (Config.unwrittenByte s.draws (4 * m + j))).toNat * 2 ^ (8 * j)

/-- 20_memory.md R107: with no command in flight a host read has no side effect, and a host write other than to CMD is
idempotent. -/
def Obligations.ReadsArePureAndWritesIdempotent : Prop :=
  ∀ (s : State), s.status.busy = false →
    (∀ a : Nat, (s.readWord a).2 = s)
    ∧ ∀ (a v : Word32) (t : State), a ≠ 0 → s.hostWrite a v = .next t → t.hostWrite a v = .next t

/-- 20_memory.md R109: host reads while a command is in flight. That the draw of a read of any other address, CAP included,
is `Config.busyRead` of `draws`, which the read advances, is the model's form of it (log 6). -/
def Obligations.BusyReadsShowStatusAndCmdOnly : Prop :=
  ∀ (s : State) (a : Nat), s.status.busy = true →
    s.readWord 0x000 = (s.cmd, s)
    ∧ s.readWord 0x004 = (s.status.word, s)
    ∧ (s.flagsAgree → s.status.word = 2)
    ∧ (a % 4 = 0 → a ≠ 0x000 → a ≠ 0x004 → s.readWord a = (Config.busyRead s.draws, { s with draws := s.draws + 1 }))

/-- 70_reset_and_hazards.md R330, R331 and 10_state.md R43, R72: reset, at any point, leaves every register 0 but CAP,
discards a pending command and leaves the RAMs unwritten. -/
def Obligations.ResetClearsTheBlock : Prop :=
  ∀ s : State, s.pending = false ∨ s.latency ≠ 0 → s.host.script[s.host.pos]? = some .reset →
    ∃ t, step s = .next t ∧ t.pending = false ∧ t.desc = [] ∧ t.res = [] ∧ t.buf = [] ∧ t.params = s.params
      ∧ (∀ k, t.isValid k = false)
      ∧ (∀ a, a < 0x2000 → a % 4 = 0 → a ≠ 0x038 → t.readWord a = (0, t))
      ∧ (s.params.legal → (t.readWord 0x038).1.toNat = s.params.bufSize + 2 ^ 16 * s.params.nDesc + 2 ^ 24 * 5)
end

