-- ==== Sys2Proof/Laws/Checksums.lean ====
section
/-! SUPPORT. Legal profiles as inequalities, and the bounds of the CRC register. -/

namespace Sys2Proof.Machine

theorem Profile.legal_iff (p : Profile) :
    p.legal = true ↔ p.alg ≠ .illegal ∧ p.init < 2 ^ p.w ∧ p.xorOut < 2 ^ p.w ∧ (p.alg = .xor → p.csw = 1)
      ∧ (p.alg = .sum → p.sumFin ≠ .illegal) ∧ (p.alg = .crc → 0 < p.poly ∧ p.poly < 2 ^ p.w) := by
  simp only [Profile.legal]
  split
  · simp [*]
  split
  · simp
    intros
    omega
  split
  · simp_all
  split
  · simp_all
  split
  · simp_all
  · simp_all

theorem reflect_lt (n v : Nat) : reflect n v < 2 ^ n := by
  induction n generalizing v with
  | zero => simp [reflect]
  | succ n ih =>
    apply Nat.or_lt_two_pow
    · rw [Nat.shiftLeft_eq, pow_succ, Nat.mul_comm]
      exact Nat.mul_lt_mul_of_pos_left (Nat.mod_lt _ (by decide)) (by positivity)
    · exact lt_trans (ih _) (Nat.pow_lt_pow_right (by decide) (by omega))

theorem crcBit_lt (w poly r : Nat) : crcBit w poly r < 2 ^ w := by
  rw [crcBit]
  split <;> exact Nat.mod_lt _ (by positivity)

theorem crcBits_lt {w poly n r : Nat} (h : r < 2 ^ w) : crcBits w poly n r < 2 ^ w := by
  induction n generalizing r with
  | zero => exact h
  | succ n ih => exact ih (crcBit_lt _ _ _)

theorem crcReg_lt {w poly r : Nat} {refIn : Bool} {bs : List Byte} (h : r < 2 ^ w) : crcReg w poly refIn r bs < 2 ^ w := by
  induction bs generalizing r with
  | nil => exact h
  | cons b bs ih => exact ih (crcBit_lt _ _ _)

theorem crcReg_append (w poly r : Nat) (refIn : Bool) (as bs : List Byte) :
    crcReg w poly refIn r (as ++ bs) = crcReg w poly refIn (crcReg w poly refIn r as) bs := by
  induction as generalizing r with
  | nil => rfl
  | cons a as ih => simp only [List.cons_append, crcReg, ih]

end Sys2Proof.Machine
end

