-- ==== Sys2Proof/Laws/Encoding.lean ====
section
/-! SUPPORT. The fields of a command word (30_encoding.md R130). -/

namespace Sys2Proof

theorem commandWord_toNat (o : BitVec 8) (k : BitVec 3) (i : BitVec 8) :
    (commandWord o k i).toNat = o.toNat + 0x100 * k.toNat + 0x10000 * i.toNat := by
  have ho := o.isLt
  have hk := k.isLt
  have hi := i.isLt
  simp only [commandWord, BitVec.toNat_or, BitVec.toNat_shiftLeft, BitVec.toNat_setWidth, Nat.shiftLeft_eq]
  rw [Nat.mod_eq_of_lt (by omega : o.toNat < 2 ^ 32), Nat.mod_eq_of_lt (by omega : k.toNat < 2 ^ 32),
    Nat.mod_eq_of_lt (by omega : i.toNat < 2 ^ 32), Nat.mod_eq_of_lt (by omega : k.toNat * 2 ^ 8 < 2 ^ 32),
    Nat.mod_eq_of_lt (by omega : i.toNat * 2 ^ 16 < 2 ^ 32), Nat.or_comm o.toNat, Nat.mul_comm k.toNat,
    ← Nat.two_pow_add_eq_or_of_lt ho, Nat.or_comm, Nat.mul_comm i.toNat, ← Nat.two_pow_add_eq_or_of_lt (by omega)]
  omega

variable (o : BitVec 8) (k : BitVec 3) (i : BitVec 8)

@[simp] theorem opcOf_commandWord : opcOf (commandWord o k i) = o := by
  have := o.isLt
  apply BitVec.eq_of_toNat_eq
  simp only [opcOf, BitVec.extractLsb'_toNat, commandWord_toNat, Nat.shiftRight_eq_div_pow]
  omega

@[simp] theorem selOf_commandWord : selOf (commandWord o k i) = k := by
  have := o.isLt
  have := k.isLt
  apply BitVec.eq_of_toNat_eq
  simp only [selOf, BitVec.extractLsb'_toNat, commandWord_toNat, Nat.shiftRight_eq_div_pow]
  omega

@[simp] theorem idxOf_commandWord : idxOf (commandWord o k i) = i := by
  have := o.isLt
  have := k.isLt
  have := i.isLt
  apply BitVec.eq_of_toNat_eq
  simp only [idxOf, BitVec.extractLsb'_toNat, commandWord_toNat, Nat.shiftRight_eq_div_pow]
  omega

@[simp] theorem rsv0Of_commandWord : rsv0Of (commandWord o k i) = 0 := by
  have := o.isLt
  have := k.isLt
  apply BitVec.eq_of_toNat_eq
  simp only [rsv0Of, BitVec.extractLsb'_toNat, commandWord_toNat, Nat.shiftRight_eq_div_pow]
  change _ = 0
  omega

@[simp] theorem rsv1Of_commandWord : rsv1Of (commandWord o k i) = 0 := by
  have := o.isLt
  have := k.isLt
  have := i.isLt
  apply BitVec.eq_of_toNat_eq
  simp only [rsv1Of, BitVec.extractLsb'_toNat, commandWord_toNat, Nat.shiftRight_eq_div_pow]
  change _ = 0
  omega

/-- A word without reserved bits is the word of its own fields. -/
theorem commandWord_fields {w : Word32} (h0 : rsv0Of w = 0) (h1 : rsv1Of w = 0) :
    commandWord (opcOf w) (selOf w) (idxOf w) = w := by
  have hw := w.isLt
  have h0 : (rsv0Of w).toNat = 0 := by rw [h0]; rfl
  have h1 : (rsv1Of w).toNat = 0 := by rw [h1]; rfl
  apply BitVec.eq_of_toNat_eq
  simp only [rsv0Of, rsv1Of, opcOf, selOf, idxOf, BitVec.extractLsb'_toNat, commandWord_toNat,
    Nat.shiftRight_eq_div_pow] at *
  omega

theorem sel_cases (x : BitVec 3) : x = 0 ∨ x = 1 ∨ x = 2 ∨ x = 3 ∨ x = 4 ∨ x = 5 ∨ x = 6 ∨ x = 7 := by
  revert x; decide

/-- A kind is its SEL. -/
@[simp] theorem Kind.ofCode_code (k : Kind) : Kind.ofCode k.code = some k := by cases k <;> rfl

theorem Kind.code_injective {j k : Kind} (h : j.code = k.code) : j = k := by
  cases j <;> cases k <;> first | rfl | exact absurd h (by decide)

@[simp] theorem Kind.code_toNat (k : Kind) : k.code.toNat = k.index := by cases k <;> rfl

@[simp] theorem DecodeSel.ofCode_code (q : DecodeSel) : DecodeSel.ofCode q.code = some q := by
  cases q with
  | any => rfl
  | kind k => cases k <;> rfl

end Sys2Proof
end

