-- ==== Sys2Proof/Laws/Memory.lean ====
section
/-! SUPPORT. The laws of the memory operations: what a read gives after a write, and that every operation keeps the
canonical form. None but the last needs the canonical form. -/

namespace Sys2Proof.Machine

variable {α : Type}

@[simp] theorem Memory.read_nil (a : Nat) : Memory.read ([] : Memory α) a = none := rfl

theorem Memory.read_cons (b : Nat) (v : α) (m : Memory α) (a : Nat) :
    Memory.read ((b, v) :: m) a = if a = b then some v else Memory.read m a := rfl

theorem Memory.write_cons (b : Nat) (w : α) (m : Memory α) (a : Nat) (v : α) :
    Memory.write ((b, w) :: m) a v
      = if a < b then (a, v) :: (b, w) :: m else if a = b then (a, v) :: m else (b, w) :: Memory.write m a v := rfl

/-- Reading what was just written. -/
@[simp] theorem Memory.read_write_same (m : Memory α) (a : Nat) (v : α) : Memory.read (Memory.write m a v) a = some v := by
  induction m with
  | nil => simp [Memory.write, Memory.read]
  | cons p m ih =>
    obtain ⟨b, w⟩ := p
    rw [Memory.write_cons]
    split
    · simp [Memory.read]
    · split
      · simp [Memory.read]
      · next h => simp [Memory.read_cons, h, ih]

/-- A write leaves every other key alone. -/
theorem Memory.read_write_other (m : Memory α) {a c : Nat} (v : α) (h : c ≠ a) :
    Memory.read (Memory.write m a v) c = Memory.read m c := by
  induction m with
  | nil => simp [Memory.write, Memory.read, h]
  | cons p m ih =>
    obtain ⟨b, w⟩ := p
    rw [Memory.write_cons]
    split
    · simp [Memory.read_cons, h]
    · split
      · next hb => subst hb; simp [Memory.read_cons, h]
      · simp [Memory.read_cons, ih]

theorem Memory.read_write (m : Memory α) (a c : Nat) (v : α) :
    Memory.read (Memory.write m a v) c = if c = a then some v else Memory.read m c := by
  split
  · next h => subst h; simp
  · next h => exact Memory.read_write_other m v h

/-- Writing twice at one key is writing the second value. -/
@[simp] theorem Memory.write_write_same (m : Memory α) (a : Nat) (v w : α) :
    Memory.write (Memory.write m a v) a w = Memory.write m a w := by
  induction m with
  | nil => simp [Memory.write]
  | cons p m ih =>
    obtain ⟨b, u⟩ := p
    rw [Memory.write_cons, Memory.write_cons]
    split
    · simp [Memory.write_cons]
    · split
      · simp [Memory.write_cons]
      · next h1 h2 => simp [Memory.write_cons, h1, h2, ih]

/-- Writes at two keys commute. -/
theorem Memory.write_comm (m : Memory α) {a b : Nat} (v w : α) (h : a ≠ b) :
    Memory.write (Memory.write m a v) b w = Memory.write (Memory.write m b w) a v := by
  induction m with
  | nil =>
    simp only [Memory.write]
    repeat' split
    all_goals first | rfl | (exfalso; omega)
  | cons p m ih =>
    obtain ⟨c, u⟩ := p
    simp only [Memory.write_cons]
    repeat' split
    all_goals simp only [Memory.write_cons]
    all_goals repeat' split
    all_goals first | rfl | (exfalso; omega) | simp_all

/-- The keys of a written memory are the old ones and the new one. -/
theorem Memory.mem_write {m : Memory α} {a : Nat} {v : α} {p : Nat × α} (h : p ∈ Memory.write m a v) :
    p = (a, v) ∨ p ∈ m := by
  induction m with
  | nil => simpa [Memory.write] using h
  | cons q m ih =>
    obtain ⟨b, w⟩ := q
    rw [Memory.write_cons] at h
    split at h
    · simpa using h
    · split at h
      · rcases List.mem_cons.1 h with h | h
        · exact .inl h
        · exact .inr (List.mem_cons_of_mem _ h)
      · rcases List.mem_cons.1 h with h | h
        · exact .inr (h ▸ List.mem_cons_self)
        · exact (ih h).imp id (List.mem_cons_of_mem _)

theorem Memory.wf_cons {b : Nat} {w : α} {m : Memory α} :
    Memory.wf ((b, w) :: m) ↔ (∀ p ∈ m, b < p.1) ∧ Memory.wf m := by
  simp [Memory.wf, List.pairwise_cons]

/-- A write keeps the canonical form. -/
theorem Memory.write_wf {m : Memory α} (hm : Memory.wf m) (a : Nat) (v : α) : Memory.wf (Memory.write m a v) := by
  induction m with
  | nil => simp [Memory.write, Memory.wf]
  | cons q m ih =>
    obtain ⟨b, w⟩ := q
    obtain ⟨hlt, hwf⟩ := Memory.wf_cons.1 hm
    rw [Memory.write_cons]
    split
    · next hab =>
      refine Memory.wf_cons.2 ⟨fun p hp => ?_, hm⟩
      rcases List.mem_cons.1 hp with rfl | hp
      · exact hab
      · exact Nat.lt_trans hab (hlt p hp)
    · split
      · next hab => subst hab; exact Memory.wf_cons.2 ⟨hlt, hwf⟩
      · next h1 h2 =>
        refine Memory.wf_cons.2 ⟨fun p hp => ?_, ih hwf⟩
        rcases Memory.mem_write hp with rfl | hp
        · show b < a; omega
        · exact hlt p hp

/-- A key that reads as a value is listed. -/
theorem Memory.mem_of_read {m : Memory α} {a : Nat} {v : α} (h : Memory.read m a = some v) : (a, v) ∈ m := by
  induction m with
  | nil => simp at h
  | cons q m ih =>
    obtain ⟨b, w⟩ := q
    rw [Memory.read_cons] at h
    split at h
    · next hab => subst hab; simp_all
    · exact List.mem_cons_of_mem _ (ih h)

/-! ## Sequences -/

@[simp] theorem Memory.readSeq_zero (m : Memory α) (stride a : Nat) : Memory.readSeq m stride a 0 = some [] := rfl

/-- What a sequence of reads answers: every value, in order. -/
theorem Memory.readSeq_eq_some {m : Memory α} {stride : Nat} {n a : Nat} {vs : List α} :
    Memory.readSeq m stride a n = some vs
      ↔ vs.length = n ∧ ∀ j, (h : j < vs.length) → Memory.read m (a + stride * j) = some vs[j] := by
  induction n generalizing a vs with
  | zero =>
    rw [Memory.readSeq_zero]
    constructor
    · rintro ⟨rfl⟩; simp
    · rintro ⟨h, -⟩; rw [List.length_eq_zero_iff.1 h]
  | succ n ih =>
    rw [Memory.readSeq]
    cases hr : Memory.read m a with
    | none =>
      constructor
      · intro h; cases h
      · rintro ⟨hl, h⟩
        have := h 0 (by omega)
        simp [hr] at this
    | some v =>
      simp only [Option.map_eq_some_iff]
      constructor
      · rintro ⟨ws, hws, rfl⟩
        obtain ⟨hl, h⟩ := ih.1 hws
        refine ⟨by simp [hl], fun j hj => ?_⟩
        cases j with
        | zero => simpa using hr
        | succ j =>
          have := h j (by simpa using hj)
          rw [List.getElem_cons_succ, ← this]
          congr 1
          rw [Nat.mul_succ]; omega
      · rintro ⟨hl, h⟩
        cases vs with
        | nil => simp at hl
        | cons w ws =>
          have h0 := h 0 (by simp)
          simp [hr] at h0
          subst h0
          refine ⟨ws, ih.2 ⟨by simpa using hl, fun j hj => ?_⟩, rfl⟩
          have := h (j + 1) (by simpa using hj)
          rw [List.getElem_cons_succ] at this
          rw [← this]
          congr 1
          rw [Nat.mul_succ]; omega

/-- A sequence of reads answers none exactly when one of them does. -/
theorem Memory.readSeq_eq_none {m : Memory α} {stride n a : Nat} :
    Memory.readSeq m stride a n = none ↔ ∃ j < n, Memory.read m (a + stride * j) = none := by
  induction n generalizing a with
  | zero => simp
  | succ n ih =>
    rw [Memory.readSeq]
    cases hr : Memory.read m a with
    | none => exact ⟨fun _ => ⟨0, by omega, by simpa using hr⟩, fun _ => rfl⟩
    | some v =>
      simp only [Option.map_eq_none_iff, ih]
      constructor
      · rintro ⟨j, hj, h⟩
        refine ⟨j + 1, by omega, ?_⟩
        rw [← h]; congr 1; rw [Nat.mul_succ]; omega
      · rintro ⟨j, hj, h⟩
        cases j with
        | zero => simp [hr] at h
        | succ j =>
          refine ⟨j, by omega, ?_⟩
          rw [← h]; congr 1; rw [Nat.mul_succ]; omega

/-- A sequence of reads depends only on the keys it reads. -/
theorem Memory.readSeq_congr {m m' : Memory α} {stride n a : Nat}
    (h : ∀ j < n, Memory.read m (a + stride * j) = Memory.read m' (a + stride * j)) :
    Memory.readSeq m stride a n = Memory.readSeq m' stride a n := by
  induction n generalizing a with
  | zero => rfl
  | succ n ih =>
    have h0 := h 0 (by omega)
    simp only [Nat.mul_zero, Nat.add_zero] at h0
    rw [Memory.readSeq, Memory.readSeq, h0, ih]
    intro j hj
    have := h (j + 1) (by omega)
    rw [Nat.mul_succ] at this
    rwa [show a + stride + stride * j = a + (stride * j + stride) by omega]

@[simp] theorem Memory.writeSeq_nil (m : Memory α) (stride a : Nat) : Memory.writeSeq stride m a [] = m := rfl

theorem Memory.writeSeq_cons (m : Memory α) (stride a : Nat) (v : α) (vs : List α) :
    Memory.writeSeq stride m a (v :: vs) = Memory.writeSeq stride (Memory.write m a v) (a + stride) vs := rfl

/-- A sequence of writes leaves every key it does not write alone. -/
theorem Memory.read_writeSeq_other {m : Memory α} {stride a c : Nat} {vs : List α}
    (h : ∀ j < vs.length, c ≠ a + stride * j) : Memory.read (Memory.writeSeq stride m a vs) c = Memory.read m c := by
  induction vs generalizing m a with
  | nil => rfl
  | cons v vs ih =>
    rw [Memory.writeSeq_cons, ih, Memory.read_write_other]
    · simpa using h 0 (by simp)
    · intro j hj
      have := h (j + 1) (by simpa using hj)
      rw [Nat.mul_succ] at this
      omega

/-- Reading back what a sequence of writes wrote. -/
theorem Memory.read_writeSeq_same {m : Memory α} {stride a j : Nat} {vs : List α} (hs : 0 < stride) (h : j < vs.length) :
    Memory.read (Memory.writeSeq stride m a vs) (a + stride * j) = some vs[j] := by
  induction vs generalizing m a j with
  | nil => simp at h
  | cons v vs ih =>
    rw [Memory.writeSeq_cons]
    cases j with
    | zero =>
      rw [Memory.read_writeSeq_other]
      · simp
      · intro i _
        simp only [Nat.mul_zero, Nat.add_zero]
        have : 0 ≤ stride * i := Nat.zero_le _
        omega
    | succ j =>
      have := ih (m := Memory.write m a v) (a := a + stride) (j := j) (by simpa using h)
      rw [List.getElem_cons_succ, ← this]
      congr 1
      rw [Nat.mul_succ]; omega

/-- A sequence read back from where it was written. -/
theorem Memory.readSeq_writeSeq {m : Memory α} {stride a : Nat} {vs : List α} (hs : 0 < stride) :
    Memory.readSeq (Memory.writeSeq stride m a vs) stride a vs.length = some vs :=
  Memory.readSeq_eq_some.2 ⟨rfl, fun _ h => Memory.read_writeSeq_same hs h⟩

/-- A sequence of writes keeps the canonical form. -/
theorem Memory.writeSeq_wf {m : Memory α} (hm : Memory.wf m) (stride a : Nat) (vs : List α) :
    Memory.wf (Memory.writeSeq stride m a vs) := by
  induction vs generalizing m a with
  | nil => exact hm
  | cons v vs ih => exact ih (Memory.write_wf hm a v) _

/-- The keys of a memory after a sequence of writes. -/
theorem Memory.mem_writeSeq {m : Memory α} {stride a : Nat} {vs : List α} {p : Nat × α}
    (h : p ∈ Memory.writeSeq stride m a vs) : (∃ j < vs.length, p.1 = a + stride * j) ∨ p ∈ m := by
  induction vs generalizing m a with
  | nil => exact .inr h
  | cons v vs ih =>
    rw [Memory.writeSeq_cons] at h
    rcases ih h with ⟨j, hj, hp⟩ | hp
    · refine .inl ⟨j + 1, by simpa using hj, ?_⟩
      rw [hp, Nat.mul_succ]; omega
    · rcases Memory.mem_write hp with rfl | hp
      · exact .inl ⟨0, by simp, by simp⟩
      · exact .inr hp

/-- Two canonical memories that read alike are equal: equal contents are equal data. -/
theorem Memory.ext_read {m m' : Memory α} (hm : Memory.wf m) (hm' : Memory.wf m')
    (h : ∀ a, Memory.read m a = Memory.read m' a) : m = m' := by
  induction m generalizing m' with
  | nil =>
    cases m' with
    | nil => rfl
    | cons q m' =>
      have := h q.1
      simp [Memory.read] at this
  | cons p m ih =>
    obtain ⟨b, v⟩ := p
    cases m' with
    | nil =>
      have := h b
      simp [Memory.read] at this
    | cons q m' =>
      obtain ⟨c, w⟩ := q
      obtain ⟨hb, hmw⟩ := Memory.wf_cons.1 hm
      obtain ⟨hc, hmw'⟩ := Memory.wf_cons.1 hm'
      have hbc : b = c := by
        by_contra hne
        have h1 := h b
        have h2 := h c
        simp only [Memory.read_cons, if_true, if_neg hne, if_neg (Ne.symm hne)] at h1 h2
        have := hc _ (Memory.mem_of_read h1.symm)
        have := hb _ (Memory.mem_of_read h2)
        simp only at *
        omega
      subst hbc
      have hv := h b
      simp [Memory.read_cons] at hv
      subst hv
      rw [ih hmw hmw']
      intro a
      have ha := h a
      simp only [Memory.read_cons] at ha
      by_cases hab : a = b
      · subst hab
        have n1 : Memory.read m a = none := by
          cases hr : Memory.read m a with
          | none => rfl
          | some u => exact absurd (hb _ (Memory.mem_of_read hr)) (Nat.lt_irrefl _)
        have n2 : Memory.read m' a = none := by
          cases hr : Memory.read m' a with
          | none => rfl
          | some u => exact absurd (hc _ (Memory.mem_of_read hr)) (Nat.lt_irrefl _)
        rw [n1, n2]
      · simpa [hab] using ha

end Sys2Proof.Machine
end

