-- ==== Sys2Proof/Laws/State.lean ====
section
/-! SUPPORT. For every update of State, each of its fields: what the update wrote, or what stood there. With these no
proof unfolds a record update. -/

namespace Sys2Proof.Machine

variable (s : State)

/-! ## One value per kind -/

@[simp] theorem PerKind.get_set_same {α : Type} (p : PerKind α) (k : Kind) (v : α) : (p.set k v).get k = v := by
  cases k <;> rfl

theorem PerKind.get_set_other {α : Type} (p : PerKind α) {k j : Kind} (v : α) (h : j ≠ k) :
    (p.set k v).get j = p.get j := by
  cases k <;> cases j <;> first | rfl | exact absurd rfl h

theorem PerKind.get_set {α : Type} (p : PerKind α) (k j : Kind) (v : α) :
    (p.set k v).get j = if j = k then v else p.get j := by
  cases k <;> cases j <;> rfl

@[simp] theorem allInvalid_get (k : Kind) : allInvalid.get k = false := by cases k <;> rfl

theorem PerKind.ext_get {α : Type} {p q : PerKind α} (h : ∀ k, p.get k = q.get k) : p = q := by
  cases p; cases q
  have h0 := h .settings; have h1 := h .sensorValues; have h2 := h .strings
  have h3 := h .ambientColor; have h4 := h .soundData
  simp only [PerKind.get] at h0 h1 h2 h3 h4
  simp [h0, h1, h2, h3, h4]

/-! ## `State.complete` -/

@[simp] theorem State.complete_params (c : ResultCode) (x : BitVec 8) (q : BitVec 3) (m p : Bool) :
    (s.complete c x q m p).params = s.params := rfl
@[simp] theorem State.complete_cmd (c : ResultCode) (x : BitVec 8) (q : BitVec 3) (m p : Bool) :
    (s.complete c x q m p).cmd = s.cmd := rfl
@[simp] theorem State.complete_status (c : ResultCode) (x : BitVec 8) (q : BitVec 3) (m p : Bool) :
    (s.complete c x q m p).status = Status.completed c m p := rfl
@[simp] theorem State.complete_err (c : ResultCode) (x : BitVec 8) (q : BitVec 3) (m p : Bool) :
    (s.complete c x q m p).err = ⟨c, x, q⟩ := rfl
@[simp] theorem State.complete_frameLen (c : ResultCode) (x : BitVec 8) (q : BitVec 3) (m p : Bool) :
    (s.complete c x q m p).frameLen = s.frameLen := rfl
@[simp] theorem State.complete_arg0 (c : ResultCode) (x : BitVec 8) (q : BitVec 3) (m p : Bool) :
    (s.complete c x q m p).arg0 = s.arg0 := rfl
@[simp] theorem State.complete_arg1 (c : ResultCode) (x : BitVec 8) (q : BitVec 3) (m p : Bool) :
    (s.complete c x q m p).arg1 = s.arg1 := rfl
@[simp] theorem State.complete_exp (c : ResultCode) (x : BitVec 8) (q : BitVec 3) (m p : Bool) :
    (s.complete c x q m p).exp = s.exp := rfl
@[simp] theorem State.complete_csum (c : ResultCode) (x : BitVec 8) (q : BitVec 3) (m p : Bool) :
    (s.complete c x q m p).csum = s.csum := rfl
@[simp] theorem State.complete_csrx (c : ResultCode) (x : BitVec 8) (q : BitVec 3) (m p : Bool) :
    (s.complete c x q m p).csrx = s.csrx := rfl
@[simp] theorem State.complete_kindOut (c : ResultCode) (x : BitVec 8) (q : BitVec 3) (m p : Bool) :
    (s.complete c x q m p).kindOut = s.kindOut := rfl
@[simp] theorem State.complete_payLen (c : ResultCode) (x : BitVec 8) (q : BitVec 3) (m p : Bool) :
    (s.complete c x q m p).payLen = s.payLen := rfl
@[simp] theorem State.complete_hdrCfg (c : ResultCode) (x : BitVec 8) (q : BitVec 3) (m p : Bool) :
    (s.complete c x q m p).hdrCfg = s.hdrCfg := rfl
@[simp] theorem State.complete_discOff (c : ResultCode) (x : BitVec 8) (q : BitVec 3) (m p : Bool) :
    (s.complete c x q m p).discOff = s.discOff := rfl
@[simp] theorem State.complete_slots (c : ResultCode) (x : BitVec 8) (q : BitVec 3) (m p : Bool) :
    (s.complete c x q m p).slots = s.slots := rfl
@[simp] theorem State.complete_valid (c : ResultCode) (x : BitVec 8) (q : BitVec 3) (m p : Bool) :
    (s.complete c x q m p).valid = s.valid := rfl
@[simp] theorem State.complete_pending (c : ResultCode) (x : BitVec 8) (q : BitVec 3) (m p : Bool) :
    (s.complete c x q m p).pending = false := rfl
@[simp] theorem State.complete_desc (c : ResultCode) (x : BitVec 8) (q : BitVec 3) (m p : Bool) :
    (s.complete c x q m p).desc = s.desc := rfl
@[simp] theorem State.complete_res (c : ResultCode) (x : BitVec 8) (q : BitVec 3) (m p : Bool) :
    (s.complete c x q m p).res = s.res := rfl
@[simp] theorem State.complete_buf (c : ResultCode) (x : BitVec 8) (q : BitVec 3) (m p : Bool) :
    (s.complete c x q m p).buf = s.buf := rfl
@[simp] theorem State.complete_host (c : ResultCode) (x : BitVec 8) (q : BitVec 3) (m p : Bool) :
    (s.complete c x q m p).host = s.host := rfl
@[simp] theorem State.complete_latency (c : ResultCode) (x : BitVec 8) (q : BitVec 3) (m p : Bool) :
    (s.complete c x q m p).latency = s.latency := rfl
@[simp] theorem State.complete_latencies (c : ResultCode) (x : BitVec 8) (q : BitVec 3) (m p : Bool) :
    (s.complete c x q m p).latencies = s.latencies := rfl
@[simp] theorem State.complete_draws (c : ResultCode) (x : BitVec 8) (q : BitVec 3) (m p : Bool) :
    (s.complete c x q m p).draws = s.draws := rfl

/-! ## `State.raise` -/

@[simp] theorem State.raise_params (c : ResultCode) (x : BitVec 8) (q : BitVec 3) :
    (s.raise c x q).params = s.params := rfl
@[simp] theorem State.raise_cmd (c : ResultCode) (x : BitVec 8) (q : BitVec 3) : (s.raise c x q).cmd = s.cmd := rfl
@[simp] theorem State.raise_status (c : ResultCode) (x : BitVec 8) (q : BitVec 3) :
    (s.raise c x q).status = Status.completed c false false := rfl
@[simp] theorem State.raise_err (c : ResultCode) (x : BitVec 8) (q : BitVec 3) :
    (s.raise c x q).err = ⟨c, x, q⟩ := rfl
@[simp] theorem State.raise_frameLen (c : ResultCode) (x : BitVec 8) (q : BitVec 3) :
    (s.raise c x q).frameLen = s.frameLen := rfl
@[simp] theorem State.raise_arg0 (c : ResultCode) (x : BitVec 8) (q : BitVec 3) : (s.raise c x q).arg0 = s.arg0 := rfl
@[simp] theorem State.raise_arg1 (c : ResultCode) (x : BitVec 8) (q : BitVec 3) : (s.raise c x q).arg1 = s.arg1 := rfl
@[simp] theorem State.raise_exp (c : ResultCode) (x : BitVec 8) (q : BitVec 3) : (s.raise c x q).exp = s.exp := rfl
@[simp] theorem State.raise_csum (c : ResultCode) (x : BitVec 8) (q : BitVec 3) : (s.raise c x q).csum = s.csum := rfl
@[simp] theorem State.raise_csrx (c : ResultCode) (x : BitVec 8) (q : BitVec 3) : (s.raise c x q).csrx = s.csrx := rfl
@[simp] theorem State.raise_kindOut (c : ResultCode) (x : BitVec 8) (q : BitVec 3) :
    (s.raise c x q).kindOut = s.kindOut := rfl
@[simp] theorem State.raise_payLen (c : ResultCode) (x : BitVec 8) (q : BitVec 3) :
    (s.raise c x q).payLen = s.payLen := rfl
@[simp] theorem State.raise_hdrCfg (c : ResultCode) (x : BitVec 8) (q : BitVec 3) :
    (s.raise c x q).hdrCfg = s.hdrCfg := rfl
@[simp] theorem State.raise_discOff (c : ResultCode) (x : BitVec 8) (q : BitVec 3) :
    (s.raise c x q).discOff = s.discOff := rfl
@[simp] theorem State.raise_slots (c : ResultCode) (x : BitVec 8) (q : BitVec 3) :
    (s.raise c x q).slots = s.slots := rfl
@[simp] theorem State.raise_valid (c : ResultCode) (x : BitVec 8) (q : BitVec 3) :
    (s.raise c x q).valid = s.valid := rfl
@[simp] theorem State.raise_pending (c : ResultCode) (x : BitVec 8) (q : BitVec 3) :
    (s.raise c x q).pending = false := rfl
@[simp] theorem State.raise_desc (c : ResultCode) (x : BitVec 8) (q : BitVec 3) : (s.raise c x q).desc = s.desc := rfl
@[simp] theorem State.raise_res (c : ResultCode) (x : BitVec 8) (q : BitVec 3) : (s.raise c x q).res = s.res := rfl
@[simp] theorem State.raise_buf (c : ResultCode) (x : BitVec 8) (q : BitVec 3) : (s.raise c x q).buf = s.buf := rfl
@[simp] theorem State.raise_host (c : ResultCode) (x : BitVec 8) (q : BitVec 3) : (s.raise c x q).host = s.host := rfl
@[simp] theorem State.raise_latency (c : ResultCode) (x : BitVec 8) (q : BitVec 3) :
    (s.raise c x q).latency = s.latency := rfl
@[simp] theorem State.raise_latencies (c : ResultCode) (x : BitVec 8) (q : BitVec 3) :
    (s.raise c x q).latencies = s.latencies := rfl
@[simp] theorem State.raise_draws (c : ResultCode) (x : BitVec 8) (q : BitVec 3) :
    (s.raise c x q).draws = s.draws := rfl

/-! ## `State.finish` -/

@[simp] theorem State.finish_params (x : BitVec 8) (q : BitVec 3) (m p : Bool) :
    (s.finish x q m p).params = s.params := rfl
@[simp] theorem State.finish_cmd (x : BitVec 8) (q : BitVec 3) (m p : Bool) : (s.finish x q m p).cmd = s.cmd := rfl
@[simp] theorem State.finish_status (x : BitVec 8) (q : BitVec 3) (m p : Bool) :
    (s.finish x q m p).status = Status.completed .ok m p := rfl
@[simp] theorem State.finish_err (x : BitVec 8) (q : BitVec 3) (m p : Bool) :
    (s.finish x q m p).err = ⟨.ok, x, q⟩ := rfl
@[simp] theorem State.finish_frameLen (x : BitVec 8) (q : BitVec 3) (m p : Bool) :
    (s.finish x q m p).frameLen = s.frameLen := rfl
@[simp] theorem State.finish_arg0 (x : BitVec 8) (q : BitVec 3) (m p : Bool) : (s.finish x q m p).arg0 = s.arg0 := rfl
@[simp] theorem State.finish_arg1 (x : BitVec 8) (q : BitVec 3) (m p : Bool) : (s.finish x q m p).arg1 = s.arg1 := rfl
@[simp] theorem State.finish_exp (x : BitVec 8) (q : BitVec 3) (m p : Bool) : (s.finish x q m p).exp = s.exp := rfl
@[simp] theorem State.finish_csum (x : BitVec 8) (q : BitVec 3) (m p : Bool) : (s.finish x q m p).csum = s.csum := rfl
@[simp] theorem State.finish_csrx (x : BitVec 8) (q : BitVec 3) (m p : Bool) : (s.finish x q m p).csrx = s.csrx := rfl
@[simp] theorem State.finish_kindOut (x : BitVec 8) (q : BitVec 3) (m p : Bool) :
    (s.finish x q m p).kindOut = s.kindOut := rfl
@[simp] theorem State.finish_payLen (x : BitVec 8) (q : BitVec 3) (m p : Bool) :
    (s.finish x q m p).payLen = s.payLen := rfl
@[simp] theorem State.finish_hdrCfg (x : BitVec 8) (q : BitVec 3) (m p : Bool) :
    (s.finish x q m p).hdrCfg = s.hdrCfg := rfl
@[simp] theorem State.finish_discOff (x : BitVec 8) (q : BitVec 3) (m p : Bool) :
    (s.finish x q m p).discOff = s.discOff := rfl
@[simp] theorem State.finish_slots (x : BitVec 8) (q : BitVec 3) (m p : Bool) :
    (s.finish x q m p).slots = s.slots := rfl
@[simp] theorem State.finish_valid (x : BitVec 8) (q : BitVec 3) (m p : Bool) :
    (s.finish x q m p).valid = s.valid := rfl
@[simp] theorem State.finish_pending (x : BitVec 8) (q : BitVec 3) (m p : Bool) :
    (s.finish x q m p).pending = false := rfl
@[simp] theorem State.finish_desc (x : BitVec 8) (q : BitVec 3) (m p : Bool) : (s.finish x q m p).desc = s.desc := rfl
@[simp] theorem State.finish_res (x : BitVec 8) (q : BitVec 3) (m p : Bool) : (s.finish x q m p).res = s.res := rfl
@[simp] theorem State.finish_buf (x : BitVec 8) (q : BitVec 3) (m p : Bool) : (s.finish x q m p).buf = s.buf := rfl
@[simp] theorem State.finish_host (x : BitVec 8) (q : BitVec 3) (m p : Bool) : (s.finish x q m p).host = s.host := rfl
@[simp] theorem State.finish_latency (x : BitVec 8) (q : BitVec 3) (m p : Bool) :
    (s.finish x q m p).latency = s.latency := rfl
@[simp] theorem State.finish_latencies (x : BitVec 8) (q : BitVec 3) (m p : Bool) :
    (s.finish x q m p).latencies = s.latencies := rfl
@[simp] theorem State.finish_draws (x : BitVec 8) (q : BitVec 3) (m p : Bool) :
    (s.finish x q m p).draws = s.draws := rfl

/-! ## `State.issue` -/

@[simp] theorem State.issue_params (w : Word32) : (s.issue w).params = s.params := rfl
@[simp] theorem State.issue_cmd (w : Word32) : (s.issue w).cmd = w := rfl
@[simp] theorem State.issue_status (w : Word32) : (s.issue w).status = Status.issued := rfl
@[simp] theorem State.issue_err (w : Word32) : (s.issue w).err = s.err := rfl
@[simp] theorem State.issue_frameLen (w : Word32) : (s.issue w).frameLen = s.frameLen := rfl
@[simp] theorem State.issue_arg0 (w : Word32) : (s.issue w).arg0 = s.arg0 := rfl
@[simp] theorem State.issue_arg1 (w : Word32) : (s.issue w).arg1 = s.arg1 := rfl
@[simp] theorem State.issue_exp (w : Word32) : (s.issue w).exp = s.exp := rfl
@[simp] theorem State.issue_csum (w : Word32) : (s.issue w).csum = s.csum := rfl
@[simp] theorem State.issue_csrx (w : Word32) : (s.issue w).csrx = s.csrx := rfl
@[simp] theorem State.issue_kindOut (w : Word32) : (s.issue w).kindOut = s.kindOut := rfl
@[simp] theorem State.issue_payLen (w : Word32) : (s.issue w).payLen = s.payLen := rfl
@[simp] theorem State.issue_hdrCfg (w : Word32) : (s.issue w).hdrCfg = s.hdrCfg := rfl
@[simp] theorem State.issue_discOff (w : Word32) : (s.issue w).discOff = s.discOff := rfl
@[simp] theorem State.issue_slots (w : Word32) : (s.issue w).slots = s.slots := rfl
@[simp] theorem State.issue_valid (w : Word32) : (s.issue w).valid = s.valid := rfl
@[simp] theorem State.issue_pending (w : Word32) : (s.issue w).pending = true := rfl
@[simp] theorem State.issue_desc (w : Word32) : (s.issue w).desc = s.desc := rfl
@[simp] theorem State.issue_res (w : Word32) : (s.issue w).res = s.res := rfl
@[simp] theorem State.issue_buf (w : Word32) : (s.issue w).buf = s.buf := rfl
@[simp] theorem State.issue_host (w : Word32) : (s.issue w).host = s.host := rfl
@[simp] theorem State.issue_latency (w : Word32) : (s.issue w).latency = s.latencies.headD 0 := rfl
@[simp] theorem State.issue_latencies (w : Word32) : (s.issue w).latencies = s.latencies.tail := rfl
@[simp] theorem State.issue_draws (w : Word32) : (s.issue w).draws = s.draws + 1 := rfl

/-! ## `State.setValid` -/

@[simp] theorem State.setValid_params (k : Kind) (v : Bool) : (s.setValid k v).params = s.params := rfl
@[simp] theorem State.setValid_cmd (k : Kind) (v : Bool) : (s.setValid k v).cmd = s.cmd := rfl
@[simp] theorem State.setValid_status (k : Kind) (v : Bool) : (s.setValid k v).status = s.status := rfl
@[simp] theorem State.setValid_err (k : Kind) (v : Bool) : (s.setValid k v).err = s.err := rfl
@[simp] theorem State.setValid_frameLen (k : Kind) (v : Bool) : (s.setValid k v).frameLen = s.frameLen := rfl
@[simp] theorem State.setValid_arg0 (k : Kind) (v : Bool) : (s.setValid k v).arg0 = s.arg0 := rfl
@[simp] theorem State.setValid_arg1 (k : Kind) (v : Bool) : (s.setValid k v).arg1 = s.arg1 := rfl
@[simp] theorem State.setValid_exp (k : Kind) (v : Bool) : (s.setValid k v).exp = s.exp := rfl
@[simp] theorem State.setValid_csum (k : Kind) (v : Bool) : (s.setValid k v).csum = s.csum := rfl
@[simp] theorem State.setValid_csrx (k : Kind) (v : Bool) : (s.setValid k v).csrx = s.csrx := rfl
@[simp] theorem State.setValid_kindOut (k : Kind) (v : Bool) : (s.setValid k v).kindOut = s.kindOut := rfl
@[simp] theorem State.setValid_payLen (k : Kind) (v : Bool) : (s.setValid k v).payLen = s.payLen := rfl
@[simp] theorem State.setValid_hdrCfg (k : Kind) (v : Bool) : (s.setValid k v).hdrCfg = s.hdrCfg := rfl
@[simp] theorem State.setValid_discOff (k : Kind) (v : Bool) : (s.setValid k v).discOff = s.discOff := rfl
@[simp] theorem State.setValid_slots (k : Kind) (v : Bool) : (s.setValid k v).slots = s.slots := rfl
@[simp] theorem State.setValid_valid (k : Kind) (v : Bool) : (s.setValid k v).valid = s.valid.set k v := rfl
@[simp] theorem State.setValid_pending (k : Kind) (v : Bool) : (s.setValid k v).pending = s.pending := rfl
@[simp] theorem State.setValid_desc (k : Kind) (v : Bool) : (s.setValid k v).desc = s.desc := rfl
@[simp] theorem State.setValid_res (k : Kind) (v : Bool) : (s.setValid k v).res = s.res := rfl
@[simp] theorem State.setValid_buf (k : Kind) (v : Bool) : (s.setValid k v).buf = s.buf := rfl
@[simp] theorem State.setValid_host (k : Kind) (v : Bool) : (s.setValid k v).host = s.host := rfl
@[simp] theorem State.setValid_latency (k : Kind) (v : Bool) : (s.setValid k v).latency = s.latency := rfl
@[simp] theorem State.setValid_latencies (k : Kind) (v : Bool) : (s.setValid k v).latencies = s.latencies := rfl
@[simp] theorem State.setValid_draws (k : Kind) (v : Bool) : (s.setValid k v).draws = s.draws := rfl

/-! ## `State.clearAllValid` -/

@[simp] theorem State.clearAllValid_params : s.clearAllValid.params = s.params := rfl
@[simp] theorem State.clearAllValid_cmd : s.clearAllValid.cmd = s.cmd := rfl
@[simp] theorem State.clearAllValid_status : s.clearAllValid.status = s.status := rfl
@[simp] theorem State.clearAllValid_err : s.clearAllValid.err = s.err := rfl
@[simp] theorem State.clearAllValid_frameLen : s.clearAllValid.frameLen = s.frameLen := rfl
@[simp] theorem State.clearAllValid_arg0 : s.clearAllValid.arg0 = s.arg0 := rfl
@[simp] theorem State.clearAllValid_arg1 : s.clearAllValid.arg1 = s.arg1 := rfl
@[simp] theorem State.clearAllValid_exp : s.clearAllValid.exp = s.exp := rfl
@[simp] theorem State.clearAllValid_csum : s.clearAllValid.csum = s.csum := rfl
@[simp] theorem State.clearAllValid_csrx : s.clearAllValid.csrx = s.csrx := rfl
@[simp] theorem State.clearAllValid_kindOut : s.clearAllValid.kindOut = s.kindOut := rfl
@[simp] theorem State.clearAllValid_payLen : s.clearAllValid.payLen = s.payLen := rfl
@[simp] theorem State.clearAllValid_hdrCfg : s.clearAllValid.hdrCfg = s.hdrCfg := rfl
@[simp] theorem State.clearAllValid_discOff : s.clearAllValid.discOff = s.discOff := rfl
@[simp] theorem State.clearAllValid_slots : s.clearAllValid.slots = s.slots := rfl
@[simp] theorem State.clearAllValid_valid : s.clearAllValid.valid = allInvalid := rfl
@[simp] theorem State.clearAllValid_pending : s.clearAllValid.pending = s.pending := rfl
@[simp] theorem State.clearAllValid_desc : s.clearAllValid.desc = s.desc := rfl
@[simp] theorem State.clearAllValid_res : s.clearAllValid.res = s.res := rfl
@[simp] theorem State.clearAllValid_buf : s.clearAllValid.buf = s.buf := rfl
@[simp] theorem State.clearAllValid_host : s.clearAllValid.host = s.host := rfl
@[simp] theorem State.clearAllValid_latency : s.clearAllValid.latency = s.latency := rfl
@[simp] theorem State.clearAllValid_latencies : s.clearAllValid.latencies = s.latencies := rfl
@[simp] theorem State.clearAllValid_draws : s.clearAllValid.draws = s.draws := rfl

/-! ## `State.setResWords` -/

@[simp] theorem State.setResWords_params (i j : Nat) (ws : List Word32) :
    (s.setResWords i j ws).params = s.params := rfl
@[simp] theorem State.setResWords_cmd (i j : Nat) (ws : List Word32) : (s.setResWords i j ws).cmd = s.cmd := rfl
@[simp] theorem State.setResWords_status (i j : Nat) (ws : List Word32) :
    (s.setResWords i j ws).status = s.status := rfl
@[simp] theorem State.setResWords_err (i j : Nat) (ws : List Word32) : (s.setResWords i j ws).err = s.err := rfl
@[simp] theorem State.setResWords_frameLen (i j : Nat) (ws : List Word32) :
    (s.setResWords i j ws).frameLen = s.frameLen := rfl
@[simp] theorem State.setResWords_arg0 (i j : Nat) (ws : List Word32) : (s.setResWords i j ws).arg0 = s.arg0 := rfl
@[simp] theorem State.setResWords_arg1 (i j : Nat) (ws : List Word32) : (s.setResWords i j ws).arg1 = s.arg1 := rfl
@[simp] theorem State.setResWords_exp (i j : Nat) (ws : List Word32) : (s.setResWords i j ws).exp = s.exp := rfl
@[simp] theorem State.setResWords_csum (i j : Nat) (ws : List Word32) : (s.setResWords i j ws).csum = s.csum := rfl
@[simp] theorem State.setResWords_csrx (i j : Nat) (ws : List Word32) : (s.setResWords i j ws).csrx = s.csrx := rfl
@[simp] theorem State.setResWords_kindOut (i j : Nat) (ws : List Word32) :
    (s.setResWords i j ws).kindOut = s.kindOut := rfl
@[simp] theorem State.setResWords_payLen (i j : Nat) (ws : List Word32) :
    (s.setResWords i j ws).payLen = s.payLen := rfl
@[simp] theorem State.setResWords_hdrCfg (i j : Nat) (ws : List Word32) :
    (s.setResWords i j ws).hdrCfg = s.hdrCfg := rfl
@[simp] theorem State.setResWords_discOff (i j : Nat) (ws : List Word32) :
    (s.setResWords i j ws).discOff = s.discOff := rfl
@[simp] theorem State.setResWords_slots (i j : Nat) (ws : List Word32) : (s.setResWords i j ws).slots = s.slots := rfl
@[simp] theorem State.setResWords_valid (i j : Nat) (ws : List Word32) : (s.setResWords i j ws).valid = s.valid := rfl
@[simp] theorem State.setResWords_pending (i j : Nat) (ws : List Word32) :
    (s.setResWords i j ws).pending = s.pending := rfl
@[simp] theorem State.setResWords_desc (i j : Nat) (ws : List Word32) : (s.setResWords i j ws).desc = s.desc := rfl
@[simp] theorem State.setResWords_res (i j : Nat) (ws : List Word32) :
    (s.setResWords i j ws).res = Memory.writeSeq 4 s.res (resAddr i j) ws := rfl
@[simp] theorem State.setResWords_buf (i j : Nat) (ws : List Word32) : (s.setResWords i j ws).buf = s.buf := rfl
@[simp] theorem State.setResWords_host (i j : Nat) (ws : List Word32) : (s.setResWords i j ws).host = s.host := rfl
@[simp] theorem State.setResWords_latency (i j : Nat) (ws : List Word32) :
    (s.setResWords i j ws).latency = s.latency := rfl
@[simp] theorem State.setResWords_latencies (i j : Nat) (ws : List Word32) :
    (s.setResWords i j ws).latencies = s.latencies := rfl
@[simp] theorem State.setResWords_draws (i j : Nat) (ws : List Word32) : (s.setResWords i j ws).draws = s.draws := rfl

/-! ## `State.storeRaw` -/

@[simp] theorem State.storeRaw_params (i : Nat) (r : Int) : (s.storeRaw i r).params = s.params := rfl
@[simp] theorem State.storeRaw_cmd (i : Nat) (r : Int) : (s.storeRaw i r).cmd = s.cmd := rfl
@[simp] theorem State.storeRaw_status (i : Nat) (r : Int) : (s.storeRaw i r).status = s.status := rfl
@[simp] theorem State.storeRaw_err (i : Nat) (r : Int) : (s.storeRaw i r).err = s.err := rfl
@[simp] theorem State.storeRaw_frameLen (i : Nat) (r : Int) : (s.storeRaw i r).frameLen = s.frameLen := rfl
@[simp] theorem State.storeRaw_arg0 (i : Nat) (r : Int) : (s.storeRaw i r).arg0 = s.arg0 := rfl
@[simp] theorem State.storeRaw_arg1 (i : Nat) (r : Int) : (s.storeRaw i r).arg1 = s.arg1 := rfl
@[simp] theorem State.storeRaw_exp (i : Nat) (r : Int) : (s.storeRaw i r).exp = s.exp := rfl
@[simp] theorem State.storeRaw_csum (i : Nat) (r : Int) : (s.storeRaw i r).csum = s.csum := rfl
@[simp] theorem State.storeRaw_csrx (i : Nat) (r : Int) : (s.storeRaw i r).csrx = s.csrx := rfl
@[simp] theorem State.storeRaw_kindOut (i : Nat) (r : Int) : (s.storeRaw i r).kindOut = s.kindOut := rfl
@[simp] theorem State.storeRaw_payLen (i : Nat) (r : Int) : (s.storeRaw i r).payLen = s.payLen := rfl
@[simp] theorem State.storeRaw_hdrCfg (i : Nat) (r : Int) : (s.storeRaw i r).hdrCfg = s.hdrCfg := rfl
@[simp] theorem State.storeRaw_discOff (i : Nat) (r : Int) : (s.storeRaw i r).discOff = s.discOff := rfl
@[simp] theorem State.storeRaw_slots (i : Nat) (r : Int) : (s.storeRaw i r).slots = s.slots := rfl
@[simp] theorem State.storeRaw_valid (i : Nat) (r : Int) : (s.storeRaw i r).valid = s.valid := rfl
@[simp] theorem State.storeRaw_pending (i : Nat) (r : Int) : (s.storeRaw i r).pending = s.pending := rfl
@[simp] theorem State.storeRaw_desc (i : Nat) (r : Int) : (s.storeRaw i r).desc = s.desc := rfl
@[simp] theorem State.storeRaw_res (i : Nat) (r : Int) :
    (s.storeRaw i r).res = Memory.writeSeq 4 s.res (resAddr i 0) (natToWords 2 (pattern 64 r)) := rfl
@[simp] theorem State.storeRaw_buf (i : Nat) (r : Int) : (s.storeRaw i r).buf = s.buf := rfl
@[simp] theorem State.storeRaw_host (i : Nat) (r : Int) : (s.storeRaw i r).host = s.host := rfl
@[simp] theorem State.storeRaw_latency (i : Nat) (r : Int) : (s.storeRaw i r).latency = s.latency := rfl
@[simp] theorem State.storeRaw_latencies (i : Nat) (r : Int) : (s.storeRaw i r).latencies = s.latencies := rfl
@[simp] theorem State.storeRaw_draws (i : Nat) (r : Int) : (s.storeRaw i r).draws = s.draws := rfl

/-! ## `State.storeValue` -/

@[simp] theorem State.storeValue_params (i : Nat) (r : Int) (d : Desc) : (s.storeValue i r d).params = s.params := rfl
@[simp] theorem State.storeValue_cmd (i : Nat) (r : Int) (d : Desc) : (s.storeValue i r d).cmd = s.cmd := rfl
@[simp] theorem State.storeValue_status (i : Nat) (r : Int) (d : Desc) : (s.storeValue i r d).status = s.status := rfl
@[simp] theorem State.storeValue_err (i : Nat) (r : Int) (d : Desc) : (s.storeValue i r d).err = s.err := rfl
@[simp] theorem State.storeValue_frameLen (i : Nat) (r : Int) (d : Desc) :
    (s.storeValue i r d).frameLen = s.frameLen := rfl
@[simp] theorem State.storeValue_arg0 (i : Nat) (r : Int) (d : Desc) : (s.storeValue i r d).arg0 = s.arg0 := rfl
@[simp] theorem State.storeValue_arg1 (i : Nat) (r : Int) (d : Desc) : (s.storeValue i r d).arg1 = s.arg1 := rfl
@[simp] theorem State.storeValue_exp (i : Nat) (r : Int) (d : Desc) : (s.storeValue i r d).exp = s.exp := rfl
@[simp] theorem State.storeValue_csum (i : Nat) (r : Int) (d : Desc) : (s.storeValue i r d).csum = s.csum := rfl
@[simp] theorem State.storeValue_csrx (i : Nat) (r : Int) (d : Desc) : (s.storeValue i r d).csrx = s.csrx := rfl
@[simp] theorem State.storeValue_kindOut (i : Nat) (r : Int) (d : Desc) :
    (s.storeValue i r d).kindOut = s.kindOut := rfl
@[simp] theorem State.storeValue_payLen (i : Nat) (r : Int) (d : Desc) : (s.storeValue i r d).payLen = s.payLen := rfl
@[simp] theorem State.storeValue_hdrCfg (i : Nat) (r : Int) (d : Desc) : (s.storeValue i r d).hdrCfg = s.hdrCfg := rfl
@[simp] theorem State.storeValue_discOff (i : Nat) (r : Int) (d : Desc) :
    (s.storeValue i r d).discOff = s.discOff := rfl
@[simp] theorem State.storeValue_slots (i : Nat) (r : Int) (d : Desc) : (s.storeValue i r d).slots = s.slots := rfl
@[simp] theorem State.storeValue_valid (i : Nat) (r : Int) (d : Desc) : (s.storeValue i r d).valid = s.valid := rfl
@[simp] theorem State.storeValue_pending (i : Nat) (r : Int) (d : Desc) :
    (s.storeValue i r d).pending = s.pending := rfl
@[simp] theorem State.storeValue_desc (i : Nat) (r : Int) (d : Desc) : (s.storeValue i r d).desc = s.desc := rfl
@[simp] theorem State.storeValue_res (i : Nat) (r : Int) (d : Desc) :
    (s.storeValue i r d).res =
      Memory.writeSeq 4 (Memory.writeSeq 4 (Memory.writeSeq 4 s.res (resAddr i 0) (natToWords 2 (pattern 64 r)))
        (resAddr i 2) (natToWords 4 (pattern 128 (r * d.snum)))) (resAddr i 6) [BitVec.ofNat 32 d.sden] := rfl
@[simp] theorem State.storeValue_buf (i : Nat) (r : Int) (d : Desc) : (s.storeValue i r d).buf = s.buf := rfl
@[simp] theorem State.storeValue_host (i : Nat) (r : Int) (d : Desc) : (s.storeValue i r d).host = s.host := rfl
@[simp] theorem State.storeValue_latency (i : Nat) (r : Int) (d : Desc) :
    (s.storeValue i r d).latency = s.latency := rfl
@[simp] theorem State.storeValue_latencies (i : Nat) (r : Int) (d : Desc) :
    (s.storeValue i r d).latencies = s.latencies := rfl
@[simp] theorem State.storeValue_draws (i : Nat) (r : Int) (d : Desc) : (s.storeValue i r d).draws = s.draws := rfl

/-! ## `State.setCsum` -/

@[simp] theorem State.setCsum_params (x : Nat) : (s.setCsum x).params = s.params := rfl
@[simp] theorem State.setCsum_cmd (x : Nat) : (s.setCsum x).cmd = s.cmd := rfl
@[simp] theorem State.setCsum_status (x : Nat) : (s.setCsum x).status = s.status := rfl
@[simp] theorem State.setCsum_err (x : Nat) : (s.setCsum x).err = s.err := rfl
@[simp] theorem State.setCsum_frameLen (x : Nat) : (s.setCsum x).frameLen = s.frameLen := rfl
@[simp] theorem State.setCsum_arg0 (x : Nat) : (s.setCsum x).arg0 = s.arg0 := rfl
@[simp] theorem State.setCsum_arg1 (x : Nat) : (s.setCsum x).arg1 = s.arg1 := rfl
@[simp] theorem State.setCsum_exp (x : Nat) : (s.setCsum x).exp = s.exp := rfl
@[simp] theorem State.setCsum_csum (x : Nat) : (s.setCsum x).csum = BitVec.ofNat 64 x := rfl
@[simp] theorem State.setCsum_csrx (x : Nat) : (s.setCsum x).csrx = s.csrx := rfl
@[simp] theorem State.setCsum_kindOut (x : Nat) : (s.setCsum x).kindOut = s.kindOut := rfl
@[simp] theorem State.setCsum_payLen (x : Nat) : (s.setCsum x).payLen = s.payLen := rfl
@[simp] theorem State.setCsum_hdrCfg (x : Nat) : (s.setCsum x).hdrCfg = s.hdrCfg := rfl
@[simp] theorem State.setCsum_discOff (x : Nat) : (s.setCsum x).discOff = s.discOff := rfl
@[simp] theorem State.setCsum_slots (x : Nat) : (s.setCsum x).slots = s.slots := rfl
@[simp] theorem State.setCsum_valid (x : Nat) : (s.setCsum x).valid = s.valid := rfl
@[simp] theorem State.setCsum_pending (x : Nat) : (s.setCsum x).pending = s.pending := rfl
@[simp] theorem State.setCsum_desc (x : Nat) : (s.setCsum x).desc = s.desc := rfl
@[simp] theorem State.setCsum_res (x : Nat) : (s.setCsum x).res = s.res := rfl
@[simp] theorem State.setCsum_buf (x : Nat) : (s.setCsum x).buf = s.buf := rfl
@[simp] theorem State.setCsum_host (x : Nat) : (s.setCsum x).host = s.host := rfl
@[simp] theorem State.setCsum_latency (x : Nat) : (s.setCsum x).latency = s.latency := rfl
@[simp] theorem State.setCsum_latencies (x : Nat) : (s.setCsum x).latencies = s.latencies := rfl
@[simp] theorem State.setCsum_draws (x : Nat) : (s.setCsum x).draws = s.draws := rfl

/-! ## `State.setCsrx` -/

@[simp] theorem State.setCsrx_params (x : Nat) : (s.setCsrx x).params = s.params := rfl
@[simp] theorem State.setCsrx_cmd (x : Nat) : (s.setCsrx x).cmd = s.cmd := rfl
@[simp] theorem State.setCsrx_status (x : Nat) : (s.setCsrx x).status = s.status := rfl
@[simp] theorem State.setCsrx_err (x : Nat) : (s.setCsrx x).err = s.err := rfl
@[simp] theorem State.setCsrx_frameLen (x : Nat) : (s.setCsrx x).frameLen = s.frameLen := rfl
@[simp] theorem State.setCsrx_arg0 (x : Nat) : (s.setCsrx x).arg0 = s.arg0 := rfl
@[simp] theorem State.setCsrx_arg1 (x : Nat) : (s.setCsrx x).arg1 = s.arg1 := rfl
@[simp] theorem State.setCsrx_exp (x : Nat) : (s.setCsrx x).exp = s.exp := rfl
@[simp] theorem State.setCsrx_csum (x : Nat) : (s.setCsrx x).csum = s.csum := rfl
@[simp] theorem State.setCsrx_csrx (x : Nat) : (s.setCsrx x).csrx = BitVec.ofNat 64 x := rfl
@[simp] theorem State.setCsrx_kindOut (x : Nat) : (s.setCsrx x).kindOut = s.kindOut := rfl
@[simp] theorem State.setCsrx_payLen (x : Nat) : (s.setCsrx x).payLen = s.payLen := rfl
@[simp] theorem State.setCsrx_hdrCfg (x : Nat) : (s.setCsrx x).hdrCfg = s.hdrCfg := rfl
@[simp] theorem State.setCsrx_discOff (x : Nat) : (s.setCsrx x).discOff = s.discOff := rfl
@[simp] theorem State.setCsrx_slots (x : Nat) : (s.setCsrx x).slots = s.slots := rfl
@[simp] theorem State.setCsrx_valid (x : Nat) : (s.setCsrx x).valid = s.valid := rfl
@[simp] theorem State.setCsrx_pending (x : Nat) : (s.setCsrx x).pending = s.pending := rfl
@[simp] theorem State.setCsrx_desc (x : Nat) : (s.setCsrx x).desc = s.desc := rfl
@[simp] theorem State.setCsrx_res (x : Nat) : (s.setCsrx x).res = s.res := rfl
@[simp] theorem State.setCsrx_buf (x : Nat) : (s.setCsrx x).buf = s.buf := rfl
@[simp] theorem State.setCsrx_host (x : Nat) : (s.setCsrx x).host = s.host := rfl
@[simp] theorem State.setCsrx_latency (x : Nat) : (s.setCsrx x).latency = s.latency := rfl
@[simp] theorem State.setCsrx_latencies (x : Nat) : (s.setCsrx x).latencies = s.latencies := rfl
@[simp] theorem State.setCsrx_draws (x : Nat) : (s.setCsrx x).draws = s.draws := rfl

/-! ## `State.setSnapshot` -/

@[simp] theorem State.setSnapshot_params (k : Kind) (p : Nat) : (s.setSnapshot k p).params = s.params := rfl
@[simp] theorem State.setSnapshot_cmd (k : Kind) (p : Nat) : (s.setSnapshot k p).cmd = s.cmd := rfl
@[simp] theorem State.setSnapshot_status (k : Kind) (p : Nat) : (s.setSnapshot k p).status = s.status := rfl
@[simp] theorem State.setSnapshot_err (k : Kind) (p : Nat) : (s.setSnapshot k p).err = s.err := rfl
@[simp] theorem State.setSnapshot_frameLen (k : Kind) (p : Nat) : (s.setSnapshot k p).frameLen = s.frameLen := rfl
@[simp] theorem State.setSnapshot_arg0 (k : Kind) (p : Nat) : (s.setSnapshot k p).arg0 = s.arg0 := rfl
@[simp] theorem State.setSnapshot_arg1 (k : Kind) (p : Nat) : (s.setSnapshot k p).arg1 = s.arg1 := rfl
@[simp] theorem State.setSnapshot_exp (k : Kind) (p : Nat) : (s.setSnapshot k p).exp = s.exp := rfl
@[simp] theorem State.setSnapshot_csum (k : Kind) (p : Nat) : (s.setSnapshot k p).csum = s.csum := rfl
@[simp] theorem State.setSnapshot_csrx (k : Kind) (p : Nat) : (s.setSnapshot k p).csrx = s.csrx := rfl
@[simp] theorem State.setSnapshot_kindOut (k : Kind) (p : Nat) : (s.setSnapshot k p).kindOut = k.code := rfl
@[simp] theorem State.setSnapshot_payLen (k : Kind) (p : Nat) : (s.setSnapshot k p).payLen = BitVec.ofNat 16 p := rfl
@[simp] theorem State.setSnapshot_hdrCfg (k : Kind) (p : Nat) : (s.setSnapshot k p).hdrCfg = s.hdrCfg := rfl
@[simp] theorem State.setSnapshot_discOff (k : Kind) (p : Nat) : (s.setSnapshot k p).discOff = s.discOff := rfl
@[simp] theorem State.setSnapshot_slots (k : Kind) (p : Nat) : (s.setSnapshot k p).slots = s.slots := rfl
@[simp] theorem State.setSnapshot_valid (k : Kind) (p : Nat) : (s.setSnapshot k p).valid = s.valid := rfl
@[simp] theorem State.setSnapshot_pending (k : Kind) (p : Nat) : (s.setSnapshot k p).pending = s.pending := rfl
@[simp] theorem State.setSnapshot_desc (k : Kind) (p : Nat) : (s.setSnapshot k p).desc = s.desc := rfl
@[simp] theorem State.setSnapshot_res (k : Kind) (p : Nat) : (s.setSnapshot k p).res = s.res := rfl
@[simp] theorem State.setSnapshot_buf (k : Kind) (p : Nat) : (s.setSnapshot k p).buf = s.buf := rfl
@[simp] theorem State.setSnapshot_host (k : Kind) (p : Nat) : (s.setSnapshot k p).host = s.host := rfl
@[simp] theorem State.setSnapshot_latency (k : Kind) (p : Nat) : (s.setSnapshot k p).latency = s.latency := rfl
@[simp] theorem State.setSnapshot_latencies (k : Kind) (p : Nat) : (s.setSnapshot k p).latencies = s.latencies := rfl
@[simp] theorem State.setSnapshot_draws (k : Kind) (p : Nat) : (s.setSnapshot k p).draws = s.draws := rfl

/-! ## `State.setEncoded` -/

@[simp] theorem State.setEncoded_params (x t p : Nat) : (s.setEncoded x t p).params = s.params := rfl
@[simp] theorem State.setEncoded_cmd (x t p : Nat) : (s.setEncoded x t p).cmd = s.cmd := rfl
@[simp] theorem State.setEncoded_status (x t p : Nat) : (s.setEncoded x t p).status = s.status := rfl
@[simp] theorem State.setEncoded_err (x t p : Nat) : (s.setEncoded x t p).err = s.err := rfl
@[simp] theorem State.setEncoded_frameLen (x t p : Nat) : (s.setEncoded x t p).frameLen = BitVec.ofNat 16 t := rfl
@[simp] theorem State.setEncoded_arg0 (x t p : Nat) : (s.setEncoded x t p).arg0 = s.arg0 := rfl
@[simp] theorem State.setEncoded_arg1 (x t p : Nat) : (s.setEncoded x t p).arg1 = s.arg1 := rfl
@[simp] theorem State.setEncoded_exp (x t p : Nat) : (s.setEncoded x t p).exp = s.exp := rfl
@[simp] theorem State.setEncoded_csum (x t p : Nat) : (s.setEncoded x t p).csum = BitVec.ofNat 64 x := rfl
@[simp] theorem State.setEncoded_csrx (x t p : Nat) : (s.setEncoded x t p).csrx = s.csrx := rfl
@[simp] theorem State.setEncoded_kindOut (x t p : Nat) : (s.setEncoded x t p).kindOut = s.kindOut := rfl
@[simp] theorem State.setEncoded_payLen (x t p : Nat) : (s.setEncoded x t p).payLen = BitVec.ofNat 16 p := rfl
@[simp] theorem State.setEncoded_hdrCfg (x t p : Nat) : (s.setEncoded x t p).hdrCfg = s.hdrCfg := rfl
@[simp] theorem State.setEncoded_discOff (x t p : Nat) : (s.setEncoded x t p).discOff = s.discOff := rfl
@[simp] theorem State.setEncoded_slots (x t p : Nat) : (s.setEncoded x t p).slots = s.slots := rfl
@[simp] theorem State.setEncoded_valid (x t p : Nat) : (s.setEncoded x t p).valid = s.valid := rfl
@[simp] theorem State.setEncoded_pending (x t p : Nat) : (s.setEncoded x t p).pending = s.pending := rfl
@[simp] theorem State.setEncoded_desc (x t p : Nat) : (s.setEncoded x t p).desc = s.desc := rfl
@[simp] theorem State.setEncoded_res (x t p : Nat) : (s.setEncoded x t p).res = s.res := rfl
@[simp] theorem State.setEncoded_buf (x t p : Nat) : (s.setEncoded x t p).buf = s.buf := rfl
@[simp] theorem State.setEncoded_host (x t p : Nat) : (s.setEncoded x t p).host = s.host := rfl
@[simp] theorem State.setEncoded_latency (x t p : Nat) : (s.setEncoded x t p).latency = s.latency := rfl
@[simp] theorem State.setEncoded_latencies (x t p : Nat) : (s.setEncoded x t p).latencies = s.latencies := rfl
@[simp] theorem State.setEncoded_draws (x t p : Nat) : (s.setEncoded x t p).draws = s.draws := rfl

/-! ## `State.hostAdvance` -/

@[simp] theorem State.hostAdvance_params : s.hostAdvance.params = s.params := rfl
@[simp] theorem State.hostAdvance_cmd : s.hostAdvance.cmd = s.cmd := rfl
@[simp] theorem State.hostAdvance_status : s.hostAdvance.status = s.status := rfl
@[simp] theorem State.hostAdvance_err : s.hostAdvance.err = s.err := rfl
@[simp] theorem State.hostAdvance_frameLen : s.hostAdvance.frameLen = s.frameLen := rfl
@[simp] theorem State.hostAdvance_arg0 : s.hostAdvance.arg0 = s.arg0 := rfl
@[simp] theorem State.hostAdvance_arg1 : s.hostAdvance.arg1 = s.arg1 := rfl
@[simp] theorem State.hostAdvance_exp : s.hostAdvance.exp = s.exp := rfl
@[simp] theorem State.hostAdvance_csum : s.hostAdvance.csum = s.csum := rfl
@[simp] theorem State.hostAdvance_csrx : s.hostAdvance.csrx = s.csrx := rfl
@[simp] theorem State.hostAdvance_kindOut : s.hostAdvance.kindOut = s.kindOut := rfl
@[simp] theorem State.hostAdvance_payLen : s.hostAdvance.payLen = s.payLen := rfl
@[simp] theorem State.hostAdvance_hdrCfg : s.hostAdvance.hdrCfg = s.hdrCfg := rfl
@[simp] theorem State.hostAdvance_discOff : s.hostAdvance.discOff = s.discOff := rfl
@[simp] theorem State.hostAdvance_slots : s.hostAdvance.slots = s.slots := rfl
@[simp] theorem State.hostAdvance_valid : s.hostAdvance.valid = s.valid := rfl
@[simp] theorem State.hostAdvance_pending : s.hostAdvance.pending = s.pending := rfl
@[simp] theorem State.hostAdvance_desc : s.hostAdvance.desc = s.desc := rfl
@[simp] theorem State.hostAdvance_res : s.hostAdvance.res = s.res := rfl
@[simp] theorem State.hostAdvance_buf : s.hostAdvance.buf = s.buf := rfl
@[simp] theorem State.hostAdvance_host : s.hostAdvance.host = s.host.advance := rfl
@[simp] theorem State.hostAdvance_latency : s.hostAdvance.latency = s.latency := rfl
@[simp] theorem State.hostAdvance_latencies : s.hostAdvance.latencies = s.latencies := rfl
@[simp] theorem State.hostAdvance_draws : s.hostAdvance.draws = s.draws := rfl

/-! ## `State.hostAssign` -/

@[simp] theorem State.hostAssign_host (x : Nat) (v : Word32) :
    (s.hostAssign x v).host = { s.host.advance with vars := Memory.write s.host.vars x v } := rfl
@[simp] theorem State.hostAssign_params (x : Nat) (v : Word32) : (s.hostAssign x v).params = s.params := rfl
@[simp] theorem State.hostAssign_cmd (x : Nat) (v : Word32) : (s.hostAssign x v).cmd = s.cmd := rfl
@[simp] theorem State.hostAssign_status (x : Nat) (v : Word32) : (s.hostAssign x v).status = s.status := rfl
@[simp] theorem State.hostAssign_err (x : Nat) (v : Word32) : (s.hostAssign x v).err = s.err := rfl
@[simp] theorem State.hostAssign_frameLen (x : Nat) (v : Word32) : (s.hostAssign x v).frameLen = s.frameLen := rfl
@[simp] theorem State.hostAssign_arg0 (x : Nat) (v : Word32) : (s.hostAssign x v).arg0 = s.arg0 := rfl
@[simp] theorem State.hostAssign_arg1 (x : Nat) (v : Word32) : (s.hostAssign x v).arg1 = s.arg1 := rfl
@[simp] theorem State.hostAssign_exp (x : Nat) (v : Word32) : (s.hostAssign x v).exp = s.exp := rfl
@[simp] theorem State.hostAssign_csum (x : Nat) (v : Word32) : (s.hostAssign x v).csum = s.csum := rfl
@[simp] theorem State.hostAssign_csrx (x : Nat) (v : Word32) : (s.hostAssign x v).csrx = s.csrx := rfl
@[simp] theorem State.hostAssign_kindOut (x : Nat) (v : Word32) : (s.hostAssign x v).kindOut = s.kindOut := rfl
@[simp] theorem State.hostAssign_payLen (x : Nat) (v : Word32) : (s.hostAssign x v).payLen = s.payLen := rfl
@[simp] theorem State.hostAssign_hdrCfg (x : Nat) (v : Word32) : (s.hostAssign x v).hdrCfg = s.hdrCfg := rfl
@[simp] theorem State.hostAssign_discOff (x : Nat) (v : Word32) : (s.hostAssign x v).discOff = s.discOff := rfl
@[simp] theorem State.hostAssign_slots (x : Nat) (v : Word32) : (s.hostAssign x v).slots = s.slots := rfl
@[simp] theorem State.hostAssign_valid (x : Nat) (v : Word32) : (s.hostAssign x v).valid = s.valid := rfl
@[simp] theorem State.hostAssign_pending (x : Nat) (v : Word32) : (s.hostAssign x v).pending = s.pending := rfl
@[simp] theorem State.hostAssign_desc (x : Nat) (v : Word32) : (s.hostAssign x v).desc = s.desc := rfl
@[simp] theorem State.hostAssign_res (x : Nat) (v : Word32) : (s.hostAssign x v).res = s.res := rfl
@[simp] theorem State.hostAssign_buf (x : Nat) (v : Word32) : (s.hostAssign x v).buf = s.buf := rfl
@[simp] theorem State.hostAssign_latency (x : Nat) (v : Word32) : (s.hostAssign x v).latency = s.latency := rfl
@[simp] theorem State.hostAssign_latencies (x : Nat) (v : Word32) : (s.hostAssign x v).latencies = s.latencies := rfl
@[simp] theorem State.hostAssign_draws (x : Nat) (v : Word32) : (s.hostAssign x v).draws = s.draws := rfl

/-! ## `State.hostExpect` -/

@[simp] theorem State.hostExpect_host (b : Bool) :
    (s.hostExpect b).host = { s.host.advance with failedExpects := s.host.failedExpects + (!b).toNat } := rfl
@[simp] theorem State.hostExpect_params (b : Bool) : (s.hostExpect b).params = s.params := rfl
@[simp] theorem State.hostExpect_cmd (b : Bool) : (s.hostExpect b).cmd = s.cmd := rfl
@[simp] theorem State.hostExpect_status (b : Bool) : (s.hostExpect b).status = s.status := rfl
@[simp] theorem State.hostExpect_err (b : Bool) : (s.hostExpect b).err = s.err := rfl
@[simp] theorem State.hostExpect_frameLen (b : Bool) : (s.hostExpect b).frameLen = s.frameLen := rfl
@[simp] theorem State.hostExpect_arg0 (b : Bool) : (s.hostExpect b).arg0 = s.arg0 := rfl
@[simp] theorem State.hostExpect_arg1 (b : Bool) : (s.hostExpect b).arg1 = s.arg1 := rfl
@[simp] theorem State.hostExpect_exp (b : Bool) : (s.hostExpect b).exp = s.exp := rfl
@[simp] theorem State.hostExpect_csum (b : Bool) : (s.hostExpect b).csum = s.csum := rfl
@[simp] theorem State.hostExpect_csrx (b : Bool) : (s.hostExpect b).csrx = s.csrx := rfl
@[simp] theorem State.hostExpect_kindOut (b : Bool) : (s.hostExpect b).kindOut = s.kindOut := rfl
@[simp] theorem State.hostExpect_payLen (b : Bool) : (s.hostExpect b).payLen = s.payLen := rfl
@[simp] theorem State.hostExpect_hdrCfg (b : Bool) : (s.hostExpect b).hdrCfg = s.hdrCfg := rfl
@[simp] theorem State.hostExpect_discOff (b : Bool) : (s.hostExpect b).discOff = s.discOff := rfl
@[simp] theorem State.hostExpect_slots (b : Bool) : (s.hostExpect b).slots = s.slots := rfl
@[simp] theorem State.hostExpect_valid (b : Bool) : (s.hostExpect b).valid = s.valid := rfl
@[simp] theorem State.hostExpect_pending (b : Bool) : (s.hostExpect b).pending = s.pending := rfl
@[simp] theorem State.hostExpect_desc (b : Bool) : (s.hostExpect b).desc = s.desc := rfl
@[simp] theorem State.hostExpect_res (b : Bool) : (s.hostExpect b).res = s.res := rfl
@[simp] theorem State.hostExpect_buf (b : Bool) : (s.hostExpect b).buf = s.buf := rfl
@[simp] theorem State.hostExpect_latency (b : Bool) : (s.hostExpect b).latency = s.latency := rfl
@[simp] theorem State.hostExpect_latencies (b : Bool) : (s.hostExpect b).latencies = s.latencies := rfl
@[simp] theorem State.hostExpect_draws (b : Bool) : (s.hostExpect b).draws = s.draws := rfl

/-! ## `State.passLatency` -/

@[simp] theorem State.passLatency_params : s.passLatency.params = s.params := rfl
@[simp] theorem State.passLatency_cmd : s.passLatency.cmd = s.cmd := rfl
@[simp] theorem State.passLatency_status : s.passLatency.status = s.status := rfl
@[simp] theorem State.passLatency_err : s.passLatency.err = s.err := rfl
@[simp] theorem State.passLatency_frameLen : s.passLatency.frameLen = s.frameLen := rfl
@[simp] theorem State.passLatency_arg0 : s.passLatency.arg0 = s.arg0 := rfl
@[simp] theorem State.passLatency_arg1 : s.passLatency.arg1 = s.arg1 := rfl
@[simp] theorem State.passLatency_exp : s.passLatency.exp = s.exp := rfl
@[simp] theorem State.passLatency_csum : s.passLatency.csum = s.csum := rfl
@[simp] theorem State.passLatency_csrx : s.passLatency.csrx = s.csrx := rfl
@[simp] theorem State.passLatency_kindOut : s.passLatency.kindOut = s.kindOut := rfl
@[simp] theorem State.passLatency_payLen : s.passLatency.payLen = s.payLen := rfl
@[simp] theorem State.passLatency_hdrCfg : s.passLatency.hdrCfg = s.hdrCfg := rfl
@[simp] theorem State.passLatency_discOff : s.passLatency.discOff = s.discOff := rfl
@[simp] theorem State.passLatency_slots : s.passLatency.slots = s.slots := rfl
@[simp] theorem State.passLatency_valid : s.passLatency.valid = s.valid := rfl
@[simp] theorem State.passLatency_pending : s.passLatency.pending = s.pending := rfl
@[simp] theorem State.passLatency_desc : s.passLatency.desc = s.desc := rfl
@[simp] theorem State.passLatency_res : s.passLatency.res = s.res := rfl
@[simp] theorem State.passLatency_buf : s.passLatency.buf = s.buf := rfl
@[simp] theorem State.passLatency_host : s.passLatency.host = s.host := rfl
@[simp] theorem State.passLatency_latency : s.passLatency.latency = s.latency - s.pending.toNat := rfl
@[simp] theorem State.passLatency_latencies : s.passLatency.latencies = s.latencies := rfl
@[simp] theorem State.passLatency_draws : s.passLatency.draws = s.draws := rfl

/-! ## `State.resetBlock` -/

@[simp] theorem State.resetBlock_params : s.resetBlock.params = s.params := rfl
@[simp] theorem State.resetBlock_cmd : s.resetBlock.cmd = State.reset.cmd := rfl
@[simp] theorem State.resetBlock_status : s.resetBlock.status = State.reset.status := rfl
@[simp] theorem State.resetBlock_err : s.resetBlock.err = State.reset.err := rfl
@[simp] theorem State.resetBlock_frameLen : s.resetBlock.frameLen = State.reset.frameLen := rfl
@[simp] theorem State.resetBlock_arg0 : s.resetBlock.arg0 = State.reset.arg0 := rfl
@[simp] theorem State.resetBlock_arg1 : s.resetBlock.arg1 = State.reset.arg1 := rfl
@[simp] theorem State.resetBlock_exp : s.resetBlock.exp = State.reset.exp := rfl
@[simp] theorem State.resetBlock_csum : s.resetBlock.csum = State.reset.csum := rfl
@[simp] theorem State.resetBlock_csrx : s.resetBlock.csrx = State.reset.csrx := rfl
@[simp] theorem State.resetBlock_kindOut : s.resetBlock.kindOut = State.reset.kindOut := rfl
@[simp] theorem State.resetBlock_payLen : s.resetBlock.payLen = State.reset.payLen := rfl
@[simp] theorem State.resetBlock_hdrCfg : s.resetBlock.hdrCfg = State.reset.hdrCfg := rfl
@[simp] theorem State.resetBlock_discOff : s.resetBlock.discOff = State.reset.discOff := rfl
@[simp] theorem State.resetBlock_slots : s.resetBlock.slots = State.reset.slots := rfl
@[simp] theorem State.resetBlock_valid : s.resetBlock.valid = State.reset.valid := rfl
@[simp] theorem State.resetBlock_pending : s.resetBlock.pending = State.reset.pending := rfl
@[simp] theorem State.resetBlock_desc : s.resetBlock.desc = State.reset.desc := rfl
@[simp] theorem State.resetBlock_res : s.resetBlock.res = State.reset.res := rfl
@[simp] theorem State.resetBlock_buf : s.resetBlock.buf = State.reset.buf := rfl
@[simp] theorem State.resetBlock_host : s.resetBlock.host = s.host := rfl
@[simp] theorem State.resetBlock_latency : s.resetBlock.latency = State.reset.latency := rfl
@[simp] theorem State.resetBlock_latencies : s.resetBlock.latencies = s.latencies := rfl
@[simp] theorem State.resetBlock_draws : s.resetBlock.draws = s.draws + 1 := rfl

/-! ## Views of the kind slots -/

@[simp] theorem State.setValid_isValid (k j : Kind) (v : Bool) :
    (s.setValid k v).isValid j = if j = k then v else s.isValid j := PerKind.get_set _ _ _ _
@[simp] theorem State.clearAllValid_isValid (j : Kind) : s.clearAllValid.isValid j = false := allInvalid_get j
@[simp] theorem State.resetBlock_isValid (j : Kind) : s.resetBlock.isValid j = false := by cases j <;> rfl
@[simp] theorem State.resetBlock_slot (j : Kind) : s.resetBlock.slot j = KindSlot.reset := by cases j <;> rfl

end Sys2Proof.Machine
end

