-- ==== Sys2Proof/Laws/Ops.lean ====
section
/-! SUPPORT. For each shared operation, once, everything it can do: when it answers, and with what. Proofs about commands
cite these instead of unfolding the operations. -/

namespace Sys2Proof.Machine

/-! ## Parts of commands -/

theorem bind_eq_ok {ε α β : Type} {x : Except ε α} {f : α → Except ε β} {b : β} :
    (x >>= f) = .ok b ↔ ∃ a, x = .ok a ∧ f a = .ok b := by
  cases x <;> simp [bind, Except.bind]

theorem bind_eq_error {ε α β : Type} {x : Except ε α} {f : α → Except ε β} {e : ε} :
    (x >>= f) = .error e ↔ x = .error e ∨ ∃ a, x = .ok a ∧ f a = .error e := by
  cases x <;> simp [bind, Except.bind]

@[simp] theorem ok_bind {ε α β : Type} (a : α) (f : α → Except ε β) : ((.ok a : Except ε α) >>= f) = f a := rfl

@[simp] theorem error_bind {ε α β : Type} (e : ε) (f : α → Except ε β) : ((.error e : Except ε α) >>= f) = .error e := rfl

theorem map_eq_ok {ε α β : Type} {x : Except ε α} {f : α → β} {b : β} :
    x.map f = .ok b ↔ ∃ a, x = .ok a ∧ f a = b := by
  cases x <;> simp [Except.map]

theorem map_eq_error {ε α β : Type} {x : Except ε α} {f : α → β} {e : ε} : x.map f = .error e ↔ x = .error e := by
  cases x <;> simp [Except.map]

@[simp] theorem require_true (c : ResultCode) (x : BitVec 8) : require true c x = .ok () := rfl

@[simp] theorem require_false (c : ResultCode) (x : BitVec 8) : require false c x = .error (.raise c x) := rfl

theorem require_eq_ok {p : Bool} {c : ResultCode} {x : BitVec 8} {u : Unit} : require p c x = .ok u ↔ p = true := by
  cases p <;> simp

theorem require_eq_error {p : Bool} {c : ResultCode} {x : BitVec 8} {e : Stop} :
    require p c x = .error e ↔ p = false ∧ e = .raise c x := by
  cases p <;> simp [eq_comm]

@[simp] theorem State.stop_fault (s : State) (q : BitVec 3) (f : Fault) : s.stop q (.fault f) = .fault f := rfl

@[simp] theorem State.stop_raise (s : State) (q : BitVec 3) (c : ResultCode) (x : BitVec 8) :
    s.stop q (.raise c x) = .next (s.raise c x q) := rfl

/-- A part that ends early answers a next state exactly when it raised a result code. -/
theorem State.stop_eq_next {s t : State} {q : BitVec 3} {e : Stop} :
    s.stop q e = .next t ↔ ∃ c x, e = .raise c x ∧ t = s.raise c x q := by
  cases e <;> simp [State.stop, eq_comm]

/-! ## The frame buffer -/

theorem State.holdsBytes_iff_readSeq {s : State} {a : Nat} {bs : List Byte} :
    s.holdsBytes a bs ↔ Memory.readSeq s.buf 1 a bs.length = some bs := by
  rw [Memory.readSeq_eq_some]
  simp [State.holdsBytes]

theorem State.memRead_eq_ok {s : State} {a n : Nat} {bs : List Byte} :
    s.memRead a n = .ok bs ↔ a + n ≤ s.params.bufSize ∧ bs.length = n ∧ s.holdsBytes a bs := by
  rw [State.memRead]
  split
  · next h =>
    cases hr : Memory.readSeq s.buf 1 a n with
    | none =>
      have : ¬(bs.length = n ∧ s.holdsBytes a bs) := by
        rintro ⟨rfl, hb⟩
        rw [State.holdsBytes_iff_readSeq] at hb
        simp [hb] at hr
      simp [h, this]
    | some cs =>
      simp only [h, true_and, Except.ok.injEq]
      constructor
      · rintro rfl
        obtain ⟨hl, -⟩ := Memory.readSeq_eq_some.1 hr
        subst hl
        exact ⟨rfl, State.holdsBytes_iff_readSeq.2 hr⟩
      · rintro ⟨rfl, hb⟩
        rw [State.holdsBytes_iff_readSeq] at hb
        simpa [hb] using hr.symm
  · next h => simp [h]

/-- A read stops with a fault, never with a result code. -/
theorem State.memRead_eq_error {s : State} {a n : Nat} {e : Stop} :
    s.memRead a n = .error e ↔
      (a + n ≤ s.params.bufSize ∧ (∃ j < n, Memory.read s.buf (a + j) = none) ∧ e = .fault .unwrittenBuffer)
      ∨ (s.params.bufSize < a + n ∧ e = .fault .outsideBuffer) := by
  rw [State.memRead]
  split
  · next h =>
    cases hr : Memory.readSeq s.buf 1 a n with
    | none =>
      obtain ⟨j, hj, hn⟩ := Memory.readSeq_eq_none.1 hr
      rw [Nat.one_mul] at hn
      have : ∃ j < n, Memory.read s.buf (a + j) = none := ⟨j, hj, hn⟩
      simp only [Except.error.injEq]
      constructor
      · rintro rfl; exact .inl ⟨h, this, rfl⟩
      · rintro (⟨-, -, rfl⟩ | ⟨hlt, -⟩)
        · rfl
        · omega
    | some cs =>
      simp only [reduceCtorEq, false_iff]
      rintro (⟨-, ⟨j, hj, hn⟩, -⟩ | ⟨hlt, -⟩)
      · obtain ⟨hl, hb⟩ := Memory.readSeq_eq_some.1 hr
        have := hb j (by omega)
        rw [Nat.one_mul] at this
        simp [this] at hn
      · omega
  · next h =>
    simp only [Except.error.injEq]
    constructor
    · rintro rfl; exact .inr ⟨by omega, rfl⟩
    · rintro (⟨h', -⟩ | ⟨-, rfl⟩)
      · exact absurd h' h
      · rfl

/-- A read depends only on BUF_SIZE and on the bytes it reads. -/
theorem State.memRead_congr {s t : State} {a n : Nat} (hp : s.params.bufSize = t.params.bufSize)
    (h : ∀ j < n, Memory.read s.buf (a + j) = Memory.read t.buf (a + j)) : s.memRead a n = t.memRead a n := by
  have : Memory.readSeq s.buf 1 a n = Memory.readSeq t.buf 1 a n :=
    Memory.readSeq_congr fun j hj => by simpa using h j hj
  simp only [State.memRead, hp, this]

theorem State.memWrite_eq_ok {s t : State} {a : Nat} {bs : List Byte} :
    s.memWrite a bs = .ok t ↔
      a + bs.length ≤ s.params.bufSize ∧ t = { s with buf := Memory.writeSeq 1 s.buf a bs } := by
  rw [State.memWrite]
  split <;> simp [*, eq_comm]

theorem State.memWrite_eq_error {s : State} {a : Nat} {bs : List Byte} {e : Stop} :
    s.memWrite a bs = .error e ↔ s.params.bufSize < a + bs.length ∧ e = .fault .outsideBuffer := by
  rw [State.memWrite]
  split
  · next h => simp only [reduceCtorEq, false_iff]; omega
  · next h => simp only [Except.error.injEq]; constructor
              · rintro rfl; exact ⟨by omega, rfl⟩
              · rintro ⟨-, rfl⟩; rfl

/-! ## Numbers and bytes -/

@[simp] theorem natToLe_length (w u : Nat) : (natToLe w u).length = w := by
  induction w generalizing u with
  | zero => rfl
  | succ w ih => simp [natToLe, ih]

@[simp] theorem natToBytes_length (ord : ByteOrder) (w u : Nat) : (natToBytes ord w u).length = w := by
  cases ord <;> simp [natToBytes]

theorem leToNat_lt (bs : List Byte) : leToNat bs < 2 ^ (8 * bs.length) := by
  induction bs with
  | nil => simp [leToNat]
  | cons b bs ih =>
    have hb : b.toNat < 2 ^ 8 := b.isLt
    have : 2 ^ (8 * (b :: bs).length) = 2 ^ 8 * 2 ^ (8 * bs.length) := by
      rw [← Nat.pow_add]; congr 1; simp; omega
    rw [leToNat, this]
    nlinarith [Nat.succ_le_of_lt ih]

theorem bytesToNat_lt (ord : ByteOrder) (bs : List Byte) : bytesToNat ord bs < 2 ^ (8 * bs.length) := by
  cases ord
  · exact leToNat_lt bs
  · simpa [bytesToNat] using leToNat_lt bs.reverse

theorem leToNat_natToLe (w u : Nat) : leToNat (natToLe w u) = u % 2 ^ (8 * w) := by
  induction w generalizing u with
  | zero => simp [natToLe, leToNat, Nat.mod_one]
  | succ w ih =>
    rw [natToLe, leToNat, ih, show 8 * (w + 1) = 8 + 8 * w by omega, Nat.pow_add, Nat.mod_mul]
    simp

theorem bytesToNat_natToBytes (ord : ByteOrder) (w u : Nat) : bytesToNat ord (natToBytes ord w u) = u % 2 ^ (8 * w) := by
  cases ord <;> simp [bytesToNat, natToBytes, leToNat_natToLe]

theorem natToLe_leToNat (bs : List Byte) : natToLe bs.length (leToNat bs) = bs := by
  induction bs with
  | nil => rfl
  | cons b bs ih =>
    have hb : b.toNat < 2 ^ 8 := b.isLt
    have h1 : BitVec.ofNat 8 (b.toNat + 2 ^ 8 * leToNat bs) = b := by
      apply BitVec.eq_of_toNat_eq
      rw [BitVec.toNat_ofNat, Nat.add_mul_mod_self_left, Nat.mod_eq_of_lt hb]
    have h2 : (b.toNat + 2 ^ 8 * leToNat bs) / 2 ^ 8 = leToNat bs := by
      rw [Nat.add_mul_div_left _ _ (by decide), Nat.div_eq_of_lt hb, Nat.zero_add]
    rw [List.length_cons, natToLe, leToNat, h1, h2, ih]

theorem natToBytes_bytesToNat (ord : ByteOrder) (bs : List Byte) : natToBytes ord bs.length (bytesToNat ord bs) = bs := by
  cases ord with
  | little => exact natToLe_leToNat bs
  | big =>
    have := natToLe_leToNat bs.reverse
    rw [List.length_reverse] at this
    simp [bytesToNat, natToBytes, this]

@[simp] theorem natToWords_length (n p : Nat) : (natToWords n p).length = n := by
  induction n generalizing p with
  | zero => rfl
  | succ n ih => simp [natToWords, ih]

theorem wordsToNat_natToWords (n p : Nat) : wordsToNat (natToWords n p) = p % 2 ^ (32 * n) := by
  induction n generalizing p with
  | zero => simp [natToWords, wordsToNat, Nat.mod_one]
  | succ n ih =>
    rw [natToWords, wordsToNat, ih, show 32 * (n + 1) = 32 + 32 * n by omega, Nat.pow_add, Nat.mod_mul]
    simp

theorem wordsToNat_lt (ws : List Word32) : wordsToNat ws < 2 ^ (32 * ws.length) := by
  induction ws with
  | nil => simp [wordsToNat]
  | cons w ws ih =>
    have hw : w.toNat < 2 ^ 32 := w.isLt
    have : 2 ^ (32 * (w :: ws).length) = 2 ^ 32 * 2 ^ (32 * ws.length) := by
      rw [← Nat.pow_add]; congr 1; simp; omega
    rw [wordsToNat, this]
    nlinarith [Nat.succ_le_of_lt ih]

theorem pattern_lt (n : Nat) (r : Int) : pattern n r < 2 ^ n := by
  have h2 : (0 : Int) < 2 ^ n := by positivity
  have h0 := Int.emod_nonneg r (ne_of_gt h2)
  have h1 := Int.emod_lt_of_pos r h2
  rw [pattern]
  zify
  rwa [Int.toNat_of_nonneg h0]

/-- Two's complement reads back every integer of its range (00_scope.md R10). -/
theorem sint_pattern {n : Nat} {r : Int} (hn : 0 < n) (h1 : -(2 ^ (n - 1)) ≤ r) (h2 : r < 2 ^ (n - 1)) :
    sint n (pattern n r) = r := by
  have hp : (2 : Int) ^ n = 2 * 2 ^ (n - 1) := by
    rw [← pow_succ']; congr 1; omega
  have hq : (0 : Int) < 2 ^ (n - 1) := by positivity
  rw [sint]
  rcases lt_or_ge r 0 with hr | hr
  · have hm : r % 2 ^ n = r + 2 ^ n := by
      rw [← Int.add_emod_right, Int.emod_eq_of_lt] <;> omega
    have ht : ((pattern n r : Nat) : Int) = r + 2 ^ n := by
      rw [pattern, hm, Int.toNat_of_nonneg (by omega)]
    rw [if_pos, ht]
    · omega
    · zify; rw [ht]; omega
  · have hm : r % 2 ^ n = r := Int.emod_eq_of_lt hr (by omega)
    have ht : ((pattern n r : Nat) : Int) = r := by
      rw [pattern, hm, Int.toNat_of_nonneg hr]
    rw [if_neg, ht]
    · push Not; zify; rw [ht]; exact h2

/-- The pattern of a two's complement reading is the pattern itself (00_scope.md R10). -/
theorem pattern_sint {n p : Nat} (h : p < 2 ^ n) : pattern n (sint n p) = p := by
  have h' : (p : Int) < 2 ^ n := by exact_mod_cast h
  have h0 : (0 : Int) ≤ p := Int.natCast_nonneg p
  rw [pattern, sint]
  split
  · rw [Int.sub_emod_right, Int.emod_eq_of_lt h0 h', Int.toNat_natCast]
  · rw [Int.emod_eq_of_lt h0 h', Int.toNat_natCast]

/-! ## Reads and writes of numbers -/

theorem State.readUInt_eq_ok {s : State} {a w u : Nat} {ord : ByteOrder} :
    s.readUInt a w ord = .ok u ↔
      a + w ≤ s.params.bufSize ∧ ∃ bs, bs.length = w ∧ s.holdsBytes a bs ∧ bytesToNat ord bs = u := by
  simp only [State.readUInt, map_eq_ok, State.memRead_eq_ok]
  constructor
  · rintro ⟨bs, ⟨h, hl, hb⟩, hu⟩; exact ⟨h, bs, hl, hb, hu⟩
  · rintro ⟨h, bs, hl, hb, hu⟩; exact ⟨bs, ⟨h, hl, hb⟩, hu⟩

theorem State.readUInt_lt {s : State} {a w u : Nat} {ord : ByteOrder} (h : s.readUInt a w ord = .ok u) :
    u < 2 ^ (8 * w) := by
  obtain ⟨-, bs, rfl, -, rfl⟩ := State.readUInt_eq_ok.1 h
  exact bytesToNat_lt ord bs

theorem State.readUInt_congr {s t : State} {a w : Nat} (ord : ByteOrder) (hp : s.params.bufSize = t.params.bufSize)
    (h : ∀ j < w, Memory.read s.buf (a + j) = Memory.read t.buf (a + j)) : s.readUInt a w ord = t.readUInt a w ord := by
  rw [State.readUInt, State.readUInt, State.memRead_congr hp h]

theorem State.writeUInt_eq_ok {s t : State} {a w u : Nat} {ord : ByteOrder} :
    s.writeUInt a w ord u = .ok t ↔
      a + w ≤ s.params.bufSize ∧ t = { s with buf := Memory.writeSeq 1 s.buf a (natToBytes ord w u) } := by
  simp [State.writeUInt, State.memWrite_eq_ok]

theorem State.writeUInt_eq_error {s : State} {a w u : Nat} {ord : ByteOrder} {e : Stop} :
    s.writeUInt a w ord u = .error e ↔ s.params.bufSize < a + w ∧ e = .fault .outsideBuffer := by
  simp [State.writeUInt, State.memWrite_eq_error]

/-! ## Descriptors and result entries -/

theorem State.descWord_eq_ok {s : State} {k : Kind} {i j : Nat} {w : Word32} :
    s.descWord k i j = .ok w ↔ Memory.read s.desc (descAddr k i j) = some w := by
  rw [State.descWord]
  cases Memory.read s.desc (descAddr k i j) <;> simp

theorem State.descWord_eq_error {s : State} {k : Kind} {i j : Nat} {e : Stop} :
    s.descWord k i j = .error e ↔ Memory.read s.desc (descAddr k i j) = none ∧ e = .fault .unwrittenDescriptor := by
  rw [State.descWord]
  cases Memory.read s.desc (descAddr k i j) <;> simp [eq_comm]

/-- A descriptor is read when all its words but D3 are written, and is what they say. -/
theorem State.readDesc_eq_ok {s : State} {k : Kind} {i : Nat} {d : Desc} :
    s.readDesc k i = .ok d ↔ ∃ d0 d1 d2 d4 d5 d6 d7,
      Memory.read s.desc (descAddr k i 0) = some d0 ∧ Memory.read s.desc (descAddr k i 1) = some d1
      ∧ Memory.read s.desc (descAddr k i 2) = some d2 ∧ Memory.read s.desc (descAddr k i 4) = some d4
      ∧ Memory.read s.desc (descAddr k i 5) = some d5 ∧ Memory.read s.desc (descAddr k i 6) = some d6
      ∧ Memory.read s.desc (descAddr k i 7) = some d7 ∧ d = Desc.ofWords d0 d1 d2 d4 d5 d6 d7 := by
  simp only [State.readDesc, bind_eq_ok, State.descWord_eq_ok, pure, Except.pure, Except.ok.injEq]
  constructor
  · rintro ⟨d0, h0, d1, h1, d2, h2, d4, h4, d5, h5, d6, h6, d7, h7, rfl⟩
    exact ⟨d0, d1, d2, d4, d5, d6, d7, h0, h1, h2, h4, h5, h6, h7, rfl⟩
  · rintro ⟨d0, d1, d2, d4, d5, d6, d7, h0, h1, h2, h4, h5, h6, h7, rfl⟩
    exact ⟨d0, h0, d1, h1, d2, h2, d4, h4, d5, h5, d6, h6, d7, h7, rfl⟩

/-- Reading a descriptor stops only at a word that is not written. -/
theorem State.readDesc_eq_error {s : State} {k : Kind} {i : Nat} {e : Stop} (h : s.readDesc k i = .error e) :
    e = .fault .unwrittenDescriptor := by
  simp only [State.readDesc, bind_eq_error, State.descWord_eq_error, pure, Except.pure, reduceCtorEq, and_false,
    exists_false, or_false] at h
  rcases h with h | ⟨_, _, h | ⟨_, _, h | ⟨_, _, h | ⟨_, _, h | ⟨_, _, h | ⟨_, _, h⟩⟩⟩⟩⟩⟩ <;> exact h.2

theorem State.readDesc_congr {s t : State} (h : s.desc = t.desc) (k : Kind) (i : Nat) :
    s.readDesc k i = t.readDesc k i := by
  simp only [State.readDesc, State.descWord, h]

theorem State.resWords_eq_ok {s : State} {i j n : Nat} {ws : List Word32} :
    s.resWords i j n = .ok ws ↔ ws.length = n ∧ s.holdsResWords i j ws := by
  have key : Memory.readSeq s.res 4 (resAddr i j) n = some ws ↔ ws.length = n ∧ s.holdsResWords i j ws := by
    rw [Memory.readSeq_eq_some, State.holdsResWords]
    have : ∀ m, resAddr i j + 4 * m = resAddr i (j + m) := by intro m; simp only [resAddr]; omega
    simp only [this]
  rw [← key, State.resWords]
  cases Memory.readSeq s.res 4 (resAddr i j) n <;> simp

theorem State.resWords_eq_error {s : State} {i j n : Nat} {e : Stop} (h : s.resWords i j n = .error e) :
    e = .fault .unwrittenResult := by
  rw [State.resWords] at h
  split at h <;> simp_all

/-- What inverse scaling answers (42_field.md R231). -/
theorem State.invScale_eq_ok {s : State} {i : Nat} {d : Desc} {r : Int} :
    s.invScale i d = .ok r ↔ ∃ ns vs, s.resWords i 2 4 = .ok ns ∧ s.resWords i 6 1 = .ok vs ∧ wordsToNat vs ≠ 0
      ∧ r = roundHalfAway (sint 128 (wordsToNat ns) * d.sden) (wordsToNat vs * d.snum) := by
  rw [State.invScale]
  cases h1 : s.resWords i 2 4 with
  | error e => simp
  | ok ns =>
    cases h2 : s.resWords i 6 1 with
    | error e => simp
    | ok vs =>
      dsimp only
      split
      · next h0 =>
        constructor
        · intro h; cases h
        · rintro ⟨_, _, h, h', hne, -⟩; cases h; cases h'; exact absurd h0 hne
      · next h0 =>
        constructor
        · rintro ⟨⟩; exact ⟨ns, vs, rfl, rfl, h0, rfl⟩
        · rintro ⟨_, _, h, h', -, rfl⟩; cases h; cases h'; rfl

end Sys2Proof.Machine
end

