-- ==== Sys2Proof/Laws/Commands.lean ====
section
/-! SUPPORT. For each part of a command, once, what it answers and how it can end early; and for each command, the two
ways it completes: by a raised code, or with the effect of its parts. -/

namespace Sys2Proof.Machine

/-! ## Checksums -/

theorem State.csumOf_eq_ok {s : State} {k : Kind} {a n x : Nat} :
    s.csumOf k a n = .ok x ↔
      a + n ≤ s.params.bufSize ∧ ∃ bs, bs.length = n ∧ s.holdsBytes a bs ∧ (s.profile k).csum bs = x := by
  simp only [State.csumOf, map_eq_ok, State.memRead_eq_ok]
  constructor
  · rintro ⟨bs, ⟨h, hl, hb⟩, hx⟩; exact ⟨h, bs, hl, hb, hx⟩
  · rintro ⟨h, bs, hl, hb, hx⟩; exact ⟨bs, ⟨h, hl, hb⟩, hx⟩

theorem State.csumOf_eq_error {s : State} {k : Kind} {a n : Nat} {e : Stop} :
    s.csumOf k a n = .error e ↔ s.memRead a n = .error e := by
  simp [State.csumOf, map_eq_error]

theorem State.csumOf_congr {s t : State} {k : Kind} {a n : Nat} (hp : s.params.bufSize = t.params.bufSize)
    (hk : s.slot k = t.slot k) (h : ∀ j < n, Memory.read s.buf (a + j) = Memory.read t.buf (a + j)) :
    s.csumOf k a n = t.csumOf k a n := by
  rw [State.csumOf, State.csumOf, State.memRead_congr hp h, State.profile, State.profile, hk]

/-- A read of the buffer raises no result code. -/
theorem State.memRead_ne_raise {s : State} {a n : Nat} {c : ResultCode} {x : BitVec 8} :
    s.memRead a n ≠ .error (.raise c x) := by
  intro h
  rcases State.memRead_eq_error.1 h with ⟨-, -, h⟩ | ⟨-, h⟩ <;> cases h

theorem State.readUInt_eq_error {s : State} {a w : Nat} {ord : ByteOrder} {e : Stop} :
    s.readUInt a w ord = .error e ↔ s.memRead a w = .error e := by
  simp [State.readUInt, map_eq_error]

theorem State.readRaw_eq_ok {s : State} {a : Nat} {d : Desc} {r : Int} :
    s.readRaw a d = .ok r ↔ ∃ u, s.readUInt a d.w d.ord = .ok u ∧ d.rawOf u = r := by
  simp [State.readRaw, map_eq_ok]

theorem State.readRaw_eq_error {s : State} {a : Nat} {d : Desc} {e : Stop} :
    s.readRaw a d = .error e ↔ s.memRead a d.w = .error e := by
  simp [State.readRaw, map_eq_error, State.readUInt_eq_error]

theorem State.rangeCsum_eq_ok {s : State} {k : Kind} {x : Nat} :
    s.rangeCsum k = .ok x ↔ (s.profile k).legal = true ∧ s.arg0.toNat + s.arg1.toNat ≤ s.params.bufSize
      ∧ s.csumOf k s.arg0.toNat s.arg1.toNat = .ok x := by
  simp [State.rangeCsum, bind_eq_ok, require_eq_ok]

theorem State.rangeCsum_eq_error {s : State} {k : Kind} {e : Stop} :
    s.rangeCsum k = .error e ↔
      ((s.profile k).legal = false ∧ e = .raise .configError 0xFF)
      ∨ ((s.profile k).legal = true ∧ s.params.bufSize < s.arg0.toNat + s.arg1.toNat ∧ e = .raise .operandError 0)
      ∨ ((s.profile k).legal = true ∧ s.arg0.toNat + s.arg1.toNat ≤ s.params.bufSize
        ∧ s.csumOf k s.arg0.toNat s.arg1.toNat = .error e) := by
  simp only [State.rangeCsum, bind_eq_error, require_eq_error, require_eq_ok, decide_eq_false_iff_not, not_le,
    decide_eq_true_eq]
  simp [and_or_left]

theorem State.trailerChecks_eq_ok {s : State} {k : Kind} {u : Unit} :
    s.trailerChecks k = .ok u ↔ (s.profile k).legal = true ∧ s.frameLen.toNat ≤ s.params.bufSize
      ∧ (s.slot k).kcsStart.toNat + (s.profile k).csw ≤ s.frameLen.toNat := by
  simp [State.trailerChecks, bind_eq_ok, require_eq_ok]

theorem State.trailerChecks_eq_error {s : State} {k : Kind} {e : Stop} :
    s.trailerChecks k = .error e ↔
      ((s.profile k).legal = false ∧ e = .raise .configError 0xFF)
      ∨ ((s.profile k).legal = true ∧ (s.params.bufSize < s.frameLen.toNat
          ∨ s.frameLen.toNat < (s.slot k).kcsStart.toNat + (s.profile k).csw) ∧ e = .raise .operandError 0) := by
  simp only [State.trailerChecks, bind_eq_error, require_eq_error, require_eq_ok, decide_eq_false_iff_not]
  have : ¬(s.frameLen.toNat ≤ s.params.bufSize ∧ (s.slot k).kcsStart.toNat + (s.profile k).csw ≤ s.frameLen.toNat) ↔
      s.params.bufSize < s.frameLen.toNat ∨ s.frameLen.toNat < (s.slot k).kcsStart.toNat + (s.profile k).csw := by omega
  simp [this]

/-- Every checksum width is 1, 2, 4 or 8 bytes (42_field.md R222). -/
theorem widthBytes_cases (c : BitVec 2) : widthBytes c = 1 ∨ widthBytes c = 2 ∨ widthBytes c = 4 ∨ widthBytes c = 8 := by
  revert c; decide

theorem widthBytes_pos (c : BitVec 2) : 0 < widthBytes c := by
  rcases widthBytes_cases c with h | h | h | h <;> omega

theorem KindSlot.csw_pos (q : KindSlot) : 0 < q.profile.csw := widthBytes_pos _

theorem KindSlot.csw_le (q : KindSlot) : q.profile.csw ≤ 8 := by
  have := widthBytes_cases (q.kcfg.extractLsb' 6 2)
  simp only [KindSlot.profile]; omega

/-! ## Completion -/

theorem execCsumCompute_eq_next {k : Kind} {s t : State} :
    execCsumCompute k s = .next t ↔
      (∃ c x, s.rangeCsum k = .error (.raise c x) ∧ t = s.raise c x k.code)
      ∨ ∃ x, s.rangeCsum k = .ok x ∧ t = (s.setCsum x).finish 0 k.code false false := by
  rw [execCsumCompute]
  cases s.rangeCsum k with
  | error e => simp [State.stop_eq_next]
  | ok x => simp [eq_comm]

theorem execCsumVerify_eq_next {k : Kind} {s t : State} :
    execCsumVerify k s = .next t ↔
      (∃ c x, s.rangeCsum k = .error (.raise c x) ∧ t = s.raise c x k.code)
      ∨ ∃ x, s.rangeCsum k = .ok x
        ∧ t = (s.setCsum x).finish 0 k.code (decide (BitVec.ofNat 64 x = s.exp)) false := by
  rw [execCsumVerify]
  cases s.rangeCsum k with
  | error e => simp [State.stop_eq_next]
  | ok x => simp [eq_comm]

theorem State.trailerValues_eq_ok {s : State} {k : Kind} {x rx : Nat} :
    s.trailerValues k = .ok (x, rx) ↔ s.trailerChecks k = .ok () ∧ s.frameCsum k s.frameLen.toNat = .ok x
      ∧ s.frameTrailer k s.frameLen.toNat = .ok rx := by
  simp only [State.trailerValues, bind_eq_ok, pure, Except.pure, Except.ok.injEq, Prod.mk.injEq]
  constructor
  · rintro ⟨_, h, _, hx, _, hr, rfl, rfl⟩; exact ⟨h, hx, hr⟩
  · rintro ⟨h, hx, hr⟩; exact ⟨_, h, _, hx, _, hr, rfl, rfl⟩

theorem State.trailerValues_eq_error {s : State} {k : Kind} {e : Stop} :
    s.trailerValues k = .error e ↔ s.trailerChecks k = .error e
      ∨ (s.trailerChecks k = .ok () ∧ (s.frameCsum k s.frameLen.toNat = .error e
        ∨ (∃ x, s.frameCsum k s.frameLen.toNat = .ok x) ∧ s.frameTrailer k s.frameLen.toNat = .error e)) := by
  simp only [State.trailerValues, bind_eq_error, pure, Except.pure, reduceCtorEq, and_false, exists_false, or_false]
  constructor
  · rintro (h | ⟨_, h, h' | ⟨x, hx, h'⟩⟩)
    · exact .inl h
    · exact .inr ⟨h, .inl h'⟩
    · exact .inr ⟨h, .inr ⟨⟨x, hx⟩, h'⟩⟩
  · rintro (h | ⟨h, h' | ⟨⟨x, hx⟩, h'⟩⟩)
    · exact .inl h
    · exact .inr ⟨_, h, .inl h'⟩
    · exact .inr ⟨_, h, .inr ⟨x, hx, h'⟩⟩

theorem execTrailerVerify_eq_next {k : Kind} {s t : State} :
    execTrailerVerify k s = .next t ↔
      (∃ c x, s.trailerValues k = .error (.raise c x) ∧ t = s.raise c x k.code)
      ∨ ∃ x rx, s.trailerValues k = .ok (x, rx)
        ∧ t = ((s.setCsum x).setCsrx rx).finish 0 k.code (decide (x = rx)) false := by
  rw [execTrailerVerify]
  cases h : s.trailerValues k with
  | error e => simp [State.stop_eq_next]
  | ok p => obtain ⟨a, b⟩ := p; simp [eq_comm, and_assoc]

theorem State.trailerAppended_eq_ok {s t : State} {k : Kind} :
    s.trailerAppended k = .ok t ↔ s.trailerChecks k = .ok () ∧ ∃ x u, s.frameCsum k s.frameLen.toNat = .ok x
      ∧ s.putTrailer k s.frameLen.toNat x = .ok u ∧ t = u.setCsum x := by
  simp only [State.trailerAppended, bind_eq_ok, pure, Except.pure, Except.ok.injEq]
  constructor
  · rintro ⟨_, h, x, hx, u, hu, rfl⟩; exact ⟨h, x, u, hx, hu, rfl⟩
  · rintro ⟨h, x, u, hx, hu, rfl⟩; exact ⟨_, h, x, hx, u, hu, rfl⟩

theorem State.trailerAppended_eq_error {s : State} {k : Kind} {e : Stop} :
    s.trailerAppended k = .error e ↔ s.trailerChecks k = .error e
      ∨ (s.trailerChecks k = .ok () ∧ (s.frameCsum k s.frameLen.toNat = .error e
        ∨ ∃ x, s.frameCsum k s.frameLen.toNat = .ok x ∧ s.putTrailer k s.frameLen.toNat x = .error e)) := by
  simp only [State.trailerAppended, bind_eq_error, pure, Except.pure, reduceCtorEq, and_false, exists_false, or_false]
  constructor
  · rintro (h | ⟨_, h, h'⟩)
    · exact .inl h
    · exact .inr ⟨h, h'⟩
  · rintro (h | ⟨h, h'⟩)
    · exact .inl h
    · exact .inr ⟨_, h, h'⟩

theorem execTrailerAppend_eq_next {k : Kind} {s t : State} :
    execTrailerAppend k s = .next t ↔
      (∃ c x, s.trailerAppended k = .error (.raise c x) ∧ t = s.raise c x k.code)
      ∨ ∃ u, s.trailerAppended k = .ok u ∧ t = u.finish 0 k.code false false := by
  rw [execTrailerAppend]
  cases s.trailerAppended k with
  | error e => simp [State.stop_eq_next]
  | ok x => simp [eq_comm]

/-! ## Fields -/

theorem State.fieldChecks_eq_ok {s : State} {k : Kind} {idx : BitVec 8} {d : Desc} :
    s.fieldChecks k idx = .ok d ↔ s.isValid k = true ∧ idx.toNat < (s.slot k).kndesc.toNat
      ∧ s.readDesc k idx.toNat = .ok d ∧ s.frameLen.toNat ≤ s.params.bufSize
      ∧ s.fieldPos d + d.w ≤ s.frameLen.toNat := by
  simp only [State.fieldChecks, bind_eq_ok, require_eq_ok, decide_eq_true_eq, pure, Except.pure, Except.ok.injEq]
  constructor
  · rintro ⟨_, h1, _, h2, _, h3, _, ⟨h4, h5⟩, rfl⟩; exact ⟨h1, h2, h3, h4, h5⟩
  · rintro ⟨h1, h2, h3, h4, h5⟩; exact ⟨(), h1, (), h2, _, h3, (), ⟨h4, h5⟩, rfl⟩

theorem State.fieldChecks_eq_error {s : State} {k : Kind} {idx : BitVec 8} {e : Stop} :
    s.fieldChecks k idx = .error e ↔
      (s.isValid k = false ∧ e = .raise .configError 0xFF)
      ∨ (s.isValid k = true ∧ (s.slot k).kndesc.toNat ≤ idx.toNat ∧ e = .raise .operandError idx)
      ∨ (s.isValid k = true ∧ idx.toNat < (s.slot k).kndesc.toNat ∧ s.readDesc k idx.toNat = .error e)
      ∨ (s.isValid k = true ∧ idx.toNat < (s.slot k).kndesc.toNat ∧ (∃ d, s.readDesc k idx.toNat = .ok d
        ∧ (s.params.bufSize < s.frameLen.toNat ∨ s.frameLen.toNat < s.fieldPos d + d.w))
        ∧ e = .raise .operandError idx) := by
  have key : ∀ d : Desc, ¬(s.frameLen.toNat ≤ s.params.bufSize ∧ s.fieldPos d + d.w ≤ s.frameLen.toNat) ↔
      s.params.bufSize < s.frameLen.toNat ∨ s.frameLen.toNat < s.fieldPos d + d.w := fun d => by omega
  simp only [State.fieldChecks, bind_eq_error, require_eq_error, require_eq_ok, decide_eq_false_iff_not, not_lt,
    decide_eq_true_eq, key, pure, Except.pure, reduceCtorEq, and_false, exists_false, or_false]
  constructor
  · rintro (h | ⟨_, h, h' | ⟨_, h', h'' | ⟨d, hd, h'', he⟩⟩⟩)
    · exact .inl h
    · exact .inr (.inl ⟨h, h'⟩)
    · exact .inr (.inr (.inl ⟨h, h', h''⟩))
    · exact .inr (.inr (.inr ⟨h, h', ⟨d, hd, h''⟩, he⟩))
  · rintro (h | ⟨h, h'⟩ | ⟨h, h', h''⟩ | ⟨h, h', ⟨d, hd, h''⟩, he⟩)
    · exact .inl h
    · exact .inr ⟨(), h, .inl h'⟩
    · exact .inr ⟨(), h, .inr ⟨(), h', .inl h''⟩⟩
    · exact .inr ⟨(), h, .inr ⟨(), h', .inr ⟨d, hd, h'', he⟩⟩⟩

theorem Desc.inRange_iff {d : Desc} {r : Int} : d.inRange r = true ↔ d.vlo ≤ r ∧ r ≤ d.vhi := by
  simp [Desc.inRange]

theorem State.fieldExtracted_eq_ok {s : State} {k : Kind} {idx : BitVec 8} {d : Desc} {r : Int} :
    s.fieldExtracted k idx = .ok (d, r) ↔
      s.fieldChecks k idx = .ok d ∧ s.readRaw (s.fieldPos d) d = .ok r ∧ d.inRange r = true := by
  simp only [State.fieldExtracted, bind_eq_ok, require_eq_ok, pure, Except.pure, Except.ok.injEq, Prod.mk.injEq]
  constructor
  · rintro ⟨_, h, _, hr, _, hi, rfl, rfl⟩; exact ⟨h, hr, hi⟩
  · rintro ⟨h, hr, hi⟩; exact ⟨_, h, _, hr, (), hi, rfl, rfl⟩

theorem State.fieldExtracted_eq_error {s : State} {k : Kind} {idx : BitVec 8} {e : Stop} :
    s.fieldExtracted k idx = .error e ↔ s.fieldChecks k idx = .error e
      ∨ ∃ d, s.fieldChecks k idx = .ok d ∧ (s.readRaw (s.fieldPos d) d = .error e
        ∨ ∃ r, s.readRaw (s.fieldPos d) d = .ok r ∧ d.inRange r = false ∧ e = .raise .fieldOutOfRange idx) := by
  simp [State.fieldExtracted, bind_eq_error, require_eq_error, pure, Except.pure]

theorem execFieldExtract_eq_next {k : Kind} {idx : BitVec 8} {s t : State} :
    execFieldExtract k idx s = .next t ↔
      (∃ c x, s.fieldExtracted k idx = .error (.raise c x) ∧ t = s.raise c x k.code)
      ∨ ∃ d r, s.fieldExtracted k idx = .ok (d, r)
        ∧ t = (s.storeValue idx.toNat r d).finish idx k.code false false := by
  rw [execFieldExtract]
  cases h : s.fieldExtracted k idx with
  | error e => simp [State.stop_eq_next]
  | ok p => obtain ⟨a, b⟩ := p; simp [eq_comm, and_assoc]

theorem State.encodeRaw_eq_ok {s : State} {i : Nat} {d : Desc} {r : Int} :
    s.encodeRaw i d = .ok r ↔ s.invScale i d = .ok r ∧ d.inRange r = true := by
  simp only [State.encodeRaw, bind_eq_ok, require_eq_ok, pure, Except.pure, Except.ok.injEq]
  constructor
  · rintro ⟨_, h, _, hi, rfl⟩; exact ⟨h, hi⟩
  · rintro ⟨h, hi⟩; exact ⟨_, h, (), hi, rfl⟩

theorem State.encodeRaw_eq_error {s : State} {i : Nat} {d : Desc} {e : Stop} :
    s.encodeRaw i d = .error e ↔ s.invScale i d = .error e
      ∨ ∃ r, s.invScale i d = .ok r ∧ d.inRange r = false ∧ e = .raise .fieldOutOfRange (BitVec.ofNat 8 i) := by
  simp [State.encodeRaw, bind_eq_error, require_eq_error, pure, Except.pure]

/-- Inverse scaling stops at an unwritten word of the value, or at VDEN = 0. -/
theorem State.invScale_eq_error {s : State} {i : Nat} {d : Desc} {e : Stop} (h : s.invScale i d = .error e) :
    e = .fault .unwrittenResult ∨ e = .raise .operandError (BitVec.ofNat 8 i) := by
  rw [State.invScale] at h
  cases h1 : s.resWords i 2 4 with
  | error e1 =>
    simp only [h1, Except.error.injEq] at h
    exact .inl (h ▸ State.resWords_eq_error h1)
  | ok ns =>
    cases h2 : s.resWords i 6 1 with
    | error e2 =>
      simp only [h1, h2, Except.error.injEq] at h
      exact .inl (h ▸ State.resWords_eq_error h2)
    | ok vs =>
      simp only [h1, h2] at h
      split at h
      · cases h; exact .inr rfl
      · cases h

theorem State.putField_eq_ok {s t : State} {i : Nat} {d : Desc} {r : Int} :
    s.putField i d r = .ok t ↔ s.fieldPos d + d.w ≤ s.params.bufSize
      ∧ t = { s with buf := Memory.writeSeq 1 s.buf (s.fieldPos d) (natToBytes d.ord d.w (d.pattern r)) }.storeRaw i r := by
  simp only [State.putField, bind_eq_ok, State.writeUInt_eq_ok, pure, Except.pure, Except.ok.injEq]
  constructor
  · rintro ⟨_, ⟨h, rfl⟩, rfl⟩; exact ⟨h, rfl⟩
  · rintro ⟨h, rfl⟩; exact ⟨_, ⟨h, rfl⟩, rfl⟩

theorem State.putField_eq_error {s : State} {i : Nat} {d : Desc} {r : Int} {e : Stop} :
    s.putField i d r = .error e ↔ s.params.bufSize < s.fieldPos d + d.w ∧ e = .fault .outsideBuffer := by
  simp [State.putField, bind_eq_error, State.writeUInt_eq_error, pure, Except.pure]

theorem State.fieldInserted_eq_ok {s t : State} {k : Kind} {idx : BitVec 8} :
    s.fieldInserted k idx = .ok t ↔ ∃ d r, s.fieldChecks k idx = .ok d ∧ s.encodeRaw idx.toNat d = .ok r
      ∧ s.putField idx.toNat d r = .ok t := by
  simp only [State.fieldInserted, bind_eq_ok]
  constructor
  · rintro ⟨d, h, r, hr, ht⟩; exact ⟨d, r, h, hr, ht⟩
  · rintro ⟨d, r, h, hr, ht⟩; exact ⟨d, h, r, hr, ht⟩

theorem State.fieldInserted_eq_error {s : State} {k : Kind} {idx : BitVec 8} {e : Stop} :
    s.fieldInserted k idx = .error e ↔ s.fieldChecks k idx = .error e
      ∨ ∃ d, s.fieldChecks k idx = .ok d ∧ (s.encodeRaw idx.toNat d = .error e
        ∨ ∃ r, s.encodeRaw idx.toNat d = .ok r ∧ s.putField idx.toNat d r = .error e) := by
  simp [State.fieldInserted, bind_eq_error]

theorem execFieldInsert_eq_next {k : Kind} {idx : BitVec 8} {s t : State} :
    execFieldInsert k idx s = .next t ↔
      (∃ c x, s.fieldInserted k idx = .error (.raise c x) ∧ t = s.raise c x k.code)
      ∨ ∃ u, s.fieldInserted k idx = .ok u ∧ t = u.finish idx k.code false false := by
  rw [execFieldInsert]
  cases s.fieldInserted k idx with
  | error e => simp [State.stop_eq_next]
  | ok x => simp [eq_comm]

/-! ## Schemas -/

theorem State.readDescs_eq_error {s : State} {k : Kind} {is : List Nat} {e : Stop} (h : s.readDescs k is = .error e) :
    e = .fault .unwrittenDescriptor := by
  induction is with
  | nil => simp [State.readDescs] at h
  | cons i is ih =>
    simp only [State.readDescs, bind_eq_error, pure, Except.pure, reduceCtorEq, and_false, exists_false, or_false] at h
    rcases h with h | ⟨_, _, h⟩
    · exact State.readDesc_eq_error h
    · exact ih h

theorem State.readDescs_eq_ok {s : State} {k : Kind} {is : List Nat} {ds : List Desc} :
    s.readDescs k is = .ok ds ↔ ds.length = is.length
      ∧ ∀ n, (h : n < is.length) → ∃ d, ds[n]? = some d ∧ s.readDesc k is[n] = .ok d := by
  induction is generalizing ds with
  | nil => simp [State.readDescs, eq_comm]
  | cons i is ih =>
    simp only [State.readDescs, bind_eq_ok, pure, Except.pure, Except.ok.injEq, ih]
    constructor
    · rintro ⟨d, hd, ds, ⟨hl, h⟩, rfl⟩
      refine ⟨by simp [hl], ?_⟩
      rintro (_ | n) hn
      · exact ⟨d, rfl, hd⟩
      · simpa using h n (by simpa using hn)
    · rintro ⟨hl, h⟩
      cases ds with
      | nil => simp at hl
      | cons d ds =>
        obtain ⟨d', h1, h2⟩ := h 0 (by simp)
        simp only [List.getElem?_cons_zero, Option.some.injEq] at h1
        subst h1
        refine ⟨d, h2, ds, ⟨by simpa using hl, fun n hn => ?_⟩, rfl⟩
        exact h (n + 1) (by simpa using hn)

theorem State.descFail_eq_error {s : State} {k : Kind} {e : Stop} (h : s.descFail k = .error e) :
    e = .fault .unwrittenDescriptor := by
  rw [State.descFail, map_eq_error] at h
  exact State.readDescs_eq_error h

theorem execSchemaCheck_eq_next {k : Kind} {s t : State} :
    execSchemaCheck k s = .next t ↔
      (s.kindChecksOk k = false ∧ t = (s.setValid k false).raise .configError 0xFF k.code)
      ∨ (s.kindChecksOk k = true ∧ ∃ i, s.descFail k = .ok (some i)
        ∧ t = (s.setValid k false).raise .configError (BitVec.ofNat 8 i) k.code)
      ∨ (s.kindChecksOk k = true ∧ s.descFail k = .ok none
        ∧ t = (s.setValid k true).finish 0 k.code false false) := by
  rw [execSchemaCheck]
  cases hk : s.kindChecksOk k with
  | false => simp [eq_comm]
  | true =>
    cases hd : s.descFail k with
    | error e => simp [State.descFail_eq_error hd]
    | ok o => cases o <;> simp [eq_comm]

end Sys2Proof.Machine
end

