-- ==== Sys2Proof/Laws/Frames.lean ====
section
/-! SUPPORT. The parts of FRAME.DECODE and FRAME.ENCODE: what each answers, how each can end early, and the ways the two
commands complete. -/

namespace Sys2Proof.Machine

/-! ## Decoding -/

theorem State.decodeConfigOk_iff {s : State} {sel : DecodeSel} : s.decodeConfigOk sel = true ↔ s.configServes sel := by
  have ha : ∀ p : Kind → Bool, Kind.all.all p = true ↔ ∀ j, p j = true := by
    intro p
    simp only [List.all_eq_true]
    exact ⟨fun h j => h j (by cases j <;> decide), fun h j _ => h j⟩
  have hx : ∀ p : Kind → Bool, Kind.all.any p = true ↔ ∃ j, p j = true := by
    intro p
    simp only [List.any_eq_true]
    exact ⟨fun ⟨j, _, h⟩ => ⟨j, h⟩, fun ⟨j, h⟩ => ⟨j, by cases j <;> decide, h⟩⟩
  cases sel with
  | kind k => simp [State.decodeConfigOk, State.configServes]
  | any =>
    simp only [State.decodeConfigOk, State.configServes, Bool.and_eq_true, ha, hx, Bool.or_eq_true, Bool.not_eq_true']
    refine and_congr_right fun _ => forall_congr' fun j => ?_
    cases (s.slot j).en <;> simp

theorem State.resolve_kind_eq_some {s : State} {j k : Kind} {d : Nat} :
    s.resolve (.kind j) d = some k ↔ k = j ∧ (s.slot j).kdisc.toNat = d := by
  simp only [State.resolve]
  split
  · next h => simp [h, eq_comm]
  · next h => simp [h]

theorem State.carries_iff {s : State} {d : Nat} {j : Kind} :
    s.carries d j = true ↔ (s.slot j).en = true ∧ (s.slot j).kdisc.toNat = d := by
  simp [State.carries]

/-- A kind that resolves carries the discriminator. -/
theorem State.carries_of_resolve_any {s : State} {k : Kind} {d : Nat} (h : s.resolve .any d = some k) :
    (s.slot k).en = true ∧ (s.slot k).kdisc.toNat = d :=
  State.carries_iff.1 (List.find?_some h)

theorem State.kdisc_of_resolve {s : State} {sel : DecodeSel} {k : Kind} {d : Nat} (h : s.resolve sel d = some k) :
    (s.slot k).kdisc.toNat = d := by
  cases sel with
  | kind j => obtain ⟨rfl, h⟩ := State.resolve_kind_eq_some.1 h; exact h
  | any => exact (State.carries_of_resolve_any h).2

theorem State.resolve_eq_none {s : State} {sel : DecodeSel} {d : Nat} :
    s.resolve sel d = none ↔ s.resolvesToNone sel d := by
  cases sel with
  | kind j => simp only [State.resolve, State.resolvesToNone]; split <;> simp [*]
  | any =>
    simp only [State.resolve, State.resolvesToNone, List.find?_eq_none, State.carries_iff, not_and]
    exact ⟨fun h j => h j (by cases j <;> decide), fun h j _ => h j⟩

theorem State.resolve_of_resolvesTo {s : State} {sel : DecodeSel} {k : Kind} {d : Nat} (h : s.resolvesTo sel d k) :
    s.resolve sel d = some k := by
  cases sel with
  | kind j => exact State.resolve_kind_eq_some.2 h
  | any =>
    obtain ⟨he, hd, hu⟩ := h
    cases hr : s.resolve .any d with
    | none => exact absurd hd (State.resolve_eq_none.1 hr k he)
    | some j => obtain ⟨he', hd'⟩ := State.carries_of_resolve_any hr; rw [hu j he' hd']

theorem State.decodeKindOf_eq_ok {s : State} {sel : DecodeSel} {k : Kind} :
    s.decodeKindOf sel = .ok k ↔ ∃ d, s.headerRead sel d ∧ s.resolve sel d = some k := by
  simp only [State.decodeKindOf, bind_eq_ok, require_eq_ok, decide_eq_true_eq, State.decodeConfigOk_iff,
    State.headerRead]
  constructor
  · rintro ⟨_, h1, _, h2, _, h3, d, h4, h5⟩
    refine ⟨d, ⟨h1, h2, h3, h4⟩, ?_⟩
    split at h5
    · cases h5
    · next h => cases h5; exact h
  · rintro ⟨d, ⟨h1, h2, h3, h4⟩, h5⟩
    exact ⟨(), h1, (), h2, (), h3, d, h4, by rw [h5]⟩

theorem State.decodeKindOf_eq_error {s : State} {sel : DecodeSel} {e : Stop} :
    s.decodeKindOf sel = .error e ↔
      (¬s.configServes sel ∧ e = .raise .configError 0xFF)
      ∨ (s.configServes sel ∧ s.params.bufSize < s.frameLen.toNat ∧ e = .raise .operandError 0)
      ∨ (s.configServes sel ∧ s.frameLen.toNat ≤ s.params.bufSize ∧ s.frameLen.toNat < s.hdrLen
        ∧ e = .raise .tooShort 0)
      ∨ (s.configServes sel ∧ s.frameLen.toNat ≤ s.params.bufSize ∧ s.hdrLen ≤ s.frameLen.toNat
        ∧ s.disc = .error e)
      ∨ ∃ d, s.headerRead sel d ∧ s.resolvesToNone sel d ∧ e = .raise .unknownFrameType 0 := by
  have hc : s.decodeConfigOk sel = false ↔ ¬s.configServes sel := by
    rw [← State.decodeConfigOk_iff, Bool.not_eq_true]
  simp only [State.decodeKindOf, bind_eq_error, require_eq_error, require_eq_ok, decide_eq_true_eq,
    decide_eq_false_iff_not, State.decodeConfigOk_iff, hc, not_le, State.headerRead, ← State.resolve_eq_none]
  constructor
  · rintro (h | ⟨_, h1, h | ⟨_, h2, h | ⟨_, h3, h | ⟨d, h4, h5⟩⟩⟩⟩)
    · exact .inl h
    · exact .inr (.inl ⟨h1, h⟩)
    · exact .inr (.inr (.inl ⟨h1, h2, h⟩))
    · exact .inr (.inr (.inr (.inl ⟨h1, h2, h3, h⟩)))
    · refine .inr (.inr (.inr (.inr ⟨d, ⟨h1, h2, h3, h4⟩, ?_⟩)))
      split at h5
      · next h => cases h5; exact ⟨h, rfl⟩
      · cases h5
  · rintro (h | ⟨h1, h⟩ | ⟨h1, h2, h⟩ | ⟨h1, h2, h3, h⟩ | ⟨d, ⟨h1, h2, h3, h4⟩, h5, rfl⟩)
    · exact .inl h
    · exact .inr ⟨(), h1, .inl h⟩
    · exact .inr ⟨(), h1, .inr ⟨(), h2, .inl h⟩⟩
    · exact .inr ⟨(), h1, .inr ⟨(), h2, .inr ⟨(), h3, .inl h⟩⟩⟩
    · exact .inr ⟨(), h1, .inr ⟨(), h2, .inr ⟨(), h3, .inr ⟨d, h4, by rw [h5]⟩⟩⟩⟩

theorem KindSlot.payloadOk_iff {q : KindSlot} {p : Nat} :
    q.payloadOk p = true ↔ q.kpayMin.toNat ≤ p ∧ p ≤ q.kpayMax.toNat := by
  simp [KindSlot.payloadOk]

theorem State.decodePayload_eq_ok {s : State} {k : Kind} {p : Nat} :
    s.decodePayload k = .ok p ↔ s.payloadIs k p ∧ s.frameLen.toNat = s.totalLength k p := by
  rw [State.decodePayload, State.payloadIs]
  split
  · simp only [bind_eq_ok, require_eq_ok, decide_eq_true_eq, pure, Except.pure, Except.ok.injEq,
      KindSlot.payloadOk_iff]
    constructor
    · rintro ⟨p, h1, _, h2, _, h3, rfl⟩; exact ⟨⟨h1, h2⟩, h3⟩
    · rintro ⟨⟨h1, h2⟩, h3⟩; exact ⟨p, h1, (), h2, (), h3, rfl⟩
  · simp only [bind_eq_ok, require_eq_ok, decide_eq_true_eq, pure, Except.pure, Except.ok.injEq]
    constructor
    · rintro ⟨_, h, rfl⟩; exact ⟨rfl, h⟩
    · rintro ⟨rfl, h⟩; exact ⟨(), h, rfl⟩

theorem State.decodePayload_eq_error {s : State} {k : Kind} {e : Stop} :
    s.decodePayload k = .error e ↔
      ((s.slot k).lenMode = true ∧ s.lengthField k = .error e)
      ∨ (e = .raise .lengthMismatch 0 ∧ (((s.slot k).lenMode = true ∧ ∃ p, s.lengthField k = .ok p
            ∧ (p < (s.slot k).kpayMin.toNat ∨ (s.slot k).kpayMax.toNat < p))
          ∨ ∃ p, s.payloadIs k p ∧ s.frameLen.toNat ≠ s.totalLength k p)) := by
  have hn : ∀ p, (s.slot k).payloadOk p = false ↔ p < (s.slot k).kpayMin.toNat ∨ (s.slot k).kpayMax.toNat < p := by
    intro p; rw [← Bool.not_eq_true, KindSlot.payloadOk_iff]; omega
  rw [State.decodePayload]
  simp only [State.payloadIs]
  split
  · simp only [bind_eq_error, require_eq_error, require_eq_ok, decide_eq_true_eq, decide_eq_false_iff_not, pure,
      Except.pure, reduceCtorEq, and_false, exists_false, or_false, KindSlot.payloadOk_iff, true_and, *]
    constructor
    · rintro (h | ⟨p, h1, ⟨h2, rfl⟩ | ⟨_, h2, h3, rfl⟩⟩)
      · exact .inl h
      · exact .inr ⟨rfl, .inl ⟨p, h1, h2⟩⟩
      · exact .inr ⟨rfl, .inr ⟨p, ⟨h1, h2⟩, h3⟩⟩
    · rintro (h | ⟨rfl, ⟨p, h1, h2⟩ | ⟨p, ⟨h1, h2⟩, h3⟩⟩)
      · exact .inl h
      · exact .inr ⟨p, h1, .inl ⟨h2, rfl⟩⟩
      · exact .inr ⟨p, h1, .inr ⟨(), h2, h3, rfl⟩⟩
  · next hf =>
    simp only [bind_eq_error, require_eq_error, require_eq_ok, decide_eq_true_eq, decide_eq_false_iff_not, pure,
      Except.pure, reduceCtorEq, and_false, exists_false, or_false, false_and, false_or, hf]
    constructor
    · rintro ⟨h, rfl⟩; exact ⟨rfl, _, rfl, h⟩
    · rintro ⟨rfl, _, rfl, h⟩; exact ⟨h, rfl⟩

theorem State.decodeChecksums_eq_ok {s : State} {k : Kind} {t x rx : Nat} :
    s.decodeChecksums k t = .ok (x, rx) ↔ s.frameCsum k t = .ok x ∧ s.frameTrailer k t = .ok rx := by
  simp only [State.decodeChecksums, bind_eq_ok, pure, Except.pure, Except.ok.injEq, Prod.mk.injEq]
  constructor
  · rintro ⟨_, hx, _, hr, rfl, rfl⟩; exact ⟨hx, hr⟩
  · rintro ⟨hx, hr⟩; exact ⟨_, hx, _, hr, rfl, rfl⟩

theorem State.decodeChecksums_eq_error {s : State} {k : Kind} {t : Nat} {e : Stop} :
    s.decodeChecksums k t = .error e ↔ s.frameCsum k t = .error e
      ∨ (∃ x, s.frameCsum k t = .ok x) ∧ s.frameTrailer k t = .error e := by
  simp only [State.decodeChecksums, bind_eq_error, pure, Except.pure, reduceCtorEq, and_false, exists_false, or_false]
  constructor
  · rintro (h | ⟨x, h, h'⟩)
    · exact .inl h
    · exact .inr ⟨⟨x, h⟩, h'⟩
  · rintro (h | ⟨⟨x, h⟩, h'⟩)
    · exact .inl h
    · exact .inr ⟨x, h, h'⟩

/-- The fields a decode reads: each descriptor, its raw integer, in range, in order. -/
theorem State.decodeFields_eq_ok {s : State} {k : Kind} {is : List Nat} {rs : List (Desc × Int)} :
    s.decodeFields k is = .ok rs ↔ rs.length = is.length
      ∧ ∀ n, (h : n < is.length) → ∃ d r, rs[n]? = some (d, r) ∧ s.holdsField k is[n] d r ∧ d.inRange r = true := by
  induction is generalizing rs with
  | nil => cases rs <;> simp [State.decodeFields]
  | cons i is ih =>
    simp only [State.decodeFields, bind_eq_ok, require_eq_ok, pure, Except.pure, Except.ok.injEq, ih]
    constructor
    · rintro ⟨d, hd, r, hr, _, hi, rs, ⟨hl, h⟩, rfl⟩
      refine ⟨by simp [hl], ?_⟩
      rintro (_ | n) hn
      · exact ⟨d, r, rfl, ⟨hd, hr⟩, hi⟩
      · exact h n (by simpa using hn)
    · rintro ⟨hl, h⟩
      cases rs with
      | nil => simp at hl
      | cons q rs =>
        obtain ⟨d, r, h1, ⟨h2, h3⟩, h4⟩ := h 0 (by simp)
        simp only [List.getElem?_cons_zero, Option.some.injEq] at h1
        subst h1
        refine ⟨d, h2, r, h3, (), h4, rs, ⟨by simpa using hl, fun n hn => ?_⟩, rfl⟩
        exact h (n + 1) (by simpa using hn)

/-- The fields of a decode stop at the first descriptor that cannot be read, or whose raw integer is out of range. -/
theorem State.decodeFields_eq_error {s : State} {k : Kind} {is : List Nat} {e : Stop} :
    s.decodeFields k is = .error e ↔ ∃ n, ∃ h : n < is.length,
      (∀ m, (hm : m < n) → ∃ d r, s.holdsField k is[m] d r ∧ d.inRange r = true)
      ∧ (s.readDesc k is[n] = .error e
        ∨ ∃ d, s.readDesc k is[n] = .ok d ∧ (s.readRaw (s.fieldPos d) d = .error e
          ∨ ∃ r, s.readRaw (s.fieldPos d) d = .ok r ∧ d.inRange r = false
            ∧ e = .raise .fieldOutOfRange (BitVec.ofNat 8 is[n]))) := by
  induction is with
  | nil => simp [State.decodeFields]
  | cons i is ih =>
    simp only [State.decodeFields, bind_eq_error, require_eq_error, require_eq_ok, pure, Except.pure, reduceCtorEq,
      and_false, exists_false, or_false, ih]
    constructor
    · rintro (h | ⟨d, hd, h | ⟨r, hr, ⟨hi, he⟩ | ⟨_, hi, n, hn, hm, h⟩⟩⟩)
      · exact ⟨0, by simp, by simp, .inl h⟩
      · exact ⟨0, by simp, by simp, .inr ⟨d, hd, .inl h⟩⟩
      · exact ⟨0, by simp, by simp, .inr ⟨d, hd, .inr ⟨r, hr, hi, he⟩⟩⟩
      · refine ⟨n + 1, by simpa using hn, ?_, h⟩
        rintro (_ | m) hm'
        · exact ⟨d, r, ⟨hd, hr⟩, hi⟩
        · exact hm m (by omega)
    · rintro ⟨_ | n, hn, hm, h⟩
      · rcases h with h | ⟨d, hd, h | ⟨r, hr, hi, he⟩⟩
        · exact .inl h
        · exact .inr ⟨d, hd, .inl h⟩
        · exact .inr ⟨d, hd, .inr ⟨r, hr, .inl ⟨hi, he⟩⟩⟩
      · obtain ⟨d, r, ⟨hd, hr⟩, hi⟩ := hm 0 (by omega)
        refine .inr ⟨d, hd, .inr ⟨r, hr, .inr ⟨(), hi, n, by simpa using hn, fun m hm' => ?_, h⟩⟩⟩
        exact hm (m + 1) (by omega)

theorem State.decodeCommit_eq_next {s t : State} {k : Kind} {p : Nat} :
    s.decodeCommit k p = .next t ↔
      (∃ c x, s.decodeFields k (s.descIndexes k) = .error (.raise c x) ∧ t = s.raise c x k.code)
      ∨ ∃ rs, s.decodeFields k (s.descIndexes k) = .ok rs
        ∧ t = ((s.storeValues 0 rs).setSnapshot k p).finish 0 k.code false true := by
  rw [State.decodeCommit]
  cases s.decodeFields k (s.descIndexes k) with
  | error e => simp [State.stop_eq_next]
  | ok rs => simp [eq_comm]

theorem State.decodeBody_eq_next {s t : State} {k : Kind} {p : Nat} :
    s.decodeBody k p = .next t ↔
      (∃ c x, s.decodeChecksums k (s.totalLength k p) = .error (.raise c x) ∧ t = s.raise c x k.code)
      ∨ (∃ x rx, s.decodeChecksums k (s.totalLength k p) = .ok (x, rx) ∧ x ≠ rx
        ∧ t = ((s.setCsum x).setCsrx rx).raise .checksumMismatch 0 k.code)
      ∨ ∃ x, s.decodeChecksums k (s.totalLength k p) = .ok (x, x)
        ∧ ((s.setCsum x).setCsrx x).decodeCommit k p = .next t := by
  rw [State.decodeBody]
  cases h : s.decodeChecksums k (s.totalLength k p) with
  | error e => simp [State.stop_eq_next]
  | ok q =>
    obtain ⟨x, rx⟩ := q
    simp only [reduceCtorEq, false_and, exists_false, false_or, Except.ok.injEq, Prod.mk.injEq]
    split
    · next hx =>
      subst hx
      constructor
      · intro ht; exact .inr ⟨x, ⟨rfl, rfl⟩, ht⟩
      · rintro (⟨_, _, ⟨rfl, rfl⟩, hne, -⟩ | ⟨_, ⟨rfl, -⟩, ht⟩)
        · exact absurd rfl hne
        · exact ht
    · next hx =>
      constructor
      · intro ht; cases ht; exact .inl ⟨x, rx, ⟨rfl, rfl⟩, hx, rfl⟩
      · rintro (⟨_, _, ⟨rfl, rfl⟩, -, rfl⟩ | ⟨_, ⟨rfl, rfl⟩, -⟩)
        · rfl
        · exact absurd rfl hx

theorem execFrameDecode_eq_next {sel : DecodeSel} {s t : State} :
    execFrameDecode sel s = .next t ↔
      (∃ c x, s.decodeKindOf sel = .error (.raise c x) ∧ t = s.raise c x sel.code)
      ∨ (∃ k c x, s.decodeKindOf sel = .ok k ∧ s.decodePayload k = .error (.raise c x) ∧ t = s.raise c x k.code)
      ∨ ∃ k p, s.decodeKindOf sel = .ok k ∧ s.decodePayload k = .ok p ∧ s.decodeBody k p = .next t := by
  rw [execFrameDecode]
  cases s.decodeKindOf sel with
  | error e => simp [State.stop_eq_next]
  | ok k =>
    cases h : s.decodePayload k with
    | error e => simp [State.stop_eq_next, h]
    | ok p => simp [h]

/-! ## Encoding -/

theorem State.encodePayload_eq_ok {s : State} {k : Kind} {p : Nat} :
    s.encodePayload k = .ok p ↔
      if (s.slot k).lenMode then
        p = s.payLen.toNat ∧ (s.slot k).kpayMin.toNat ≤ p ∧ p ≤ (s.slot k).kpayMax.toNat
      else p = (s.slot k).kpayMin.toNat := by
  rw [State.encodePayload]
  split
  · split
    · next h => rw [KindSlot.payloadOk_iff] at h; simp only [Except.ok.injEq]
                constructor
                · rintro rfl; exact ⟨rfl, h⟩
                · rintro ⟨rfl, -⟩; rfl
    · next h => rw [KindSlot.payloadOk_iff] at h; simp only [reduceCtorEq, false_iff]
                rintro ⟨rfl, h'⟩; exact h h'
  · simp [eq_comm]

theorem State.encodePayload_eq_error {s : State} {k : Kind} {e : Stop} :
    s.encodePayload k = .error e ↔ (s.slot k).lenMode = true
      ∧ (s.payLen.toNat < (s.slot k).kpayMin.toNat ∨ (s.slot k).kpayMax.toNat < s.payLen.toNat)
      ∧ e = .raise .operandError 0xFF := by
  rw [State.encodePayload]
  split
  · next hl =>
    split
    · next h => rw [KindSlot.payloadOk_iff] at h; simp only [reduceCtorEq, false_iff]; omega
    · next h =>
      rw [KindSlot.payloadOk_iff] at h
      simp only [Except.error.injEq, hl, true_and]
      constructor
      · rintro rfl; exact ⟨by omega, rfl⟩
      · rintro ⟨-, rfl⟩; rfl
  · next hl => simp [hl]

/-- The values an encode takes: each descriptor and the raw integer of its value, in range, in order. -/
theorem State.encodeFields_eq_ok {s : State} {k : Kind} {is : List Nat} {rs : List (Desc × Int)} :
    s.encodeFields k is = .ok rs ↔ rs.length = is.length
      ∧ ∀ n, (h : n < is.length) → ∃ d r, rs[n]? = some (d, r) ∧ s.holdsValue k is[n] d r ∧ d.inRange r = true := by
  induction is generalizing rs with
  | nil => cases rs <;> simp [State.encodeFields]
  | cons i is ih =>
    simp only [State.encodeFields, bind_eq_ok, State.encodeRaw_eq_ok, pure, Except.pure, Except.ok.injEq, ih]
    constructor
    · rintro ⟨d, hd, r, ⟨hr, hi⟩, rs, ⟨hl, h⟩, rfl⟩
      refine ⟨by simp [hl], ?_⟩
      rintro (_ | n) hn
      · exact ⟨d, r, rfl, ⟨hd, hr⟩, hi⟩
      · exact h n (by simpa using hn)
    · rintro ⟨hl, h⟩
      cases rs with
      | nil => simp at hl
      | cons q rs =>
        obtain ⟨d, r, h1, ⟨h2, h3⟩, h4⟩ := h 0 (by simp)
        simp only [List.getElem?_cons_zero, Option.some.injEq] at h1
        subst h1
        refine ⟨d, h2, r, ⟨h3, h4⟩, rs, ⟨by simpa using hl, fun n hn => ?_⟩, rfl⟩
        exact h (n + 1) (by simpa using hn)

/-- The values of an encode stop at the first descriptor that cannot be read or whose value is not taken. -/
theorem State.encodeFields_eq_error {s : State} {k : Kind} {is : List Nat} {e : Stop} :
    s.encodeFields k is = .error e ↔ ∃ n, ∃ h : n < is.length,
      (∀ m, (hm : m < n) → ∃ d r, s.holdsValue k is[m] d r ∧ d.inRange r = true)
      ∧ (s.readDesc k is[n] = .error e ∨ ∃ d, s.readDesc k is[n] = .ok d ∧ s.encodeRaw is[n] d = .error e) := by
  induction is with
  | nil => simp [State.encodeFields]
  | cons i is ih =>
    simp only [State.encodeFields, bind_eq_error, State.encodeRaw_eq_ok, pure, Except.pure, reduceCtorEq,
      and_false, exists_false, or_false, ih]
    constructor
    · rintro (h | ⟨d, hd, h | ⟨r, ⟨hr, hi⟩, n, hn, hm, h⟩⟩)
      · exact ⟨0, by simp, by simp, .inl h⟩
      · exact ⟨0, by simp, by simp, .inr ⟨d, hd, h⟩⟩
      · refine ⟨n + 1, by simpa using hn, ?_, h⟩
        rintro (_ | m) hm'
        · exact ⟨d, r, ⟨hd, hr⟩, hi⟩
        · exact hm m (by omega)
    · rintro ⟨_ | n, hn, hm, h⟩
      · rcases h with h | ⟨d, hd, h⟩
        · exact .inl h
        · exact .inr ⟨d, hd, .inl h⟩
      · obtain ⟨d, r, ⟨hd, hr⟩, hi⟩ := hm 0 (by omega)
        refine .inr ⟨d, hd, .inr ⟨r, ⟨hr, hi⟩, n, by simpa using hn, fun m hm' => ?_, h⟩⟩
        exact hm (m + 1) (by omega)

theorem State.encodeWrites_eq_ok {s t : State} {k : Kind} {p : Nat} {rs : List (Desc × Int)} :
    s.encodeWrites k p rs = .ok t ↔ ∃ s1 s2 s3 x s4, s.putDisc k = .ok s1 ∧ s1.putLength k p = .ok s2
      ∧ s2.putFields 0 rs = .ok s3 ∧ s3.frameCsum k (s.totalLength k p) = .ok x
      ∧ s3.putTrailer k (s.totalLength k p) x = .ok s4 ∧ t = s4.setEncoded x (s.totalLength k p) p := by
  simp only [State.encodeWrites, bind_eq_ok, pure, Except.pure, Except.ok.injEq]
  constructor
  · rintro ⟨s1, h1, s2, h2, s3, h3, x, hx, s4, h4, rfl⟩; exact ⟨s1, s2, s3, x, s4, h1, h2, h3, hx, h4, rfl⟩
  · rintro ⟨s1, s2, s3, x, s4, h1, h2, h3, hx, h4, rfl⟩; exact ⟨s1, h1, s2, h2, s3, h3, x, hx, s4, h4, rfl⟩

theorem State.putFields_eq_error {s : State} {i : Nat} {rs : List (Desc × Int)} {e : Stop}
    (h : s.putFields i rs = .error e) : e = .fault .outsideBuffer := by
  induction rs generalizing s i with
  | nil => simp [State.putFields] at h
  | cons q rs ih =>
    simp only [State.putFields, bind_eq_error, State.putField_eq_error] at h
    rcases h with h | ⟨_, _, h⟩
    · exact h.2
    · exact ih h

/-- The writes of an encode stop only at a fault. -/
theorem State.encodeWrites_eq_error {s : State} {k : Kind} {p : Nat} {rs : List (Desc × Int)} {e : Stop}
    (h : s.encodeWrites k p rs = .error e) : e = .fault .outsideBuffer ∨ e = .fault .unwrittenBuffer := by
  simp only [State.encodeWrites, bind_eq_error, pure, Except.pure, reduceCtorEq, and_false, exists_false,
    or_false] at h
  rcases h with h | ⟨_, _, h | ⟨_, _, h | ⟨_, _, h | ⟨_, _, h⟩⟩⟩⟩
  · exact .inl (State.writeUInt_eq_error.1 h).2
  · rw [State.putLength] at h
    split at h
    · exact .inl (State.writeUInt_eq_error.1 h).2
    · cases h
  · exact .inl (State.putFields_eq_error h)
  · rw [State.frameCsum, State.csumOf_eq_error, State.memRead_eq_error] at h
    rcases h with ⟨-, -, h⟩ | ⟨-, h⟩
    · exact .inr h
    · exact .inl h
  · exact .inl (State.writeUInt_eq_error.1 h).2

theorem State.frameEncoded_eq_ok {s t : State} {k : Kind} :
    s.frameEncoded k = .ok t ↔ s.isValid k = true ∧ ∃ p rs, s.encodePayload k = .ok p
      ∧ s.encodeFields k (s.descIndexes k) = .ok rs ∧ s.encodeWrites k p rs = .ok t := by
  simp only [State.frameEncoded, bind_eq_ok, require_eq_ok]
  constructor
  · rintro ⟨_, h, p, hp, rs, hr, ht⟩; exact ⟨h, p, rs, hp, hr, ht⟩
  · rintro ⟨h, p, rs, hp, hr, ht⟩; exact ⟨(), h, p, hp, rs, hr, ht⟩

theorem State.frameEncoded_eq_error {s : State} {k : Kind} {e : Stop} :
    s.frameEncoded k = .error e ↔ (s.isValid k = false ∧ e = .raise .configError 0xFF)
      ∨ (s.isValid k = true ∧ (s.encodePayload k = .error e
        ∨ ∃ p, s.encodePayload k = .ok p ∧ (s.encodeFields k (s.descIndexes k) = .error e
          ∨ ∃ rs, s.encodeFields k (s.descIndexes k) = .ok rs ∧ s.encodeWrites k p rs = .error e))) := by
  simp only [State.frameEncoded, bind_eq_error, require_eq_error, require_eq_ok]
  simp

theorem execFrameEncode_eq_next {k : Kind} {s t : State} :
    execFrameEncode k s = .next t ↔
      (∃ c x, s.frameEncoded k = .error (.raise c x) ∧ t = s.raise c x k.code)
      ∨ ∃ u, s.frameEncoded k = .ok u ∧ t = u.finish 0 k.code false false := by
  rw [execFrameEncode]
  cases s.frameEncoded k with
  | error e => simp [State.stop_eq_next]
  | ok x => simp [eq_comm]

end Sys2Proof.Machine
end

