-- ==== Sys2Proof/Laws/Host.lean ====
section
/-! SUPPORT. The host register space: which address each location is, what a host access does once it is let through,
and the halves of register pairs. -/

namespace Sys2Proof.Machine

theorem kindAt_index (k : Kind) : kindAt k.index = some k := by cases k <;> rfl

theorem eq_index_of_kindAt {n : Nat} {k : Kind} (h : kindAt n = some k) : n = k.index := by
  unfold kindAt at h
  split at h <;> cases h <;> rfl

theorem index_lt (k : Kind) : k.index < 5 := by cases k <;> decide

theorem index_inj {j k : Kind} (h : j.index = k.index) : j = k := by
  cases j <;> cases k <;> first | rfl | exact absurd h (by decide)

theorem slotRegAt_isSome {n : Nat} (h : n < 14) (h7 : n ≠ 7) : ∃ r, slotRegAt n = some r := by
  interval_cases n <;> first | exact ⟨_, rfl⟩ | exact absurd rfl h7

theorem locate_desc {p : Params} (hp : p.nDesc ≤ 32) {k : Kind} {i j : Nat} (hi : i < p.nDesc) (hj : j < 8) (h3 : j ≠ 3) :
    locate p (0x2000 + 0x400 * k.index + 0x20 * i + 4 * j) = .desc k i j := by
  have := index_lt k
  have e1 : (0x2000 + 0x400 * k.index + 0x20 * i + 4 * j - 0x2000) / 0x400 = k.index := by omega
  have e2 : (0x2000 + 0x400 * k.index + 0x20 * i + 4 * j - 0x2000) % 0x400 / 0x20 = i := by omega
  have e3 : (0x2000 + 0x400 * k.index + 0x20 * i + 4 * j - 0x2000) % 0x20 / 4 = j := by omega
  rw [locate, if_neg (by omega), if_neg (by omega), if_neg (by omega), if_pos (by omega), descAt]
  simp only [e1, e2, e3, kindAt_index]
  rw [if_pos ⟨hi, h3⟩]

theorem locate_res {p : Params} (hp : p.nDesc ≤ 32) {i j : Nat} (hi : i < p.nDesc) (hj : j < 7) :
    locate p (0x4000 + 0x20 * i + 4 * j) = .res i j := by
  have e1 : (0x4000 + 0x20 * i + 4 * j - 0x4000) / 0x20 = i := by omega
  have e2 : (0x4000 + 0x20 * i + 4 * j - 0x4000) % 0x20 / 4 = j := by omega
  rw [locate, if_neg (by omega), if_neg (by omega), if_neg (by omega), if_neg (by omega), if_neg (by omega),
    if_pos (by omega), resAt]
  simp only [e1, e2]
  rw [if_pos ⟨hi, by omega⟩]

theorem locate_slot {p : Params} {a : Nat} (h : isSlotAddr a) : ∃ k r, locate p a = .slot k r := by
  obtain ⟨k, off, h1, h2, h3, h4, h5, rfl⟩ := h
  have := index_lt k
  have e1 : (0x100 + 0x40 * k.index + off - 0x100) / 0x40 = k.index := by omega
  have e2 : (0x100 + 0x40 * k.index + off - 0x100) % 0x40 / 4 = off / 4 := by omega
  obtain ⟨r, hr⟩ := slotRegAt_isSome (n := off / 4) (by omega) (by omega)
  rw [locate, if_neg (by omega), if_pos (by omega), slotAt, e1, e2, kindAt_index, hr]
  exact ⟨k, r, rfl⟩

/-- What a location says of the address it is at. -/
def Location.isAt (p : Params) (a : Nat) : Location → Prop
  | .global _ => a < 0x48
  | .slot _ _ => isSlotAddr a
  | .desc k i j => i < p.nDesc ∧ j < 8 ∧ j ≠ 3 ∧ a = descAddr k i j
  | .res i j => i < p.nDesc ∧ j < 7 ∧ a = resAddr i j
  | .window b => a = 0x8000 + b ∧ b < p.bufSize
  | .reserved => True

theorem locate_isAt {p : Params} {a : Nat} (ha : a % 4 = 0) : (locate p a).isAt p a := by
  rw [locate]
  split
  · unfold globalAt
    split <;> first | trivial | (simp only [Location.isAt]; omega)
  split
  · rw [slotAt]
    split
    · rename_i k r h1 h2
      have := eq_index_of_kindAt h1
      refine ⟨k, (a - 0x100) % 0x40, by omega, by omega, ?_, ?_, ?_, by omega⟩ <;> intro h <;> rw [h] at h2 <;>
        exact absurd h2 (by simp [slotRegAt])
    · trivial
  split
  · trivial
  split
  · rw [descAt]
    split
    · rename_i k hk
      have := eq_index_of_kindAt hk
      split
      · rename_i h
        refine ⟨h.1, by omega, h.2, ?_⟩
        simp only [descAddr]
        omega
      · trivial
    · trivial
  split
  · trivial
  split
  · rw [resAt]
    split
    · rename_i h
      refine ⟨h.1, by omega, ?_⟩
      simp only [resAddr]
      omega
    · trivial
  split
  · simp only [Location.isAt]
    omega
  · trivial

theorem accessRefusal_eq_none {a : Word32} : accessRefusal a = none ↔ a.toNat < 0x10000 ∧ a.toNat % 4 = 0 := by
  rw [accessRefusal]
  split
  · simp; omega
  split
  · simp; omega
  · simp; omega

theorem State.hostWrite_eq_next {s t : State} {a v : Word32} :
    s.hostWrite a v = .next t ↔ a.toNat < 0x10000 ∧ a.toNat % 4 = 0 ∧ s.status.busy = false
      ∧ t = s.writeLocation (locate s.params a.toNat) v := by
  rw [State.hostWrite]
  split
  · rename_i r hr
    refine ⟨fun h => (by cases h), fun h => ?_⟩
    rw [accessRefusal_eq_none.2 ⟨h.1, h.2.1⟩] at hr
    cases hr
  · rename_i hr
    obtain ⟨h1, h2⟩ := accessRefusal_eq_none.1 hr
    cases hb : s.status.busy <;> simp [h1, h2, eq_comm]

theorem State.readWord_idle {s : State} {a : Nat} (hb : s.status.busy = false) :
    s.readWord a = (s.readLocation (locate s.params a), s) := by
  simp [State.readWord, hb]

@[simp] theorem loWord_setLo (x : Word64) (v : Word32) : loWord (setLo x v) = v := by
  rw [loWord, setLo, BitVec.extractLsb'_append_eq_right]

@[simp] theorem hiWord_setHi (x : Word64) (v : Word32) : hiWord (setHi x v) = v := by
  rw [hiWord, setHi, BitVec.extractLsb'_append_eq_left]

@[simp] theorem hiWord_setLo (x : Word64) (v : Word32) : hiWord (setLo x v) = hiWord x := by
  simp only [setLo, hiWord]
  rw [BitVec.extractLsb'_append_eq_left]

@[simp] theorem loWord_setHi (x : Word64) (v : Word32) : loWord (setHi x v) = loWord x := by
  simp only [setHi, loWord]
  rw [BitVec.extractLsb'_append_eq_right]

theorem loWord_toNat (x : Word64) : (loWord x).toNat = x.toNat % 2 ^ 32 := by simp [loWord]

theorem hiWord_toNat (x : Word64) : (hiWord x).toNat = x.toNat / 2 ^ 32 := by
  simp only [hiWord, BitVec.extractLsb'_toNat, Nat.shiftRight_eq_div_pow]
  omega

theorem PerKind.set_set {α : Type} (p : PerKind α) (k : Kind) (a b : α) : (p.set k a).set k b = p.set k b := by
  cases k <;> rfl

end Sys2Proof.Machine
end

