-- ==== Sys2Proof/Laws/Raises.lean ====
section
/-! SUPPORT. What each part of a command may raise, what FRAME.DECODE as a whole can do, which fields the multi-step
operations change, and that only SCHEMA.CHECK touches the VALID bits. -/

namespace Sys2Proof.Machine

/-! ## Frames of the multi-step operations -/

theorem State.storeValues_frame (s : State) (i : Nat) (rs) :
    s.storeValues i rs = { s with res := (s.storeValues i rs).res } := by
  induction rs generalizing s i with
  | nil => rfl
  | cons q rs ih => rw [State.storeValues, ih]; rfl

theorem State.putFields_frame {s t : State} {i : Nat} {rs} (h : s.putFields i rs = .ok t) :
    t = { s with res := t.res, buf := t.buf } := by
  induction rs generalizing s i with
  | nil => cases h; rfl
  | cons q rs ih =>
    simp only [State.putFields, bind_eq_ok, State.putField_eq_ok] at h
    obtain ⟨u, ⟨-, rfl⟩, h⟩ := h
    rw [ih h]; rfl

theorem State.encodeWrites_frame {s t : State} {k p rs} (h : s.encodeWrites k p rs = .ok t) :
    t = { s with res := t.res, buf := t.buf, csum := t.csum, frameLen := t.frameLen, payLen := t.payLen } := by
  obtain ⟨s1, s2, s3, x, s4, h1, h2, h3, -, h4, rfl⟩ := State.encodeWrites_eq_ok.1 h
  obtain ⟨-, rfl⟩ := State.writeUInt_eq_ok.1 h1
  have h3 := State.putFields_frame h3
  obtain ⟨-, rfl⟩ := State.writeUInt_eq_ok.1 h4
  rw [State.putLength] at h2
  split at h2
  · obtain ⟨-, rfl⟩ := State.writeUInt_eq_ok.1 h2
    rw [h3]; rfl
  · cases h2; rw [h3]; rfl

/-! ## The codes a part of a command may raise -/

theorem raises_rangeCsum {s : State} {k c x} (h : s.rangeCsum k = .error (.raise c x)) :
    (c = .configError ∧ x = 0xFF) ∨ (c = .operandError ∧ x = 0) := by
  rcases State.rangeCsum_eq_error.1 h with ⟨-, h⟩ | ⟨-, -, h⟩ | ⟨-, -, h⟩
  · cases h; simp
  · cases h; simp
  · exact absurd (State.csumOf_eq_error.1 h) State.memRead_ne_raise

theorem raises_trailerChecks {s : State} {k c x} (h : s.trailerChecks k = .error (.raise c x)) :
    (c = .configError ∧ x = 0xFF) ∨ (c = .operandError ∧ x = 0) := by
  rcases State.trailerChecks_eq_error.1 h with ⟨-, h⟩ | ⟨-, -, h⟩
  · cases h; simp
  · cases h; simp

theorem raises_trailerValues {s : State} {k c x} (h : s.trailerValues k = .error (.raise c x)) :
    (c = .configError ∧ x = 0xFF) ∨ (c = .operandError ∧ x = 0) := by
  rcases State.trailerValues_eq_error.1 h with h | ⟨-, h | ⟨-, h⟩⟩
  · exact raises_trailerChecks h
  · exact absurd (State.csumOf_eq_error.1 h) State.memRead_ne_raise
  · exact absurd (State.readUInt_eq_error.1 h) State.memRead_ne_raise

theorem raises_trailerAppended {s : State} {k c x} (h : s.trailerAppended k = .error (.raise c x)) :
    (c = .configError ∧ x = 0xFF) ∨ (c = .operandError ∧ x = 0) := by
  rcases State.trailerAppended_eq_error.1 h with h | ⟨-, h | ⟨_, -, h⟩⟩
  · exact raises_trailerChecks h
  · exact absurd (State.csumOf_eq_error.1 h) State.memRead_ne_raise
  · cases (State.writeUInt_eq_error.1 h).2

theorem raises_fieldChecks {s : State} {k c x idx} (h : s.fieldChecks k idx = .error (.raise c x)) :
    (c = .configError ∧ x = 0xFF) ∨ (c = .operandError ∧ x = idx) := by
  rcases State.fieldChecks_eq_error.1 h with ⟨-, h⟩ | ⟨-, -, h⟩ | ⟨-, -, h⟩ | ⟨-, -, -, h⟩
  · cases h; simp
  · cases h; simp
  · cases State.readDesc_eq_error h
  · cases h; simp

theorem raises_fieldExtracted {s : State} {k c x idx} (h : s.fieldExtracted k idx = .error (.raise c x)) :
    (c = .configError ∧ x = 0xFF) ∨ (c = .operandError ∧ x = idx) ∨ (c = .fieldOutOfRange ∧ x = idx) := by
  rcases State.fieldExtracted_eq_error.1 h with h | ⟨_, -, h | ⟨_, -, -, h⟩⟩
  · have := raises_fieldChecks h; tauto
  · exact absurd (State.readRaw_eq_error.1 h) State.memRead_ne_raise
  · cases h; simp

theorem raises_encodeRaw {s : State} {c x i d} (h : s.encodeRaw i d = .error (.raise c x)) :
    x = BitVec.ofNat 8 i ∧ (c = .operandError ∨ c = .fieldOutOfRange) := by
  rcases State.encodeRaw_eq_error.1 h with h | ⟨_, -, -, h⟩
  · rcases State.invScale_eq_error h with h | h <;> cases h; simp
  · cases h; simp

theorem raises_fieldInserted {s : State} {k c x idx} (h : s.fieldInserted k idx = .error (.raise c x)) :
    (c = .configError ∧ x = 0xFF) ∨ (c = .operandError ∧ x = idx) ∨ (c = .fieldOutOfRange ∧ x = idx) := by
  rcases State.fieldInserted_eq_error.1 h with h | ⟨_, -, h | ⟨_, -, h⟩⟩
  · have := raises_fieldChecks h; tauto
  · have := raises_encodeRaw h
    simp at this
    obtain ⟨rfl, h⟩ := this
    tauto
  · cases (State.putField_eq_error.1 h).2

theorem raises_decodeKindOf {s : State} {c x sel} (h : s.decodeKindOf sel = .error (.raise c x)) :
    (c = .configError ∧ x = 0xFF) ∨ x = 0 ∧ (c = .operandError ∨ c = .tooShort ∨ c = .unknownFrameType) := by
  rcases State.decodeKindOf_eq_error.1 h with ⟨-, h⟩ | ⟨-, -, h⟩ | ⟨-, -, -, h⟩ | ⟨-, -, -, h⟩ | ⟨_, -, -, h⟩
  · cases h; simp
  · cases h; simp
  · cases h; simp
  · exact absurd (State.readUInt_eq_error.1 h) State.memRead_ne_raise
  · cases h; simp

theorem raises_decodePayload {s : State} {c x k} (h : s.decodePayload k = .error (.raise c x)) :
    c = .lengthMismatch ∧ x = 0 := by
  rcases State.decodePayload_eq_error.1 h with ⟨-, h⟩ | ⟨h, -⟩
  · exact absurd (State.readUInt_eq_error.1 h) State.memRead_ne_raise
  · cases h; simp

theorem decodeChecksums_ne_raise {s : State} {c x k t} : s.decodeChecksums k t ≠ .error (.raise c x) := by
  intro h
  rcases State.decodeChecksums_eq_error.1 h with h | ⟨-, h⟩
  · exact absurd (State.csumOf_eq_error.1 h) State.memRead_ne_raise
  · exact absurd (State.readUInt_eq_error.1 h) State.memRead_ne_raise

theorem raises_decodeFields {s : State} {c x k is} (h : s.decodeFields k is = .error (.raise c x)) :
    c = .fieldOutOfRange := by
  obtain ⟨n, hn, -, h | ⟨_, -, h | ⟨_, -, -, h⟩⟩⟩ := State.decodeFields_eq_error.1 h
  · cases State.readDesc_eq_error h
  · exact absurd (State.readRaw_eq_error.1 h) State.memRead_ne_raise
  · cases h; rfl

theorem raises_encodeFields {s : State} {c x k is} (h : s.encodeFields k is = .error (.raise c x)) :
    c = .fieldOutOfRange ∨ c = .operandError := by
  obtain ⟨n, hn, -, h | ⟨_, -, h⟩⟩ := State.encodeFields_eq_error.1 h
  · cases State.readDesc_eq_error h
  · have := raises_encodeRaw h; tauto

theorem raises_frameEncoded {s : State} {k c x} (h : s.frameEncoded k = .error (.raise c x)) :
    (c = .configError ∧ x = 0xFF) ∨ c = .operandError ∨ c = .fieldOutOfRange := by
  rcases State.frameEncoded_eq_error.1 h with ⟨-, h⟩ | ⟨-, h | ⟨_, -, h | ⟨_, -, h⟩⟩⟩
  · cases h; simp
  · obtain ⟨-, -, h⟩ := State.encodePayload_eq_error.1 h; cases h; simp
  · have := raises_encodeFields h; tauto
  · rcases State.encodeWrites_eq_error h with h | h <;> cases h

/-- Everything FRAME.DECODE can do when it answers a next state. -/
theorem execFrameDecode_cases {sel : DecodeSel} {s t : State} (h : execFrameDecode sel s = .next t) :
   (∃ c x, s.decodeKindOf sel = .error (.raise c x) ∧ t = s.raise c x sel.code)
  ∨ (∃ k, s.decodeKindOf sel = .ok k ∧ s.decodePayload k = .error (.raise .lengthMismatch 0)
      ∧ t = s.raise .lengthMismatch 0 k.code)
  ∨ ∃ k p x rx, s.decodeKindOf sel = .ok k ∧ s.decodePayload k = .ok p
     ∧ s.decodeChecksums k (s.totalLength k p) = .ok (x, rx) ∧
     ((x ≠ rx ∧ t = ((s.setCsum x).setCsrx rx).raise .checksumMismatch 0 k.code)
     ∨ (x = rx ∧ ∃ y, ((s.setCsum x).setCsrx x).decodeFields k (s.descIndexes k) = .error (.raise .fieldOutOfRange y)
        ∧ t = ((s.setCsum x).setCsrx x).raise .fieldOutOfRange y k.code)
     ∨ (x = rx ∧ ∃ rs, ((s.setCsum x).setCsrx x).decodeFields k (s.descIndexes k) = .ok rs
        ∧ t = ((((s.setCsum x).setCsrx x).storeValues 0 rs).setSnapshot k p).finish 0 k.code false true)) := by
  rcases execFrameDecode_eq_next.1 h with h | ⟨k, c, x, h1, h2, h3⟩ | ⟨k, p, h1, h2, h3⟩
  · exact .inl h
  · obtain ⟨rfl, rfl⟩ := raises_decodePayload h2
    exact .inr (.inl ⟨k, h1, h2, h3⟩)
  · refine .inr (.inr ⟨k, p, ?_⟩)
    rcases State.decodeBody_eq_next.1 h3 with ⟨c, x, h4, -⟩ | ⟨x, rx, h4, hne, h5⟩ | ⟨x, h4, h5⟩
    · exact absurd h4 decodeChecksums_ne_raise
    · exact ⟨x, rx, h1, h2, h4, .inl ⟨hne, h5⟩⟩
    · refine ⟨x, x, h1, h2, h4, ?_⟩
      rcases State.decodeCommit_eq_next.1 h5 with ⟨c, y, h6, h7⟩ | h6
      · cases raises_decodeFields h6
        exact .inr (.inl ⟨rfl, y, h6, h7⟩)
      · exact .inr (.inr ⟨rfl, h6⟩)


/-! ## All commands -/

theorem encode_sel (i : Instr) : (encode i).extractLsb' 8 3 = match i with
  | .nop => 0
  | .csumCompute k => k.code | .csumVerify k => k.code | .trailerVerify k => k.code | .trailerAppend k => k.code
  | .fieldExtract k _ => k.code | .fieldInsert k _ => k.code | .schemaCheck k => k.code
    | .frameDecode s => s.code | .frameEncode k => k.code := by
  cases i <;> exact selOf_commandWord _ _ _

theorem exec_valid {i : Instr} {s t : State} (h : exec i s = .next t) :
    t.valid = s.valid ∨ ∃ k, i = .schemaCheck k := by
  cases i <;> simp only [exec] at h
  case nop => cases h; exact .inl rfl
  case csumCompute k =>
    rcases execCsumCompute_eq_next.1 h with ⟨c, x, h1, rfl⟩ | ⟨x, h, rfl⟩ <;> exact .inl rfl
  case csumVerify k =>
    rcases execCsumVerify_eq_next.1 h with ⟨c, x, h1, rfl⟩ | ⟨x, h, rfl⟩ <;> exact .inl rfl
  case trailerVerify k =>
    rcases execTrailerVerify_eq_next.1 h with ⟨c, x, h1, rfl⟩ | ⟨x, rx, h, rfl⟩ <;> exact .inl rfl
  case trailerAppend k =>
    rcases execTrailerAppend_eq_next.1 h with ⟨c, x, h1, rfl⟩ | ⟨x, h1, rfl⟩
    · exact .inl rfl
    · obtain ⟨-, y, u, -, h2, rfl⟩ := State.trailerAppended_eq_ok.1 h1
      obtain ⟨-, rfl⟩ := State.writeUInt_eq_ok.1 h2
      exact .inl rfl
  case fieldExtract k idx =>
    rcases execFieldExtract_eq_next.1 h with ⟨c, x, h1, rfl⟩ | ⟨x, _, h, rfl⟩ <;> exact .inl rfl
  case fieldInsert k idx =>
    rcases execFieldInsert_eq_next.1 h with ⟨c, x, h1, rfl⟩ | ⟨x, h1, rfl⟩
    · exact .inl rfl
    · obtain ⟨d, r, -, -, h⟩ := State.fieldInserted_eq_ok.1 h1
      obtain ⟨-, rfl⟩ := State.putField_eq_ok.1 h
      exact .inl rfl
  case schemaCheck k => exact .inr ⟨k, rfl⟩
  case frameDecode sel =>
    rcases execFrameDecode_cases h with ⟨c, x, h1, rfl⟩ | ⟨k, h1, h2, rfl⟩ |
      ⟨k, p, x, rx, h1, h2, h3, ⟨_, rfl⟩ | ⟨rfl, y, h4, rfl⟩ | ⟨_, rs, h4, rfl⟩⟩
    all_goals first | exact .inl rfl | skip
    left; rw [State.storeValues_frame]; rfl
  case frameEncode k =>
    rcases execFrameEncode_eq_next.1 h with ⟨c, x, h1, rfl⟩ | ⟨x, h1, rfl⟩
    · exact .inl rfl
    · obtain ⟨-, p, rs, -, -, h⟩ := State.frameEncoded_eq_ok.1 h1
      left; rw [State.encodeWrites_frame h]; rfl

end Sys2Proof.Machine
end

