-- ==== Sys2Proof/Laws/Kinds.lean ====
section
/-! SUPPORT. What a validated schema gives: the kind-level conditions and the descriptor-level conditions of
43_frame.md R263 and R264 as facts about numbers, and that a kind a frame command serves has them. -/

namespace Sys2Proof.Machine

theorem disjointRanges_iff {a n b m : Nat} (hn : 0 < n) (hm : 0 < m) :
    disjointRanges a n b m = true ↔ noCommonByte a n b m := by
  simp only [disjointRanges, Bool.or_eq_true, decide_eq_true_eq, noCommonByte]
  constructor
  · intro h x; omega
  · intro h
    by_contra hc
    exact h (max a b) (by omega)

theorem Kind.all_all {p : Kind → Bool} : Kind.all.all p = true ↔ ∀ j, p j = true := by
  simp only [List.all_eq_true]
  exact ⟨fun h j => h j (by cases j <;> decide), fun h j _ => h j⟩

/-- The conditions of 43_frame.md R263 that a kind which passes them meets. -/
structure KindFacts (s : State) (k : Kind) : Prop where
  en : (s.slot k).en = true
  legal : (s.profile k).legal = true
  disc : s.discOff.toNat + s.discBytes ≤ s.hdrLen
  kdisc : (s.slot k).kdisc.toNat < 2 ^ (8 * s.discBytes)
  len : (s.slot k).lenMode = true → (s.slot k).klenOff.toNat + (s.slot k).lenBytes ≤ s.hdrLen
    ∧ ((s.slot k).klenOff.toNat + (s.slot k).lenBytes ≤ s.discOff.toNat
      ∨ s.discOff.toNat + s.discBytes ≤ (s.slot k).klenOff.toNat)
    ∧ (s.slot k).kpayMin.toNat ≤ (s.slot k).kpayMax.toNat
    ∧ (s.slot k).kpayMax.toNat < 2 ^ (8 * (s.slot k).lenBytes)
  fixed : (s.slot k).lenMode = false → (s.slot k).kpayMin = (s.slot k).kpayMax
  fits : s.hdrLen + (s.slot k).kpayMax.toNat + (s.profile k).csw ≤ s.params.bufSize
  start : (s.slot k).kcsStart.toNat ≤ s.hdrLen
  ndesc : (s.slot k).kndesc.toNat ≤ s.params.nDesc
  clash : ∀ j, j ≠ k → (s.slot j).en = true → (s.slot j).kdisc ≠ (s.slot k).kdisc

theorem kindFacts {s : State} {k : Kind} (h : s.kindChecksOk k = true) : KindFacts s k := by
  simp only [State.kindChecksOk, Bool.and_eq_true, decide_eq_true_eq, Bool.or_eq_true, Bool.not_eq_true',
    Kind.all_all, disjointRanges] at h
  obtain ⟨⟨⟨⟨⟨⟨⟨⟨⟨⟨⟨⟨⟨h1, h2⟩, -⟩, h4⟩, h5⟩, h6⟩, h7⟩, h8⟩, h9⟩, h10⟩, h11⟩, h12⟩, h13⟩, h14⟩ := h
  refine ⟨h1, h2, h4, h5, fun hl => ?_, fun hl => ?_, h11, h12, h13, fun j hj he => ?_⟩
  · simp only [hl, Bool.true_eq_false, false_or] at h6 h7 h8 h9
    exact ⟨h6, h7, h8, h9⟩
  · simpa [hl] using h10
  · simpa [State.noClash, hj, he] using h14 j

theorem KindFacts.payMin_le {s : State} {k : Kind} (h : KindFacts s k) :
    (s.slot k).kpayMin.toNat ≤ (s.slot k).kpayMax.toNat := by
  cases hl : (s.slot k).lenMode
  · rw [h.fixed hl]
  · exact (h.len hl).2.2.1

theorem KindFacts.payload {s : State} {k : Kind} {p : Nat} (h : KindFacts s k) (hp : s.payloadIs k p) :
    (s.slot k).kpayMin.toNat ≤ p ∧ p ≤ (s.slot k).kpayMax.toNat := by
  rw [State.payloadIs] at hp
  split at hp
  · exact hp.2
  · rw [hp]; exact ⟨le_refl _, h.payMin_le⟩

/-! ## Descriptors -/

theorem descOk_iff {m : Nat} {lower : List Desc} {d : Desc} (hd : 0 < d.w) (hl : ∀ e ∈ lower, 0 < e.w) :
    descOk m lower d = true ↔ d.sden ≠ 0 ∧ d.snum ≠ 0 ∧ d.offset + d.w ≤ m
      ∧ (d.rangeEn = true → d.lo ≤ d.min ∧ d.min ≤ d.max ∧ d.max ≤ d.hi)
      ∧ ∀ e ∈ lower, noCommonByte d.offset d.w e.offset e.w := by
  have : (lower.all fun e => disjointRanges d.offset d.w e.offset e.w) = true
      ↔ ∀ e ∈ lower, noCommonByte d.offset d.w e.offset e.w := by
    rw [List.all_eq_true]
    exact forall_congr' fun e => imp_congr_right fun he => disjointRanges_iff hd (hl e he)
  simp only [descOk, Bool.and_eq_true, decide_eq_true_eq, this, Bool.or_eq_true, Bool.not_eq_true']
  cases d.rangeEn <;> simp [and_assoc]

/-- What `descFailFrom` answers, with the descriptors before it in hand. -/
theorem descFailFrom_spec (m : Nat) (pre ds : List Desc) (hw : ∀ e ∈ pre ++ ds, 0 < e.w) :
    match descFailFrom m pre pre.length ds with
    | none => ∀ i, pre.length ≤ i → i < (pre ++ ds).length → descPasses m (pre ++ ds) i
    | some i => pre.length ≤ i ∧ i < (pre ++ ds).length ∧ ¬ descPasses m (pre ++ ds) i
      ∧ ∀ j, pre.length ≤ j → j < i → descPasses m (pre ++ ds) j := by
  induction ds generalizing pre with
  | nil => simp [descFailFrom]; intro i h1 h2; omega
  | cons d ds ih =>
    have ok : descOk m pre d = true ↔ descPasses m (pre ++ d :: ds) pre.length := by
      rw [descOk_iff (hw d (by simp)) (fun e he => hw e (by simp [he]))]
      simp only [descPasses]
      constructor
      · rintro ⟨a, b, c, e, f⟩
        refine ⟨d, by simp, a, b, c, e, ?_⟩
        intro j hj x hx
        rw [List.getElem?_append_left hj] at hx
        exact f x (List.mem_of_getElem? hx)
      · rintro ⟨d', hd, a, b, c, e, f⟩
        simp at hd; subst hd
        refine ⟨a, b, c, e, ?_⟩
        intro x hx
        obtain ⟨j, hj, rfl⟩ := List.getElem_of_mem hx
        exact f j hj _ (by rw [List.getElem?_append_left hj, List.getElem?_eq_getElem hj])
    rw [descFailFrom]
    have ih := ih (pre ++ [d]) (by simpa using hw)
    simp only [List.append_assoc, List.singleton_append, List.length_append, List.length_singleton] at ih
    by_cases h : descOk m pre d = true
    · rw [if_pos h]
      have hp := ok.1 h
      cases hf : descFailFrom m (pre ++ [d]) (pre.length + 1) ds with
      | none =>
        rw [hf] at ih
        intro i h1 h2
        rcases Nat.eq_or_lt_of_le h1 with rfl | h1
        · exact hp
        · exact ih i h1 (by simpa using h2)
      | some i =>
        rw [hf] at ih
        refine ⟨by omega, by simpa using ih.2.1, ih.2.2.1, ?_⟩
        intro j h1 h2
        rcases Nat.eq_or_lt_of_le h1 with rfl | h1
        · exact hp
        · exact ih.2.2.2 j h1 h2
    · rw [if_neg h]
      refine ⟨le_refl _, by simp, fun hp => h (ok.2 hp), ?_⟩
      intro j h1 h2; omega

theorem State.readDescs_width {s : State} {k is ds} (h : s.readDescs k is = .ok ds) : ∀ e ∈ ds, 0 < e.w := by
  intro e he
  obtain ⟨hl, hh⟩ := State.readDescs_eq_ok.1 h
  obtain ⟨j, hj, rfl⟩ := List.getElem_of_mem he
  obtain ⟨d, h1, h2⟩ := hh j (by omega)
  rw [List.getElem?_eq_getElem hj] at h1; cases h1
  obtain ⟨_, _, _, _, _, _, _, _, _, _, _, _, _, _, hd⟩ := State.readDesc_eq_ok.1 h2
  rw [hd]; exact widthBytes_pos _

theorem State.readDescs_unwritten {s : State} {k is}
    (h : ∃ i ∈ is, ∃ j, j < 8 ∧ j ≠ 3 ∧ Memory.read s.desc (descAddr k i j) = none) :
    s.readDescs k is = .error (.fault .unwrittenDescriptor) := by
  cases hr : s.readDescs k is with
  | error e => rw [State.readDescs_eq_error hr]
  | ok ds =>
    obtain ⟨i, hi, j, hj, h3, hn⟩ := h
    obtain ⟨n, hn', rfl⟩ := List.getElem_of_mem hi
    obtain ⟨d, -, h2⟩ := (State.readDescs_eq_ok.1 hr).2 n hn'
    obtain ⟨d0, d1, d2, d4, d5, d6, d7, h0, h1, h2, h4, h5, h6, h7, rfl⟩ := State.readDesc_eq_ok.1 h2
    exfalso
    interval_cases j <;> simp_all

/-- The descriptors of a kind whose descriptor-level checks pass, and what 43_frame.md R264 gives of them. -/
structure DescFacts (s : State) (k : Kind) (ds : List Desc) : Prop where
  len : ds.length = (s.slot k).kndesc.toNat
  read : ∀ (i : Nat) (d : Desc), ds[i]? = some d → s.readDesc k i = .ok d
  pos : ∀ (i : Nat) (d : Desc), ds[i]? = some d → d.sden ≠ 0 ∧ d.snum ≠ 0
  bound : ∀ (i : Nat) (d : Desc), ds[i]? = some d → d.offset + d.w ≤ (s.slot k).kpayMin.toNat
  range : ∀ (i : Nat) (d : Desc), ds[i]? = some d → d.lo ≤ d.vlo ∧ d.vhi ≤ d.hi
  sep : ∀ (i j : Nat) (d e : Desc), i ≠ j → ds[i]? = some d → ds[j]? = some e →
    d.offset + d.w ≤ e.offset ∨ e.offset + e.w ≤ d.offset

theorem descFacts {s : State} {k} (h : s.descFail k = .ok none) : ∃ ds, DescFacts s k ds := by
  have h0 := h
  rw [State.descFail, map_eq_ok] at h
  obtain ⟨ds, hds, -⟩ := h
  refine ⟨ds, ?_⟩
  have sp := descFailFrom_spec (s.slot k).kpayMin.toNat [] ds (by simpa using State.readDescs_width hds)
  have hall : ∀ i, i < ds.length → descPasses (s.slot k).kpayMin.toNat ds i := by
    have e : descFailFrom (s.slot k).kpayMin.toNat [] 0 ds = none := by
      rw [State.descFail, hds] at h0
      exact Except.ok.inj h0
    rw [List.length_nil, e] at sp
    exact fun i hi => sp i (Nat.zero_le i) hi
  obtain ⟨hl, hr⟩ := State.readDescs_eq_ok.1 hds
  have hw := State.readDescs_width hds
  simp only [State.descIndexes, List.length_range] at hl
  have lt : ∀ {i : Nat} {d : Desc}, ds[i]? = some d → i < ds.length := fun h => (List.getElem?_eq_some_iff.1 h).1
  have rd : ∀ (i : Nat) (d : Desc), ds[i]? = some d → s.readDesc k i = .ok d := by
    intro i d hd
    obtain ⟨d', h1, h2⟩ := hr i (by have := lt hd; simp [State.descIndexes]; omega)
    rw [hd] at h1; cases h1
    simpa [State.descIndexes] using h2
  have sep : ∀ (i j : Nat) (d e : Desc), j < i → ds[i]? = some d → ds[j]? = some e →
      d.offset + d.w ≤ e.offset ∨ e.offset + e.w ≤ d.offset := by
    intro i j d e hij hd he
    obtain ⟨d', hd', _, _, _, _, h⟩ := hall i (lt hd)
    rw [hd] at hd'; cases hd'
    have := (disjointRanges_iff (hw d (List.mem_of_getElem? hd)) (hw e (List.mem_of_getElem? he))).2 (h j hij e he)
    simpa [disjointRanges] using this
  refine ⟨hl, rd, ?_, ?_, ?_, ?_⟩
  · intro i d hd
    obtain ⟨d', hd', a, b, _⟩ := hall i (lt hd)
    rw [hd] at hd'; cases hd'; exact ⟨a, b⟩
  · intro i d hd
    obtain ⟨d', hd', a, b, c, _⟩ := hall i (lt hd)
    rw [hd] at hd'; cases hd'; exact c
  · intro i d hd
    obtain ⟨d', hd', a, b, c, e, _⟩ := hall i (lt hd)
    rw [hd] at hd'; cases hd'
    simp only [Desc.vlo, Desc.vhi]
    cases hre : d.rangeEn
    · simp
    · obtain ⟨x, y, z⟩ := e hre; exact ⟨x, z⟩
  · intro i j d e hne hd he
    rcases Nat.lt_or_gt_of_ne hne with h | h
    · exact (sep j i e d h he hd).symm
    · exact sep i j d e h hd he

/-! ## Kinds of a state of the invariant -/

theorem State.Inv.schemaHolds_of_resolve {s : State} {sel k d} (hi : s.Inv) (hc : s.configServes sel)
    (hr : s.resolve sel d = some k) :
    s.schemaHolds k := by
  apply hi.validSchema
  cases sel with
  | kind j => obtain ⟨rfl, -⟩ := State.resolve_kind_eq_some.1 hr; exact hc
  | any => exact hc.2 k (State.carries_of_resolve_any hr).1

theorem State.Inv.kindFacts_of_serves {s : State} {sel} (hi : s.Inv) (hc : s.configServes sel) :
    ∃ k, KindFacts s k := by
  cases sel with
  | kind j => exact ⟨j, kindFacts (hi.validSchema j hc).1⟩
  | any => obtain ⟨⟨j, hj⟩, h⟩ := hc; exact ⟨j, kindFacts (hi.validSchema j (h j hj)).1⟩

end Sys2Proof.Machine
end

