-- ==== Sys2Proof/Laws/PerInstr.lean ====
section
/-! SUPPORT. The per-instruction family: the word of each command against the match and mask of its row of
spec/opcode_table.json. -/

namespace Sys2Proof.Laws

/-- The fixed bits of a command's row (spec/opcode_table.json): mask, then match. -/
def rowOf : Instr → Word32 × Word32
  | .nop => (0xFFFFFFFF, 0x00000000)
  | .csumCompute _ => (0xFFFFF8FF, 0x00000001)
  | .csumVerify _ => (0xFFFFF8FF, 0x00000002)
  | .trailerVerify _ => (0xFFFFF8FF, 0x00000003)
  | .trailerAppend _ => (0xFFFFF8FF, 0x00000004)
  | .fieldExtract _ _ => (0xFF00F8FF, 0x00000010)
  | .fieldInsert _ _ => (0xFF00F8FF, 0x00000011)
  | .schemaCheck _ => (0xFFFFF8FF, 0x00000020)
  | .frameDecode _ => (0xFFFFF8FF, 0x00000030)
  | .frameEncode _ => (0xFFFFF8FF, 0x00000031)

/-- The word of a command carries the fixed bits of its row. -/
def EncodeMatchesRow.Statement (i : Instr) : Prop := encode i &&& (rowOf i).1 = (rowOf i).2

theorem EncodeMatchesRow.nop : EncodeMatchesRow.Statement .nop := rfl

theorem EncodeMatchesRow.csumCompute (k : Kind) : EncodeMatchesRow.Statement (.csumCompute k) := by
  cases k <;> rfl

theorem EncodeMatchesRow.csumVerify (k : Kind) : EncodeMatchesRow.Statement (.csumVerify k) := by
  cases k <;> rfl

theorem EncodeMatchesRow.trailerVerify (k : Kind) : EncodeMatchesRow.Statement (.trailerVerify k) := by
  cases k <;> rfl

theorem EncodeMatchesRow.trailerAppend (k : Kind) : EncodeMatchesRow.Statement (.trailerAppend k) := by
  cases k <;> rfl

/-- An index shifted to bits 23..16 leaves the fixed bits of a FIELD row alone. -/
theorem idx_outside_fixed_bits (w : Word32) (idx : BitVec 8) :
    (w ||| idx.setWidth 32 <<< 16) &&& 0xFF00F8FF = w &&& 0xFF00F8FF := by
  refine BitVec.eq_of_getLsbD_eq fun i hi => ?_
  have h : (0xFF00F8FF : Word32).getLsbD i = true → (idx.setWidth 32 <<< 16 : Word32).getLsbD i = false := by
    intro h
    interval_cases i <;> first | (exfalso; revert h; decide) | simp
  rw [BitVec.getLsbD_and, BitVec.getLsbD_and, BitVec.getLsbD_or]
  cases hc : (0xFF00F8FF : Word32).getLsbD i with
  | false => rw [Bool.and_false, Bool.and_false]
  | true => rw [h hc, Bool.or_false]

theorem EncodeMatchesRow.fieldExtract (k : Kind) (idx : BitVec 8) :
    EncodeMatchesRow.Statement (.fieldExtract k idx) := by
  refine (idx_outside_fixed_bits _ idx).trans ?_
  cases k <;> rfl

theorem EncodeMatchesRow.fieldInsert (k : Kind) (idx : BitVec 8) :
    EncodeMatchesRow.Statement (.fieldInsert k idx) := by
  refine (idx_outside_fixed_bits _ idx).trans ?_
  cases k <;> rfl

theorem EncodeMatchesRow.schemaCheck (k : Kind) : EncodeMatchesRow.Statement (.schemaCheck k) := by
  cases k <;> rfl

theorem EncodeMatchesRow.frameDecode (sel : DecodeSel) : EncodeMatchesRow.Statement (.frameDecode sel) := by
  cases sel with
  | kind k => cases k <;> rfl
  | any => rfl

theorem EncodeMatchesRow.frameEncode (k : Kind) : EncodeMatchesRow.Statement (.frameEncode k) := by
  cases k <;> rfl

end Sys2Proof.Laws
end

