-- ==== Sys2Proof/Laws/Results.lean ====
section
/-! SUPPORT. The words of the result table, the numbers that lists of words and bytes hold, and the bounds of a
descriptor that has been read. -/

namespace Sys2Proof.Machine

theorem resAddr_inj {i j i' j' : Nat} (h : resAddr i j = resAddr i' j') (hj : j < 8) (hj' : j' < 8) : i = i' ∧ j = j' := by
  simp only [resAddr] at h
  omega

/-- What a result word reads as after words have been written from word j of entry i on. -/
theorem State.read_setResWords {s : State} {i j a : Nat} {ws : List Word32} :
    Memory.read (s.setResWords i j ws).res a
      = if ∃ n, n < ws.length ∧ a = resAddr i (j + n) then ws[(a - resAddr i j) / 4]? else Memory.read s.res a := by
  split
  · rename_i h
    obtain ⟨n, hn, rfl⟩ := h
    have e1 : (resAddr i (j + n) - resAddr i j) / 4 = n := by simp only [resAddr]; omega
    have e2 : resAddr i (j + n) = resAddr i j + 4 * n := by simp only [resAddr]; omega
    rw [e1, e2, State.setResWords, Memory.read_writeSeq_same (by decide) hn, List.getElem?_eq_getElem hn]
  · rename_i h
    refine Memory.read_writeSeq_other fun n hn hh => h ⟨n, hn, ?_⟩
    rw [hh]
    simp only [resAddr]
    omega

theorem natToLe_getElem {w j : Nat} (u : Nat) (h : j < w) :
    (natToLe w u)[j]? = some (BitVec.ofNat 8 (u / 2 ^ (8 * j))) := by
  induction w generalizing u j with
  | zero => omega
  | succ w ih =>
    cases j with
    | zero => simp [natToLe]
    | succ j =>
      rw [natToLe, List.getElem?_cons_succ, ih _ (by omega), Nat.div_div_eq_div_mul, ← Nat.pow_add]
      congr 4
      omega

theorem natToWords_getElem {w j : Nat} (u : Nat) (h : j < w) :
    (natToWords w u)[j]? = some (BitVec.ofNat 32 (u / 2 ^ (32 * j))) := by
  induction w generalizing u j with
  | zero => omega
  | succ w ih =>
    cases j with
    | zero => simp [natToWords]
    | succ j =>
      rw [natToWords, List.getElem?_cons_succ, ih _ (by omega), Nat.div_div_eq_div_mul, ← Nat.pow_add]
      congr 4
      omega

theorem wordsToNat_one (a : Word32) : wordsToNat [a] = a.toNat := by simp [wordsToNat]

theorem wordsToNat_two (a b : Word32) : wordsToNat [a, b] = (b ++ a).toNat := by
  simp only [wordsToNat, BitVec.toNat_append, Nat.shiftLeft_eq]
  rw [mul_comm b.toNat, ← Nat.two_pow_add_eq_or_of_lt a.isLt]
  omega

theorem wordsToNat_four (a b c d : Word32) : wordsToNat [a, b, c, d] = (d ++ c ++ b ++ a).toNat := by
  simp only [wordsToNat, BitVec.toNat_append, Nat.shiftLeft_eq]
  rw [mul_comm _ (2 ^ 32), mul_comm _ (2 ^ 32), mul_comm _ (2 ^ 32), ← Nat.two_pow_add_eq_or_of_lt c.isLt,
    ← Nat.two_pow_add_eq_or_of_lt b.isLt, ← Nat.two_pow_add_eq_or_of_lt a.isLt]
  omega

theorem append_two (p : Nat) : BitVec.ofNat 32 (p / 2 ^ 32) ++ BitVec.ofNat 32 p = BitVec.ofNat 64 p := by
  apply BitVec.eq_of_toNat_eq
  simp only [BitVec.toNat_append, BitVec.toNat_ofNat, Nat.shiftLeft_eq]
  rw [mul_comm, ← Nat.two_pow_add_eq_or_of_lt (Nat.mod_lt _ (by decide))]
  omega

theorem append_four (p : Nat) :
    BitVec.ofNat 32 (p / 2 ^ 96) ++ BitVec.ofNat 32 (p / 2 ^ 64) ++ BitVec.ofNat 32 (p / 2 ^ 32) ++ BitVec.ofNat 32 p
      = BitVec.ofNat 128 p := by
  apply BitVec.eq_of_toNat_eq
  simp only [BitVec.toNat_append, BitVec.toNat_ofNat, Nat.shiftLeft_eq]
  rw [mul_comm _ (2 ^ 32), mul_comm _ (2 ^ 32), mul_comm _ (2 ^ 32),
    ← Nat.two_pow_add_eq_or_of_lt (Nat.mod_lt _ (by decide)), ← Nat.two_pow_add_eq_or_of_lt (Nat.mod_lt _ (by decide)),
    ← Nat.two_pow_add_eq_or_of_lt (Nat.mod_lt _ (by decide))]
  omega

theorem ofNat_pattern (n : Nat) (r : Int) : BitVec.ofNat n (Machine.pattern n r) = BitVec.ofInt n r := by
  apply BitVec.eq_of_toNat_eq
  rw [BitVec.toNat_ofNat, BitVec.toNat_ofInt, Nat.mod_eq_of_lt (pattern_lt _ _)]
  simp [Machine.pattern]

theorem sint_toNat {n : Nat} (hn : 0 < n) (x : BitVec n) : sint n x.toNat = x.toInt := by
  have : 2 ^ n = 2 * 2 ^ (n - 1) := by
    rw [← pow_succ']
    congr 1
    omega
  rw [sint, BitVec.toInt_eq_toNat_cond]
  split <;> split <;> first | omega | (push_cast; rfl)

theorem Desc.ofWords_bounds (d0 d1 d2 d4 d5 d6 d7 : Word32) :
    let d := Desc.ofWords d0 d1 d2 d4 d5 d6 d7
    (d.w = 1 ∨ d.w = 2 ∨ d.w = 4 ∨ d.w = 8) ∧ d.sden < 2 ^ 32 ∧ |d.snum| ≤ 2 ^ 31 := by
  refine ⟨widthBytes_cases _, BitVec.isLt _, ?_⟩
  have := BitVec.toInt_lt (x := d1)
  have := BitVec.le_toInt d1
  simp only [Desc.ofWords, sint_toNat (by decide : 0 < 32)]
  rw [abs_le]
  constructor <;> norm_num at * <;> omega

theorem State.readDesc_bounds {s : State} {k : Kind} {i : Nat} {d : Desc} (h : s.readDesc k i = .ok d) :
    (d.w = 1 ∨ d.w = 2 ∨ d.w = 4 ∨ d.w = 8) ∧ d.sden < 2 ^ 32 ∧ |d.snum| ≤ 2 ^ 31 := by
  obtain ⟨_, _, _, _, _, _, _, _, _, _, _, _, _, _, rfl⟩ := State.readDesc_eq_ok.1 h
  exact Desc.ofWords_bounds _ _ _ _ _ _ _

end Sys2Proof.Machine
end

