-- ==== Sys2Proof/Tests/Slice0.lean ====
section
/-! SUPPORT. Tests: the operand ranges, the decoding of words written out from 30_encoding.md, at most two one-step tests
per command with values from 95_test_vectors.md (the vector is named at each test), and for every obligation with
hypotheses a state and operands that meet them. -/

namespace Sys2Proof.Tests

-- One theorem at a time: many kernel evaluations at once would each take a thread of their own.
set_option Elab.async false

open Sys2Proof Sys2Proof.Machine

/-! ## Helpers -/

/-- The outcome is a next state with this property. -/
def answers (o : Outcome) (p : State → Bool) : Bool :=
  match o with
  | .next t => p t
  | .fault _ => false
  | .refused _ => false

/-- The outcome is this fault. -/
def faults (o : Outcome) (f : Fault) : Bool :=
  match o with
  | .next _ => false
  | .fault g => decide (g = f)
  | .refused _ => false

theorem exists_next {o : Outcome} {p : State → Bool} (h : answers o p = true) : ∃ t, o = .next t ∧ p t = true := by
  cases o with
  | next t => exact ⟨t, rfl, h⟩
  | fault _ => exact absurd h Bool.false_ne_true
  | refused _ => exact absurd h Bool.false_ne_true

theorem eq_fault {o : Outcome} {f : Fault} (h : faults o f = true) : o = .fault f := by
  cases o with
  | next _ => exact absurd h Bool.false_ne_true
  | fault g => exact congrArg Host.Outcome.fault (of_decide_eq_true h)
  | refused _ => exact absurd h Bool.false_ne_true

/-- The configuration E1 (95_test_vectors.md section 2.1), before SCHEMA.CHECK. -/
def e1 : State := { State.reset with
  hdrCfg := 2
  slots := { State.reset.slots with
    settings := { KindSlot.reset with
      kcfg := 0x1C41, kdisc := 3, kpayMin := 6, kpayMax := 6, kndesc := 3, kpoly := 0x8005, kinit := 0xFFFF }
    sensorValues := { KindSlot.reset with
      kcfg := 0x4003, kdisc := 1, klenOff := 1, kpayMin := 2, kpayMax := 8, kndesc := 1 } }
  desc := [(0x2000, 0x01010000), (0x2004, 1), (0x2008, 100), (0x2010, 0), (0x2014, 0), (0x2018, 0), (0x201C, 0),
    (0x2020, 0x031D0002), (0x2024, 1), (0x2028, 10), (0x2030, 0xFFFFFE0C), (0x2034, 0xFFFFFFFF), (0x2038, 1000),
    (0x203C, 0), (0x2040, 0x02000004), (0x2044, 5), (0x2048, 2), (0x2050, 0), (0x2054, 0), (0x2058, 0), (0x205C, 0),
    (0x2400, 0x01090000), (0x2404, 1), (0x2408, 100), (0x2410, 0), (0x2414, 0), (0x2418, 0), (0x241C, 0)] }

/-- E1 checked: VALID[0] = VALID[1] = 1. -/
def e1Checked : State := { e1 with valid := { State.reset.valid with settings := true, sensorValues := true } }

/-- A frame in the buffer, and FRAMELEN its length. -/
def frame (s : State) (bs : List Byte) : State :=
  { s with buf := Memory.writeSeq 1 [] 0 bs, frameLen := BitVec.ofNat 16 bs.length }

/-- The frame F1 (95_test_vectors.md section 2.2). -/
def f1 : List Byte := [0x03, 0x00, 0x2E, 0x09, 0xFF, 0x85, 0x28, 0x00, 0xE5, 0xAC]

/-- The frame F2 (95_test_vectors.md section 2.2). -/
def f2 : List Byte := [0x01, 0x02, 0x00, 0xFE, 0xFF]

/-- E1 checked, F1 in the buffer, FRAMELEN = 10. -/
def framed : State := frame e1Checked f1

/-- E1 checked, F2 in the buffer, FRAMELEN = 5. -/
def sensor : State := frame e1Checked f2

/-- VNUM and VDEN of result entry i. -/
def value (s : State) (i : Nat) (n : Int) (d : Nat) : State :=
  s.setResWords i 2 (natToWords 4 (pattern 128 n) ++ [BitVec.ofNat 32 d])

/-- Three values for a settings frame, over a template of twelve equal bytes. -/
def template (b : Byte) : State :=
  value (value (value (frame e1Checked (List.replicate 12 b)) 0 2351 100) 1 (-123) 10) 2 200 2

/-- A value for a sensor frame, over a template of twelve bytes 0x55, with PAYLEN. -/
def sensorTemplate (p : BitVec 16) : State :=
  { value (frame e1Checked (List.replicate 12 0x55)) 0 (-512) 100 with payLen := p }

/-- "123456789" in the buffer, and the checksum profile of slot 2 with its polynomial and its start value. -/
def nine (kcfg : BitVec 15) (poly init : Word64) : State :=
  { frame State.reset [0x31, 0x32, 0x33, 0x34, 0x35, 0x36, 0x37, 0x38, 0x39] with
    arg1 := 9
    slots := State.reset.slots.set .strings { KindSlot.reset with kcfg := kcfg, kpoly := poly, kinit := init } }

/-! ## Operand ranges -/

/-- 30_encoding.md R133: IDX = N_DESC is refused, N_DESC - 1 is not. -/
theorem test_wellFormed_refuses_extract_idx : (Instr.fieldExtract .settings 32).wellFormed 32 = false
    ∧ (Instr.fieldExtract .settings 31).wellFormed 32 = true := by decide

theorem test_wellFormed_refuses_insert_idx : (Instr.fieldInsert .soundData 1).wellFormed 1 = false
    ∧ (Instr.fieldInsert .soundData 0).wellFormed 1 = true := by decide

/-! ## Decoding: RSV1, IDX, RSV0, SEL, OPC written out from 30_encoding.md R130 and R134 -/

theorem test_decode_nop : decode 32 0b00000000000000000000000000000000#32 = .ok .nop := by decide
theorem test_decode_csumCompute :
    decode 32 0b00000000000000000000001000000001#32 = .ok (.csumCompute .strings) := by decide
theorem test_decode_csumVerify :
    decode 32 0b00000000000000000000010000000010#32 = .ok (.csumVerify .soundData) := by decide
theorem test_decode_trailerVerify :
    decode 32 0b00000000000000000000000100000011#32 = .ok (.trailerVerify .sensorValues) := by decide
theorem test_decode_trailerAppend :
    decode 32 0b00000000000000000000000000000100#32 = .ok (.trailerAppend .settings) := by decide
theorem test_decode_fieldExtract :
    decode 32 0b00000000000000110000000100010000#32 = .ok (.fieldExtract .sensorValues 3) := by decide
theorem test_decode_fieldInsert :
    decode 32 0b00000000000111110000001100010001#32 = .ok (.fieldInsert .ambientColor 31) := by decide
theorem test_decode_schemaCheck :
    decode 32 0b00000000000000000000010000100000#32 = .ok (.schemaCheck .soundData) := by decide
theorem test_decode_frameDecode_any :
    decode 32 0b00000000000000000000011100110000#32 = .ok (.frameDecode .any) := by decide
theorem test_decode_frameDecode_kind :
    decode 32 0b00000000000000000000001000110000#32 = .ok (.frameDecode (.kind .strings)) := by decide
theorem test_decode_frameEncode :
    decode 32 0b00000000000000000000001100110001#32 = .ok (.frameEncode .ambientColor) := by decide

/-- Vectors V-C2, V-C4, V-C8, V-C10 to V-C12, V-C15. -/
theorem test_decode_refuses :
    decode 32 0x00000100 = .error .illegalSel ∧ decode 32 0x00000005 = .error .reservedOpcode
    ∧ decode 32 0x00000701 = .error .illegalSel ∧ decode 32 0x00000801 = .error .reservedBit
    ∧ decode 32 0x01000001 = .error .reservedBit ∧ decode 32 0x00200010 = .error .illegalIdx
    ∧ decode 32 0x00000530 = .error .illegalSel := by decide

/-- 30_encoding.md R137: the assembler's words. -/
theorem test_assemble : assemble "FIELD.EXTRACT" "sensor" 3 = some 0x00030110
    ∧ assemble "FRAME.DECODE" "any" 0 = some 0x00000730 ∧ assemble "FRAME.ENCODE" "any" 0 = none := by decide

/-! ## One step of each command -/

/-- V-C1: NOP, issued after reset. -/
theorem test_nop : answers (step (State.reset.withFetchWord 32 0)) (fun t => t.status.word = 0x1 && t.err.word = 0)
    = true := by decide

/-- V-C7: CSUM.COMPUTE with SEL = 6. -/
theorem test_illegal : answers (step (State.reset.withFetchWord 32 0x601))
    (fun t => t.status.word = 0x5 && t.err.word = 0x00060007) = true := by decide

/-- V-K4: CRC-16/MODBUS. -/
theorem test_csumCompute_reflected : answers (exec (.csumCompute .strings) (nine 0x1C40 0x8005 0xFFFF))
    (fun t => t.csum = 0x4B37 && t.status.word = 0x1 && t.err.word = 0x00020000) = true := by decide +kernel

/-- V-K12: CRC-64/ECMA-182. -/
theorem test_csumCompute_64 : answers (exec (.csumCompute .strings) (nine 0x04C0 0x42F0E1EBA9EA3693 0))
    (fun t => t.csum = 0x6C40DF5F0B497347) = true := by decide +kernel

/-- V-K31. -/
theorem test_csumVerify_match :
    answers (exec (.csumVerify .strings) { nine 0x1C40 0x8005 0xFFFF with exp := 0x4B37 })
      (fun t => t.status.word = 0x9 && t.csum = 0x4B37) = true := by decide +kernel

/-- V-K33: a bit of EXP at W or above never matches. -/
theorem test_csumVerify_high_bit :
    answers (exec (.csumVerify .strings) { nine 0x1C40 0x8005 0xFFFF with exp := 0x10000004B37 })
      (fun t => t.status.word = 0x1 && t.err.word = 0x00020000) = true := by decide +kernel

/-- V-T1. -/
theorem test_trailerVerify_match : answers (exec (.trailerVerify .settings) framed)
    (fun t => t.status.word = 0x9 && t.csum = 0xACE5 && t.csrx = 0xACE5) = true := by decide +kernel

/-- V-T8. -/
theorem test_trailerVerify_short : answers (exec (.trailerVerify .settings) { framed with frameLen := 1 })
    (fun t => t.status.word = 0x5 && t.err.word = 0x00000008) = true := by decide +kernel

/-- V-T4, the trailer unwritten before. -/
theorem test_trailerAppend_bytes : answers (exec (.trailerAppend .settings)
      { frame e1 [0x03, 0x00, 0x2E, 0x09, 0x03, 0xE8, 0x28, 0x00] with frameLen := 10 })
    (fun t => t.csum = 0x2144 && decide (Memory.readSeq t.buf 1 8 2 = some [0x44, 0x21])) = true := by decide +kernel

/-- V-T10. -/
theorem test_trailerAppend_long : answers (exec (.trailerAppend .settings) { framed with frameLen := 1025 })
    (fun t => t.err.word = 0x00000008 && decide (t.buf = framed.buf)) = true := by decide +kernel

/-- V-X2. -/
theorem test_fieldExtract_signed : answers (exec (.fieldExtract .settings 1) framed)
    (fun t => t.err.word = 0x00000100
      && decide (Memory.readSeq t.res 4 0x4020 7
        = some [0xFFFFFF85, 0xFFFFFFFF, 0xFFFFFF85, 0xFFFFFFFF, 0xFFFFFFFF, 0xFFFFFFFF, 10])) = true := by decide +kernel

/-- V-X11: 1001 is over MAX. -/
theorem test_fieldExtract_range : answers (exec (.fieldExtract .settings 1)
      (frame e1Checked [0x03, 0x00, 0x2E, 0x09, 0x03, 0xE9, 0x28, 0x00, 0xE5, 0xAC]))
    (fun t => t.err.word = 0x00000105 && decide (t.res = [])) = true := by decide +kernel

/-- V-I22: -5.5 becomes -6. -/
theorem test_fieldInsert_tie : answers (exec (.fieldInsert .settings 1) (value framed 1 (-11) 20))
    (fun t => t.err.word = 0x00000100 && decide (Memory.readSeq t.buf 1 3 4 = some [0x09, 0xFF, 0xFA, 0x28])
      && decide (Memory.readSeq t.res 4 0x4020 2 = some [0xFFFFFFFA, 0xFFFFFFFF])) = true := by decide +kernel

/-- V-I11: 65535.5 becomes 65536, over 65535. -/
theorem test_fieldInsert_range : answers (exec (.fieldInsert .settings 0) (value framed 0 655355 1000))
    (fun t => t.err.word = 0x00000005 && decide (t.buf = framed.buf)) = true := by decide +kernel

/-- V-S1. -/
theorem test_schemaCheck_passes : answers (exec (.schemaCheck .settings) e1)
    (fun t => t.kvalidWord = 0x1 && t.status.word = 0x1) = true := by decide +kernel

/-- V-S29: d1 overlaps d0. -/
theorem test_schemaCheck_overlap :
    answers (exec (.schemaCheck .settings) { e1 with desc := Memory.write e1.desc 0x2020 0x031D0001 })
      (fun t => t.kvalidWord = 0x0 && t.err.word = 0x00000106) = true := by decide +kernel

/-- V-D18. -/
theorem test_frameDecode_sensor : answers (exec (.frameDecode (.kind .sensorValues)) sensor)
    (fun t => t.status.word = 0x11 && t.err.word = 0x00010000 && t.csum = 0xFF && t.kindOut = 1 && t.payLen = 2
      && decide (Memory.readSeq t.res 4 0x4000 3 = some [0xFFFFFE00, 0xFFFFFFFF, 0xFFFFFE00])) = true := by decide +kernel

/-- V-D14: d1 = 1001 is over MAX, and no entry is written. -/
theorem test_frameDecode_range : answers (exec (.frameDecode (.kind .settings))
      (frame e1Checked [0x03, 0x00, 0x2E, 0x09, 0x03, 0xE9, 0x28, 0x00, 0x15, 0xE1]))
    (fun t => t.status.word = 0x5 && t.err.word = 0x00000105 && t.csum = 0xE115 && decide (t.res = [])) = true := by
  decide +kernel

/-- V-E1. -/
theorem test_frameEncode_settings : answers (exec (.frameEncode .settings) (template 0xAA))
    (fun t => t.csum = 0x086E && t.frameLen = 10 && t.payLen = 6
      && decide (Memory.readSeq t.buf 1 0 12
        = some [0x03, 0xAA, 0x2F, 0x09, 0xFF, 0x85, 0x28, 0xAA, 0x6E, 0x08, 0xAA, 0xAA])) = true := by decide +kernel

/-- V-E7: payload bytes 2 to 7 keep the template and are checksummed. -/
theorem test_frameEncode_sensor : answers (exec (.frameEncode .sensorValues) (sensorTemplate 8))
    (fun t => t.csum = 0xFB && t.frameLen = 11
      && decide (Memory.readSeq t.buf 1 0 12
        = some [0x01, 0x08, 0x00, 0xFE, 0x55, 0x55, 0x55, 0x55, 0x55, 0x55, 0xFB, 0x55])) = true := by decide +kernel

/-! ## The host interface -/

/-- V-R1: CAP of the default instance. -/
theorem test_cap : (State.reset.readWord 0x038).1 = 0x05200400 := by decide

/-- V-R6: the lanes of a window word. -/
theorem test_window : answers (State.reset.hostWrite 0x8000 0x44332211)
    (fun t => decide (Memory.readSeq t.buf 1 0 4 = some [0x11, 0x22, 0x33, 0x44])) = true := by decide +kernel

/-- V-S31 and V-S34: what a descriptor write and a HDRCFG write do to VALID. -/
theorem test_invalidation : answers (e1Checked.hostWrite 0x2004 1) (fun t => t.kvalidWord = 0x2) = true
    ∧ answers (e1Checked.hostWrite 0x040 2) (fun t => t.kvalidWord = 0x0) = true := by decide +kernel

/-- 20_memory.md R101: a misaligned access is no part of the interface. -/
theorem test_misaligned : State.reset.hostWrite 0x0002 0 = .refused .misaligned := by rfl

/-- 30_encoding.md R139, log 25: a mod by 0 and an unassigned variable have free values; the script goes on. -/
theorem test_script_free_values (x y : Nat) (e : HostExpr) :
    ∃ t, State.runStmt State.reset (.set x (.mod e (.lit 0))) = .next t
      ∧ Memory.read t.host.vars x = some (Config.modByZero (State.reset.hostValue e))
      ∧ State.reset.hostValue (.var y) = Config.unassignedVariable y :=
  ⟨_, rfl, by simp [State.hostAssign, State.hostValue, HostExpr.eval, scriptMod, Memory.read_write_same], rfl⟩

/-! ## States of the invariant -/

/-- Every clause of the invariant, as a check. -/
def invCheck (s : State) : Bool :=
  decide (s.params.legal) && decide (s.pending = s.status.busy)
  && (decide (s.status = State.reset.status ∧ s.err.code = .ok) || decide (s.status = Status.issued)
    || decide (s.status = Status.completed s.err.code false false))
  && decide (Memory.wf s.buf) && decide (Memory.wf s.desc) && decide (Memory.wf s.res)
  && s.buf.all (fun c => decide (c.1 < s.params.bufSize))
  && s.desc.all (fun c => Kind.all.any fun k => (List.range 4).any fun i => (List.range 8).any fun j =>
      decide (locate s.params c.1 = .desc k i j ∧ c.1 = descAddr k i j))
  && s.res.all (fun c => (List.range 4).any fun i => (List.range 8).any fun j =>
      decide (locate s.params c.1 = .res i j ∧ c.1 = resAddr i j))
  && Kind.all.all (fun k => (s.slot k).kcfg.getLsbD 5 == false
      && (!s.isValid k || (s.kindChecksOk k && match s.descFail k with | .ok none => true | _ => false)))

theorem mem_all (k : Kind) : k ∈ Kind.all := by cases k <;> decide

theorem inv_of_check {s : State} (h : invCheck s = true) : s.Inv := by
  simp only [invCheck, Bool.and_eq_true, Bool.or_eq_true, decide_eq_true_eq, List.all_eq_true, List.any_eq_true,
    beq_iff_eq, Bool.not_eq_true'] at h
  obtain ⟨⟨⟨⟨⟨⟨⟨⟨⟨h1, h2⟩, h3⟩, h4⟩, h5⟩, h6⟩, h7⟩, h8⟩, h9⟩, h10⟩ := h
  refine ⟨h1, h2, ?_, h4, h5, h6, h7, fun c hc => ?_, fun c hc => ?_, fun k => (h10 k (mem_all k)).1, fun k hk => ?_⟩
  · rcases h3 with (h3 | h3) | h3
    · exact .inl h3
    · exact .inr (.inl h3)
    · exact .inr (.inr ⟨false, false, h3, by simp, fun _ => ⟨rfl, rfl⟩⟩)
  · obtain ⟨k, -, i, -, j, -, h⟩ := h8 c hc
    exact ⟨k, i, j, h⟩
  · obtain ⟨i, -, j, -, h⟩ := h9 c hc
    exact ⟨i, j, h⟩
  · rcases (h10 k (mem_all k)).2 with h | ⟨ha, hb⟩
    · rw [hk] at h; cases h
    · refine ⟨ha, ?_⟩
      revert hb
      cases s.descFail k with
      | error e => intro hb; cases hb
      | ok o => cases o with
        | none => intro _; rfl
        | some i => intro hb; cases hb

theorem framed_inv : framed.Inv := inv_of_check (by decide +kernel)
theorem sensor_inv : sensor.Inv := inv_of_check (by decide +kernel)
theorem template_inv : (template 0xAA).Inv := inv_of_check (by decide +kernel)
theorem sensorTemplate_inv : (sensorTemplate 8).Inv := inv_of_check (by decide +kernel)

/-- A command pending after reset. -/
def pendingNop : State := State.reset.withFetchWord 32 0

/-- A command pending, one host step before the engine's turn. -/
def waiting (c : HostStmt) : State :=
  { pendingNop with latency := 1, host := { State.reset.host with script := [c] } }

/-! ## Witnesses: for each obligation with hypotheses, a state and operands that meet them -/

theorem witness_DecodeGivesBackEncodedCommand : (Instr.fieldInsert .soundData 31).wellFormed 32 = true := by decide

theorem witness_DecodableWordsAreTheLegalOnes :
    decode 32 0x001F0411 = .ok (.fieldInsert .soundData 31) ∧ legal 32 0x001F0411 = true
    ∧ legal 32 0x00200411 = false := by decide

theorem witness_StepRunsTheDecodedCommand :
    (pendingNop.atEngine ∧ decode pendingNop.params.nDesc pendingNop.cmd = .ok .nop)
    ∧ State.reset.pending = false
    ∧ (waiting (.label 0)).latency ≠ 0 ∧ (waiting (.label 0)).host.pos < (waiting (.label 0)).host.script.length := by
  unfold State.atEngine; decide

theorem witness_IllegalWordEndsWithIllegalCommand :
    (State.reset.withFetchWord 32 0x100).atEngine
    ∧ legal (State.reset.withFetchWord 32 0x100).params.nDesc (State.reset.withFetchWord 32 0x100).cmd = false := by
  unfold State.atEngine; decide

theorem witness_CmdWriteIssuesAndBusyWritesFault :
    State.reset.status.busy = false ∧ pendingNop.status.busy = true ∧ (0xFFFC : Word32).toNat < 0x10000
    ∧ (0xFFFC : Word32).toNat % 4 = 0 := by decide

theorem witness_PendingCommandComesNearer :
    ((waiting (.label 0)).pending = true ∧ (waiting (.label 0)).status.busy = true ∧ ¬(waiting (.label 0)).atEngine
      ∧ ∃ t, step (waiting (.label 0)) = .next t ∧ t.pending = true)
    ∧ ((waiting .reset).pending = true ∧ (waiting .reset).status.busy = true ∧ ¬(waiting .reset).atEngine
      ∧ ∃ t, step (waiting .reset) = .next t ∧ (!t.pending) = true) := by
  refine ⟨⟨rfl, rfl, ?_, exists_next (by decide)⟩, ⟨rfl, rfl, ?_, exists_next (by decide)⟩⟩ <;>
    (unfold State.atEngine; decide)

theorem witness_CompletionWritesTheFlags :
    (∃ t, exec .nop State.reset = .next t ∧ (t.err.code = .ok : Bool) = true)
    ∧ (∃ t, exec (.trailerVerify .settings) framed = .next t ∧ t.status.matched = true)
    ∧ (∃ t, exec (.frameDecode .any) framed = .next t ∧ t.status.snapValid = true)
    ∧ (∃ t, exec (.fieldExtract .settings 3) framed = .next t ∧ t.status.errv = true) :=
  ⟨exists_next (by decide), exists_next (by decide +kernel), exists_next (by decide +kernel),
    exists_next (by decide +kernel)⟩

theorem witness_ErrKindIsSelOrResolvedKind :
    ((State.reset.withFetchWord 32 0x100).atEngine
      ∧ ∃ t, step (State.reset.withFetchWord 32 0x100) = .next t ∧ (t.err.code = .illegalCommand : Bool) = true)
    ∧ (∃ t, exec (.frameDecode .any) framed = .next t ∧ (t.err.code = .ok : Bool) = true)
    ∧ framed.decodeKindOf .any = .ok .settings
    ∧ (∃ t, exec (.frameDecode (.kind .sensorValues)) framed = .next t
        ∧ (t.err.code = .unknownFrameType : Bool) = true)
    ∧ (∀ k, framed.decodeKindOf (.kind .sensorValues) ≠ .ok k)
    ∧ ∃ t, exec (.frameEncode .settings) (template 0xAA) = .next t ∧ (t.err.code = .ok : Bool) = true := by
  refine ⟨⟨?_, exists_next (by decide)⟩, exists_next (by decide +kernel), by decide +kernel,
    exists_next (by decide +kernel), fun k => ?_, exists_next (by decide +kernel)⟩
  · unfold State.atEngine; decide
  · have h : framed.decodeKindOf (.kind .sensorValues) = .error (.raise .unknownFrameType 0) := by decide +kernel
    rw [h]; simp

theorem witness_ErrFidxByCommand :
    (∃ t, exec (.fieldExtract .strings 31) framed = .next t ∧ (t.err.code = .configError : Bool) = true)
    ∧ (∃ t, exec (.fieldInsert .settings 3) framed = .next t ∧ (t.err.code = .operandError : Bool) = true)
    ∧ ((∃ t, exec (.schemaCheck .strings) e1 = .next t ∧ (t.err.code = .configError : Bool) = true)
      ∧ e1.kindChecksOk .strings = false)
    ∧ (∃ t, exec (.schemaCheck .settings) e1 = .next t ∧ (t.err.code = .ok : Bool) = true)
    ∧ (∃ t, exec (.frameDecode .any) { framed with frameLen := 9 } = .next t
      ∧ (t.err.code = .lengthMismatch : Bool) = true)
    ∧ (∃ t, exec (.frameEncode .settings) e1 = .next t ∧ (t.err.code = .configError : Bool) = true)
    ∧ (∃ t, exec (.frameEncode .settings) (template 0) = .next t ∧ (t.err.code = .ok : Bool) = true)
    ∧ ((∃ t, exec (.frameEncode .sensorValues) (sensorTemplate 9) = .next t ∧ (t.err.code = .operandError : Bool) = true)
      ∧ ((sensorTemplate 9).slot .sensorValues).lenMode = true
      ∧ ((sensorTemplate 9).slot .sensorValues).kpayMax.toNat < (sensorTemplate 9).payLen.toNat)
    ∧ ∃ t, exec (.csumCompute .settings) framed = .next t ∧ (t.err.code = .ok : Bool) = true :=
  ⟨exists_next (by decide +kernel), exists_next (by decide +kernel), ⟨exists_next (by decide +kernel), by decide +kernel⟩,
    exists_next (by decide +kernel), exists_next (by decide +kernel), exists_next (by decide +kernel),
    exists_next (by decide +kernel), ⟨exists_next (by decide +kernel), by decide +kernel⟩, exists_next (by decide +kernel)⟩

/-- F1 with its last byte changed (V-D12). -/
def badTrailer : State := frame e1Checked [0x03, 0x00, 0x2E, 0x09, 0xFF, 0x85, 0x28, 0x00, 0xE5, 0xAD]

theorem witness_FailedCommandWritesNothingElse :
    ((State.reset.withFetchWord 32 0x100).atEngine
      ∧ ∃ t, step (State.reset.withFetchWord 32 0x100) = .next t ∧ (t.err.code ≠ .ok : Bool) = true)
    ∧ (∃ t, exec (.frameDecode .any) badTrailer = .next t ∧ (t.err.code = .checksumMismatch : Bool) = true)
    ∧ (∃ t, exec (.frameDecode .any) { framed with frameLen := 9 } = .next t
      ∧ (t.err.code = .lengthMismatch : Bool) = true)
    ∧ (∃ t, exec (.schemaCheck .strings) framed = .next t ∧ (t.err.code ≠ .ok : Bool) = true)
    ∧ ∃ t, exec (.trailerAppend .settings) { framed with frameLen := 1025 } = .next t
      ∧ (t.err.code ≠ .ok : Bool) = true := by
  refine ⟨⟨?_, exists_next (by decide)⟩, exists_next (by decide +kernel), exists_next (by decide +kernel),
    exists_next (by decide +kernel), exists_next (by decide +kernel)⟩
  unfold State.atEngine; decide

theorem witness_NopCompletesWithoutEffect : (0x00000100#32).extractLsb' 0 8 = 0 := by decide

theorem witness_EarlierResultsDoNotInfluenceACommand :
    let s' : State := { framed with csum := 5, csrx := 6, kindOut := 4, draws := 7 }
    s' = { framed with
      cmd := s'.cmd, status := s'.status, err := s'.err, pending := s'.pending, csum := s'.csum, csrx := s'.csrx,
      kindOut := s'.kindOut, host := s'.host, latency := s'.latency, latencies := s'.latencies, draws := s'.draws } :=
  rfl

theorem witness_ProfileReadsTheSlotRegisters :
    (sensor.slot .sensorValues).profile.alg ≠ .crc ∧ (framed.slot .settings).profile.alg ≠ .sum := by decide

theorem witness_SumAndXorHaveTheirClosedForms :
    ((nine 0x0000 0 0).profile .strings).legal = true ∧ ((nine 0x0000 0 0).profile .strings).sumFin = .none
    ∧ ((nine 0x2040 0 0).profile .strings).legal = true ∧ ((nine 0x2040 0 0).profile .strings).sumFin = .ones
    ∧ ((nine 0x4000 0 0).profile .strings).legal = true ∧ ((nine 0x4000 0 0).profile .strings).sumFin = .twos
    ∧ ((nine 0x0000 0 0).profile .strings).alg = .sum
    ∧ ((nine 0x0200 0 0).profile .strings).legal = true ∧ ((nine 0x0200 0 0).profile .strings).alg = .xor := by
  decide +kernel

theorem witness_CrcRegisterIsLinearInTheData : ([0x31, 0x32] : List Byte).length = ([0x33, 0x34] : List Byte).length := rfl

theorem witness_ChecksumFitsItsWidth :
    ((nine 0x0400 0x07 0xFF).profile .strings).legal = true
    ∧ ((nine 0x04C0 0x42F0E1EBA9EA3693 0xFFFFFFFFFFFFFFFF).profile .strings).legal = true := by decide +kernel

theorem witness_EmptyRangeChecksum :
    ((nine 0x4000 0 0).profile .strings).legal = true ∧ ((nine 0x0200 0 0).profile .strings).legal = true
    ∧ ((nine 0x1C40 0x1021 0xB2AA).profile .strings).legal = true ∧ 1024 ≤ State.reset.params.bufSize := by
  decide +kernel

theorem witness_ReflectReversesTheLowBits : 0 < 2 ^ 0 ∧ 255 < 2 ^ 8 := by decide

theorem witness_EverySingleBitChangeIsDetected :
    ((nine 0x1C40 0x8005 0xFFFF).slot .strings).profile.legal = true ∧ 7 < 8 := by decide +kernel

/-- Slot 2 a CRC-8, ARG0 and ARG1 as given, eight bytes from index 1016 on, the last of the buffer. -/
def ranged (arg0 arg1 : BitVec 16) : State :=
  { nine 0x0400 0x07 0 with
    arg0 := arg0, arg1 := arg1, buf := Memory.writeSeq 1 [] 1016 [1, 2, 3, 4, 5, 6, 7, 8] }

/-- The cases of CSUM.COMPUTE and CSUM.VERIFY: an illegal profile, a range beyond the buffer, one that ends at its end and
is written, one with an unwritten byte. -/
def RangeCases : Prop :=
    ((nine 0x0600 0 0).profile .strings).legal = false
    ∧ (((ranged 1016 9).profile .strings).legal = true
      ∧ (ranged 1016 9).params.bufSize < (ranged 1016 9).arg0.toNat + (ranged 1016 9).arg1.toNat)
    ∧ (((ranged 1016 8).profile .strings).legal = true
      ∧ (ranged 1016 8).arg0.toNat + (ranged 1016 8).arg1.toNat ≤ (ranged 1016 8).params.bufSize
      ∧ ([1, 2, 3, 4, 5, 6, 7, 8] : List Byte).length = (ranged 1016 8).arg1.toNat
      ∧ (ranged 1016 8).holdsBytes (ranged 1016 8).arg0.toNat [1, 2, 3, 4, 5, 6, 7, 8])
    ∧ (((ranged 1015 9).profile .strings).legal = true
      ∧ (ranged 1015 9).arg0.toNat + (ranged 1015 9).arg1.toNat ≤ (ranged 1015 9).params.bufSize
      ∧ ∃ j < (ranged 1015 9).arg1.toNat, Memory.read (ranged 1015 9).buf ((ranged 1015 9).arg0.toNat + j) = none)

theorem witness_CsumComputeMeaning : RangeCases := by unfold RangeCases State.holdsBytes; decide +kernel

theorem witness_CsumVerifyMeaning : RangeCases := witness_CsumComputeMeaning

theorem witness_TrailerVerifyMeaning :
    ((nine 0x0600 0 0).profile .strings).legal = false
    ∧ (framed.profile .settings).legal = true
    ∧ framed.params.bufSize < ({ framed with frameLen := 1025 } : State).frameLen.toNat
    ∧ ({ framed with frameLen := 1 } : State).frameLen.toNat
      < (framed.slot .settings).kcsStart.toNat + (framed.profile .settings).csw
    ∧ (∀ n ∈ [2, 10], (framed.slot .settings).kcsStart.toNat + (framed.profile .settings).csw ≤ n
      ∧ n ≤ framed.params.bufSize)
    ∧ framed.holdsBytes 0 ([] ++ [0x03, 0x00])
    ∧ framed.holdsBytes 0 ([0x03, 0x00, 0x2E, 0x09, 0xFF, 0x85, 0x28, 0x00] ++ [0xE5, 0xAC])
    ∧ ∃ j, 0 ≤ j ∧ j < ({ framed with frameLen := 11 } : State).frameLen.toNat ∧ Memory.read framed.buf j = none := by
  refine ⟨by decide +kernel, by decide +kernel, by decide, by decide, by decide, ?_, ?_, 10, by decide +kernel⟩ <;>
    (unfold State.holdsBytes; decide +kernel)

theorem witness_TrailerAppendMeaning :
    ((nine 0x0600 0 0).profile .strings).legal = false
    ∧ (framed.profile .settings).legal = true
    ∧ framed.params.bufSize < ({ framed with frameLen := 1025 } : State).frameLen.toNat
    ∧ ({ framed with frameLen := 1 } : State).frameLen.toNat
      < (framed.slot .settings).kcsStart.toNat + (framed.profile .settings).csw
    ∧ framed.holdsBytes 0 [] ∧ 0 + ([] : List Byte).length + (framed.profile .settings).csw = 2
    ∧ framed.holdsBytes 0 [0x03, 0x00, 0x2E, 0x09, 0xFF, 0x85, 0x28, 0x00] ∧ framed.frameLen.toNat = 0 + 8 + 2
    ∧ ∃ j, 0 ≤ j ∧ j < ({ framed with frameLen := 13 } : State).frameLen.toNat - (framed.profile .settings).csw
      ∧ Memory.read framed.buf j = none := by
  refine ⟨by decide +kernel, by decide +kernel, by decide, by decide, ?_, by decide, ?_, by decide, 10, by decide +kernel⟩ <;>
    (unfold State.holdsBytes; decide +kernel)

theorem witness_VerifyAfterAppendMatches :
    ∃ t, exec (.trailerAppend .settings) framed = .next t ∧ (t.err.code = .ok : Bool) = true :=
  exists_next (by decide +kernel)

theorem witness_ReadUIntIsTheSumOfItsBytes :
    1016 + ([1, 2, 3, 4, 5, 6, 7, 8] : List Byte).length ≤ (ranged 0 0).params.bufSize
    ∧ (ranged 0 0).holdsBytes 1016 [1, 2, 3, 4, 5, 6, 7, 8]
    ∧ (ranged 0 0).readUInt 1016 8 .big = .ok 0x0102030405060708 := by
  unfold State.holdsBytes; decide +kernel

theorem witness_WriteUIntIsInverseToReadUInt :
    255 < 2 ^ (8 * 1) ∧ 1023 + 1 ≤ State.reset.params.bufSize ∧ ((1022 : Nat) < 1023 ∨ 1023 + 1 ≤ 1022) := by decide

theorem witness_DescriptorReadsItsWords :
    (∀ j ∈ [0, 1, 2, 4, 5, 6, 7], Memory.read e1.desc (0x2000 + 0x400 * Kind.settings.index + 0x20 * 2 + 4 * j) ≠ none)
    ∧ ∃ j < 8, j ≠ 3 ∧ Memory.read e1.desc (0x2000 + 0x400 * Kind.settings.index + 0x20 * 3 + 4 * j) = none := by
  decide +kernel

/-- A descriptor of w bytes, signed or not, with no range. -/
def descOf (w : Nat) (sgn : Bool) : Desc :=
  { offset := 0, w := w, ord := .little, sgn := sgn, rangeEn := false, unit := 0, snum := 1, sden := 1, min := 0, max := 0 }

theorem witness_FieldHoldsItsRepresentableRange :
    (∀ w ∈ [1, 2, 4, 8], ∀ sgn ∈ [false, true], (descOf w sgn).w = w ∧ 2 ^ (8 * w) - 1 < 2 ^ (8 * w)
      ∧ (descOf w sgn).lo ≤ (descOf w sgn).lo ∧ (descOf w sgn).lo ≤ (descOf w sgn).hi) := by decide +kernel

theorem witness_StoreValueWritesOneEntry : ∀ j < 7, (0x401C : Nat) ≠ 0x4000 + 0x20 * 0 + 4 * j := by decide

/-- The first n words of VNUM and VDEN of result entry i written, each 1. -/
def partValue (i n : Nat) : State := framed.setResWords i 2 (List.replicate n 1)

theorem witness_InverseScalingRoundsHalfAwayFromZero :
    (value framed 1 (-11) 20).holdsResWords 1 2 [0xFFFFFFF5, 0xFFFFFFFF, 0xFFFFFFFF, 0xFFFFFFFF, 20]
    ∧ (value framed 0 1 0).holdsResWords 0 2 [1, 0, 0, 0, 0]
    ∧ (2 ≤ 6 ∧ 6 < 7 ∧ Memory.read (partValue 1 4).res (resAddr 1 6) = none)
    ∧ (2 ≤ 2 ∧ 2 < 7 ∧ Memory.read (partValue 1 0).res (resAddr 1 2) = none) ∧ (-3 : Int) ≠ 0 := by
  unfold State.holdsResWords; decide +kernel

theorem witness_FieldRoundTrip :
    (-2 ^ 31 : Int) ≠ 0 ∧ 2 ^ 32 - 1 ≠ 0 ∧ 2 ^ 32 - 1 < 2 ^ 32 ∧ |(-2 ^ 31 : Int)| ≤ 2 ^ 31
    ∧ |(2 ^ 64 - 1 : Int)| < 2 ^ 64 ∧ (6 : Int) = 2 * 3 := by norm_num

/-- The descriptors of E1. -/
def d0 : Desc := { descOf 2 false with unit := 1, sden := 100 }
def d1 : Desc :=
  { descOf 2 true with offset := 2, ord := .big, rangeEn := true, unit := 3, sden := 10, min := -500, max := 1000 }
def d2 : Desc := { descOf 1 false with offset := 4, unit := 2, snum := 5, sden := 2 }
def sensorD0 : Desc := { descOf 2 true with unit := 1, sden := 100 }

theorem readDesc_e1 :
    framed.readDesc .settings 0 = .ok d0 ∧ framed.readDesc .settings 1 = .ok d1 ∧ framed.readDesc .settings 2 = .ok d2
    ∧ sensor.readDesc .sensorValues 0 = .ok sensorD0 := by decide +kernel

theorem witness_FieldExtractMeaning :
    framed.isValid .strings = false ∧ framed.isValid .settings = true
    ∧ (framed.slot .settings).kndesc.toNat ≤ (3 : BitVec 8).toNat
    ∧ ((2 : BitVec 8).toNat < (framed.slot .settings).kndesc.toNat
      ∧ framed.readDesc .settings (2 : BitVec 8).toNat = .ok d2)
    ∧ framed.params.bufSize < ({ framed with frameLen := 1025 } : State).frameLen.toNat
    ∧ ({ framed with frameLen := 6 } : State).frameLen.toNat < framed.hdrLen + d2.offset + d2.w
    ∧ (({ framed with frameLen := 7 } : State).frameLen.toNat ≤ framed.params.bufSize
      ∧ framed.hdrLen + d2.offset + d2.w ≤ ({ framed with frameLen := 7 } : State).frameLen.toNat)
    ∧ ([0x28] : List Byte).length = d2.w ∧ framed.holdsBytes (framed.hdrLen + d2.offset) [0x28]
    ∧ ∃ j < d2.w, Memory.read ({ framed with buf := [] } : State).buf (framed.hdrLen + d2.offset + j) = none := by
  unfold State.holdsBytes; decide +kernel

theorem witness_FieldInsertMeaning :
    framed.isValid .strings = false ∧ framed.isValid .settings = true
    ∧ (framed.slot .settings).kndesc.toNat ≤ (3 : BitVec 8).toNat
    ∧ ((1 : BitVec 8).toNat < (framed.slot .settings).kndesc.toNat
      ∧ framed.readDesc .settings (1 : BitVec 8).toNat = .ok d1)
    ∧ ({ framed with frameLen := 5 } : State).frameLen.toNat < framed.hdrLen + d1.offset + d1.w
    ∧ framed.hdrLen + d1.offset + d1.w ≤ ({ framed with frameLen := 6 } : State).frameLen.toNat
    ∧ (2 ≤ 2 ∧ 2 < 7 ∧ Memory.read framed.res (resAddr (1 : BitVec 8).toNat 2) = none)
    ∧ (value framed 1 1 0).invScale 1 d1 = .error (.raise .operandError 1)
    ∧ ((value framed 1 (-5005) 100).invScale 1 d1 = .ok (-501) ∧ ¬(d1.vlo ≤ -501 ∧ -501 ≤ d1.vhi))
    ∧ ((value framed 1 (-5004) 100).invScale 1 d1 = .ok (-500) ∧ d1.vlo ≤ -500 ∧ -500 ≤ d1.vhi) := by decide +kernel

theorem witness_InsertAfterExtractWritesBack :
    (∃ t, exec (.fieldExtract .settings 1) framed = .next t ∧ (t.err.code = .ok : Bool) = true)
    ∧ framed.readDesc .settings (1 : BitVec 8).toNat = .ok d1 ∧ d1.snum ≠ 0 ∧ d1.sden ≠ 0 :=
  ⟨exists_next (by decide +kernel), by decide +kernel⟩

theorem witness_KindChecksAreTheFourteenConditions :
    e1.kindChecksOk .settings = true ∧ e1.kindChecksOk .sensorValues = true ∧ e1.kindChecksOk .strings = false := by
  decide +kernel

/-- E1 with one descriptor word of kind 0 changed. -/
def changed (a : Nat) (w : Word32) : State := { e1 with desc := Memory.write e1.desc a w }

theorem witness_DescFailNamesTheLowestFailingDescriptor :
    e1.readDescs .settings (List.range (e1.slot .settings).kndesc.toNat) = .ok [d0, d1, d2]
    ∧ e1.descFail .settings = .ok none ∧ (changed 0x2044 0).descFail .settings = .ok (some 2)
    ∧ ∃ i < 4, ∃ j < 8, i < (({ (e1.slot .settings) with kndesc := 4 } : KindSlot)).kndesc.toNat ∧ j ≠ 3
      ∧ Memory.read e1.desc (descAddr .settings i j) = none := by decide +kernel

/-- E1 with one more descriptor in kind 0, which is not written. -/
def unwritten : State :=
  { e1 with slots := e1.slots.set .settings { e1.slot .settings with kndesc := 4 } }

theorem witness_SchemaCheckJudgesTheSchema :
    e1.kindChecksOk .strings = false ∧ (e1.kindChecksOk .settings = true ∧ e1.descFail .settings = .ok none)
    ∧ ((changed 0x2028 0).kindChecksOk .settings = true ∧ (changed 0x2028 0).descFail .settings = .ok (some 1))
    ∧ unwritten.kindChecksOk .settings = true
    ∧ ∃ i j, i < (unwritten.slot .settings).kndesc.toNat ∧ j < 8 ∧ j ≠ 3
      ∧ Memory.read unwritten.desc (descAddr .settings i j) = none :=
  ⟨by decide +kernel, by decide +kernel, by decide +kernel, by decide +kernel, 3, 0, by decide +kernel⟩

theorem witness_OnlySchemaCheckSetsAValidBit :
    (∃ t, step (e1.withFetchWord 32 0x120) = .next t ∧ t.isValid .sensorValues = true)
    ∧ (e1.withFetchWord 32 0x120).isValid .sensorValues = false :=
  ⟨exists_next (by decide +kernel), by decide +kernel⟩

theorem witness_HostWriteEffects :
    e1Checked.params.legal ∧ e1Checked.status.busy = false
    ∧ (isSlotAddr 0x100 ∧ isSlotAddr 0x234)
    ∧ (isDescAddr e1Checked.params .settings 0x2000 ∧ isDescAddr e1Checked.params .soundData 0x33FC)
    ∧ (isResAddr e1Checked.params 0x4000 ∧ isResAddr e1Checked.params 0x43F8)
    ∧ ([0x0, 0x40, 0x44, 0x100, 0x234, 0x2000, 0x33FC, 0x4000, 0x43F8, 0x8000, 0xFFFC] : List Word32).all
      (fun a => answers (e1Checked.hostWrite a 1) fun _ => true) = true := by
  refine ⟨by decide, rfl, ⟨⟨.settings, 0, by decide⟩, ⟨.soundData, 0x34, by decide⟩⟩,
    ⟨⟨0, 0, by decide⟩, ⟨31, 7, by decide⟩⟩, ⟨⟨0, 0, by decide⟩, ⟨31, 6, by decide⟩⟩, by decide +kernel⟩

/-! ### Frames -/

/-- The fields of F1 with their raw integers. -/
def f1Fields : List (Desc × Int) := [(d0, 2350), (d1, -123), (d2, 40)]

/-- The fields of `template` with the raw integers its values become. -/
def templateFields : List (Desc × Int) := [(d0, 2351), (d1, -123), (d2, 40)]

theorem framed_read : framed.headerRead (.kind .settings) 3 ∧ framed.headerRead .any 3
    ∧ framed.resolvesTo (.kind .settings) 3 .settings ∧ framed.resolvesTo .any 3 .settings
    ∧ framed.payloadIs .settings 6 := by
  refine ⟨⟨rfl, by decide, by decide, by decide +kernel⟩,
    ⟨⟨⟨.settings, rfl⟩, fun j => by cases j <;> decide⟩, by decide, by decide, by decide +kernel⟩,
    ⟨rfl, rfl⟩, ⟨rfl, rfl, fun j => by cases j <;> decide⟩, rfl⟩

/-- What holds of every entry of a list of three, from what holds of the three. -/
theorem of_three {a b c : Desc × Int} {P : Nat → Desc → Int → Prop} (ha : P 0 a.1 a.2) (hb : P 1 b.1 b.2)
    (hc : P 2 c.1 c.2) : ∀ (i : Nat) (e : Desc) (r : Int), [a, b, c][i]? = some (e, r) → P i e r := by
  intro i e r h
  match i, h with
  | 0, h => obtain rfl := Option.some.inj h; exact ha
  | 1, h => obtain rfl := Option.some.inj h; exact hb
  | 2, h => obtain rfl := Option.some.inj h; exact hc

theorem witness_FrameDecodeDeliversTheSnapshot :
    framed.headerRead .any 3 ∧ framed.resolvesTo .any 3 .settings ∧ framed.payloadIs .settings 6
    ∧ framed.frameLen.toNat = framed.hdrLen + 6 + (framed.profile .settings).csw
    ∧ framed.frameCsum .settings framed.frameLen.toNat = .ok 0xACE5
    ∧ framed.frameTrailer .settings framed.frameLen.toNat = .ok 0xACE5
    ∧ f1Fields.length = (framed.slot .settings).kndesc.toNat
    ∧ ∀ (i : Nat) (e : Desc) (r : Int), f1Fields[i]? = some (e, r) →
      framed.holdsField .settings i e r ∧ e.vlo ≤ r ∧ r ≤ e.vhi := by
  refine ⟨framed_read.2.1, framed_read.2.2.2.1, framed_read.2.2.2.2, by decide +kernel, by decide +kernel,
    by decide +kernel, by decide +kernel, of_three ?_ ?_ ?_⟩ <;> (unfold State.holdsField; decide +kernel)

theorem witness_ShortAndUnknownFramesAreReported :
    ({ framed with frameLen := 1 } : State).configServes (.kind .settings)
    ∧ ({ framed with frameLen := 1 } : State).frameLen.toNat ≤ framed.params.bufSize
    ∧ ({ framed with frameLen := 1 } : State).frameLen.toNat < framed.hdrLen
    ∧ framed.headerRead (.kind .sensorValues) 3 ∧ framed.resolvesToNone (.kind .sensorValues) 3 :=
  ⟨rfl, by decide, by decide, ⟨rfl, by decide, by decide, by decide +kernel⟩, by unfold State.resolvesToNone; decide⟩

/-- A sensor frame with this length field. -/
def sensorLength (p : Byte) : State := frame e1Checked [0x01, p, 0x00, 0xFE, 0xFF]

theorem witness_WrongLengthIsReported :
    ((sensorLength 9).headerRead (.kind .sensorValues) 1 ∧ (sensorLength 9).resolvesTo (.kind .sensorValues) 1 .sensorValues
      ∧ ((sensorLength 9).slot .sensorValues).lenMode = true ∧ (sensorLength 9).lengthField .sensorValues = .ok 9
      ∧ ((sensorLength 9).slot .sensorValues).kpayMax.toNat < 9)
    ∧ ((sensorLength 1).headerRead (.kind .sensorValues) 1 ∧ (sensorLength 1).lengthField .sensorValues = .ok 1
      ∧ 1 < ((sensorLength 1).slot .sensorValues).kpayMin.toNat)
    ∧ framed.headerRead (.kind .settings) 3 ∧ framed.resolvesTo (.kind .settings) 3 .settings ∧ framed.payloadIs .settings 6
    ∧ ({ framed with frameLen := 9 } : State).frameLen.toNat ≠ framed.hdrLen + 6 + (framed.profile .settings).csw :=
  ⟨⟨⟨rfl, by decide, by decide, by decide +kernel⟩, ⟨rfl, rfl⟩, by decide, by decide +kernel, by decide⟩,
    ⟨⟨rfl, by decide, by decide, by decide +kernel⟩, by decide +kernel, by decide⟩,
    framed_read.1, framed_read.2.2.1, framed_read.2.2.2.2, by decide⟩

theorem witness_WrongChecksumIsReported :
    badTrailer.headerRead (.kind .settings) 3 ∧ badTrailer.resolvesTo (.kind .settings) 3 .settings
    ∧ badTrailer.payloadIs .settings 6
    ∧ badTrailer.frameLen.toNat = badTrailer.hdrLen + 6 + (badTrailer.profile .settings).csw
    ∧ badTrailer.frameCsum .settings badTrailer.frameLen.toNat = .ok 0xACE5
    ∧ badTrailer.frameTrailer .settings badTrailer.frameLen.toNat = .ok 0xADE5 ∧ 0xACE5 ≠ 0xADE5 :=
  ⟨⟨rfl, by decide, by decide, by decide +kernel⟩, ⟨rfl, rfl⟩, rfl, by decide +kernel⟩

theorem witness_FrameCommandsCheckConfigurationThenOperands :
    ¬e1.configServes (.kind .settings) ∧ ¬e1.configServes .any
    ∧ (∃ t, exec (.frameDecode .any) framed = .next t ∧ (t.err.code = .ok : Bool) = true)
    ∧ framed.configServes .any ∧ framed.params.bufSize < ({ framed with frameLen := 1025 } : State).frameLen.toNat
    ∧ framed.isValid .strings = false
    ∧ ((template 0).isValid .settings = true
      ∧ ∃ t, exec (.frameEncode .settings) (template 0) = .next t ∧ (t.err.code = .ok : Bool) = true)
    ∧ ((sensorTemplate 9).isValid .sensorValues = true ∧ ((sensorTemplate 9).slot .sensorValues).lenMode = true
      ∧ ((sensorTemplate 9).slot .sensorValues).kpayMax.toNat < (sensorTemplate 9).payLen.toNat)
    ∧ (sensorTemplate 1).payLen.toNat < ((sensorTemplate 1).slot .sensorValues).kpayMin.toNat := by
  refine ⟨by unfold State.configServes; decide, fun h => ?_, exists_next (by decide +kernel), framed_read.2.1.1, by decide,
    by decide, ⟨by decide +kernel, exists_next (by decide +kernel)⟩, by decide +kernel, by decide⟩
  exact absurd (h.2 .settings rfl) (by decide)

/-- The frame of vector V-D14: its second field is over MAX. -/
def outOfRange : State := frame e1Checked [0x03, 0x00, 0x2E, 0x09, 0x03, 0xE9, 0x28, 0x00, 0x15, 0xE1]

/-- A template of which only the first value is written. -/
def oneValue : State := value (frame e1Checked (List.replicate 12 0)) 0 2351 100

theorem witness_LowestFailingDescriptorIsNamed :
    (outOfRange.headerRead (.kind .settings) 3 ∧ outOfRange.resolvesTo (.kind .settings) 3 .settings
      ∧ outOfRange.payloadIs .settings 6
      ∧ outOfRange.frameLen.toNat = outOfRange.hdrLen + 6 + (outOfRange.profile .settings).csw
      ∧ outOfRange.frameCsum .settings outOfRange.frameLen.toNat = .ok 0xE115
      ∧ outOfRange.frameTrailer .settings outOfRange.frameLen.toNat = .ok 0xE115
      ∧ 1 < (outOfRange.slot .settings).kndesc.toNat
      ∧ (outOfRange.holdsField .settings 0 d0 2350 ∧ d0.vlo ≤ 2350 ∧ 2350 ≤ d0.vhi)
      ∧ outOfRange.holdsField .settings 1 d1 1001 ∧ ¬(d1.vlo ≤ 1001 ∧ 1001 ≤ d1.vhi))
    ∧ ((value (template 0) 1 10005 100).isValid .settings = true
      ∧ ((value (template 0) 1 10005 100).slot .settings).lenMode = false
      ∧ ((value (template 0) 1 10005 100).holdsValue .settings 0 d0 2351 ∧ d0.vlo ≤ 2351 ∧ 2351 ≤ d0.vhi)
      ∧ (value (template 0) 1 10005 100).holdsValue .settings 1 d1 1001)
    ∧ ((value (template 0) 1 1 0).readDesc .settings 1 = .ok d1
      ∧ (value (template 0) 1 1 0).invScale 1 d1 = .error (.raise .operandError (BitVec.ofNat 8 1)))
    ∧ (oneValue.isValid .settings = true
      ∧ (oneValue.holdsValue .settings 0 d0 2351 ∧ d0.vlo ≤ 2351 ∧ 2351 ≤ d0.vhi)
      ∧ oneValue.readDesc .settings 1 = .ok d1 ∧ Memory.read oneValue.res (resAddr 1 2) = none) := by
  refine ⟨⟨⟨rfl, by decide, by decide, by decide +kernel⟩, ⟨rfl, rfl⟩, rfl, ?_⟩, ?_⟩ <;>
    (simp only [State.holdsField, State.holdsValue]; decide +kernel)

theorem witness_TruncatedFrameIsALengthMismatch :
    ∃ t, exec (.frameDecode .any) framed = .next t ∧ (t.err.code = .ok : Bool) = true := exists_next (by decide +kernel)

theorem witness_DecodeDependsOnTheFrameOnly :
    framed.Inv ∧ ({ framed with arg0 := 5, csum := 7, kindOut := 3 } : State).Inv
    ∧ ∀ a < framed.frameLen.toNat,
      Memory.read ({ framed with arg0 := 5, csum := 7, kindOut := 3 } : State).buf a = Memory.read framed.buf a :=
  ⟨framed_inv, inv_of_check (by decide +kernel), fun _ _ => rfl⟩

/-- E1 checked with KCSSTART = 2 in slot 0, and a frame whose trailer is the CRC-16/MODBUS of its bytes 2 to 7. -/
def lateStart : State :=
  frame { e1Checked with slots := e1Checked.slots.set .settings { e1Checked.slot .settings with kcsStart := 2 } }
    [0x03, 0x00, 0x2E, 0x09, 0xFF, 0x85, 0x28, 0x00, 0xE5, 0xA9]

/-- The frame decodes, as its kind and as any kind, and byte b of it is written. -/
def FlipBase (s : State) (k : Kind) (b : Nat) : Prop :=
  s.Inv ∧ (∃ t, exec (.frameDecode .any) s = .next t ∧ ((t.err.code = .ok : Bool) && (t.kindOut = k.code : Bool)) = true)
  ∧ (∃ t, exec (.frameDecode (.kind k)) s = .next t ∧ ((t.err.code = .ok : Bool) && (t.kindOut = k.code : Bool)) = true)
  ∧ Memory.read s.buf b ≠ none

theorem witness_FlippedFrameBitIsAChecksumMismatch :
    (∀ b ∈ [0, 1, 7, 8, 9], FlipBase framed .settings b)
    ∧ (∀ b ∈ [1, 7], framed.discOff.toNat + framed.discBytes ≤ b ∧ (framed.slot .settings).kcsStart.toNat ≤ b
      ∧ b < framed.frameLen.toNat - (framed.profile .settings).csw)
    ∧ (framed.slot .settings).lenMode = false
    ∧ (∀ b ∈ [8, 9], framed.frameLen.toNat - (framed.profile .settings).csw ≤ b ∧ b < framed.frameLen.toNat)
    ∧ (framed.discOff.toNat ≤ 0 ∧ 0 < framed.discOff.toNat + framed.discBytes)
    ∧ (∀ d, ({ framed with buf := Memory.write framed.buf 0 (0x03 ^^^ (1#8 <<< 2)) } : State).disc = .ok d →
        State.resolvesToNone { framed with buf := Memory.write framed.buf 0 (0x03 ^^^ (1#8 <<< 2)) } .any d)
    ∧ (FlipBase sensor .sensorValues 1 ∧ (sensor.slot .sensorValues).lenMode = true
      ∧ (sensor.slot .sensorValues).klenOff.toNat ≤ 1
      ∧ 1 < (sensor.slot .sensorValues).klenOff.toNat + (sensor.slot .sensorValues).lenBytes)
    ∧ (FlipBase lateStart .settings 1 ∧ lateStart.discOff.toNat + lateStart.discBytes ≤ 1
      ∧ (lateStart.slot .settings).lenMode = false ∧ 1 < (lateStart.slot .settings).kcsStart.toNat) := by
  refine ⟨fun b hb => ⟨framed_inv, exists_next (by decide +kernel), exists_next (by decide +kernel), ?_⟩, by decide +kernel,
    by decide, by decide +kernel, by decide +kernel, fun d hd j => ?_,
    ⟨⟨sensor_inv, exists_next (by decide +kernel), exists_next (by decide +kernel), by decide +kernel⟩, by decide +kernel⟩,
    ⟨⟨inv_of_check (by decide +kernel), exists_next (by decide +kernel), exists_next (by decide +kernel),
      by decide +kernel⟩, by decide +kernel⟩⟩
  · revert b
    decide +kernel
  have h : ({ framed with buf := Memory.write framed.buf 0 (0x03 ^^^ (1#8 <<< 2)) } : State).disc = .ok 7 := by
    decide +kernel
  rw [h] at hd
  cases hd
  cases j <;> decide

theorem witness_FrameEncodeBuildsTheFrame :
    (template 0xAA).Inv ∧ (template 0xAA).isValid .settings = true ∧ ((template 0xAA).slot .settings).lenMode = false
    ∧ 6 = ((template 0xAA).slot .settings).kpayMin.toNat
    ∧ templateFields.length = ((template 0xAA).slot .settings).kndesc.toNat
    ∧ (∀ (i : Nat) (e : Desc) (r : Int), templateFields[i]? = some (e, r) →
      (template 0xAA).holdsValue .settings i e r ∧ e.vlo ≤ r ∧ r ≤ e.vhi)
    ∧ (∀ a < (template 0xAA).hdrLen + 6, Memory.read (template 0xAA).buf a ≠ none) := by
  refine ⟨template_inv, by decide +kernel, by decide +kernel, by decide +kernel, by decide +kernel, of_three ?_ ?_ ?_,
    by decide +kernel⟩ <;> (unfold State.holdsValue; decide +kernel)

theorem witness_DecodeAfterEncodeRoundTrip :
    (sensorTemplate 8).Inv ∧ (sensorTemplate 8).configServes .any
    ∧ ∃ t, exec (.frameEncode .sensorValues) (sensorTemplate 8) = .next t ∧ (t.err.code = .ok : Bool) = true :=
  ⟨sensorTemplate_inv, ⟨⟨.settings, rfl⟩, fun j => by cases j <;> decide⟩, exists_next (by decide +kernel)⟩

/-! ### The invariant and the host interface -/

theorem witness_StepKeepsTheInvariant :
    (sensor.withFetchWord 32 0x730).Inv
    ∧ ∃ t, step (sensor.withFetchWord 32 0x730) = .next t ∧ t.status.snapValid = true :=
  ⟨inv_of_check (by decide +kernel), exists_next (by decide +kernel)⟩

theorem witness_InvariantHoldsAtReset :
    Params.legal { bufSize := 16, nDesc := 1 } ∧ Params.legal { bufSize := 16384, nDesc := 32 } := by decide

theorem witness_NoStepLeavesTheBuffer :
    (unwritten.withFetchWord 32 0x20).Inv ∧ step (unwritten.withFetchWord 32 0x20) = .fault .unwrittenDescriptor :=
  ⟨inv_of_check (by decide +kernel), eq_fault (by decide +kernel)⟩

theorem witness_WrittenRegistersReadBack :
    State.reset.status.busy = false
    ∧ (e1Checked.status.busy = false ∧ (ResultCode.ok, 0) ∈ [(ResultCode.ok, 0)] ∧ e1Checked.err.code = .ok
      ∧ Kind.sensorValues.code.toNat = 1 ∧ e1Checked.isValid .sensorValues = true)
    ∧ (hostRegs.length = 73 ∧ (hostRegs.map HostReg.addr).Nodup)
    ∧ (hostRegs[0] ∈ hostRegs ∧ hostRegs[0].addr = 0x00C ∧ hostRegs[0].mask = 0xFFFF)
    ∧ (hostRegs[72] ∈ hostRegs ∧ hostRegs[72].addr = 0x234 ∧ hostRegs[72].addr ≠ hostRegs[0].addr)
    ∧ (∃ t, State.reset.hostWrite (BitVec.ofNat 32 0x00C) 0xFFFFFFFF = .next t ∧ (t.frameLen = 0xFFFF : Bool) = true)
    ∧ ∃ t, State.reset.hostWrite (BitVec.ofNat 32 0x234) 0xFFFFFFFF = .next t
      ∧ ((t.slot .soundData).kxorOut = 0xFFFFFFFF00000000 : Bool) = true :=
  ⟨rfl, by decide +kernel, by decide +kernel, ⟨List.getElem_mem _, rfl, rfl⟩, ⟨List.getElem_mem _, rfl, by decide⟩,
    exists_next (by decide +kernel), exists_next (by decide +kernel)⟩

theorem witness_ReadOnlyAndReservedAddressesIgnoreWrites :
    State.reset.params.legal ∧ State.reset.status.busy = false
    ∧ (∀ a ∈ [0x048, 0x0FC, 0x11C, 0x23C, 0x1FFC, 0x200C, 0x3FFC, 0x401C, 0x7FFC, 0x8400, 0xFFFC], a < 0x10000 ∧ a % 4 = 0)
    ∧ ¬isSlotAddr 0x11C ∧ ¬isSlotAddr 0x240 ∧ (∀ k, ¬isDescAddr State.reset.params k 0x200C)
    ∧ (∀ k, ¬isDescAddr State.reset.params k 0x3400) ∧ ¬isResAddr State.reset.params 0x401C
    ∧ 0x8000 + State.reset.params.bufSize ≤ 0x8400 := by
  refine ⟨by decide, rfl, by decide, ?_, ?_, fun k => ?_, fun k => ?_, ?_, by decide⟩
  · rintro ⟨k, off, h1, h2, h3, h4, h5, h6⟩
    cases k <;> simp only [Kind.index] at h6 <;> omega
  · rintro ⟨k, off, h1, h2, h3, h4, h5, h6⟩
    cases k <;> simp only [Kind.index] at h6 <;> omega
  · rintro ⟨i, j, h1, h2, h3, h4⟩
    cases k <;> simp only [Kind.index, State.reset, Params.default] at h1 h4 <;> omega
  · rintro ⟨i, j, h1, h2, h3, h4⟩
    cases k <;> simp only [Kind.index, State.reset, Params.default] at h1 h4 <;> omega
  · rintro ⟨i, j, h1, h2, h3⟩
    omega

theorem witness_WindowLanesAreLittleEndian :
    State.reset.params.legal ∧ State.reset.status.busy = false ∧ 4 * 255 < State.reset.params.bufSize := by decide

theorem witness_ReadsArePureAndWritesIdempotent :
    State.reset.status.busy = false ∧ (0x2000 : Word32) ≠ 0
    ∧ ∃ t, State.reset.hostWrite 0x2000 1 = .next t ∧ (t.desc = [(0x2000, 1)] : Bool) = true :=
  ⟨rfl, by decide, exists_next (by decide +kernel)⟩

theorem witness_BusyReadsShowStatusAndCmdOnly :
    pendingNop.status.busy = true ∧ pendingNop.flagsAgree ∧ 0xFFFC % 4 = 0 ∧ 0xFFFC ≠ 0x000 ∧ 0xFFFC ≠ 0x004 :=
  ⟨rfl, .inr (.inl rfl), by decide⟩

theorem witness_ResetClearsTheBlock :
    (e1.pending = false ∧ ({ e1 with host := (waiting .reset).host } : State).host.script[0]? = some .reset)
    ∧ (waiting .reset).latency ≠ 0 ∧ (waiting .reset).host.script[(waiting .reset).host.pos]? = some .reset := by decide

end Sys2Proof.Tests
end

section
/-! SUPPORT. The decoder and the encoder agree: a word decodes to a command exactly if it is the word of that command and
the command is well-formed; every such word is legal (30_encoding.md R134, R135, R140). -/

namespace Sys2Proof

theorem Kind.ofCode_eq_some {sel : BitVec 3} {k : Kind} : Kind.ofCode sel = some k ↔ sel = k.code := by
  refine ⟨fun h => ?_, fun h => h ▸ Kind.ofCode_code k⟩
  rcases sel_cases sel with rfl | rfl | rfl | rfl | rfl | rfl | rfl | rfl <;> cases h <;> rfl

theorem DecodeSel.ofCode_eq_some {sel : BitVec 3} {q : DecodeSel} : DecodeSel.ofCode sel = some q ↔ sel = q.code := by
  refine ⟨fun h => ?_, fun h => h ▸ DecodeSel.ofCode_code q⟩
  rw [DecodeSel.ofCode] at h
  split at h
  · next hany => cases h; exact hany
  · obtain ⟨k, hk, rfl⟩ := Option.map_eq_some_iff.1 h
    exact Kind.ofCode_eq_some.1 hk

theorem decodeKind_eq_ok {sel : BitVec 3} {idx : BitVec 8} {k : Kind} :
    decodeKind sel idx = .ok k ↔ sel = k.code ∧ idx = 0 := by
  rw [decodeKind, ← Kind.ofCode_eq_some]
  cases Kind.ofCode sel with
  | none => simp
  | some j => by_cases hidx : idx = 0#8 <;> simp [hidx]

theorem decodeField_eq_ok {nDesc : Nat} {sel : BitVec 3} {idx i : BitVec 8} {k : Kind} :
    decodeField nDesc sel idx = .ok (k, i) ↔ sel = k.code ∧ idx = i ∧ idx.toNat < nDesc := by
  rw [decodeField, ← Kind.ofCode_eq_some]
  cases Kind.ofCode sel with
  | none => simp
  | some j => by_cases hidx : idx.toNat < nDesc <;> simp [hidx]

section Rows
variable {nDesc : Nat} {opc : BitVec 8} {sel : BitVec 3} {idx : BitVec 8} {i : Instr}

/-- A row whose operand is a kind answers only well-formed commands, with the row's OPC and the operands given. -/
theorem encode_of_kindRow {f : Kind → Instr}
    (hf : ∀ k, encode (f k) = commandWord opc k.code 0 ∧ (f k).wellFormed nDesc = true)
    (h : (decodeKind sel idx).map f = .ok i) : encode i = commandWord opc sel idx ∧ i.wellFormed nDesc = true := by
  obtain ⟨k, hk, rfl⟩ := Machine.map_eq_ok.1 h
  obtain ⟨rfl, rfl⟩ := decodeKind_eq_ok.1 hk
  exact hf k

/-- The row of a FIELD command answers only well-formed commands, with the row's OPC and the operands given. -/
theorem encode_of_fieldRow {f : Kind × BitVec 8 → Instr}
    (hf : ∀ k j, encode (f (k, j)) = commandWord opc k.code j ∧ (f (k, j)).wellFormed nDesc = decide (j.toNat < nDesc))
    (h : (decodeField nDesc sel idx).map f = .ok i) :
    encode i = commandWord opc sel idx ∧ i.wellFormed nDesc = true := by
  obtain ⟨⟨k, j⟩, hk, rfl⟩ := Machine.map_eq_ok.1 h
  obtain ⟨rfl, rfl, hj⟩ := decodeField_eq_ok.1 hk
  obtain ⟨he, hw⟩ := hf k idx
  exact ⟨he, hw.trans (decide_eq_true hj)⟩

theorem encode_of_decodeRow (h : decodeRow nDesc opc sel idx = .ok i) :
    encode i = commandWord opc sel idx ∧ i.wellFormed nDesc = true := by
  rw [decodeRow] at h
  split at h
  · next hopc =>
    split_ifs at h with hsel hidx
    cases h
    rw [hopc, not_not.1 hsel, not_not.1 hidx]
    exact ⟨rfl, rfl⟩
  split at h
  · next hopc => subst hopc; exact encode_of_kindRow (fun _ => ⟨rfl, rfl⟩) h
  split at h
  · next hopc => subst hopc; exact encode_of_kindRow (fun _ => ⟨rfl, rfl⟩) h
  split at h
  · next hopc => subst hopc; exact encode_of_kindRow (fun _ => ⟨rfl, rfl⟩) h
  split at h
  · next hopc => subst hopc; exact encode_of_kindRow (fun _ => ⟨rfl, rfl⟩) h
  split at h
  · next hopc => subst hopc; exact encode_of_fieldRow (fun _ _ => ⟨rfl, rfl⟩) h
  split at h
  · next hopc => subst hopc; exact encode_of_fieldRow (fun _ _ => ⟨rfl, rfl⟩) h
  split at h
  · next hopc => subst hopc; exact encode_of_kindRow (fun _ => ⟨rfl, rfl⟩) h
  split at h
  · next hopc =>
    split at h
    · cases h
    next q hq =>
    split_ifs at h with hidx
    cases h
    rw [hopc, DecodeSel.ofCode_eq_some.1 hq, hidx]
    exact ⟨rfl, rfl⟩
  split at h
  · next hopc => subst hopc; exact encode_of_kindRow (fun _ => ⟨rfl, rfl⟩) h
  · cases h

end Rows

theorem decode_encode {nDesc : Nat} {i : Instr} (hi : i.wellFormed nDesc = true) : decode nDesc (encode i) = .ok i := by
  have field {k : Kind} {idx : BitVec 8} (h : idx.toNat < nDesc) : decodeField nDesc k.code idx = .ok (k, idx) :=
    decodeField_eq_ok.2 ⟨rfl, rfl, h⟩
  have kind {k : Kind} : decodeKind k.code 0#8 = .ok k := decodeKind_eq_ok.2 ⟨rfl, rfl⟩
  cases i with
  | fieldExtract k idx => simp [decode, encode, decodeRow, field (of_decide_eq_true hi), Except.map]
  | fieldInsert k idx => simp [decode, encode, decodeRow, field (of_decide_eq_true hi), Except.map]
  | _ => simp [decode, encode, decodeRow, kind, Except.map]

/-- 30_encoding.md R134, R135: the decoder as a relation between a word and a command. -/
theorem decode_eq_ok {nDesc : Nat} {w : Word32} {i : Instr} :
    decode nDesc w = .ok i ↔ encode i = w ∧ i.wellFormed nDesc = true := by
  constructor
  · intro h
    rw [decode] at h
    split_ifs at h with hrsv
    obtain ⟨h0, h1⟩ := not_or.1 hrsv
    obtain ⟨he, hw⟩ := encode_of_decodeRow h
    exact ⟨he.trans (commandWord_fields (not_not.1 h0) (not_not.1 h1)), hw⟩
  · rintro ⟨rfl, hw⟩
    exact decode_encode hw

theorem legal_encode (nDesc : Nat) (i : Instr) : legal nDesc (encode i) = i.wellFormed nDesc := by
  have kind_le (k : Kind) : k.index ≤ 4 := Nat.le_of_lt_succ (Machine.index_lt k)
  cases i with
  | frameDecode q =>
    cases q with
    | any => rfl
    | kind k => simp [legal, encode, DecodeSel.code, Instr.wellFormed, kind_le]
  | _ => simp [legal, encode, Instr.wellFormed, kind_le]

theorem legal_of_decode_eq_ok {nDesc : Nat} {w : Word32} {i : Instr} (h : decode nDesc w = .ok i) :
    legal nDesc w = true := by
  obtain ⟨rfl, hw⟩ := decode_eq_ok.1 h
  rw [legal_encode, hw]

end Sys2Proof
end

section
/-! SUPPORT. The steps in the life of a command: its issue, the engine's turn, and the KIND its completion writes
(40_command.md R160 to R164). -/

namespace Sys2Proof.Machine

/-! ## Issue -/

theorem hostWrite_cmd_of_idle {s : State} (w : Word32) (hb : s.status.busy = false) :
    s.hostWrite 0 w = .next (s.issue w) :=
  State.hostWrite_eq_next.2 ⟨by decide, by decide, hb, rfl⟩

theorem hostWrite_of_busy {s : State} {a : Word32} (w : Word32) (hb : s.status.busy = true) (ha : a.toNat < 0x10000)
    (h4 : a.toNat % 4 = 0) : s.hostWrite a w = .fault .hostWriteWhileBusy := by
  rw [State.hostWrite, accessRefusal_eq_none.2 ⟨ha, h4⟩]
  exact if_pos hb

/-! ## The engine's turn -/

theorem engineTurn_iff_atEngine {s : State} : s.engineTurn = true ↔ s.atEngine := by
  simp [State.engineTurn, State.atEngine, HostAgent.ended]

theorem step_of_atEngine {s : State} (h : s.atEngine) : step s = engineStep s :=
  if_pos (engineTurn_iff_atEngine.2 h)

theorem engineStep_of_not_legal {s : State} (h : legal s.params.nDesc s.cmd = false) :
    engineStep s = illegalCommand s := by
  rw [engineStep]
  cases hd : decode s.params.nDesc s.cmd with
  | error e => rfl
  | ok i => simp [legal_of_decode_eq_ok hd] at h

/-! ## The KIND of a completion -/

theorem kind_of_exec_eq_next {i : Instr} {s t : State} (h : exec i s = .next t) (hi : ∀ sel, i ≠ .frameDecode sel) :
    t.err.kind = selOf (encode i) := by
  rw [selOf, encode_sel]
  cases i with
  | nop => cases h; rfl
  | csumCompute k => rcases execCsumCompute_eq_next.1 h with ⟨_, _, -, rfl⟩ | ⟨_, -, rfl⟩ <;> rfl
  | csumVerify k => rcases execCsumVerify_eq_next.1 h with ⟨_, _, -, rfl⟩ | ⟨_, -, rfl⟩ <;> rfl
  | trailerVerify k => rcases execTrailerVerify_eq_next.1 h with ⟨_, _, -, rfl⟩ | ⟨_, _, -, rfl⟩ <;> rfl
  | trailerAppend k => rcases execTrailerAppend_eq_next.1 h with ⟨_, _, -, rfl⟩ | ⟨_, -, rfl⟩ <;> rfl
  | fieldExtract k idx => rcases execFieldExtract_eq_next.1 h with ⟨_, _, -, rfl⟩ | ⟨_, _, -, rfl⟩ <;> rfl
  | fieldInsert k idx => rcases execFieldInsert_eq_next.1 h with ⟨_, _, -, rfl⟩ | ⟨_, -, rfl⟩ <;> rfl
  | schemaCheck k => rcases execSchemaCheck_eq_next.1 h with ⟨-, rfl⟩ | ⟨-, _, -, rfl⟩ | ⟨-, -, rfl⟩ <;> rfl
  | frameDecode sel => exact absurd rfl (hi sel)
  | frameEncode k => rcases execFrameEncode_eq_next.1 h with ⟨_, _, -, rfl⟩ | ⟨_, -, rfl⟩ <;> rfl

theorem execFrameDecode_err_of_resolved {sel : DecodeSel} {s t : State} {k : Kind} (h : execFrameDecode sel s = .next t)
    (hk : s.decodeKindOf sel = .ok k) :
    t.err.kind = k.code ∧ t.err.code ∈ [ResultCode.ok, .lengthMismatch, .checksumMismatch, .fieldOutOfRange] := by
  rcases execFrameDecode_cases h with ⟨_, _, he, -⟩ | ⟨j, hj, -, rfl⟩ | ⟨j, p, x, rx, hj, -, -, hend⟩
  · rw [hk] at he; cases he
  · rw [hk] at hj; cases hj; simp
  · rw [hk] at hj; cases hj
    rcases hend with ⟨-, rfl⟩ | ⟨-, y, -, rfl⟩ | ⟨-, rs, -, rfl⟩ <;> simp

theorem execFrameDecode_err_of_unresolved {sel : DecodeSel} {s t : State} (h : execFrameDecode sel s = .next t)
    (hk : ∀ k, s.decodeKindOf sel ≠ .ok k) :
    t.err.kind = sel.code ∧ t.err.code ∈ [ResultCode.configError, .operandError, .tooShort, .unknownFrameType] := by
  rcases execFrameDecode_cases h with ⟨c, x, he, rfl⟩ | ⟨j, hj, -⟩ | ⟨j, _, _, _, hj, -⟩
  · refine ⟨rfl, ?_⟩
    rcases raises_decodeKindOf he with ⟨rfl, -⟩ | ⟨-, rfl | rfl | rfl⟩ <;> simp
  · exact absurd hj (hk j)
  · exact absurd hj (hk j)

end Sys2Proof.Machine
end

section
/-! The statements about a command's life cycle (40_command.md R160, R164, R167; 60_exceptions.md R316). -/

namespace Sys2Proof.Machine

/-- Settles O9: an illegal word completes by `illegalCommand`, which takes KIND from the word; the other commands by the
two or three ways each completes, and FRAME.DECODE by whether `decodeKindOf` answers a kind. -/
theorem errKindIsSelOrResolvedKind : Obligations.ErrKindIsSelOrResolvedKind := by
  refine ⟨fun s t hturn hlegal h => ?_, fun i s t h => ?_⟩
  · rw [step_of_atEngine hturn, engineStep_of_not_legal hlegal] at h
    cases h
    rfl
  · cases i with
    | frameDecode sel =>
      exact ⟨fun k hk => execFrameDecode_err_of_resolved h hk, fun hk => execFrameDecode_err_of_unresolved h hk⟩
    | _ => exact kind_of_exec_eq_next h (by simp)

/-- Settles O6: address 0 is CMD's, and an idle write there is `State.issue`; BUSY is tested before the address is looked
up, so it does not matter which register a busy write aims at. -/
theorem cmdWriteIssuesAndBusyWritesFault : Obligations.CmdWriteIssuesAndBusyWritesFault := by
  intro s w
  exact ⟨fun hb => ⟨s.issue w, hostWrite_cmd_of_idle w hb, rfl⟩, fun a hb ha h4 => hostWrite_of_busy w hb ha h4⟩

/-- Settles O12: NOP is `finish OK` alone, and a word that decodes to NOP is NOP's own word. -/
theorem nopCompletesWithoutEffect : Obligations.NopCompletesWithoutEffect := by
  refine ⟨fun s => rfl, by decide, fun nDesc w _ => ?_⟩
  have nop_word : encode .nop = 0 := by decide
  rw [decode_eq_ok, nop_word]
  exact ⟨fun ⟨h, _⟩ => h.symm, fun h => ⟨h.symm, rfl⟩⟩

end Sys2Proof.Machine
end

section
/-! SUPPORT. The fields of a register by its number, and the checksum algorithms in closed form with their bounds
(41_checksum.md R180 to R187). -/

namespace Sys2Proof.Machine

/-! ## Register fields -/

theorem toNat_extractLsb'_eq {n : Nat} (x : BitVec n) (i m : Nat) :
    (x.extractLsb' i m).toNat = x.toNat / 2 ^ i % 2 ^ m := by
  rw [BitVec.extractLsb'_toNat, Nat.shiftRight_eq_div_pow]

theorem getLsbD_iff_div_mod {n : Nat} (x : BitVec n) (i : Nat) : x.getLsbD i = true ↔ x.toNat / 2 ^ i % 2 = 1 := by
  rw [← BitVec.testBit_toNat, Nat.testBit_eq_decide_div_mod_eq, decide_eq_true_iff]

theorem widthBytes_extractLsb' {n : Nat} (x : BitVec n) (i : Nat) :
    widthBytes (x.extractLsb' i 2) = 2 ^ (x.toNat / 2 ^ i % 4) := by
  rw [widthBytes, toNat_extractLsb'_eq]; rfl

theorem ByteOrder.ofBit_eq_big {b : Bool} : ByteOrder.ofBit b = .big ↔ b = true := by
  cases b <;> decide

theorem ofBit_getLsbD_eq_big {n : Nat} (x : BitVec n) (i : Nat) :
    ByteOrder.ofBit (x.getLsbD i) = .big ↔ x.toNat / 2 ^ i % 2 = 1 := by
  rw [ByteOrder.ofBit_eq_big, getLsbD_iff_div_mod]

theorem Alg.ofBits_iff (b : BitVec 2) :
    (Alg.ofBits b = .sum ↔ b.toNat = 0) ∧ (Alg.ofBits b = .xor ↔ b.toNat = 1) ∧ (Alg.ofBits b = .crc ↔ b.toNat = 2) := by
  revert b; decide

theorem SumFin.ofBits_iff (b : BitVec 2) :
    (SumFin.ofBits b = .none ↔ b.toNat = 0) ∧ (SumFin.ofBits b = .ones ↔ b.toNat = 1)
      ∧ (SumFin.ofBits b = .twos ↔ b.toNat = 2) := by
  revert b; decide

/-- The profile is made of bits of KCFG above bit 0, so two words that agree there give the same profile. -/
theorem KindSlot.profile_congr_kcfg {q : KindSlot} {c : BitVec 15}
    (h : ∀ i, 0 < i → c.getLsbD i = q.kcfg.getLsbD i) : { q with kcfg := c }.profile = q.profile := by
  have field (i m : Nat) (hi : 0 < i) : c.extractLsb' i m = q.kcfg.extractLsb' i m :=
    BitVec.eq_of_getLsbD_eq fun j _ => by rw [BitVec.getLsbD_extractLsb', BitVec.getLsbD_extractLsb', h _ (by omega)]
  simp only [KindSlot.profile, field _ _ (by decide : 0 < 6), field _ _ (by decide : 0 < 9),
    field _ _ (by decide : 0 < 13), h _ (by decide : 0 < 8), h _ (by decide : 0 < 11), h _ (by decide : 0 < 12)]

/-! ## The algorithm of a profile -/

theorem Profile.csum_of_sum {p : Profile} (h : p.alg = .sum) (bs : List Byte) : p.csum bs = sumCsum p bs := by
  rw [Profile.csum, h]

theorem Profile.csum_of_xor {p : Profile} (h : p.alg = .xor) (bs : List Byte) : p.csum bs = xorCsum p bs := by
  rw [Profile.csum, h]

theorem Profile.csum_of_crc {p : Profile} (h : p.alg = .crc) (bs : List Byte) : p.csum bs = crcCsum p bs := by
  rw [Profile.csum, h]

theorem Profile.csum_of_illegal {p : Profile} (h : p.alg = .illegal) (bs : List Byte) : p.csum bs = 0 := by
  rw [Profile.csum, h]

section UnusedFields
variable {p : Profile}

theorem Profile.csum_set_crcFields (h : p.alg ≠ .crc) (refIn refOut : Bool) (poly : Nat) (bs : List Byte) :
    { p with refIn := refIn, refOut := refOut, poly := poly }.csum bs = p.csum bs := by
  cases ha : p.alg with
  | crc => exact absurd ha h
  | sum => rw [Profile.csum_of_sum ha]; rfl
  | xor => rw [Profile.csum_of_xor ha]; rfl
  | illegal => rw [Profile.csum_of_illegal ha]; rfl

theorem Profile.legal_set_crcFields (h : p.alg ≠ .crc) (refIn refOut : Bool) (poly : Nat) :
    { p with refIn := refIn, refOut := refOut, poly := poly }.legal = p.legal := by
  rw [Bool.eq_iff_iff, Profile.legal_iff, Profile.legal_iff]
  simp [Profile.w, h]

theorem Profile.csum_set_sumFin (h : p.alg ≠ .sum) (fin : SumFin) (bs : List Byte) :
    { p with sumFin := fin }.csum bs = p.csum bs := by
  cases ha : p.alg with
  | sum => exact absurd ha h
  | xor => rw [Profile.csum_of_xor ha]; rfl
  | crc => rw [Profile.csum_of_crc ha]; rfl
  | illegal => rw [Profile.csum_of_illegal ha]; rfl

theorem Profile.legal_set_sumFin (h : p.alg ≠ .sum) (fin : SumFin) : { p with sumFin := fin }.legal = p.legal := by
  rw [Bool.eq_iff_iff, Profile.legal_iff, Profile.legal_iff]
  simp [Profile.w, h]

end UnusedFields

/-! ## SUM and XOR -/

theorem sumAcc_eq_mod {w acc : Nat} (bs : List Byte) (h : acc < 2 ^ w) :
    sumAcc w acc bs = (acc + (bs.map BitVec.toNat).sum) % 2 ^ w := by
  induction bs generalizing acc with
  | nil => simp [sumAcc, Nat.mod_eq_of_lt h]
  | cons b bs ih =>
    rw [sumAcc, ih (Nat.mod_lt _ (by positivity)), Nat.mod_add_mod, List.map_cons, List.sum_cons, Nat.add_assoc]

theorem xor_two_pow_sub_one {w x : Nat} (h : x < 2 ^ w) : x ^^^ (2 ^ w - 1) = 2 ^ w - 1 - x := by
  have hx : (BitVec.ofNat w x).toNat = x := Nat.mod_eq_of_lt h
  calc x ^^^ (2 ^ w - 1) = (BitVec.ofNat w x ^^^ BitVec.allOnes w).toNat := by
        rw [BitVec.toNat_xor, BitVec.toNat_allOnes, hx]
    _ = 2 ^ w - 1 - x := by rw [BitVec.xor_allOnes, BitVec.toNat_not, hx]

theorem sumFinish_lt {fin : SumFin} {w acc : Nat} (h : acc < 2 ^ w) : sumFinish fin w acc < 2 ^ w := by
  cases fin with
  | none => exact h
  | ones => exact Nat.xor_lt_two_pow h (by have := Nat.two_pow_pos w; omega)
  | twos => exact Nat.mod_lt _ (by positivity)
  | illegal => exact h

theorem xorAcc_eq_foldr (acc : Nat) (bs : List Byte) :
    xorAcc acc bs = (bs.map BitVec.toNat).foldr (· ^^^ ·) acc := by
  have foldl (acc : Nat) : xorAcc acc bs = (bs.map BitVec.toNat).foldl (· ^^^ ·) acc := by
    induction bs generalizing acc with
    | nil => rfl
    | cons b bs ih => exact ih _
  rw [foldl, List.foldl_eq_foldr]

theorem xorAcc_lt {acc : Nat} {bs : List Byte} (h : acc < 2 ^ 8) : xorAcc acc bs < 2 ^ 8 := by
  induction bs generalizing acc with
  | nil => exact h
  | cons b bs ih => exact ih (Nat.xor_lt_two_pow h b.isLt)

/-! ## The bound of a checksum -/

/-- 41_checksum.md R181: the three algorithms end in an exclusive or of two numbers below 2^W. -/
theorem Profile.csum_lt {p : Profile} (bs : List Byte) (h : p.legal = true) : p.csum bs < 2 ^ p.w := by
  obtain ⟨halg, hinit, hxor, hxorw, -, -⟩ := p.legal_iff.1 h
  cases ha : p.alg with
  | sum =>
    rw [Profile.csum_of_sum ha, sumCsum, sumAcc_eq_mod bs hinit]
    exact Nat.xor_lt_two_pow (sumFinish_lt (Nat.mod_lt _ (by positivity))) hxor
  | xor =>
    have hw : p.w = 8 := by rw [Profile.w, hxorw ha]
    rw [Profile.csum_of_xor ha, xorCsum]
    exact Nat.xor_lt_two_pow (hw ▸ xorAcc_lt (hw ▸ hinit)) hxor
  | crc =>
    have hreg := crcReg_lt (poly := p.poly) (refIn := p.refIn) (bs := bs) hinit
    rw [Profile.csum_of_crc ha, crcCsum]
    refine Nat.xor_lt_two_pow ?_ hxor
    split
    · exact reflect_lt _ _
    · exact hreg
  | illegal => exact absurd ha halg

theorem KindSlot.w_le (q : KindSlot) : q.profile.w ≤ 64 := by
  have := q.csw_le
  rw [Profile.w]; omega

/-- 41_checksum.md R181: storing a checksum in a 64-bit register loses nothing. -/
theorem toNat_ofNat_csum {q : KindSlot} (bs : List Byte) (h : q.profile.legal = true) :
    (BitVec.ofNat 64 (q.profile.csum bs)).toNat = q.profile.csum bs :=
  Nat.mod_eq_of_lt ((Profile.csum_lt bs h).trans_le (Nat.pow_le_pow_right (by decide) q.w_le))

/-! ## Reflect -/

theorem testBit_reflect (n v i : Nat) : (reflect n v).testBit i = (decide (i < n) && v.testBit (n - 1 - i)) := by
  induction n generalizing v with
  | zero => simp [reflect]
  | succ n ih =>
    rw [reflect, Nat.testBit_or, Nat.testBit_shiftLeft, ih, Nat.testBit_div_two]
    rcases lt_trichotomy i n with hi | rfl | hi
    · simp [hi, Nat.lt_succ_of_lt hi, show n - 1 - i + 1 = n - i by omega]
    · simp
    · have high : (v % 2).testBit (i - n) = false :=
        Nat.testBit_eq_false_of_lt ((Nat.mod_lt v two_pos).trans_le (Nat.le_self_pow (by omega) 2))
      simp [high, show ¬i < n by omega, show ¬i < n + 1 by omega]

/-- The bit that comes in at the top is disjoint from the lower bits, so the OR of R187 adds. -/
theorem reflect_eq_sum (n v : Nat) :
    reflect n v = ∑ i ∈ Finset.range n, (v.testBit i).toNat * 2 ^ (n - 1 - i) := by
  induction n generalizing v with
  | zero => rfl
  | succ n ih =>
    have term (i : Nat) : (v.testBit (i + 1)).toNat * 2 ^ (n + 1 - 1 - (i + 1))
        = ((v / 2).testBit i).toNat * 2 ^ (n - 1 - i) := by
      rw [Nat.testBit_succ, show n + 1 - 1 - (i + 1) = n - 1 - i by omega]
    rw [reflect, Nat.shiftLeft_eq, mul_comm, ← Nat.two_pow_add_eq_or_of_lt (reflect_lt _ _), Finset.sum_range_succ', ih,
      Finset.sum_congr rfl fun i _ => term i, Nat.toNat_testBit, add_comm, mul_comm]
    simp

end Sys2Proof.Machine
end

section
/-! SUPPORT. When the checksum of a range and the values of TRAILER.VERIFY are read, and how they end early, by what the
buffer holds (41_checksum.md R189 to R191). -/

namespace Sys2Proof.Machine

theorem State.stop_eq_fault {s : State} {q : BitVec 3} {e : Stop} {f : Fault} : s.stop q e = .fault f ↔ e = .fault f := by
  cases e <;> simp [State.stop]

theorem State.memRead_of_unwritten {s : State} {a n : Nat} (hn : a + n ≤ s.params.bufSize)
    (h : ∃ j < n, Memory.read s.buf (a + j) = none) : s.memRead a n = .error (.fault .unwrittenBuffer) :=
  State.memRead_eq_error.2 (.inl ⟨hn, h, rfl⟩)

/-- Within the buffer a read stops for one reason only. -/
theorem State.memRead_error_within {s : State} {a n : Nat} {e : Stop} (hn : a + n ≤ s.params.bufSize)
    (h : s.memRead a n = .error e) : e = .fault .unwrittenBuffer := by
  rcases State.memRead_eq_error.1 h with ⟨-, -, rfl⟩ | ⟨hlt, -⟩
  · rfl
  · omega

theorem State.holdsBytes_append {s : State} {a : Nat} {bs cs : List Byte} (h : s.holdsBytes a (bs ++ cs)) :
    s.holdsBytes a bs ∧ s.holdsBytes (a + bs.length) cs := by
  constructor
  · intro j hj
    rw [h j (by simp; omega), List.getElem_append_left hj]
  · intro j hj
    rw [Nat.add_assoc, h (bs.length + j) (by simp; omega), List.getElem_append_right (by omega)]
    simp

section Range
variable {s : State} {k : Kind}

theorem State.rangeCsum_of_illegal (hl : (s.profile k).legal = false) :
    s.rangeCsum k = .error (.raise .configError 0xFF) :=
  State.rangeCsum_eq_error.2 (.inl ⟨hl, rfl⟩)

theorem State.rangeCsum_of_outside (hl : (s.profile k).legal = true)
    (hr : s.params.bufSize < s.arg0.toNat + s.arg1.toNat) : s.rangeCsum k = .error (.raise .operandError 0) :=
  State.rangeCsum_eq_error.2 (.inr (.inl ⟨hl, hr, rfl⟩))

theorem State.rangeCsum_of_written {bs : List Byte} (hl : (s.profile k).legal = true)
    (hr : s.arg0.toNat + s.arg1.toNat ≤ s.params.bufSize) (hn : bs.length = s.arg1.toNat)
    (hb : s.holdsBytes s.arg0.toNat bs) : s.rangeCsum k = .ok ((s.profile k).csum bs) :=
  State.rangeCsum_eq_ok.2 ⟨hl, hr, State.csumOf_eq_ok.2 ⟨hr, bs, hn, hb, rfl⟩⟩

theorem State.rangeCsum_of_unwritten (hl : (s.profile k).legal = true)
    (hr : s.arg0.toNat + s.arg1.toNat ≤ s.params.bufSize)
    (hu : ∃ j < s.arg1.toNat, Memory.read s.buf (s.arg0.toNat + j) = none) :
    s.rangeCsum k = .error (.fault .unwrittenBuffer) :=
  State.rangeCsum_eq_error.2 (.inr (.inr ⟨hl, hr, State.csumOf_eq_error.2 (State.memRead_of_unwritten hr hu)⟩))

end Range

theorem execCsumCompute_eq_fault {k : Kind} {s : State} {f : Fault} :
    execCsumCompute k s = .fault f ↔ s.rangeCsum k = .error (.fault f) := by
  rw [execCsumCompute]
  cases s.rangeCsum k with
  | error e => simp [State.stop_eq_fault]
  | ok x => simp

theorem execCsumVerify_eq_fault {k : Kind} {s : State} {f : Fault} :
    execCsumVerify k s = .fault f ↔ s.rangeCsum k = .error (.fault f) := by
  rw [execCsumVerify]
  cases s.rangeCsum k with
  | error e => simp [State.stop_eq_fault]
  | ok x => simp

theorem execTrailerVerify_eq_fault {k : Kind} {s : State} {f : Fault} :
    execTrailerVerify k s = .fault f ↔ s.trailerValues k = .error (.fault f) := by
  rw [execTrailerVerify]
  cases s.trailerValues k with
  | error e => simp [State.stop_eq_fault]
  | ok x => simp

section Trailer
variable {s : State} {k : Kind}

theorem State.trailerValues_of_illegal (hl : (s.profile k).legal = false) :
    s.trailerValues k = .error (.raise .configError 0xFF) :=
  State.trailerValues_eq_error.2 (.inl (State.trailerChecks_eq_error.2 (.inl ⟨hl, rfl⟩)))

theorem State.trailerValues_of_outside (hl : (s.profile k).legal = true)
    (hT : s.params.bufSize < s.frameLen.toNat
      ∨ s.frameLen.toNat < (s.slot k).kcsStart.toNat + (s.profile k).csw) :
    s.trailerValues k = .error (.raise .operandError 0) :=
  State.trailerValues_eq_error.2 (.inl (State.trailerChecks_eq_error.2 (.inr ⟨hl, hT, rfl⟩)))

variable (hl : (s.profile k).legal = true) (hT : s.frameLen.toNat ≤ s.params.bufSize)
  (ha : (s.slot k).kcsStart.toNat + (s.profile k).csw ≤ s.frameLen.toNat)
include hl hT ha

theorem State.trailerValues_of_written {bs tr : List Byte}
    (hbs : (s.slot k).kcsStart.toNat + bs.length + (s.profile k).csw = s.frameLen.toNat)
    (htr : tr.length = (s.profile k).csw) (hb : s.holdsBytes (s.slot k).kcsStart.toNat (bs ++ tr)) :
    s.trailerValues k = .ok ((s.profile k).csum bs, bytesToNat (s.profile k).csOrd tr) := by
  obtain ⟨hbytes, htrailer⟩ := State.holdsBytes_append hb
  have trailer_at : s.frameLen.toNat - (s.profile k).csw = (s.slot k).kcsStart.toNat + bs.length := by omega
  refine State.trailerValues_eq_ok.2 ⟨State.trailerChecks_eq_ok.2 ⟨hl, hT, ha⟩, ?_, ?_⟩
  · exact State.csumOf_eq_ok.2 ⟨by omega, bs, by omega, hbytes, rfl⟩
  · rw [State.frameTrailer, trailer_at]
    exact State.readUInt_eq_ok.2 ⟨by omega, tr, htr, htrailer, rfl⟩

/-- An unwritten byte stands in the checksum's range or in the trailer; in the second case the range may be written or
not, and both stop at the same fault. -/
theorem State.trailerValues_of_unwritten
    (hu : ∃ j, (s.slot k).kcsStart.toNat ≤ j ∧ j < s.frameLen.toNat ∧ Memory.read s.buf j = none) :
    s.trailerValues k = .error (.fault .unwrittenBuffer) := by
  obtain ⟨j, haj, hjT, hj⟩ := hu
  refine State.trailerValues_eq_error.2 (.inr ⟨State.trailerChecks_eq_ok.2 ⟨hl, hT, ha⟩, ?_⟩)
  rcases lt_or_ge j (s.frameLen.toNat - (s.profile k).csw) with hrange | htrailer
  · refine .inl (State.csumOf_eq_error.2 (State.memRead_of_unwritten (by omega) ?_))
    exact ⟨j - (s.slot k).kcsStart.toNat, by omega, by rwa [Nat.add_sub_cancel' haj]⟩
  · cases hx : s.frameCsum k s.frameLen.toNat with
    | error e => rw [State.memRead_error_within (by omega) (State.csumOf_eq_error.1 hx)]; exact .inl rfl
    | ok x =>
      refine .inr ⟨⟨x, rfl⟩, State.readUInt_eq_error.2 (State.memRead_of_unwritten (by omega) ?_)⟩
      exact ⟨j - (s.frameLen.toNat - (s.profile k).csw), by omega, by rwa [Nat.add_sub_cancel' htrailer]⟩

end Trailer

end Sys2Proof.Machine
end

section
/-! The statements about checksums (41_checksum.md R180 to R191). -/

namespace Sys2Proof.Machine

/-- Settles O14: each field is a run of bits or one bit of its register; EN is bit 0 of KCFG, and no field of the profile
begins there. -/
theorem profileReadsTheSlotRegisters : Obligations.ProfileReadsTheSlotRegisters := by
  refine ⟨fun s => ⟨?_, toNat_extractLsb'_eq _ 16 2, ?_, ofBit_getLsbD_eq_big _ 18⟩, fun q => ⟨?_, ?_, ?_, ?_⟩⟩
  · rw [State.hdrLen, toNat_extractLsb'_eq, pow_zero, Nat.div_one]
  · exact widthBytes_extractLsb' _ 16
  · have bit0 := getLsbD_iff_div_mod q.kcfg 0
    rw [pow_zero, Nat.div_one] at bit0
    exact ⟨bit0, getLsbD_iff_div_mod _ 1, widthBytes_extractLsb' _ 2, ofBit_getLsbD_eq_big _ 4⟩
  · obtain ⟨hsum, hxor, hcrc⟩ := Alg.ofBits_iff (q.kcfg.extractLsb' 9 2)
    obtain ⟨hnone, hones, htwos⟩ := SumFin.ofBits_iff (q.kcfg.extractLsb' 13 2)
    rw [toNat_extractLsb'_eq] at hsum hxor hcrc hnone hones htwos
    exact ⟨widthBytes_extractLsb' _ 6, rfl, ofBit_getLsbD_eq_big _ 8, hsum, hxor, hcrc, getLsbD_iff_div_mod _ 11,
      getLsbD_iff_div_mod _ 12, hnone, hones, htwos, rfl, rfl, rfl⟩
  · refine KindSlot.profile_congr_kcfg fun i hi => ?_
    have one_bit : (1 : BitVec 15).getLsbD i = false := by simp [BitVec.getLsbD_one]; omega
    rw [BitVec.getLsbD_xor, one_bit, Bool.xor_false]
  · exact fun p refIn refOut fin poly bs =>
      ⟨fun h => ⟨Profile.csum_set_crcFields h _ _ _ bs, Profile.legal_set_crcFields h _ _ _⟩,
        fun h => ⟨Profile.csum_set_sumFin h _ bs, Profile.legal_set_sumFin h _⟩⟩

/-- Settles O15: the accumulator of SUM is the sum modulo 2^W, the complement of a W-bit number is its difference from
2^W - 1, and the accumulator of XOR is a fold. -/
theorem sumAndXorHaveTheirClosedForms : Obligations.SumAndXorHaveTheirClosedForms := by
  intro p bs hl
  obtain ⟨-, hinit, -, -, hfin, -⟩ := p.legal_iff.1 hl
  refine ⟨fun ha => ?_, fun ha => ?_⟩
  · rw [Profile.csum_of_sum ha, sumCsum, sumAcc_eq_mod bs hinit]
    congr 1
    cases hf : p.sumFin with
    | none => rfl
    | ones => exact xor_two_pow_sub_one (Nat.mod_lt _ (by positivity))
    | twos => rfl
    | illegal => exact absurd hf (hfin ha)
  · rw [Profile.csum_of_xor ha, xorCsum, xorAcc_eq_foldr]

/-- Settles O17: W is at most 64, so a number below 2^W fits CSUM and CSRX. -/
theorem checksumFitsItsWidth : Obligations.ChecksumFitsItsWidth :=
  fun _ bs hl => ⟨Profile.csum_lt bs hl, fun _ => ⟨toNat_ofNat_csum bs hl, toNat_ofNat_csum bs hl⟩⟩

/-- Settles O19, by the two inductions of `reflect_eq_sum` and `testBit_reflect`. -/
theorem reflectReversesTheLowBits : Obligations.ReflectReversesTheLowBits :=
  ⟨fun n v _ => ⟨reflect_eq_sum n v, testBit_reflect n v⟩, by decide, by decide⟩

/-- Settles O21: the four ways the checksum of the range can come out, each with the completion that follows. -/
theorem csumComputeMeaning : Obligations.CsumComputeMeaning := by
  intro k s
  refine ⟨fun hl => ?_, fun hl hr => ?_, fun hl hr => ⟨fun bs hn hb => ?_, fun hu => ?_⟩, by cases k <;> rfl⟩
  · exact execCsumCompute_eq_next.2 (.inl ⟨_, _, State.rangeCsum_of_illegal hl, rfl⟩)
  · exact execCsumCompute_eq_next.2 (.inl ⟨_, _, State.rangeCsum_of_outside hl hr, rfl⟩)
  · exact execCsumCompute_eq_next.2 (.inr ⟨_, State.rangeCsum_of_written hl hr hn hb, rfl⟩)
  · exact execCsumCompute_eq_fault.2 (State.rangeCsum_of_unwritten hl hr hu)

/-- Settles O22: as O21; MATCH compares 64-bit words, which is comparing numbers because the checksum fits. -/
theorem csumVerifyMeaning : Obligations.CsumVerifyMeaning := by
  intro k s
  refine ⟨fun hl => ?_, fun hl hr => ?_, fun hl hr => ⟨fun bs hn hb => ?_, fun hu => ?_⟩, by cases k <;> rfl⟩
  · exact execCsumVerify_eq_next.2 (.inl ⟨_, _, State.rangeCsum_of_illegal hl, rfl⟩)
  · exact execCsumVerify_eq_next.2 (.inl ⟨_, _, State.rangeCsum_of_outside hl hr, rfl⟩)
  · have match_iff : BitVec.ofNat 64 ((s.profile k).csum bs) = s.exp ↔ (s.profile k).csum bs = s.exp.toNat := by
      rw [← BitVec.toNat_inj, State.profile, toNat_ofNat_csum bs hl]
    refine execCsumVerify_eq_next.2 (.inr ⟨_, State.rangeCsum_of_written hl hr hn hb, ?_⟩)
    rw [decide_eq_decide.2 match_iff]
    rfl
  · exact execCsumVerify_eq_fault.2 (State.rangeCsum_of_unwritten hl hr hu)

/-- Settles O23: the four ways the two values of the frame can come out, each with the completion that follows. -/
theorem trailerVerifyMeaning : Obligations.TrailerVerifyMeaning := by
  intro k s
  refine ⟨fun hl => ?_, fun hl hT => ?_, fun hl hT ha => ⟨fun bs tr hbs htr hb => ?_, fun hu => ?_⟩,
    by cases k <;> rfl⟩
  · exact execTrailerVerify_eq_next.2 (.inl ⟨_, _, State.trailerValues_of_illegal hl, rfl⟩)
  · exact execTrailerVerify_eq_next.2 (.inl ⟨_, _, State.trailerValues_of_outside hl hT, rfl⟩)
  · exact execTrailerVerify_eq_next.2 (.inr ⟨_, _, State.trailerValues_of_written hl hT ha hbs htr hb, rfl⟩)
  · exact execTrailerVerify_eq_fault.2 (State.trailerValues_of_unwritten hl hT ha hu)

end Sys2Proof.Machine
end

section
/-! SUPPORT. Numbers in the frame buffer: a number and its bytes in either order, and the buffer after a number has been
written (42_field.md R223, R224). -/

namespace Sys2Proof.Machine

/-! ## The bytes of a number -/

theorem leToNat_eq_sum (bs : List Byte) :
    leToNat bs = ∑ j ∈ Finset.range bs.length, (bs.getD j 0).toNat * 2 ^ (8 * j) := by
  induction bs with
  | nil => rfl
  | cons b bs ih =>
    have term (j : Nat) : ((b :: bs).getD (j + 1) 0).toNat * 2 ^ (8 * (j + 1))
        = 2 ^ 8 * ((bs.getD j 0).toNat * 2 ^ (8 * j)) := by
      rw [List.getD_cons_succ, Nat.mul_succ, pow_add]; ring
    rw [leToNat, ih, List.length_cons, Finset.sum_range_succ', Finset.sum_congr rfl fun j _ => term j, Finset.mul_sum,
      add_comm]
    simp

/-- In reverse order the byte at index j weighs as its mirror image does. -/
theorem leToNat_reverse_eq_sum (bs : List Byte) :
    leToNat bs.reverse = ∑ j ∈ Finset.range bs.length, (bs.getD j 0).toNat * 2 ^ (8 * (bs.length - 1 - j)) := by
  rw [leToNat_eq_sum, List.length_reverse, ← Finset.sum_range_reflect]
  refine Finset.sum_congr rfl fun j hj => ?_
  have hj := Finset.mem_range.1 hj
  rw [List.getD_reverse _ (by omega), show bs.length - 1 - (bs.length - 1 - j) = j by omega]

/-- Byte j of a number, the least significant being byte 0, by its place in rising addresses. -/
theorem natToBytes_getElem? {ord : ByteOrder} {w j : Nat} (u : Nat) (h : j < w) :
    (natToBytes ord w u)[if ord = .little then j else w - 1 - j]? = some (BitVec.ofNat 8 (u / 2 ^ (8 * j))) := by
  cases ord with
  | little => exact natToLe_getElem u h
  | big =>
    rw [if_neg (by decide), natToBytes, List.getElem?_reverse (by rw [natToLe_length]; omega), natToLe_length,
      show w - 1 - (w - 1 - j) = j by omega, natToLe_getElem u h]

/-! ## A number read and written -/

theorem State.readUInt_of_holdsBytes {s : State} {a w : Nat} {bs : List Byte} (ord : ByteOrder)
    (hn : a + w ≤ s.params.bufSize) (hlen : bs.length = w) (hb : s.holdsBytes a bs) :
    s.readUInt a w ord = .ok (bytesToNat ord bs) :=
  State.readUInt_eq_ok.2 ⟨hn, bs, hlen, hb, rfl⟩

theorem State.holdsBytes_of_writeSeq {t : State} {m : List Host.Cell} {a : Nat} {bs : List Byte}
    (h : t.buf = Memory.writeSeq 1 m a bs) : t.holdsBytes a bs := by
  rw [State.holdsBytes_iff_readSeq, h]
  exact Memory.readSeq_writeSeq Nat.one_pos

theorem Memory.read_writeSeq_outside {α : Type} (m : Memory α) {a c : Nat} {vs : List α}
    (h : c < a ∨ a + vs.length ≤ c) : Memory.read (Memory.writeSeq 1 m a vs) c = Memory.read m c :=
  Memory.read_writeSeq_other fun j hj => by omega

/-- All that WriteUInt does: the bytes of the number, and no other change. -/
theorem State.writeUInt_effect {s t : State} {a w u : Nat} {ord : ByteOrder} (h : s.writeUInt a w ord u = .ok t) :
    t.holdsBytes a (natToBytes ord w u) ∧ t = { s with buf := t.buf }
      ∧ ∀ c, c < a ∨ a + w ≤ c → Memory.read t.buf c = Memory.read s.buf c := by
  obtain ⟨-, rfl⟩ := State.writeUInt_eq_ok.1 h
  exact ⟨State.holdsBytes_of_writeSeq rfl, rfl,
    fun c hc => Memory.read_writeSeq_outside _ (by rwa [natToBytes_length])⟩

end Sys2Proof.Machine
end

section
/-! SUPPORT. The words of a result entry, read and written, and the rounding of inverse scaling (42_field.md R229 to
R231). -/

namespace Sys2Proof.Machine

/-! ## Words written -/

theorem Memory.writeSeq_append {α : Type} (m : Memory α) (stride a : Nat) (vs ws : List α) :
    Memory.writeSeq stride (Memory.writeSeq stride m a vs) (a + stride * vs.length) ws
      = Memory.writeSeq stride m a (vs ++ ws) := by
  induction vs generalizing m a with
  | nil => rfl
  | cons v vs ih =>
    rw [List.cons_append, Memory.writeSeq_cons, Memory.writeSeq_cons, ← ih, List.length_cons, Nat.mul_succ]
    congr 1; omega

theorem State.setResWords_append (s : State) (i j : Nat) (vs ws : List Word32) :
    (s.setResWords i j vs).setResWords i (j + vs.length) ws = s.setResWords i j (vs ++ ws) := by
  have place : resAddr i (j + vs.length) = resAddr i j + 4 * vs.length := by simp only [resAddr]; omega
  simp only [State.setResWords, place, Memory.writeSeq_append]

theorem State.holdsResWords_setResWords (s : State) (i j : Nat) (ws : List Word32) :
    (s.setResWords i j ws).holdsResWords i j ws := by
  have hread : (s.setResWords i j ws).resWords i j ws.length = .ok ws := by
    rw [State.resWords, State.setResWords_res, Memory.readSeq_writeSeq (by decide)]
  exact (State.resWords_eq_ok.1 hread).2

theorem State.read_setResWords_other {s : State} {i j a : Nat} {ws : List Word32}
    (h : ∀ n < ws.length, a ≠ resAddr i (j + n)) : Memory.read (s.setResWords i j ws).res a = Memory.read s.res a := by
  rw [State.read_setResWords, if_neg fun ⟨n, hn, ha⟩ => h n hn ha]

theorem natToWords_two (p : Nat) : natToWords 2 p = [BitVec.ofNat 32 p, BitVec.ofNat 32 (p / 2 ^ 32)] := rfl

theorem natToWords_four (p : Nat) :
    natToWords 4 p = [BitVec.ofNat 32 p, BitVec.ofNat 32 (p / 2 ^ 32), BitVec.ofNat 32 (p / 2 ^ 64),
      BitVec.ofNat 32 (p / 2 ^ 96)] := by
  simp only [natToWords, Nat.div_div_eq_div_mul, ← pow_add]

/-- RAW, VNUM and VDEN stand next to each other, so StoreValue is one write of seven words. -/
theorem State.storeValue_eq_setResWords (s : State) (i : Nat) (r : Int) (d : Desc) :
    s.storeValue i r d = s.setResWords i 0
      (natToWords 2 (pattern 64 r) ++ (natToWords 4 (pattern 128 (r * d.snum)) ++ [BitVec.ofNat 32 d.sden])) := by
  rw [← State.setResWords_append, ← State.setResWords_append]
  rfl

theorem State.holdsEntry_storeValue (s : State) (i : Nat) (r : Int) (d : Desc) :
    (s.storeValue i r d).holdsEntry i d r := by
  have words := State.holdsResWords_setResWords s i 0
    (natToWords 2 (pattern 64 r) ++ (natToWords 4 (pattern 128 (r * d.snum)) ++ [BitVec.ofNat 32 d.sden]))
  rw [← State.storeValue_eq_setResWords, natToWords_two, natToWords_four] at words
  exact ⟨_, _, _, _, _, _, _, words, (append_two _).trans (ofNat_pattern _ _), (append_four _).trans (ofNat_pattern _ _),
    rfl⟩

/-! ## Words read -/

theorem State.holdsResWords_append {s : State} {i j : Nat} {vs ws : List Word32}
    (h : s.holdsResWords i j (vs ++ ws)) : s.holdsResWords i j vs ∧ s.holdsResWords i (j + vs.length) ws := by
  constructor
  · intro n hn
    rw [h n (by simp; omega), List.getElem_append_left hn]
  · intro n hn
    rw [Nat.add_assoc, h (vs.length + n) (by simp; omega), List.getElem_append_right (by omega)]
    simp

theorem State.resWords_of_unwritten {s : State} {i j n : Nat}
    (h : ∃ m < n, Memory.read s.res (resAddr i (j + m)) = none) : s.resWords i j n = .error (.fault .unwrittenResult) := by
  cases hr : s.resWords i j n with
  | error e => rw [State.resWords_eq_error hr]
  | ok ws =>
    obtain ⟨m, hm, hnone⟩ := h
    obtain ⟨rfl, hws⟩ := State.resWords_eq_ok.1 hr
    rw [hws m hm] at hnone
    cases hnone

/-! ## Inverse scaling -/

theorem State.invScale_of_holdsResWords {s : State} {i : Nat} {d : Desc} {n0 n1 n2 n3 v : Word32}
    (h : s.holdsResWords i 2 [n0, n1, n2, n3, v]) :
    s.invScale i d =
      if v.toNat = 0 then .error (.raise .operandError (BitVec.ofNat 8 i))
      else .ok (roundHalfAway ((n3 ++ n2 ++ n1 ++ n0).toInt * d.sden) (v.toNat * d.snum)) := by
  obtain ⟨hnum, hden⟩ := State.holdsResWords_append (vs := [n0, n1, n2, n3]) (ws := [v]) h
  have vnum : s.resWords i 2 4 = .ok [n0, n1, n2, n3] := State.resWords_eq_ok.2 ⟨rfl, hnum⟩
  have vden : s.resWords i 6 1 = .ok [v] := State.resWords_eq_ok.2 ⟨rfl, hden⟩
  simp only [State.invScale, vnum, vden, wordsToNat_one, wordsToNat_four, sint_toNat (by decide : 0 < 128)]

theorem State.invScale_of_unwritten {s : State} {i : Nat} (d : Desc)
    (h : ∃ j, 2 ≤ j ∧ j < 7 ∧ Memory.read s.res (resAddr i j) = none) :
    s.invScale i d = .error (.fault .unwrittenResult) := by
  obtain ⟨j, hj2, hj7, hj⟩ := h
  rcases Nat.lt_or_ge j 6 with hnum | hden
  · have vnum : s.resWords i 2 4 = .error (.fault .unwrittenResult) :=
      State.resWords_of_unwritten ⟨j - 2, by omega, by rwa [Nat.add_sub_cancel' hj2]⟩
    rw [State.invScale, vnum]
  · have vden : s.resWords i 6 1 = .error (.fault .unwrittenResult) :=
      State.resWords_of_unwritten ⟨j - 6, by omega, by rwa [Nat.add_sub_cancel' hden]⟩
    rw [State.invScale, vden]
    cases hr : s.resWords i 2 4 with
    | error e => rw [State.resWords_eq_error hr]
    | ok ns => rfl

/-! ## Rounding -/

/-- The rounded quotient times the divisor has the sign of the dividend. -/
theorem roundHalfAway_mul (n m : Int) :
    roundHalfAway n m * m
      = n.sign * (((2 * n.natAbs + m.natAbs) / (2 * m.natAbs) * m.natAbs : Nat) : Int) := by
  rw [roundHalfAway, Nat.cast_mul, ← Int.sign_mul_self_eq_natAbs m]
  ring

/-- The multiple of M that a division rounding halves up picks for N. -/
theorem mul_div_halfUp_bounds (N : Nat) {M : Nat} (hM : 0 < M) :
    2 * N < 2 * ((2 * N + M) / (2 * M) * M) + M ∧ 2 * ((2 * N + M) / (2 * M) * M) ≤ 2 * N + M := by
  have hdiv := Nat.div_add_mod (2 * N + M) (2 * M)
  have hmod := Nat.mod_lt (2 * N + M) (show 0 < 2 * M by omega)
  rw [mul_assoc, mul_comm M] at hdiv
  omega

/-- Both clauses speak of distances from 0 alone: the multiple lies on the dividend's side. -/
theorem roundHalfAway_nearest (n : Int) {m : Int} (hm : m ≠ 0) :
    2 * |n - roundHalfAway n m * m| ≤ |m|
      ∧ (2 * |n - roundHalfAway n m * m| = |m| → |n| < |roundHalfAway n m * m|) := by
  obtain ⟨hlo, hhi⟩ := mul_div_halfUp_bounds n.natAbs (Int.natAbs_pos.2 hm)
  rw [roundHalfAway_mul]
  generalize (2 * n.natAbs + m.natAbs) / (2 * m.natAbs) * m.natAbs = p at hlo hhi
  simp only [Int.abs_eq_natAbs]
  rcases lt_trichotomy n 0 with hn | rfl | hn
  · rw [Int.sign_eq_neg_one_of_neg hn]; omega
  · rw [Int.sign_zero]; omega
  · rw [Int.sign_eq_one_of_pos hn]; omega

end Sys2Proof.Machine
end

section
/-! SUPPORT. How the field commands end, by what each of their parts answers (42_field.md R233, R234). -/

namespace Sys2Proof.Machine

section Checks
variable {s : State} {k : Kind} {idx : BitVec 8}

theorem State.fieldChecks_of_invalid (hv : s.isValid k = false) :
    s.fieldChecks k idx = .error (.raise .configError 0xFF) :=
  State.fieldChecks_eq_error.2 (.inl ⟨hv, rfl⟩)

variable (hv : s.isValid k = true)
include hv

theorem State.fieldChecks_of_kndesc_le (hi : (s.slot k).kndesc.toNat ≤ idx.toNat) :
    s.fieldChecks k idx = .error (.raise .operandError idx) :=
  State.fieldChecks_eq_error.2 (.inr (.inl ⟨hv, hi, rfl⟩))

theorem State.fieldChecks_of_outside {d : Desc} (hi : idx.toNat < (s.slot k).kndesc.toNat)
    (hd : s.readDesc k idx.toNat = .ok d)
    (ho : s.params.bufSize < s.frameLen.toNat ∨ s.frameLen.toNat < s.hdrLen + d.offset + d.w) :
    s.fieldChecks k idx = .error (.raise .operandError idx) :=
  State.fieldChecks_eq_error.2 (.inr (.inr (.inr ⟨hv, hi, ⟨d, hd, ho⟩, rfl⟩)))

end Checks

theorem Desc.inRange_eq_false_iff {d : Desc} {r : Int} : d.inRange r = false ↔ ¬(d.vlo ≤ r ∧ r ≤ d.vhi) := by
  rw [← Desc.inRange_iff, Bool.not_eq_true]

section Extract
variable {s : State} {k : Kind} {idx : BitVec 8}

theorem execFieldExtract_of_error {e : Stop} (h : s.fieldExtracted k idx = .error e) :
    execFieldExtract k idx s = s.stop k.code e := by
  rw [execFieldExtract, h]

theorem execFieldExtract_of_checks {c : ResultCode} {x : BitVec 8} (h : s.fieldChecks k idx = .error (.raise c x)) :
    execFieldExtract k idx s = .next (s.raise c x k.code) :=
  execFieldExtract_of_error (State.fieldExtracted_eq_error.2 (.inl h))

variable {d : Desc} (hc : s.fieldChecks k idx = .ok d)
include hc

theorem execFieldExtract_of_readRaw {r : Int} (hr : s.readRaw (s.fieldPos d) d = .ok r) :
    execFieldExtract k idx s =
      if d.vlo ≤ r ∧ r ≤ d.vhi then .next ((s.storeValue idx.toNat r d).finish idx k.code false false)
      else .next (s.raise .fieldOutOfRange idx k.code) := by
  split
  · next hin =>
    exact execFieldExtract_eq_next.2
      (.inr ⟨d, r, State.fieldExtracted_eq_ok.2 ⟨hc, hr, Desc.inRange_iff.2 hin⟩, rfl⟩)
  · next hout =>
    exact execFieldExtract_of_error
      (State.fieldExtracted_eq_error.2 (.inr ⟨d, hc, .inr ⟨r, hr, Desc.inRange_eq_false_iff.2 hout, rfl⟩⟩))

theorem execFieldExtract_of_readRaw_error {e : Stop} (he : s.readRaw (s.fieldPos d) d = .error e) :
    execFieldExtract k idx s = s.stop k.code e :=
  execFieldExtract_of_error (State.fieldExtracted_eq_error.2 (.inr ⟨d, hc, .inl he⟩))

end Extract

section Insert
variable {s : State} {k : Kind} {idx : BitVec 8}

theorem execFieldInsert_of_error {e : Stop} (h : s.fieldInserted k idx = .error e) :
    execFieldInsert k idx s = s.stop k.code e := by
  rw [execFieldInsert, h]

theorem execFieldInsert_of_checks {c : ResultCode} {x : BitVec 8} (h : s.fieldChecks k idx = .error (.raise c x)) :
    execFieldInsert k idx s = .next (s.raise c x k.code) :=
  execFieldInsert_of_error (State.fieldInserted_eq_error.2 (.inl h))

variable {d : Desc} (hc : s.fieldChecks k idx = .ok d)
include hc

theorem execFieldInsert_of_invScale_error {e : Stop} (he : s.invScale idx.toNat d = .error e) :
    execFieldInsert k idx s = s.stop k.code e :=
  execFieldInsert_of_error (State.fieldInserted_eq_error.2 (.inr ⟨d, hc, .inl (State.encodeRaw_eq_error.2 (.inl he))⟩))

variable {r : Int} (hr : s.invScale idx.toNat d = .ok r)
include hr

theorem execFieldInsert_of_out_of_range (hout : ¬(d.vlo ≤ r ∧ r ≤ d.vhi)) :
    execFieldInsert k idx s = .next (s.raise .fieldOutOfRange idx k.code) := by
  have he : s.encodeRaw idx.toNat d = .error (.raise .fieldOutOfRange (BitVec.ofNat 8 idx.toNat)) :=
    State.encodeRaw_eq_error.2 (.inr ⟨r, hr, Desc.inRange_eq_false_iff.2 hout, rfl⟩)
  rw [BitVec.ofNat_toNat, BitVec.setWidth_eq] at he
  exact execFieldInsert_of_error (State.fieldInserted_eq_error.2 (.inr ⟨d, hc, .inl he⟩))

theorem execFieldInsert_of_in_range (hin : d.vlo ≤ r ∧ r ≤ d.vhi) (hb : s.fieldPos d + d.w ≤ s.params.bufSize) :
    execFieldInsert k idx s = .next
      (({ s with buf := Memory.writeSeq 1 s.buf (s.fieldPos d) (natToBytes d.ord d.w (d.pattern r)) }.storeRaw
        idx.toNat r).finish idx k.code false false) :=
  execFieldInsert_eq_next.2 (.inr ⟨_, State.fieldInserted_eq_ok.2
    ⟨d, r, hc, State.encodeRaw_eq_ok.2 ⟨hr, Desc.inRange_iff.2 hin⟩, State.putField_eq_ok.2 ⟨hb, rfl⟩⟩, rfl⟩)

end Insert

end Sys2Proof.Machine
end

section
/-! The statements about fields (42_field.md R223 to R234). -/

namespace Sys2Proof.Machine

/-- Settles O26: the number of a byte list is a sum, and big-endian reading reverses the list. -/
theorem readUIntIsTheSumOfItsBytes : Obligations.ReadUIntIsTheSumOfItsBytes := by
  intro s a bs hn hb
  refine ⟨?_, ?_, fun ord u hu => State.readUInt_lt hu⟩
  · rw [State.readUInt_of_holdsBytes .little hn rfl hb, bytesToNat, leToNat_eq_sum]
  · rw [State.readUInt_of_holdsBytes .big hn rfl hb, bytesToNat, leToNat_reverse_eq_sum]

/-- Settles O27: what is written is the list of the number's bytes, and reading decodes that list. -/
theorem writeUIntIsInverseToReadUInt : Obligations.WriteUIntIsInverseToReadUInt := by
  intro s a w u ord hu hn
  obtain ⟨t, ht⟩ : ∃ t, s.writeUInt a w ord u = .ok t := ⟨_, State.writeUInt_eq_ok.2 ⟨hn, rfl⟩⟩
  obtain ⟨hb, hframe, hother⟩ := State.writeUInt_effect ht
  have hlen := natToBytes_length ord w u
  refine ⟨t, ht, ?_, hframe, hother, fun j hj => ?_⟩
  · have inside : a + w ≤ t.params.bufSize := by rw [hframe]; exact hn
    have hread := State.readUInt_of_holdsBytes ord inside hlen hb
    rwa [bytesToNat_natToBytes, Nat.mod_eq_of_lt hu] at hread
  · have place : (if ord = .little then a + j else a + w - 1 - j) = a + if ord = .little then j else w - 1 - j := by
      split <;> omega
    have inside : (if ord = .little then j else w - 1 - j) < (natToBytes ord w u).length := by
      rw [hlen]; split <;> omega
    rw [place, hb _ inside, ← List.getElem?_eq_getElem inside, natToBytes_getElem? u hj]

/-- Settles O30: StoreValue is one write of the seven words of its entry. -/
theorem storeValueWritesOneEntry : Obligations.StoreValueWritesOneEntry := by
  intro s i r d
  refine ⟨State.holdsEntry_storeValue s i r d, rfl, fun a ha => ?_⟩
  rw [State.storeValue_eq_setResWords]
  refine State.read_setResWords_other fun n hn => ?_
  rw [Nat.zero_add]
  exact ha n (by simpa using hn)

/-- Settles O31: the words of VNUM and VDEN decide how InvScale ends, and the rounded quotient is the half-up quotient of
the absolute values with the dividend's sign. -/
theorem inverseScalingRoundsHalfAwayFromZero : Obligations.InverseScalingRoundsHalfAwayFromZero :=
  ⟨fun _ _ _ _ _ _ _ _ h => State.invScale_of_holdsResWords h, fun _ _ d h => State.invScale_of_unwritten d h,
    fun n _ hm => roundHalfAway_nearest n hm⟩

/-- Settles O33: the checks in their order, then the reading of the field's bytes, each with the completion that follows. -/
theorem fieldExtractMeaning : Obligations.FieldExtractMeaning := by
  intro k idx s
  refine ⟨fun hv => ?_, fun hv => ⟨fun hi => ?_, fun d hi hd => ⟨fun ho => ?_, fun hT hp => ?_⟩⟩, ?_⟩
  · exact execFieldExtract_of_checks (State.fieldChecks_of_invalid hv)
  · exact execFieldExtract_of_checks (State.fieldChecks_of_kndesc_le hv hi)
  · exact execFieldExtract_of_checks (State.fieldChecks_of_outside hv hi hd ho)
  · have hc : s.fieldChecks k idx = .ok d := State.fieldChecks_eq_ok.2 ⟨hv, hi, hd, hT, hp⟩
    have inside : s.fieldPos d + d.w ≤ s.params.bufSize := hp.trans hT
    refine ⟨fun bs hlen hb => ?_, fun hu => ?_⟩
    · have hread := State.readUInt_of_holdsBytes d.ord inside hlen hb
      exact execFieldExtract_of_readRaw hc (State.readRaw_eq_ok.2 ⟨_, hread, rfl⟩)
    · exact execFieldExtract_of_readRaw_error hc (State.readRaw_eq_error.2 (State.memRead_of_unwritten inside hu))
  · rw [encode, commandWord_toNat, Kind.code_toNat]
    rfl

/-- Settles O34: the checks in their order, then inverse scaling, then the write of the field's bytes and of the two words
of RAW. -/
theorem fieldInsertMeaning : Obligations.FieldInsertMeaning := by
  intro k idx s
  refine ⟨fun hv => ?_, fun hv => ⟨fun hi => ?_, fun d hi hd => ⟨fun ho => ?_, fun hT hp => ?_⟩⟩, ?_⟩
  · exact execFieldInsert_of_checks (State.fieldChecks_of_invalid hv)
  · exact execFieldInsert_of_checks (State.fieldChecks_of_kndesc_le hv hi)
  · exact execFieldInsert_of_checks (State.fieldChecks_of_outside hv hi hd ho)
  · have hc : s.fieldChecks k idx = .ok d := State.fieldChecks_eq_ok.2 ⟨hv, hi, hd, hT, hp⟩
    refine ⟨fun hu => ?_, fun he => ?_, fun r hr => ⟨fun hout => ?_, fun hlo hhi => ?_⟩⟩
    · exact execFieldInsert_of_invScale_error hc (State.invScale_of_unwritten d hu)
    · exact execFieldInsert_of_invScale_error hc he
    · exact execFieldInsert_of_out_of_range hc hr hout
    · refine ⟨_, execFieldInsert_of_in_range hc hr ⟨hlo, hhi⟩ (hp.trans hT), rfl, ?_, fun c hcell => ?_, ?_, ?_⟩
      · exact State.holdsBytes_of_writeSeq rfl
      · exact Memory.read_writeSeq_outside s.buf (by rwa [natToBytes_length])
      · exact State.holdsResWords_setResWords _ _ _ _
      · intro a h0 h1
        refine State.read_setResWords_other fun n hn => ?_
        have two_words : n = 0 ∨ n = 1 := by rw [natToWords_length] at hn; omega
        rcases two_words with rfl | rfl
        · exact h0
        · exact h1
  · rw [encode, commandWord_toNat, Kind.code_toNat]
    rfl

end Sys2Proof.Machine
end

section
/-! SUPPORT. Schema validation as conditions: when a condition of the kind-level check holds, what `DescFail` answers for
the descriptors read, and how SCHEMA.CHECK ends by what the two answer (43_frame.md R263 to R265). -/

namespace Sys2Proof.Machine

/-! ## The kind-level checks -/

theorem State.noClash_iff {s : State} {k j : Kind} :
    s.noClash k j = true ↔ ¬(j ≠ k ∧ (s.slot j).en = true ∧ (s.slot j).kdisc = (s.slot k).kdisc) := by
  by_cases hj : j = k
  · simp [State.noClash, hj]
  · cases hen : (s.slot j).en <;> simp [State.noClash, hj, hen]

theorem Kind.all_all_noClash {s : State} {k : Kind} :
    Kind.all.all (s.noClash k) = true ↔ ¬∃ j, j ≠ k ∧ (s.slot j).en = true ∧ (s.slot j).kdisc = (s.slot k).kdisc := by
  rw [Kind.all_all, not_exists]
  exact forall_congr' fun _ => State.noClash_iff

theorem KindSlot.lenField_disjoint_iff {q : KindSlot} {a : Nat} {c : BitVec 2} :
    disjointRanges q.klenOff.toNat q.lenBytes a (widthBytes c) = true
      ↔ noCommonByte q.klenOff.toNat q.lenBytes a (widthBytes c) :=
  disjointRanges_iff (widthBytes_pos _) (widthBytes_pos _)

/-! ## The descriptor-level checks -/

section DescFailFrom
variable {m : Nat} {ds : List Desc} (hw : ∀ d ∈ ds, 0 < d.w)
include hw

theorem descFailFrom_eq_none_iff : descFailFrom m [] 0 ds = none ↔ ∀ i < ds.length, descPasses m ds i := by
  have spec := descFailFrom_spec m [] ds hw
  rw [List.length_nil, List.nil_append] at spec
  cases hf : descFailFrom m [] 0 ds with
  | none =>
    rw [hf] at spec
    exact ⟨fun _ i hi => spec i (Nat.zero_le i) hi, fun _ => rfl⟩
  | some i =>
    rw [hf] at spec
    obtain ⟨-, hi, hfails, -⟩ := spec
    exact ⟨fun h => (nomatch h), fun hall => absurd (hall i hi) hfails⟩

theorem descFailFrom_eq_some_iff {i : Nat} :
    descFailFrom m [] 0 ds = some i
      ↔ i < ds.length ∧ ¬descPasses m ds i ∧ ∀ j < i, descPasses m ds j := by
  have spec := descFailFrom_spec m [] ds hw
  rw [List.length_nil, List.nil_append] at spec
  cases hf : descFailFrom m [] 0 ds with
  | none =>
    rw [hf] at spec
    exact ⟨fun h => (nomatch h), fun ⟨hi, hfails, _⟩ => absurd (spec i (Nat.zero_le i) hi) hfails⟩
  | some n =>
    rw [hf] at spec
    obtain ⟨-, hn, hfails, hbelow⟩ := spec
    constructor
    · rintro ⟨⟩
      exact ⟨hn, hfails, fun j hj => hbelow j (Nat.zero_le j) hj⟩
    · rintro ⟨-, hfails', hbelow'⟩
      rcases lt_trichotomy i n with hlt | rfl | hgt
      · exact absurd (hbelow i (Nat.zero_le i) hlt) hfails'
      · rfl
      · exact absurd (hbelow' n hgt) hfails

end DescFailFrom

section DescFail
variable {s : State} {k : Kind}

theorem State.descFail_of_readDescs {ds : List Desc} (h : s.readDescs k (s.descIndexes k) = .ok ds) :
    s.descFail k = .ok (descFailFrom (s.slot k).kpayMin.toNat [] 0 ds) :=
  map_eq_ok.2 ⟨ds, h, rfl⟩

theorem State.descFail_of_unwritten
    (h : ∃ i j, i < (s.slot k).kndesc.toNat ∧ j < 8 ∧ j ≠ 3 ∧ Memory.read s.desc (descAddr k i j) = none) :
    s.descFail k = .error (.fault .unwrittenDescriptor) := by
  obtain ⟨i, j, hi, hword⟩ := h
  exact map_eq_error.2 (State.readDescs_unwritten ⟨i, List.mem_range.2 hi, j, hword⟩)

theorem execSchemaCheck_of_descFail_error {e : Stop} (hk : s.kindChecksOk k = true) (hd : s.descFail k = .error e) :
    execSchemaCheck k s = s.stop k.code e := by
  rw [execSchemaCheck, if_pos hk, hd]

end DescFail

end Sys2Proof.Machine
end

section
/-! The statements about schemas (43_frame.md R263 to R265). -/

namespace Sys2Proof.Machine

/-- Settles O36: each test of the check is one condition of R263; the four tests on a length field pass for a kind without
one, and the test that the two payload bounds are equal passes for a kind with one. -/
theorem kindChecksAreTheFourteenConditions : Obligations.KindChecksAreTheFourteenConditions := by
  intro s k
  have width : s.discW ≠ 3 ↔ s.discW.toNat ≠ 3 := not_congr BitVec.toNat_inj.symm
  simp only [State.kindChecksOk, Bool.and_eq_true, Bool.or_eq_true, Bool.not_eq_true', decide_eq_true_eq,
    Kind.all_all_noClash, KindSlot.lenField_disjoint_iff, width]
  cases (s.slot k).lenMode <;> simp [State.profile, widthBytes, and_assoc]

/-- Settles O37: a descriptor read has a width, so the first index at which `descFailFrom` stops is the lowest one whose
descriptor does not pass; an unwritten word stops the reading itself. -/
theorem descFailNamesTheLowestFailingDescriptor : Obligations.DescFailNamesTheLowestFailingDescriptor := by
  intro s k
  refine ⟨fun ds hds => ?_, State.descFail_of_unwritten⟩
  have hw := State.readDescs_width hds
  rw [State.descFail_of_readDescs hds]
  simp only [Except.ok.injEq]
  exact ⟨descFailFrom_eq_none_iff hw, fun _ => descFailFrom_eq_some_iff hw⟩

/-- Settles O38: the three completions of SCHEMA.CHECK, and the fault of a `DescFail` that cannot be read. -/
theorem schemaCheckJudgesTheSchema : Obligations.SchemaCheckJudgesTheSchema := by
  intro k s
  refine ⟨fun hk => ?_, fun hk => ⟨fun hd => ?_, fun i hd => ?_, fun hu => ?_⟩,
    fun v j => s.setValid_isValid k j v, ?_⟩
  · exact execSchemaCheck_eq_next.2 (.inl ⟨hk, rfl⟩)
  · exact execSchemaCheck_eq_next.2 (.inr (.inr ⟨hk, hd, rfl⟩))
  · exact execSchemaCheck_eq_next.2 (.inr (.inl ⟨hk, i, hd, rfl⟩))
  · exact execSchemaCheck_of_descFail_error hk (State.descFail_of_unwritten hu)
  · rw [encode, commandWord_toNat, Kind.code_toNat]
    rfl

end Sys2Proof.Machine
end

section
/-! SUPPORT. The kind a decode resolves, and how a failed command ends: the state before it with ERR and STATUS written,
but for what SCHEMA.CHECK and FRAME.DECODE leave besides (43_frame.md R268; 60_exceptions.md R315). -/

namespace Sys2Proof.Machine

theorem State.decodeKindOf_of_resolvesTo {s : State} {sel : DecodeSel} {d : Nat} {k : Kind} (h : s.headerRead sel d)
    (hk : s.resolvesTo sel d k) : s.decodeKindOf sel = .ok k :=
  State.decodeKindOf_eq_ok.2 ⟨d, h, State.resolve_of_resolvesTo hk⟩

theorem execSchemaCheck_failed {k : Kind} {s t : State} (h : execSchemaCheck k s = .next t) (hf : t.err.code ≠ .ok) :
    ∃ x, t = (s.setValid k false).raise .configError x k.code := by
  rcases execSchemaCheck_eq_next.1 h with ⟨-, rfl⟩ | ⟨-, _, -, rfl⟩ | ⟨-, -, rfl⟩
  · exact ⟨_, rfl⟩
  · exact ⟨_, rfl⟩
  · exact absurd rfl hf

/-- A FRAME.DECODE fails before its checksum step, leaving no trace but the completion; or at it or after it, with the
two checksums it has read in CSUM and CSRX. -/
theorem execFrameDecode_failed {sel : DecodeSel} {s t : State} (h : execFrameDecode sel s = .next t)
    (hf : t.err.code ≠ .ok) :
    (∃ c x q, t = s.raise c x q ∧ ¬(t.err.code = .checksumMismatch ∨ t.err.code = .fieldOutOfRange))
    ∨ ∃ k p x rx c y, s.decodeKindOf sel = .ok k ∧ s.payloadIs k p
        ∧ s.frameCsum k (s.totalLength k p) = .ok x ∧ s.frameTrailer k (s.totalLength k p) = .ok rx
        ∧ t = ((s.setCsum x).setCsrx rx).raise c y k.code
        ∧ (t.err.code = .checksumMismatch ∨ t.err.code = .fieldOutOfRange) := by
  rcases execFrameDecode_cases h with ⟨c, x, hk, rfl⟩ | ⟨k, -, -, rfl⟩ | ⟨k, p, x, rx, hk, hp, hx, hend⟩
  · refine .inl ⟨c, x, sel.code, rfl, ?_⟩
    rcases raises_decodeKindOf hk with ⟨rfl, -⟩ | ⟨-, rfl | rfl | rfl⟩ <;> simp
  · exact .inl ⟨_, _, _, rfl, by simp⟩
  · obtain ⟨hpay, -⟩ := State.decodePayload_eq_ok.1 hp
    obtain ⟨hcsum, htrailer⟩ := State.decodeChecksums_eq_ok.1 hx
    refine .inr ⟨k, p, x, rx, ?_⟩
    rcases hend with ⟨-, rfl⟩ | ⟨rfl, y, -, rfl⟩ | ⟨-, rs, -, rfl⟩
    · exact ⟨_, _, hk, hpay, hcsum, htrailer, rfl, .inl rfl⟩
    · exact ⟨_, _, hk, hpay, hcsum, htrailer, rfl, .inr rfl⟩
    · exact absurd rfl hf

/-- A command that raises or else completes with OK leaves, when it fails, what the raise leaves. -/
theorem eq_raise_of_failed {s t : State} {q : BitVec 3} {stops : ResultCode → BitVec 8 → Prop} {completes : Prop}
    (h : (∃ c x, stops c x ∧ t = s.raise c x q) ∨ completes) (hok : completes → t.err.code = .ok)
    (hf : t.err.code ≠ .ok) : ∃ c x q, t = s.raise c x q := by
  rcases h with ⟨c, x, -, ht⟩ | hc
  · exact ⟨c, x, q, ht⟩
  · exact absurd (hok hc) hf

/-- Every other command that fails leaves no trace but the completion. -/
theorem exec_failed {i : Instr} {s t : State} (h : exec i s = .next t) (hf : t.err.code ≠ .ok)
    (hs : ∀ k, i ≠ .schemaCheck k) (hd : ∀ sel, i ≠ .frameDecode sel) : ∃ c x q, t = s.raise c x q := by
  cases i with
  | nop => cases h; exact absurd rfl hf
  | csumCompute k => exact eq_raise_of_failed (execCsumCompute_eq_next.1 h) (by rintro ⟨_, -, rfl⟩; rfl) hf
  | csumVerify k => exact eq_raise_of_failed (execCsumVerify_eq_next.1 h) (by rintro ⟨_, -, rfl⟩; rfl) hf
  | trailerVerify k => exact eq_raise_of_failed (execTrailerVerify_eq_next.1 h) (by rintro ⟨_, _, -, rfl⟩; rfl) hf
  | trailerAppend k => exact eq_raise_of_failed (execTrailerAppend_eq_next.1 h) (by rintro ⟨_, -, rfl⟩; rfl) hf
  | fieldExtract k idx => exact eq_raise_of_failed (execFieldExtract_eq_next.1 h) (by rintro ⟨_, _, -, rfl⟩; rfl) hf
  | fieldInsert k idx => exact eq_raise_of_failed (execFieldInsert_eq_next.1 h) (by rintro ⟨_, -, rfl⟩; rfl) hf
  | schemaCheck k => exact absurd rfl (hs k)
  | frameDecode sel => exact absurd rfl (hd sel)
  | frameEncode k => exact eq_raise_of_failed (execFrameEncode_eq_next.1 h) (by rintro ⟨_, -, rfl⟩; rfl) hf

end Sys2Proof.Machine
end

section
/-! The statements about errors (60_exceptions.md R302 to R305, R308, R315). -/

namespace Sys2Proof.Machine

/-- Settles O5: an illegal word does not decode, so the engine's step is `illegalCommand`. -/
theorem illegalWordEndsWithIllegalCommand : Obligations.IllegalWordEndsWithIllegalCommand := fun _ hs hl =>
  (step_of_atEngine hs).trans (engineStep_of_not_legal hl)

/-- Settles O11: a failed command is a `raise` on the state before it; SCHEMA.CHECK clears its VALID bit before
that, and FRAME.DECODE writes the two checksums exactly when it has got to comparing them. -/
theorem failedCommandWritesNothingElse : Obligations.FailedCommandWritesNothingElse := by
  refine ⟨fun s t hs hl h => ?_, fun i s t h hf => ?_⟩
  · rw [illegalWordEndsWithIllegalCommand s hs hl] at h
    cases h
    rfl
  cases i with
  | schemaCheck k =>
    obtain ⟨x, rfl⟩ := execSchemaCheck_failed h hf
    exact ⟨rfl, .inl ⟨rfl, rfl⟩, nofun, rfl⟩
  | frameDecode sel =>
    rcases execFrameDecode_failed h hf with ⟨c, x, q, rfl, hc⟩ | ⟨k, p, x, rx, c, y, hk, hp, hx, hrx, rfl, hc⟩
    · refine ⟨rfl, .inl ⟨rfl, rfl⟩, ?_, rfl⟩
      rintro _ ⟨⟩
      rw [if_neg hc]
      exact ⟨rfl, rfl⟩
    · refine ⟨rfl, .inr ⟨sel, rfl⟩, ?_, rfl⟩
      rintro _ ⟨⟩
      rw [if_pos hc]
      exact ⟨k, p, x, rx, hk, hp, hx, hrx, rfl, rfl⟩
  | _ =>
    obtain ⟨c, x, q, rfl⟩ := exec_failed h hf nofun nofun
    exact ⟨rfl, .inl ⟨rfl, rfl⟩, nofun, rfl⟩

/-- Settles O42: the two raises of the header's part of a decode, before a kind is resolved. -/
theorem shortAndUnknownFramesAreReported : Obligations.ShortAndUnknownFramesAreReported := by
  refine fun sel s => ⟨fun hc hl hs => ?_, fun d hd hn => ?_⟩
  · have short : s.decodeKindOf sel = .error (.raise .tooShort 0) :=
      State.decodeKindOf_eq_error.2 (.inr (.inr (.inl ⟨hc, hl, hs, rfl⟩)))
    exact execFrameDecode_eq_next.2 (.inl ⟨_, _, short, rfl⟩)
  · have unknown : s.decodeKindOf sel = .error (.raise .unknownFrameType 0) :=
      State.decodeKindOf_eq_error.2 (.inr (.inr (.inr (.inr ⟨d, hd, hn, rfl⟩))))
    exact execFrameDecode_eq_next.2 (.inl ⟨_, _, unknown, rfl⟩)

/-- Settles O43: either case of R304 makes the payload's part of a decode raise LENGTH_MISMATCH. -/
theorem wrongLengthIsReported : Obligations.WrongLengthIsReported := by
  intro sel s d p k hd hk hlen
  have raises : s.decodePayload k = .error (.raise .lengthMismatch 0) := by
    refine State.decodePayload_eq_error.2 (.inr ⟨rfl, ?_⟩)
    rcases hlen with ⟨hm, hp, hout⟩ | ⟨hp, hne⟩
    · exact .inl ⟨hm, p, hp, hout⟩
    · exact .inr ⟨p, hp, hne⟩
  exact execFrameDecode_eq_next.2 (.inr (.inl ⟨k, _, _, State.decodeKindOf_of_resolvesTo hd hk, raises, rfl⟩))

/-- Settles O44: a decode that gets past its length ends at its checksum step when the two checksums differ. -/
theorem wrongChecksumIsReported : Obligations.WrongChecksumIsReported := by
  intro sel s d p x rx k hd hk hp hlen hx hrx hne
  have payload : s.decodePayload k = .ok p := State.decodePayload_eq_ok.2 ⟨hp, hlen⟩
  rw [hlen] at hx hrx
  have checksums : s.decodeChecksums k (s.totalLength k p) = .ok (x, rx) := State.decodeChecksums_eq_ok.2 ⟨hx, hrx⟩
  exact execFrameDecode_eq_next.2 (.inr (.inr ⟨k, p, State.decodeKindOf_of_resolvesTo hd hk, payload,
    State.decodeBody_eq_next.2 (.inr (.inl ⟨x, rx, checksums, hne, rfl⟩))⟩))

end Sys2Proof.Machine
end

section
/-! The statements about the encoding (30_encoding.md R130 to R140): a legal word is the word of a command. -/

namespace Sys2Proof

theorem Kind.exists_code_of_toNat_le {sel : BitVec 3} (h : sel.toNat ≤ 4) : ∃ k : Kind, k.code = sel := by
  rcases sel_cases sel with rfl | rfl | rfl | rfl | rfl | rfl | rfl | rfl
  · exact ⟨.settings, rfl⟩
  · exact ⟨.sensorValues, rfl⟩
  · exact ⟨.strings, rfl⟩
  · exact ⟨.ambientColor, rfl⟩
  · exact ⟨.soundData, rfl⟩
  all_goals exact absurd h (by decide)

/-- Every row of `Legal(w)` names the command of its OPC, whose operands are the word's own SEL and IDX. -/
theorem exists_encode_of_legal {nDesc : Nat} {w : Word32} (h : legal nDesc w = true) : ∃ i, encode i = w := by
  simp only [legal] at h
  split at h
  · cases h
  next hrsv =>
  obtain ⟨h0, h1⟩ := not_or.1 hrsv
  rw [← commandWord_fields (not_not.1 h0) (not_not.1 h1)]
  split at h
  · next hopc =>
    obtain ⟨hsel, hidx⟩ := of_decide_eq_true h
    exact ⟨.nop, by rw [hopc, hsel, hidx]; rfl⟩
  split at h
  · next hopc =>
    obtain ⟨hsel, hidx⟩ := of_decide_eq_true h
    obtain ⟨k, hk⟩ := Kind.exists_code_of_toNat_le hsel
    rw [hidx, ← hk]
    rcases hopc with hopc | hopc | hopc | hopc <;> rw [hopc]
    exacts [⟨.csumCompute k, rfl⟩, ⟨.csumVerify k, rfl⟩, ⟨.trailerVerify k, rfl⟩, ⟨.trailerAppend k, rfl⟩]
  split at h
  · next hopc =>
    obtain ⟨hsel, hidx⟩ := of_decide_eq_true h
    obtain ⟨k, hk⟩ := Kind.exists_code_of_toNat_le hsel
    rw [hidx, ← hk]
    rcases hopc with hopc | hopc <;> rw [hopc]
    exacts [⟨.schemaCheck k, rfl⟩, ⟨.frameEncode k, rfl⟩]
  split at h
  · next hopc =>
    obtain ⟨hsel, -⟩ := of_decide_eq_true h
    obtain ⟨k, hk⟩ := Kind.exists_code_of_toNat_le hsel
    rw [← hk]
    rcases hopc with hopc | hopc <;> rw [hopc]
    exacts [⟨.fieldExtract k _, rfl⟩, ⟨.fieldInsert k _, rfl⟩]
  split at h
  · next hopc =>
    obtain ⟨hsel, hidx⟩ := of_decide_eq_true h
    rw [hopc, hidx]
    rcases hsel with hsel | hsel
    · obtain ⟨k, hk⟩ := Kind.exists_code_of_toNat_le hsel
      exact ⟨.frameDecode (.kind k), by rw [← hk]; rfl⟩
    · exact ⟨.frameDecode .any, by rw [hsel]; rfl⟩
  · cases h

/-- Settles O1: the fields of a command word are those it was built from, and each row of the decoder takes its own. -/
theorem decodeGivesBackEncodedCommand : Obligations.DecodeGivesBackEncodedCommand := fun _ _ hi => decode_encode hi

/-- Settles O2: a word that decodes is the word of a well-formed command, and so is a legal word; being well-formed is
being legal, for the word of a command. -/
theorem decodableWordsAreTheLegalOnes : Obligations.DecodableWordsAreTheLegalOnes := by
  refine fun nDesc w => ⟨⟨fun ⟨i, hi⟩ => legal_of_decode_eq_ok hi, fun hl => ?_⟩, fun i => decode_eq_ok.1⟩
  obtain ⟨i, rfl⟩ := exists_encode_of_legal hl
  exact ⟨i, decode_encode (legal_encode nDesc i ▸ hl)⟩

/-- Settles O3: each word is the word of its command, by evaluation, and so decodes to it. -/
theorem sampleWordsDecode : Obligations.SampleWordsDecode := by
  refine ⟨?_, ?_, ?_, ?_, ?_, ?_⟩ <;> exact decode_eq_ok.2 ⟨by decide, by decide⟩

end Sys2Proof
end

section
/-! SUPPORT. What a step of the host can do, and what a completed command leaves in STATUS and ERR (40_command.md R161,
R162, R165; 30_encoding.md R139). -/

namespace Sys2Proof.Machine

/-! ## Whose turn it is -/

theorem step_of_not_atEngine {s : State} (h : ¬s.atEngine) : step s = hostStep s :=
  if_neg fun ht => h (engineTurn_iff_atEngine.1 ht)

theorem not_atEngine_iff {s : State} :
    ¬s.atEngine ↔ s.pending = false ∨ (s.latency ≠ 0 ∧ s.host.pos < s.host.script.length) := by
  rw [State.atEngine, not_and_or, Bool.not_eq_true, not_or, not_le]

theorem engineStep_of_decode {s : State} {i : Instr} (h : decode s.params.nDesc s.cmd = .ok i) :
    engineStep s = exec i s := by
  rw [engineStep, h]

/-! ## The host's step -/

/-- The state but for the host agent and the counter of draws, which the reads and the inner statements of a script
touch. -/
def State.sameBlock (s t : State) : Prop := t = { s with host := t.host, draws := t.draws }

theorem State.readWord_sameBlock (s : State) (a : Nat) : s.sameBlock (s.readWord a).2 := by
  rw [State.readWord]
  split
  · unfold State.readBusy
    split <;> rfl
  · rfl

theorem State.hostBranch_eq_next {s t : State} {b : Bool} {n : Nat} (h : s.hostBranch b n = .next t) :
    s.sameBlock t := by
  rw [State.hostBranch] at h
  split at h
  · split at h <;> cases h
    rfl
  · cases h; rfl

theorem State.hostReadInto_eq_next {s t : State} {a : Word32} {x : Nat} (h : s.hostReadInto a x = .next t) :
    s.sameBlock t := by
  rw [State.hostReadInto] at h
  split at h
  · cases h
  · cases h
    rw [State.sameBlock, State.hostAssign, s.readWord_sameBlock a.toNat]

/-- All that a statement of the script can do: the host alone moves on, or it writes a word, or it asserts reset. -/
theorem State.runStmt_eq_next {s t : State} {c : HostStmt} (h : s.runStmt c = .next t) :
    s.sameBlock t ∨ (∃ a v, s.hostAdvance.hostWrite a v = .next t) ∨ c = .reset ∧ t = s.hostAdvance.resetBlock := by
  cases c with
  | wr a v => exact .inr (.inl ⟨_, _, h⟩)
  | rd a x => exact .inl (State.hostReadInto_eq_next h)
  | bz e n => exact .inl (State.hostBranch_eq_next h)
  | bnz e n => exact .inl (State.hostBranch_eq_next h)
  | label n => cases h; exact .inl rfl
  | set x e => cases h; exact .inl rfl
  | expect e v => cases h; exact .inl rfl
  | otherSize b a => cases h
  | reset => cases h; exact .inr (.inr ⟨rfl, rfl⟩)

theorem hostStep_of_current {s : State} {c : HostStmt} (h : s.host.script[s.host.pos]? = some c) :
    hostStep s = s.passLatency.runStmt c := by
  rw [hostStep, HostAgent.current, h]

/-! ## The completion of a command -/

/-- What the completion of command i leaves: nothing pending, a code of i, MATCH and SNAP_VALID where i may set them. -/
structure CompletedBy (i : Instr) (t : State) (m p : Bool) : Prop where
  idle : t.pending = false
  status : t.status = Status.completed t.err.code m p
  matched : m = true → t.err.code = .ok ∧ ∃ k, i = .csumVerify k ∨ i = .trailerVerify k
  snap : p = true ↔ t.err.code = .ok ∧ ∃ sel, i = .frameDecode sel
  code : t.err.code ∈ i.resultCodes

/-- A raise of one of the command's codes is a completion. -/
theorem completedBy_raise {i : Instr} {s : State} {c : ResultCode} {x : BitVec 8} {q : BitVec 3} (hc : c ≠ .ok)
    (hi : c ∈ i.resultCodes) : CompletedBy i (s.raise c x q) false false :=
  ⟨rfl, rfl, nofun, ⟨nofun, fun ⟨h, _⟩ => absurd h hc⟩, hi⟩

/-- So is `finish OK` without flags, of any command but FRAME.DECODE. -/
theorem completedBy_finish {i : Instr} {s : State} {x : BitVec 8} {q : BitVec 3} (hd : ∀ sel, i ≠ .frameDecode sel)
    (hi : .ok ∈ i.resultCodes) : CompletedBy i (s.finish x q false false) false false :=
  ⟨rfl, rfl, nofun, ⟨nofun, fun ⟨_, sel, h⟩ => absurd h (hd sel)⟩, hi⟩

theorem exec_completes {i : Instr} {s t : State} (h : exec i s = .next t) : ∃ m p, CompletedBy i t m p := by
  cases i with
  | nop => cases h; exact ⟨_, _, completedBy_finish nofun (by decide)⟩
  | csumCompute k =>
    rcases execCsumCompute_eq_next.1 h with ⟨c, x, hr, rfl⟩ | ⟨x, -, rfl⟩
    · rcases raises_rangeCsum hr with ⟨rfl, -⟩ | ⟨rfl, -⟩ <;>
        exact ⟨_, _, completedBy_raise nofun (by simp [Instr.resultCodes])⟩
    · exact ⟨_, _, completedBy_finish nofun (by simp [Instr.resultCodes])⟩
  | csumVerify k =>
    rcases execCsumVerify_eq_next.1 h with ⟨c, x, hr, rfl⟩ | ⟨x, -, rfl⟩
    · rcases raises_rangeCsum hr with ⟨rfl, -⟩ | ⟨rfl, -⟩ <;>
        exact ⟨_, _, completedBy_raise nofun (by simp [Instr.resultCodes])⟩
    · exact ⟨_, _, rfl, rfl, fun _ => ⟨rfl, k, .inl rfl⟩, by simp, by simp [Instr.resultCodes]⟩
  | trailerVerify k =>
    rcases execTrailerVerify_eq_next.1 h with ⟨c, x, hr, rfl⟩ | ⟨x, rx, -, rfl⟩
    · rcases raises_trailerValues hr with ⟨rfl, -⟩ | ⟨rfl, -⟩ <;>
        exact ⟨_, _, completedBy_raise nofun (by simp [Instr.resultCodes])⟩
    · exact ⟨_, _, rfl, rfl, fun _ => ⟨rfl, k, .inr rfl⟩, by simp, by simp [Instr.resultCodes]⟩
  | trailerAppend k =>
    rcases execTrailerAppend_eq_next.1 h with ⟨c, x, hr, rfl⟩ | ⟨u, -, rfl⟩
    · rcases raises_trailerAppended hr with ⟨rfl, -⟩ | ⟨rfl, -⟩ <;>
        exact ⟨_, _, completedBy_raise nofun (by simp [Instr.resultCodes])⟩
    · exact ⟨_, _, completedBy_finish nofun (by simp [Instr.resultCodes])⟩
  | fieldExtract k idx =>
    rcases execFieldExtract_eq_next.1 h with ⟨c, x, hr, rfl⟩ | ⟨d, r, -, rfl⟩
    · rcases raises_fieldExtracted hr with ⟨rfl, -⟩ | ⟨rfl, -⟩ | ⟨rfl, -⟩ <;>
        exact ⟨_, _, completedBy_raise nofun (by simp [Instr.resultCodes])⟩
    · exact ⟨_, _, completedBy_finish nofun (by simp [Instr.resultCodes])⟩
  | fieldInsert k idx =>
    rcases execFieldInsert_eq_next.1 h with ⟨c, x, hr, rfl⟩ | ⟨u, -, rfl⟩
    · rcases raises_fieldInserted hr with ⟨rfl, -⟩ | ⟨rfl, -⟩ | ⟨rfl, -⟩ <;>
        exact ⟨_, _, completedBy_raise nofun (by simp [Instr.resultCodes])⟩
    · exact ⟨_, _, completedBy_finish nofun (by simp [Instr.resultCodes])⟩
  | schemaCheck k =>
    rcases execSchemaCheck_eq_next.1 h with ⟨-, rfl⟩ | ⟨-, _, -, rfl⟩ | ⟨-, -, rfl⟩
    · exact ⟨_, _, completedBy_raise nofun (by simp [Instr.resultCodes])⟩
    · exact ⟨_, _, completedBy_raise nofun (by simp [Instr.resultCodes])⟩
    · exact ⟨_, _, completedBy_finish nofun (by simp [Instr.resultCodes])⟩
  | frameDecode sel =>
    rcases execFrameDecode_cases h with ⟨c, x, hr, rfl⟩ | ⟨k, -, -, rfl⟩ |
      ⟨k, p, x, rx, -, -, -, ⟨-, rfl⟩ | ⟨-, y, -, rfl⟩ | ⟨-, rs, -, rfl⟩⟩
    · rcases raises_decodeKindOf hr with ⟨rfl, -⟩ | ⟨-, rfl | rfl | rfl⟩ <;>
        exact ⟨_, _, completedBy_raise nofun (by simp [Instr.resultCodes])⟩
    · exact ⟨_, _, completedBy_raise nofun (by simp [Instr.resultCodes])⟩
    · exact ⟨_, _, completedBy_raise nofun (by simp [Instr.resultCodes])⟩
    · exact ⟨_, _, completedBy_raise nofun (by simp [Instr.resultCodes])⟩
    · exact ⟨_, _, rfl, rfl, nofun, by simp, by simp [Instr.resultCodes]⟩
  | frameEncode k =>
    rcases execFrameEncode_eq_next.1 h with ⟨c, x, hr, rfl⟩ | ⟨u, -, rfl⟩
    · rcases raises_frameEncoded hr with ⟨rfl, -⟩ | rfl | rfl <;>
        exact ⟨_, _, completedBy_raise nofun (by simp [Instr.resultCodes])⟩
    · exact ⟨_, _, completedBy_finish nofun (by simp [Instr.resultCodes])⟩

/-! ## The FIDX of a completion -/

theorem raises_encodeFields_ne_configError {s : State} {k : Kind} {is : List Nat} {x : BitVec 8} :
    s.encodeFields k is ≠ .error (.raise .configError x) := fun h => by
  rcases raises_encodeFields h with h | h <;> cases h

/-- A CONFIG_ERROR of FRAME.ENCODE names no descriptor. -/
theorem fidx_of_frameEncoded_configError {s : State} {k : Kind} {x : BitVec 8}
    (h : s.frameEncoded k = .error (.raise .configError x)) : x = 0xFF ∧ s.isValid k = false := by
  rcases State.frameEncoded_eq_error.1 h with ⟨hv, h⟩ | ⟨-, h | ⟨_, -, h | ⟨_, -, h⟩⟩⟩
  · cases h; exact ⟨rfl, hv⟩
  · obtain ⟨-, -, h⟩ := State.encodePayload_eq_error.1 h; cases h
  · exact absurd h raises_encodeFields_ne_configError
  · rcases State.encodeWrites_eq_error h with h | h <;> cases h

end Sys2Proof.Machine
end

section
/-! The statements about steps and completions (40_command.md R161, R162, R165; 70_reset_and_hazards.md R340, R341). -/

namespace Sys2Proof.Machine

/-- Settles O4, by the two branches of `step`. -/
theorem stepRunsTheDecodedCommand : Obligations.StepRunsTheDecodedCommand := fun _ _ =>
  ⟨fun hs hi => (step_of_atEngine hs).trans (engineStep_of_decode hi),
    fun h => step_of_not_atEngine (not_atEngine_iff.2 h)⟩

/-- Settles O7: a step that is not the engine's runs a statement of the script with the latency already one lower; while
BUSY = 1 the statement writes nothing, so it leaves the command alone unless it is `reset`. -/
theorem pendingCommandComesNearer : Obligations.PendingCommandComesNearer := by
  intro s t hp hb hs h
  obtain hidle | ⟨hlat, hpos⟩ := not_atEngine_iff.1 hs
  · rw [hp] at hidle; cases hidle
  have hc : s.host.script[s.host.pos]? = some s.host.script[s.host.pos] := List.getElem?_eq_getElem hpos
  rw [step_of_not_atEngine hs, hostStep_of_current hc] at h
  rcases State.runStmt_eq_next h with hsame | ⟨a, v, hw⟩ | ⟨hreset, rfl⟩
  · have nearer : t.latency = s.latency - 1 := by rw [hsame]; simp [State.passLatency, hp]
    have same_cmd : t.cmd = s.cmd := by rw [hsame]; rfl
    have still_pending : t.pending = true := by rw [hsame]; exact hp
    exact .inl ⟨still_pending, same_cmd, by omega⟩
  · obtain ⟨-, -, hidle, -⟩ := State.hostWrite_eq_next.1 hw
    change s.status.busy = false at hidle
    rw [hb] at hidle; cases hidle
  · exact .inr ⟨rfl, hreset ▸ hc⟩

/-- Settles O8: `exec_completes` says with which code and flags each command completes. -/
theorem completionWritesTheFlags : Obligations.CompletionWritesTheFlags := by
  intro i s t h
  obtain ⟨m, p, hidle, hstatus, hmatched, hsnap, hcode⟩ := exec_completes h
  rw [hstatus]
  exact ⟨hidle, rfl, rfl, by simp [Status.completed], hmatched, hsnap, hcode⟩

/-- Settles O10: each raise of a command names no descriptor (0xFF), the command's own index, or 0, as its part says. -/
theorem errFidxByCommand : Obligations.ErrFidxByCommand := by
  intro i s t h
  cases i with
  | nop => cases h; rfl
  | csumCompute k =>
    rcases execCsumCompute_eq_next.1 h with ⟨c, x, hr, rfl⟩ | ⟨x, -, rfl⟩
    · rcases raises_rangeCsum hr with ⟨rfl, rfl⟩ | ⟨rfl, rfl⟩ <;> rfl
    · rfl
  | csumVerify k =>
    rcases execCsumVerify_eq_next.1 h with ⟨c, x, hr, rfl⟩ | ⟨x, -, rfl⟩
    · rcases raises_rangeCsum hr with ⟨rfl, rfl⟩ | ⟨rfl, rfl⟩ <;> rfl
    · rfl
  | trailerVerify k =>
    rcases execTrailerVerify_eq_next.1 h with ⟨c, x, hr, rfl⟩ | ⟨x, rx, -, rfl⟩
    · rcases raises_trailerValues hr with ⟨rfl, rfl⟩ | ⟨rfl, rfl⟩ <;> rfl
    · rfl
  | trailerAppend k =>
    rcases execTrailerAppend_eq_next.1 h with ⟨c, x, hr, rfl⟩ | ⟨u, -, rfl⟩
    · rcases raises_trailerAppended hr with ⟨rfl, rfl⟩ | ⟨rfl, rfl⟩ <;> rfl
    · rfl
  | fieldExtract k idx =>
    rcases execFieldExtract_eq_next.1 h with ⟨c, x, hr, rfl⟩ | ⟨d, r, -, rfl⟩
    · rcases raises_fieldExtracted hr with ⟨rfl, rfl⟩ | ⟨rfl, rfl⟩ | ⟨rfl, rfl⟩ <;> rfl
    · rfl
  | fieldInsert k idx =>
    rcases execFieldInsert_eq_next.1 h with ⟨c, x, hr, rfl⟩ | ⟨u, -, rfl⟩
    · rcases raises_fieldInserted hr with ⟨rfl, rfl⟩ | ⟨rfl, rfl⟩ | ⟨rfl, rfl⟩ <;> rfl
    · rfl
  | schemaCheck k =>
    rcases execSchemaCheck_eq_next.1 h with ⟨-, rfl⟩ | ⟨hk, _, -, rfl⟩ | ⟨-, -, rfl⟩
    · exact ⟨nofun, fun _ _ => rfl⟩
    · exact ⟨nofun, fun _ hk' => by rw [hk] at hk'; cases hk'⟩
    · exact ⟨fun _ => rfl, nofun⟩
  | frameDecode sel =>
    intro hcode
    rcases execFrameDecode_cases h with ⟨c, x, hr, rfl⟩ | ⟨k, -, -, rfl⟩ |
      ⟨k, p, x, rx, -, -, -, ⟨-, rfl⟩ | ⟨-, y, -, rfl⟩ | ⟨-, rs, -, rfl⟩⟩
    · rcases raises_decodeKindOf hr with ⟨rfl, rfl⟩ | ⟨rfl, rfl | rfl | rfl⟩ <;> rfl
    · rfl
    · rfl
    · exact absurd rfl hcode
    · rfl
  | frameEncode k =>
    rcases execFrameEncode_eq_next.1 h with ⟨c, x, hr, rfl⟩ | ⟨u, -, rfl⟩
    · refine ⟨?_, ?_, ?_⟩
      · rintro ⟨⟩
        obtain ⟨rfl, -⟩ := fidx_of_frameEncoded_configError hr
        rfl
      · rintro ⟨⟩
        rcases raises_frameEncoded hr with ⟨h, -⟩ | h | h <;> cases h
      · rintro ⟨⟩ hl hp
        have payload := State.encodePayload_eq_error.2 ⟨hl, hp, rfl⟩
        rcases State.frameEncoded_eq_error.1 hr with ⟨-, h⟩ | ⟨-, h | ⟨_, hok, -⟩⟩
        · cases h
        · rw [payload] at h; cases h; rfl
        · rw [payload] at hok; cases hok
    · exact ⟨nofun, fun _ => rfl, nofun⟩

end Sys2Proof.Machine
end

section
/-! SUPPORT. What no command changes, and that every command keeps the two RAMs it writes canonical and within their
defined addresses (10_state.md R61, R66; 60_exceptions.md R309). -/

namespace Sys2Proof.Machine

/-! ## The registers and RAMs no command writes -/

/-- t is s but for what commands write. -/
def State.sameConfig (s t : State) : Prop :=
  t = { s with
    status := t.status, err := t.err, pending := t.pending, csum := t.csum, csrx := t.csrx, frameLen := t.frameLen
    payLen := t.payLen, kindOut := t.kindOut, valid := t.valid, res := t.res, buf := t.buf }

theorem storeValue_eq_of_res (s : State) (i : Nat) (r : Int) (d : Desc) :
    ∃ res, s.storeValue i r d = { s with res := res } :=
  ⟨_, rfl⟩

theorem storeValues_eq_of_res (s : State) (i : Nat) (rs : List (Desc × Int)) :
    ∃ res, s.storeValues i rs = { s with res := res } :=
  ⟨_, State.storeValues_frame s i rs⟩

theorem exec_sameConfig {i : Instr} {s t : State} (h : exec i s = .next t) : s.sameConfig t := by
  cases i with
  | nop => cases h; rfl
  | csumCompute k => rcases execCsumCompute_eq_next.1 h with ⟨_, _, -, rfl⟩ | ⟨_, -, rfl⟩ <;> rfl
  | csumVerify k => rcases execCsumVerify_eq_next.1 h with ⟨_, _, -, rfl⟩ | ⟨_, -, rfl⟩ <;> rfl
  | trailerVerify k => rcases execTrailerVerify_eq_next.1 h with ⟨_, _, -, rfl⟩ | ⟨_, _, -, rfl⟩ <;> rfl
  | trailerAppend k =>
    rcases execTrailerAppend_eq_next.1 h with ⟨_, _, -, rfl⟩ | ⟨u, hu, rfl⟩
    · rfl
    · obtain ⟨-, x, v, -, hv, rfl⟩ := State.trailerAppended_eq_ok.1 hu
      obtain ⟨-, rfl⟩ := State.writeUInt_eq_ok.1 hv
      rfl
  | fieldExtract k idx =>
    rcases execFieldExtract_eq_next.1 h with ⟨_, _, -, rfl⟩ | ⟨d, r, -, rfl⟩
    · rfl
    · obtain ⟨res, hres⟩ := storeValue_eq_of_res s idx.toNat r d
      rw [hres]; rfl
  | fieldInsert k idx =>
    rcases execFieldInsert_eq_next.1 h with ⟨_, _, -, rfl⟩ | ⟨u, hu, rfl⟩
    · rfl
    · obtain ⟨d, r, -, -, hput⟩ := State.fieldInserted_eq_ok.1 hu
      obtain ⟨-, rfl⟩ := State.putField_eq_ok.1 hput
      rfl
  | schemaCheck k => rcases execSchemaCheck_eq_next.1 h with ⟨-, rfl⟩ | ⟨-, _, -, rfl⟩ | ⟨-, -, rfl⟩ <;> rfl
  | frameDecode sel =>
    rcases execFrameDecode_cases h with ⟨_, _, -, rfl⟩ | ⟨_, -, -, rfl⟩ |
      ⟨_, _, _, _, -, -, -, ⟨-, rfl⟩ | ⟨-, _, -, rfl⟩ | ⟨-, _, -, rfl⟩⟩
    · rfl
    · rfl
    · rfl
    · rfl
    · obtain ⟨res, hres⟩ := storeValues_eq_of_res _ 0 _
      rw [hres]; rfl
  | frameEncode k =>
    rcases execFrameEncode_eq_next.1 h with ⟨_, _, -, rfl⟩ | ⟨u, hu, rfl⟩
    · rfl
    · obtain ⟨-, p, rs, -, -, hw⟩ := State.frameEncoded_eq_ok.1 hu
      rw [State.encodeWrites_frame hw]; rfl

/-! ## The two RAMs commands write -/

/-- The frame buffer and the result RAM under legal parameters are canonical and hold defined addresses only. -/
structure RamsOk (s : State) : Prop where
  params : s.params.legal
  bufWf : Memory.wf s.buf
  resWf : Memory.wf s.res
  bufKeys : ∀ c ∈ s.buf, c.1 < s.params.bufSize
  resKeys : ∀ c ∈ s.res, ∃ i j, locate s.params c.1 = .res i j ∧ c.1 = resAddr i j

theorem State.Inv.ramsOk {s : State} (hi : s.Inv) : RamsOk s := ⟨hi.params, hi.bufWf, hi.resWf, hi.bufKeys, hi.resKeys⟩

namespace RamsOk
variable {s t : State} (hs : RamsOk s)
include hs

theorem of_eq (hp : t.params = s.params) (hb : t.buf = s.buf) (hr : t.res = s.res) : RamsOk t := by
  refine ⟨?_, ?_, ?_, ?_, ?_⟩ <;> simp only [hp, hb, hr]
  exacts [hs.params, hs.bufWf, hs.resWf, hs.bufKeys, hs.resKeys]

theorem raise (c : ResultCode) (x : BitVec 8) (q : BitVec 3) : RamsOk (s.raise c x q) := hs.of_eq rfl rfl rfl

theorem finish (x : BitVec 8) (q : BitVec 3) (m p : Bool) : RamsOk (s.finish x q m p) := hs.of_eq rfl rfl rfl

theorem setSnapshot (k : Kind) (p : Nat) : RamsOk (s.setSnapshot k p) := hs.of_eq rfl rfl rfl

theorem writeBuf {a : Nat} {bs : List Byte} (h : a + bs.length ≤ s.params.bufSize) :
    RamsOk { s with buf := Memory.writeSeq 1 s.buf a bs } := by
  refine { hs with bufWf := Memory.writeSeq_wf hs.bufWf _ _ _, bufKeys := fun c hc => ?_ }
  rcases Memory.mem_writeSeq hc with ⟨j, hj, hc⟩ | hc
  · change c.1 < s.params.bufSize
    omega
  · exact hs.bufKeys c hc

theorem writeUInt {a w u : Nat} {ord : ByteOrder} (h : s.writeUInt a w ord u = .ok t) : RamsOk t := by
  obtain ⟨hn, rfl⟩ := State.writeUInt_eq_ok.1 h
  exact hs.writeBuf (by rwa [natToBytes_length])

theorem setResWords {i j : Nat} {ws : List Word32} (hn : i < s.params.nDesc) (hj : j + ws.length ≤ 7) :
    RamsOk (s.setResWords i j ws) := by
  obtain ⟨-, -, -, -, hmax⟩ := hs.params
  refine { hs with resWf := Memory.writeSeq_wf hs.resWf _ _ _, resKeys := fun c hc => ?_ }
  rcases Memory.mem_writeSeq hc with ⟨m, hm, hc⟩ | hc
  · have place : c.1 = resAddr i (j + m) := by rw [hc, resAddr, resAddr]; omega
    exact ⟨i, j + m, by rw [place]; exact locate_res hmax hn (by omega), place⟩
  · exact hs.resKeys c hc

theorem storeRaw {i : Nat} {r : Int} (hn : i < s.params.nDesc) : RamsOk (s.storeRaw i r) :=
  hs.setResWords hn (by simp)

theorem storeValue {i : Nat} {r : Int} {d : Desc} (hn : i < s.params.nDesc) : RamsOk (s.storeValue i r d) := by
  rw [State.storeValue_eq_setResWords]
  exact hs.setResWords hn (by simp)

theorem putField {i : Nat} {r : Int} {d : Desc} (hn : i < s.params.nDesc) (h : s.putField i d r = .ok t) : RamsOk t := by
  obtain ⟨hb, rfl⟩ := State.putField_eq_ok.1 h
  exact (hs.writeBuf (by rwa [natToBytes_length])).storeRaw hn

omit hs in
theorem storeValues {s : State} {i : Nat} {rs : List (Desc × Int)} (hs : RamsOk s)
    (hn : i + rs.length ≤ s.params.nDesc) : RamsOk (s.storeValues i rs) := by
  induction rs generalizing s i with
  | nil => exact hs
  | cons q rs ih =>
    rw [List.length_cons] at hn
    exact ih (hs.storeValue (by omega)) (by rw [State.storeValue_params]; omega)

omit hs in
theorem putFields {s t : State} {i : Nat} {rs : List (Desc × Int)} (hs : RamsOk s)
    (hn : i + rs.length ≤ s.params.nDesc) (h : s.putFields i rs = .ok t) : RamsOk t := by
  induction rs generalizing s i with
  | nil => cases h; exact hs
  | cons q rs ih =>
    rw [List.length_cons] at hn
    obtain ⟨u, hu, h⟩ := bind_eq_ok.1 h
    have hparams : u.params = s.params := by obtain ⟨-, rfl⟩ := State.putField_eq_ok.1 hu; rfl
    exact ih (hs.putField (by omega) hu) (by rw [hparams]; omega) h

theorem putLength {k : Kind} {p : Nat} (h : s.putLength k p = .ok t) : RamsOk t := by
  rw [State.putLength] at h
  split at h
  · exact hs.writeUInt h
  · cases h; exact hs

theorem encodeWrites {k : Kind} {p : Nat} {rs : List (Desc × Int)} (hn : rs.length ≤ s.params.nDesc)
    (h : s.encodeWrites k p rs = .ok t) : RamsOk t := by
  obtain ⟨s1, s2, s3, x, s4, h1, h2, h3, -, h4, rfl⟩ := State.encodeWrites_eq_ok.1 h
  have hparams : s2.params = s.params := by
    obtain ⟨-, rfl⟩ := State.writeUInt_eq_ok.1 h1
    rw [State.putLength] at h2
    split at h2
    · obtain ⟨-, rfl⟩ := State.writeUInt_eq_ok.1 h2; rfl
    · cases h2; rfl
  have hs3 := ((hs.writeUInt h1).putLength h2).putFields (by rw [hparams]; omega) h3
  exact (hs3.writeUInt h4).of_eq rfl rfl rfl

end RamsOk

/-! ## What a valid kind gives -/

namespace State.Inv
variable {s : State} (hi : s.Inv)
include hi

theorem kindFacts_of_valid {k : Kind} (hv : s.isValid k = true) : KindFacts s k :=
  kindFacts (hi.validSchema k hv).1

theorem lt_nDesc_of_valid {k : Kind} {i : Nat} (hv : s.isValid k = true) (h : i < (s.slot k).kndesc.toNat) :
    i < s.params.nDesc :=
  h.trans_le (hi.kindFacts_of_valid hv).ndesc

theorem kindFacts_of_decodeKindOf {sel : DecodeSel} {k : Kind} (h : s.decodeKindOf sel = .ok k) : KindFacts s k := by
  obtain ⟨d, ⟨hc, -⟩, hr⟩ := State.decodeKindOf_eq_ok.1 h
  exact kindFacts (hi.schemaHolds_of_resolve hc hr).1

end State.Inv

theorem exec_ramsOk {i : Instr} {s t : State} (hi : s.Inv) (h : exec i s = .next t) : RamsOk t := by
  have hs := hi.ramsOk
  cases i with
  | nop => cases h; exact hs.of_eq rfl rfl rfl
  | csumCompute k =>
    rcases execCsumCompute_eq_next.1 h with ⟨_, _, -, rfl⟩ | ⟨_, -, rfl⟩ <;> exact hs.of_eq rfl rfl rfl
  | csumVerify k =>
    rcases execCsumVerify_eq_next.1 h with ⟨_, _, -, rfl⟩ | ⟨_, -, rfl⟩ <;> exact hs.of_eq rfl rfl rfl
  | trailerVerify k =>
    rcases execTrailerVerify_eq_next.1 h with ⟨_, _, -, rfl⟩ | ⟨_, _, -, rfl⟩ <;> exact hs.of_eq rfl rfl rfl
  | trailerAppend k =>
    rcases execTrailerAppend_eq_next.1 h with ⟨_, _, -, rfl⟩ | ⟨u, hu, rfl⟩
    · exact hs.of_eq rfl rfl rfl
    · obtain ⟨-, x, v, -, hv, rfl⟩ := State.trailerAppended_eq_ok.1 hu
      exact (hs.writeUInt hv).of_eq rfl rfl rfl
  | fieldExtract k idx =>
    rcases execFieldExtract_eq_next.1 h with ⟨_, _, -, rfl⟩ | ⟨d, r, hr, rfl⟩
    · exact hs.of_eq rfl rfl rfl
    · obtain ⟨hchecks, -, -⟩ := State.fieldExtracted_eq_ok.1 hr
      obtain ⟨hv, hlt, -⟩ := State.fieldChecks_eq_ok.1 hchecks
      exact (hs.storeValue (hi.lt_nDesc_of_valid hv hlt)).finish _ _ _ _
  | fieldInsert k idx =>
    rcases execFieldInsert_eq_next.1 h with ⟨_, _, -, rfl⟩ | ⟨u, hu, rfl⟩
    · exact hs.of_eq rfl rfl rfl
    · obtain ⟨d, r, hchecks, -, hput⟩ := State.fieldInserted_eq_ok.1 hu
      obtain ⟨hv, hlt, -⟩ := State.fieldChecks_eq_ok.1 hchecks
      exact (hs.putField (hi.lt_nDesc_of_valid hv hlt) hput).finish _ _ _ _
  | schemaCheck k =>
    rcases execSchemaCheck_eq_next.1 h with ⟨-, rfl⟩ | ⟨-, _, -, rfl⟩ | ⟨-, -, rfl⟩ <;> exact hs.of_eq rfl rfl rfl
  | frameDecode sel =>
    rcases execFrameDecode_cases h with ⟨_, _, -, rfl⟩ | ⟨_, -, -, rfl⟩ |
      ⟨k, _, x, _, hk, -, -, ⟨-, rfl⟩ | ⟨-, _, -, rfl⟩ | ⟨-, rs, hrs, rfl⟩⟩
    · exact hs.of_eq rfl rfl rfl
    · exact hs.of_eq rfl rfl rfl
    · exact hs.of_eq rfl rfl rfl
    · exact hs.of_eq rfl rfl rfl
    · obtain ⟨hlen, -⟩ := State.decodeFields_eq_ok.1 hrs
      have hn := (hi.kindFacts_of_decodeKindOf hk).ndesc
      rw [State.descIndexes, List.length_range] at hlen
      change rs.length = (s.slot k).kndesc.toNat at hlen
      have hsums : RamsOk ((s.setCsum x).setCsrx x) := hs.of_eq rfl rfl rfl
      have hstored : RamsOk (((s.setCsum x).setCsrx x).storeValues 0 rs) :=
        hsums.storeValues (by rw [State.setCsrx_params, State.setCsum_params]; omega)
      exact (hstored.setSnapshot k _).finish _ _ _ _
  | frameEncode k =>
    rcases execFrameEncode_eq_next.1 h with ⟨_, _, -, rfl⟩ | ⟨u, hu, rfl⟩
    · exact hs.of_eq rfl rfl rfl
    · obtain ⟨hv, p, rs, -, hrs, hw⟩ := State.frameEncoded_eq_ok.1 hu
      obtain ⟨hlen, -⟩ := State.encodeFields_eq_ok.1 hrs
      have hn := (hi.kindFacts_of_valid hv).ndesc
      rw [State.descIndexes, List.length_range] at hlen
      exact (hs.encodeWrites (by omega) hw).finish _ _ _ _

end Sys2Proof.Machine
end

section
/-! SUPPORT. On which part of the state the validity of a schema depends, and how each kind of step keeps the invariant
(10_state.md R67, R68, R71 to R73). -/

namespace Sys2Proof.Machine

/-! ## What the validity of a schema depends on -/

theorem State.readDescs_congr {s t : State} {k : Kind} {is : List Nat}
    (h : ∀ i ∈ is, s.readDesc k i = t.readDesc k i) : s.readDescs k is = t.readDescs k is := by
  induction is with
  | nil => rfl
  | cons i is ih =>
    rw [State.readDescs, State.readDescs, h i List.mem_cons_self, ih fun j hj => h j (List.mem_cons_of_mem i hj)]

/-- The registers and parameters the checks of a schema look at, all else as after reset. -/
def State.schemaRegs (s : State) : State :=
  { State.reset with params := s.params, hdrCfg := s.hdrCfg, discOff := s.discOff, slots := s.slots }

/-- The kind-level checks look at no other register. -/
theorem State.kindChecksOk_schemaRegs (s : State) (k : Kind) : s.schemaRegs.kindChecksOk k = s.kindChecksOk k := rfl

theorem State.schemaHolds.congr {s t : State} {k : Kind} (h : s.schemaHolds k) (hr : t.schemaRegs = s.schemaRegs)
    (hd : ∀ i < (s.slot k).kndesc.toNat, t.readDesc k i = s.readDesc k i) : t.schemaHolds k := by
  obtain ⟨hkind, hdesc⟩ := h
  have hslot : t.schemaRegs.slot k = s.schemaRegs.slot k := by rw [hr]
  change t.slot k = s.slot k at hslot
  refine ⟨by rw [← t.kindChecksOk_schemaRegs, hr, s.kindChecksOk_schemaRegs, hkind], ?_⟩
  rw [State.descFail, State.descIndexes, hslot, State.readDescs_congr fun i hi => hd i (List.mem_range.1 hi)]
  exact hdesc

/-! ## Steps that leave the schemas alone -/

section
variable {s t : State} (hi : s.Inv)
include hi

/-- Registers on which the invariant lays no claim, the host's side, and the model's own fields. -/
theorem State.Inv.of_free
    (h : t = { s with
      cmd := t.cmd, frameLen := t.frameLen, arg0 := t.arg0, arg1 := t.arg1, exp := t.exp, csum := t.csum, csrx := t.csrx
      kindOut := t.kindOut, payLen := t.payLen, host := t.host, latency := t.latency, latencies := t.latencies
      draws := t.draws }) : t.Inv := by
  rw [h]
  exact { hi with validSchema := fun k hv => (hi.validSchema k hv).congr rfl fun _ _ => rfl }

theorem State.Inv.of_sameBlock (h : s.sameBlock t) : t.Inv :=
  hi.of_free (by rw [h])

theorem State.Inv.passLatency : s.passLatency.Inv := hi.of_free rfl

theorem State.Inv.hostAdvance : s.hostAdvance.Inv := hi.of_free rfl

theorem State.Inv.issue (w : Word32) : (s.issue w).Inv :=
  { hi with
    pendingBusy := rfl
    flags := .inr (.inl rfl)
    validSchema := fun k hv => (hi.validSchema k hv).congr rfl fun _ _ => rfl }

/-- A completion of the engine's step: the flags agree with ERR, and a VALID bit was set before or means a schema that
holds. -/
theorem State.Inv.of_completion (hc : s.sameConfig t) (hr : RamsOk t) (hidle : t.pending = false)
    (hf : ∃ m p, t.status = Status.completed t.err.code m p ∧ (m = true → p = false)
      ∧ (t.err.code ≠ .ok → m = false ∧ p = false))
    (hv : ∀ k, t.isValid k = true → s.schemaHolds k) : t.Inv := by
  have hdesc : t.desc = s.desc := by rw [hc]
  have hparams : t.params = s.params := by rw [hc]
  have hslots : t.slots = s.slots := by rw [hc]
  have hregs : t.schemaRegs = s.schemaRegs := by rw [hc]; rfl
  exact {
    params := hr.params
    pendingBusy := by
      obtain ⟨m, p, hs, -⟩ := hf
      rw [hidle, hs]
      rfl
    flags := .inr (.inr hf)
    bufWf := hr.bufWf
    descWf := hdesc ▸ hi.descWf
    resWf := hr.resWf
    bufKeys := hr.bufKeys
    descKeys := by rw [hdesc, hparams]; exact hi.descKeys
    resKeys := hr.resKeys
    kcfgReserved := fun k => by rw [State.slot, hslots]; exact hi.kcfgReserved k
    validSchema := fun k hk => (hv k hk).congr hregs fun i _ => State.readDesc_congr hdesc k i }

end

/-! ## The engine's step -/

/-- A command sets a VALID bit only as a SCHEMA.CHECK that succeeds. -/
theorem exec_sets_valid {i : Instr} {s t : State} {k : Kind} (h : exec i s = .next t) (hs : s.isValid k = false)
    (ht : t.isValid k = true) : i = .schemaCheck k ∧ t.err.code = .ok ∧ s.schemaHolds k := by
  rcases exec_valid h with hsame | ⟨j, rfl⟩
  · rw [State.isValid, hsame] at ht
    rw [State.isValid, ht] at hs
    cases hs
  · rcases execSchemaCheck_eq_next.1 h with ⟨-, rfl⟩ | ⟨-, _, -, rfl⟩ | ⟨hk, hd, rfl⟩ <;>
      rw [State.isValid] at ht
    · rw [State.raise_valid, ← State.isValid, State.setValid_isValid, hs, ite_self] at ht
      cases ht
    · rw [State.raise_valid, ← State.isValid, State.setValid_isValid, hs, ite_self] at ht
      cases ht
    · rw [State.finish_valid, ← State.isValid, State.setValid_isValid, hs] at ht
      split at ht
      · next hkj => subst hkj; exact ⟨rfl, rfl, hk, hd⟩
      · cases ht

theorem CompletedBy.flags {i : Instr} {t : State} {m p : Bool} (h : CompletedBy i t m p) :
    t.status = Status.completed t.err.code m p ∧ (m = true → p = false) ∧ (t.err.code ≠ .ok → m = false ∧ p = false) := by
  obtain ⟨-, hstatus, hmatched, hsnap, -⟩ := h
  refine ⟨hstatus, fun hm => ?_, fun hne => ?_⟩
  · obtain ⟨-, k, hv⟩ := hmatched hm
    refine Bool.eq_false_iff.2 fun hp => ?_
    obtain ⟨-, sel, rfl⟩ := hsnap.1 hp
    rcases hv with hv | hv <;> cases hv
  · exact ⟨Bool.eq_false_iff.2 fun hm => hne (hmatched hm).1, Bool.eq_false_iff.2 fun hp => hne (hsnap.1 hp).1⟩

theorem State.Inv.exec {i : Instr} {s t : State} (hi : s.Inv) (h : exec i s = .next t) : t.Inv := by
  obtain ⟨m, p, hdone⟩ := exec_completes h
  refine hi.of_completion (exec_sameConfig h) (exec_ramsOk hi h) hdone.idle ⟨m, p, hdone.flags⟩ fun k hk => ?_
  cases hs : s.isValid k with
  | true => exact hi.validSchema k hs
  | false => obtain ⟨-, -, hschema⟩ := exec_sets_valid h hs hk; exact hschema

theorem State.Inv.raise {s : State} (hi : s.Inv) (c : ResultCode) (x : BitVec 8) (q : BitVec 3) : (s.raise c x q).Inv :=
  hi.of_completion rfl (hi.ramsOk.raise c x q) rfl ⟨false, false, rfl, fun _ => rfl, fun _ => ⟨rfl, rfl⟩⟩ hi.validSchema

theorem State.Inv.engineStep {s t : State} (hi : s.Inv) (h : engineStep s = .next t) : t.Inv := by
  rw [Machine.engineStep] at h
  split at h
  · exact hi.exec h
  · cases h; exact hi.raise _ _ _

/-! ## Host writes -/

/-- Every VALID bit is 0 after the write, so nothing is claimed of any schema. -/
theorem State.Inv.clearAllValid_of {s : State} {slots : PerKind KindSlot} {h : BitVec 19} {d : BitVec 16} (hi : s.Inv)
    (hk : ∀ k, (slots.get k).kcfg.getLsbD 5 = false) :
    ({ s with slots := slots, hdrCfg := h, discOff := d }.clearAllValid).Inv :=
  { hi with
    kcfgReserved := hk
    validSchema := fun k hv => by rw [State.clearAllValid_isValid] at hv; cases hv }

theorem KindSlot.writeReg_reserved {q : KindSlot} (r : SlotReg) (v : Word32) (h : q.kcfg.getLsbD 5 = false) :
    (q.writeReg r v).kcfg.getLsbD 5 = false := by
  cases r with
  | kcfg => rw [KindSlot.writeReg, BitVec.getLsbD_and, show kcfgMask.getLsbD 5 = false by decide, Bool.and_false]
  | _ => exact h

theorem descAddr_ne_of_kind {j k : Kind} {i i' n n' : Nat} (hjk : j ≠ k) (hi : i < 32) (hi' : i' < 32) (hn : n < 8)
    (hn' : n' < 8) : descAddr j i n ≠ descAddr k i' n' := by
  have hne : j.index ≠ k.index := fun h => hjk (index_inj h)
  rw [descAddr, descAddr]
  omega

theorem State.readDesc_congr_words {s t : State} {k : Kind} {i : Nat}
    (h : ∀ n < 8, Memory.read s.desc (descAddr k i n) = Memory.read t.desc (descAddr k i n)) :
    s.readDesc k i = t.readDesc k i := by
  have word (n : Nat) (hn : n < 8) : s.descWord k i n = t.descWord k i n := by
    rw [State.descWord, State.descWord, h n hn]
  simp only [State.readDesc, word _ (show 0 < 8 by decide), word _ (show 1 < 8 by decide), word _ (show 2 < 8 by decide),
    word _ (show 4 < 8 by decide), word _ (show 5 < 8 by decide), word _ (show 6 < 8 by decide),
    word _ (show 7 < 8 by decide)]

/-- A descriptor word written clears the VALID bit of its kind; no other kind's descriptors have changed. -/
theorem State.Inv.writeDesc {s : State} {k : Kind} {i j : Nat} (hi : s.Inv) (v : Word32)
    (hl : locate s.params (descAddr k i j) = .desc k i j) (hn : i < s.params.nDesc) (hj : j < 8) :
    ({ s with desc := Memory.write s.desc (descAddr k i j) v }.setValid k false).Inv := by
  obtain ⟨-, -, -, -, hmax⟩ := hi.params
  refine { hi with descWf := Memory.write_wf hi.descWf _ _, descKeys := fun c hc => ?_, validSchema := fun k' hv => ?_ }
  · rcases Memory.mem_write hc with rfl | hc
    · exact ⟨k, i, j, hl, rfl⟩
    · exact hi.descKeys c hc
  · rw [State.setValid_isValid] at hv
    split at hv
    · cases hv
    next hne =>
    have hvs : s.isValid k' = true := hv
    refine (hi.validSchema k' hvs).congr rfl fun i' hi' => State.readDesc_congr_words fun n hn' => ?_
    have hi' := hi.lt_nDesc_of_valid hvs hi'
    exact Memory.read_write_other _ _ (descAddr_ne_of_kind hne (by omega) (by omega) hn' hj)

theorem RamsOk.inv {s t : State} (hs : s.Inv) (ht : RamsOk t) (h : t = { s with buf := t.buf, res := t.res }) : t.Inv := by
  have hparams : t.params = s.params := by rw [h]
  have hschema (k : Kind) (hv : s.isValid k = true) : t.schemaHolds k := by
    rw [h]
    exact (hs.validSchema k hv).congr rfl fun _ _ => rfl
  rw [h] at ht hschema ⊢
  exact { hs with
    bufWf := ht.bufWf, resWf := ht.resWf, bufKeys := ht.bufKeys, resKeys := ht.resKeys, validSchema := hschema }

theorem State.Inv.writeGlobal {s : State} (hi : s.Inv) (r : GlobalReg) (v : Word32) : (s.writeGlobal r v).Inv := by
  cases r with
  | cmd => exact hi.issue v
  | hdrCfg => exact hi.clearAllValid_of hi.kcfgReserved
  | discOff => exact hi.clearAllValid_of hi.kcfgReserved
  | _ => exact hi.of_free rfl

theorem State.Inv.writeLocation {s : State} {a : Nat} (hi : s.Inv) (v : Word32) (ha : a % 4 = 0) :
    (s.writeLocation (locate s.params a) v).Inv := by
  have hat := locate_isAt (p := s.params) ha
  cases hl : locate s.params a with
  | global r => exact hi.writeGlobal r v
  | slot k r =>
    refine hi.clearAllValid_of fun j => ?_
    rw [PerKind.get_set]
    split
    · exact KindSlot.writeReg_reserved r v (hi.kcfgReserved k)
    · exact hi.kcfgReserved j
  | desc k i j =>
    rw [hl] at hat
    obtain ⟨hn, hj, -, rfl⟩ := hat
    exact hi.writeDesc v hl hn hj
  | res i j =>
    rw [hl] at hat
    obtain ⟨hn, hj, -⟩ := hat
    exact (hi.ramsOk.setResWords (ws := [v]) hn hj).inv hi rfl
  | window b =>
    rw [hl] at hat
    obtain ⟨rfl, hb⟩ := hat
    obtain ⟨h4, -⟩ := hi.params
    have inside : b + (laneBytes v).length ≤ s.params.bufSize := by change b + 4 ≤ _; omega
    exact (hi.ramsOk.writeBuf inside).inv hi rfl
  | reserved => exact hi

/-! ## Reset -/

theorem inv_of_reset {p : Params} (hp : p.legal) (h : HostAgent) (ls : List Nat) (n : Nat) :
    State.Inv { State.reset with params := p, host := h, latencies := ls, draws := n } where
  params := hp
  pendingBusy := rfl
  flags := .inl ⟨rfl, rfl⟩
  bufWf := List.Pairwise.nil
  descWf := List.Pairwise.nil
  resWf := List.Pairwise.nil
  bufKeys := nofun
  descKeys := nofun
  resKeys := nofun
  kcfgReserved k := by
    have hbit : KindSlot.reset.kcfg.getLsbD 5 = false := by decide
    cases k <;> exact hbit
  validSchema k hv := by cases k <;> cases hv

theorem State.Inv.hostStep {s t : State} (hi : s.Inv) (h : hostStep s = .next t) : t.Inv := by
  rw [Machine.hostStep] at h
  split at h
  · cases h; exact hi
  rcases State.runStmt_eq_next h with hsame | ⟨a, v, hw⟩ | ⟨-, rfl⟩
  · exact hi.passLatency.of_sameBlock hsame
  · obtain ⟨-, ha, -, rfl⟩ := State.hostWrite_eq_next.1 hw
    exact hi.passLatency.hostAdvance.writeLocation v ha
  · exact inv_of_reset hi.params _ _ _

end Sys2Proof.Machine
end

section
/-! The statements about the invariant and the VALID bits (10_state.md R67, R73). -/

namespace Sys2Proof.Machine

/-- Settles O52: the engine's step and the host's step each keep the invariant. -/
theorem stepKeepsTheInvariant : Obligations.StepKeepsTheInvariant := by
  intro s t hi h
  rw [step] at h
  split at h
  · exact hi.engineStep h
  · exact hi.hostStep h

/-- Settles O53: after reset no VALID bit is set and no memory holds anything. -/
theorem invariantHoldsAtReset : Obligations.InvariantHoldsAtReset :=
  ⟨inv_of_reset (by decide) _ _ _, fun _ h ls hp => inv_of_reset hp h ls 0⟩

end Sys2Proof.Machine
end

section
/-! SUPPORT. In a state of the invariant every access of a command lies within the buffer, and every descriptor of a valid
kind can be read (60_exceptions.md R309; 42_field.md R220). -/

namespace Sys2Proof.Machine

/-! ## Accesses within the buffer -/

section Within
variable {s : State} {k : Kind}

theorem State.readUInt_error_within {a w : Nat} {ord : ByteOrder} {e : Stop} (hn : a + w ≤ s.params.bufSize)
    (h : s.readUInt a w ord = .error e) : e = .fault .unwrittenBuffer :=
  State.memRead_error_within hn (State.readUInt_eq_error.1 h)

theorem State.readRaw_error_within {a : Nat} {d : Desc} {e : Stop} (hn : a + d.w ≤ s.params.bufSize)
    (h : s.readRaw a d = .error e) : e = .fault .unwrittenBuffer :=
  State.memRead_error_within hn (State.readRaw_eq_error.1 h)

theorem State.writeUInt_of_within {a w u : Nat} {ord : ByteOrder} (hn : a + w ≤ s.params.bufSize) :
    s.writeUInt a w ord u = .ok { s with buf := Memory.writeSeq 1 s.buf a (natToBytes ord w u) } :=
  State.writeUInt_eq_ok.2 ⟨hn, rfl⟩

variable {t : Nat} (ht : t ≤ s.params.bufSize)
include ht

theorem State.frameCsum_error_within {e : Stop} (ha : (s.slot k).kcsStart.toNat ≤ t) (h : s.frameCsum k t = .error e) :
    e = .fault .unwrittenBuffer :=
  State.memRead_error_within (by omega) (State.csumOf_eq_error.1 h)

theorem State.frameTrailer_error_within {e : Stop} (hw : (s.profile k).csw ≤ t) (h : s.frameTrailer k t = .error e) :
    e = .fault .unwrittenBuffer :=
  State.readUInt_error_within (by omega) h

end Within

theorem State.rangeCsum_fault {s : State} {k : Kind} {f : Fault} (h : s.rangeCsum k = .error (.fault f)) :
    f = .unwrittenBuffer := by
  rcases State.rangeCsum_eq_error.1 h with ⟨-, h⟩ | ⟨-, -, h⟩ | ⟨-, hn, h⟩
  · cases h
  · cases h
  · cases State.memRead_error_within hn (State.csumOf_eq_error.1 h)
    rfl

theorem State.trailerChecks_ne_fault {s : State} {k : Kind} {f : Fault} : s.trailerChecks k ≠ .error (.fault f) := by
  intro h
  rcases State.trailerChecks_eq_error.1 h with ⟨-, h⟩ | ⟨-, -, h⟩ <;> cases h

theorem State.trailerValues_fault {s : State} {k : Kind} {f : Fault} (h : s.trailerValues k = .error (.fault f)) :
    f = .unwrittenBuffer := by
  rcases State.trailerValues_eq_error.1 h with h | ⟨hc, h | ⟨-, h⟩⟩
  · exact absurd h State.trailerChecks_ne_fault
  · obtain ⟨-, hT, ha⟩ := State.trailerChecks_eq_ok.1 hc
    cases State.frameCsum_error_within hT (by omega) h
    rfl
  · obtain ⟨-, hT, ha⟩ := State.trailerChecks_eq_ok.1 hc
    cases State.frameTrailer_error_within hT (by omega) h
    rfl

theorem State.trailerAppended_fault {s : State} {k : Kind} {f : Fault} (h : s.trailerAppended k = .error (.fault f)) :
    f = .unwrittenBuffer := by
  rcases State.trailerAppended_eq_error.1 h with h | ⟨hc, h | ⟨x, -, h⟩⟩
  · exact absurd h State.trailerChecks_ne_fault
  · obtain ⟨-, hT, ha⟩ := State.trailerChecks_eq_ok.1 hc
    cases State.frameCsum_error_within hT (by omega) h
    rfl
  · obtain ⟨-, hT, ha⟩ := State.trailerChecks_eq_ok.1 hc
    obtain ⟨hout, -⟩ := State.writeUInt_eq_error.1 h
    omega

/-! ## The descriptors of a valid kind -/

theorem DescFacts.exists_desc {s : State} {k : Kind} {ds : List Desc} (hd : DescFacts s k ds) {i : Nat}
    (hi : i < (s.slot k).kndesc.toNat) : ∃ d, ds[i]? = some d := by
  rw [← hd.len] at hi
  exact ⟨ds[i], List.getElem?_eq_getElem hi⟩

/-- A descriptor of a kind whose schema holds is written, and its field lies in the shortest payload. -/
theorem State.schemaHolds.readDesc {s : State} {k : Kind} {i : Nat} (h : s.schemaHolds k)
    (hi : i < (s.slot k).kndesc.toNat) :
    ∃ d, s.readDesc k i = .ok d ∧ d.offset + d.w ≤ (s.slot k).kpayMin.toNat := by
  obtain ⟨ds, hds⟩ := descFacts h.2
  obtain ⟨d, hd⟩ := hds.exists_desc hi
  exact ⟨d, hds.read i d hd, hds.bound i d hd⟩

theorem State.schemaHolds.field_le {s : State} {k : Kind} {i : Nat} {d : Desc} (h : s.schemaHolds k)
    (hi : i < (s.slot k).kndesc.toNat) (hd : s.readDesc k i = .ok d) :
    d.offset + d.w ≤ (s.slot k).kpayMin.toNat := by
  obtain ⟨d', hd', hle⟩ := h.readDesc hi
  rw [hd] at hd'
  cases hd'
  exact hle

/-! ## The field commands -/

section Fields
variable {s : State} {k : Kind} {idx : BitVec 8} (hi : s.Inv)
include hi

theorem State.Inv.fieldChecks_ne_fault {f : Fault} : s.fieldChecks k idx ≠ .error (.fault f) := by
  intro h
  rcases State.fieldChecks_eq_error.1 h with ⟨-, h⟩ | ⟨-, -, h⟩ | ⟨hv, hlt, h⟩ | ⟨-, -, -, h⟩
  · cases h
  · cases h
  · obtain ⟨d, hd, -⟩ := (hi.validSchema k hv).readDesc hlt
    rw [hd] at h; cases h
  · cases h

theorem State.Inv.fieldExtracted_fault {f : Fault} (h : s.fieldExtracted k idx = .error (.fault f)) :
    f = .unwrittenBuffer := by
  rcases State.fieldExtracted_eq_error.1 h with h | ⟨d, hc, h | ⟨_, -, -, h⟩⟩
  · exact absurd h hi.fieldChecks_ne_fault
  · obtain ⟨-, -, -, hT, hp⟩ := State.fieldChecks_eq_ok.1 hc
    cases State.readRaw_error_within (hp.trans hT) h
    rfl
  · cases h

omit hi in
theorem State.encodeRaw_fault {i : Nat} {d : Desc} {f : Fault} (h : s.encodeRaw i d = .error (.fault f)) :
    f = .unwrittenResult := by
  rcases State.encodeRaw_eq_error.1 h with h | ⟨_, -, -, h⟩
  · rcases State.invScale_eq_error h with h | h <;> cases h
    rfl
  · cases h

theorem State.Inv.fieldInserted_fault {f : Fault} (h : s.fieldInserted k idx = .error (.fault f)) :
    f = .unwrittenResult := by
  rcases State.fieldInserted_eq_error.1 h with h | ⟨d, hc, h | ⟨_, -, h⟩⟩
  · exact absurd h hi.fieldChecks_ne_fault
  · exact State.encodeRaw_fault h
  · obtain ⟨-, -, -, hT, hp⟩ := State.fieldChecks_eq_ok.1 hc
    obtain ⟨hout, -⟩ := State.putField_eq_error.1 h
    omega

end Fields

/-! ## FRAME.DECODE -/

/-- What a FRAME.DECODE knows of its kind and of the frame once it has the payload length. -/
structure Decoding (s : State) (sel : DecodeSel) (k : Kind) (p : Nat) : Prop where
  kind : KindFacts s k
  schema : s.schemaHolds k
  inside : s.frameLen.toNat ≤ s.params.bufSize
  length : s.frameLen.toNat = s.hdrLen + p + (s.profile k).csw
  payMin : (s.slot k).kpayMin.toNat ≤ p

section Decode
variable {s : State} {sel : DecodeSel} {k : Kind} {p : Nat} (hi : s.Inv)
include hi

theorem State.Inv.decoding (hk : s.decodeKindOf sel = .ok k) (hp : s.decodePayload k = .ok p) : Decoding s sel k p := by
  obtain ⟨d, ⟨hc, hT, -⟩, hr⟩ := State.decodeKindOf_eq_ok.1 hk
  obtain ⟨hpay, hlen⟩ := State.decodePayload_eq_ok.1 hp
  have hs := hi.schemaHolds_of_resolve hc hr
  have hf := kindFacts hs.1
  exact ⟨hf, hs, hT, hlen, (hf.payload hpay).1⟩

theorem State.Inv.decodeKindOf_fault {f : Fault} (h : s.decodeKindOf sel = .error (.fault f)) : f = .unwrittenBuffer := by
  rcases State.decodeKindOf_eq_error.1 h with ⟨-, h⟩ | ⟨-, -, h⟩ | ⟨-, -, -, h⟩ | ⟨hc, hT, hh, h⟩ | ⟨_, -, -, h⟩
  · cases h
  · cases h
  · cases h
  · obtain ⟨j, hj⟩ := hi.kindFacts_of_serves hc
    cases State.readUInt_error_within (hj.disc.trans (hh.trans hT)) h
    rfl
  · cases h

theorem State.Inv.decodePayload_fault {f : Fault} (hk : s.decodeKindOf sel = .ok k)
    (h : s.decodePayload k = .error (.fault f)) : f = .unwrittenBuffer := by
  obtain ⟨_, ⟨-, hT, hh, -⟩, -⟩ := State.decodeKindOf_eq_ok.1 hk
  rcases State.decodePayload_eq_error.1 h with ⟨hm, h⟩ | ⟨h, -⟩
  · obtain ⟨hlen, -⟩ := (hi.kindFacts_of_decodeKindOf hk).len hm
    cases State.readUInt_error_within (hlen.trans (hh.trans hT)) h
    rfl
  · cases h

omit hi

theorem Decoding.decodeChecksums_fault {f : Fault} (hd : Decoding s sel k p)
    (h : s.decodeChecksums k (s.totalLength k p) = .error (.fault f)) : f = .unwrittenBuffer := by
  have hlen := hd.length
  have hstart := hd.kind.start
  have hT := hd.inside
  rw [State.totalLength, ← hd.length] at h
  rcases State.decodeChecksums_eq_error.1 h with h | ⟨-, h⟩
  · cases State.frameCsum_error_within hT (by omega) h
    rfl
  · cases State.frameTrailer_error_within hT (by omega) h
    rfl

theorem Decoding.decodeFields_fault {f : Fault} (hd : Decoding s sel k p)
    (h : s.decodeFields k (s.descIndexes k) = .error (.fault f)) : f = .unwrittenBuffer := by
  obtain ⟨n, hn, -, h⟩ := State.decodeFields_eq_error.1 h
  have hin : (s.descIndexes k)[n] < (s.slot k).kndesc.toNat := List.mem_range.1 (List.getElem_mem hn)
  obtain ⟨d, hread, hle⟩ := hd.schema.readDesc hin
  rcases h with h | ⟨d', hread', h | ⟨_, -, -, h⟩⟩
  · rw [hread] at h; cases h
  · rw [hread] at hread'; cases hread'
    have hlen := hd.length
    have hT := hd.inside
    have hmin := hd.payMin
    have hpos : s.fieldPos d + d.w ≤ s.params.bufSize := by rw [State.fieldPos]; omega
    cases State.readRaw_error_within hpos h
    rfl
  · cases h

/-- The two checksum registers do not matter to the fields. -/
theorem State.decodeFields_setCsum (s : State) (x rx : Nat) (k : Kind) (is : List Nat) :
    ((s.setCsum x).setCsrx rx).decodeFields k is = s.decodeFields k is := by
  induction is with
  | nil => rfl
  | cons i is ih => rw [State.decodeFields, State.decodeFields, ih]; rfl

end Decode

theorem execFrameDecode_eq_fault {sel : DecodeSel} {s : State} {f : Fault} :
    execFrameDecode sel s = .fault f ↔
      s.decodeKindOf sel = .error (.fault f)
      ∨ (∃ k, s.decodeKindOf sel = .ok k ∧ s.decodePayload k = .error (.fault f))
      ∨ ∃ k p, s.decodeKindOf sel = .ok k ∧ s.decodePayload k = .ok p
        ∧ (s.decodeChecksums k (s.totalLength k p) = .error (.fault f)
          ∨ ∃ x, s.decodeChecksums k (s.totalLength k p) = .ok (x, x)
            ∧ s.decodeFields k (s.descIndexes k) = .error (.fault f)) := by
  rw [execFrameDecode]
  cases hk : s.decodeKindOf sel with
  | error e => simp [State.stop_eq_fault]
  | ok k =>
    cases hp : s.decodePayload k with
    | error e => simp [State.stop_eq_fault, hp]
    | ok p =>
      simp only [State.decodeBody, hp]
      cases hx : s.decodeChecksums k (s.totalLength k p) with
      | error e => simp [State.stop_eq_fault, hp, hx]
      | ok q =>
        obtain ⟨x, rx⟩ := q
        by_cases hxr : x = rx
        · subst hxr
          have hfields : ((s.setCsum x).setCsrx x).decodeFields k (((s.setCsum x).setCsrx x).descIndexes k)
              = s.decodeFields k (s.descIndexes k) := State.decodeFields_setCsum s x x k _
          simp only [if_true, State.decodeCommit, hfields]
          cases hr : s.decodeFields k (s.descIndexes k) with
          | error e => simp [State.stop_eq_fault, hp, hx, hr]
          | ok rs => simp [hp, hx, hr]
        · have hrx : rx ≠ x := Ne.symm hxr
          simp [hp, hx, hxr, hrx]

end Sys2Proof.Machine
end

section
/-! SUPPORT. The writes of FRAME.ENCODE, one after the other: each lies within the buffer, and what stands where when all
are done (43_frame.md R269, R270). -/

namespace Sys2Proof.Machine

/-- t is s but for the frame buffer and the result RAM. -/
def State.sameButRams (s t : State) : Prop := t = { s with buf := t.buf, res := t.res }

theorem State.sameButRams.trans {s t u : State} (h : s.sameButRams t) (h' : t.sameButRams u) : s.sameButRams u := by
  rw [State.sameButRams] at *
  rw [h', h]

theorem State.sameButRams_of_writeUInt {s t : State} {a w u : Nat} {ord : ByteOrder} (h : s.writeUInt a w ord u = .ok t) :
    s.sameButRams t := by
  obtain ⟨-, rfl⟩ := State.writeUInt_eq_ok.1 h; rfl

theorem State.sameButRams_of_putLength {s t : State} {k : Kind} {p : Nat} (h : s.putLength k p = .ok t) :
    s.sameButRams t := by
  rw [State.putLength] at h
  split at h
  · exact State.sameButRams_of_writeUInt h
  · cases h; rfl

theorem State.sameButRams_of_putFields {s t : State} {i : Nat} {rs : List (Desc × Int)} (h : s.putFields i rs = .ok t) :
    s.sameButRams t := by
  have hframe := State.putFields_frame h
  rw [State.sameButRams, hframe]

theorem State.putLength_of_within {s : State} {k : Kind} {p : Nat}
    (h : (s.slot k).lenMode = true → (s.slot k).klenOff.toNat + (s.slot k).lenBytes ≤ s.params.bufSize) :
    ∃ t, s.putLength k p = .ok t := by
  rw [State.putLength]
  split
  · next hm => exact ⟨_, State.writeUInt_of_within (h hm)⟩
  · exact ⟨_, rfl⟩

/-! ## The fields -/

theorem State.putFields_of_within {s : State} {i : Nat} {rs : List (Desc × Int)}
    (h : ∀ q ∈ rs, s.hdrLen + q.1.offset + q.1.w ≤ s.params.bufSize) : ∃ t, s.putFields i rs = .ok t := by
  induction rs generalizing s i with
  | nil => exact ⟨s, rfl⟩
  | cons q rs ih =>
    obtain ⟨d, r⟩ := q
    obtain ⟨u, hu⟩ : ∃ u, s.putField i d r = .ok u :=
      ⟨_, State.putField_eq_ok.2 ⟨h (d, r) List.mem_cons_self, rfl⟩⟩
    have hrest : ∀ q ∈ rs, u.hdrLen + q.1.offset + q.1.w ≤ u.params.bufSize := by
      obtain ⟨-, rfl⟩ := State.putField_eq_ok.1 hu
      exact fun q hq => h q (List.mem_cons_of_mem _ hq)
    obtain ⟨t, ht⟩ := ih hrest
    exact ⟨t, bind_eq_ok.2 ⟨u, hu, ht⟩⟩

/-- A byte outside every field is as before. -/
theorem State.putFields_buf_other {s t : State} {i a : Nat} {rs : List (Desc × Int)} (h : s.putFields i rs = .ok t)
    (ha : ∀ q ∈ rs, a < s.hdrLen + q.1.offset ∨ s.hdrLen + q.1.offset + q.1.w ≤ a) :
    Memory.read t.buf a = Memory.read s.buf a := by
  induction rs generalizing s i with
  | nil => cases h; rfl
  | cons q rs ih =>
    obtain ⟨u, hu, h⟩ := bind_eq_ok.1 h
    obtain ⟨-, rfl⟩ := State.putField_eq_ok.1 hu
    rw [ih h fun q' hq' => ha q' (List.mem_cons_of_mem _ hq')]
    exact Memory.read_writeSeq_outside _ (by rw [natToBytes_length]; exact ha q List.mem_cons_self)

/-- A result word that is no RAW word of the entries written is as before. -/
theorem State.putFields_res_other {s t : State} {i a : Nat} {rs : List (Desc × Int)} (h : s.putFields i rs = .ok t)
    (ha : ∀ n < rs.length, a ≠ resAddr (i + n) 0 ∧ a ≠ resAddr (i + n) 1) :
    Memory.read t.res a = Memory.read s.res a := by
  induction rs generalizing s i with
  | nil => cases h; rfl
  | cons q rs ih =>
    obtain ⟨u, hu, h⟩ := bind_eq_ok.1 h
    obtain ⟨-, rfl⟩ := State.putField_eq_ok.1 hu
    rw [ih h fun n hn => by rw [Nat.add_right_comm, Nat.add_assoc]; exact ha (n + 1) (by simpa using hn)]
    refine State.read_setResWords_other fun n hn => ?_
    obtain ⟨h0, h1⟩ := ha 0 (by simp)
    have hcases : n = 0 ∨ n = 1 := by rw [natToWords_length] at hn; omega
    rcases hcases with rfl | rfl
    · exact h0
    · exact h1

/-- Each field holds its pattern when no later field lies over it, and each entry its RAW words. -/
theorem State.putFields_holds {s t : State} {i n : Nat} {rs : List (Desc × Int)} {d : Desc} {r : Int}
    (h : s.putFields i rs = .ok t) (hn : rs[n]? = some (d, r))
    (hsep : ∀ m e x, n < m → rs[m]? = some (e, x) → d.offset + d.w ≤ e.offset ∨ e.offset + e.w ≤ d.offset) :
    t.holdsBytes (s.hdrLen + d.offset) (natToBytes d.ord d.w (d.pattern r))
      ∧ t.holdsResWords (i + n) 0 (natToWords 2 (pattern 64 r)) := by
  induction rs generalizing s i n with
  | nil => cases hn
  | cons q rs ih =>
    obtain ⟨u, hu, h⟩ := bind_eq_ok.1 h
    obtain ⟨-, rfl⟩ := State.putField_eq_ok.1 hu
    cases n with
    | zero =>
      cases hn
      refine ⟨fun j hj => ?_, fun j hj => ?_⟩
      · rw [natToBytes_length] at hj
        rw [State.putFields_buf_other h]
        · exact State.holdsBytes_of_writeSeq rfl j (by rwa [natToBytes_length])
        · rintro ⟨e, x⟩ hq
          obtain ⟨m, hm⟩ := List.mem_iff_getElem?.1 hq
          have := hsep (m + 1) e x (by omega) hm
          change s.hdrLen + d.offset + j < s.hdrLen + e.offset ∨ s.hdrLen + e.offset + e.w ≤ s.hdrLen + d.offset + j
          omega
      · rw [natToWords_length] at hj
        rw [State.putFields_res_other h]
        · exact State.holdsResWords_setResWords _ _ _ _ j (by rwa [natToWords_length])
        · intro m _
          rw [resAddr, resAddr, resAddr]
          omega
    | succ n =>
      have hrest := ih h hn fun m e x hm he => hsep (m + 1) e x (by omega) he
      rwa [Nat.add_right_comm, Nat.add_assoc] at hrest

/-! ## The whole frame -/

/-- What a FRAME.ENCODE knows of its kind once it has the payload length and the raw integers. -/
structure Encoding (s : State) (k : Kind) (p : Nat) (rs : List (Desc × Int)) : Prop where
  kind : KindFacts s k
  payload : s.encodePayload k = .ok p
  payMin : (s.slot k).kpayMin.toNat ≤ p
  payMax : p ≤ (s.slot k).kpayMax.toNat
  fields : s.encodeFields k (s.descIndexes k) = .ok rs
  descs : DescFacts s k (rs.map Prod.fst)

theorem State.Inv.encoding {s : State} {k : Kind} {p : Nat} {rs : List (Desc × Int)} (hi : s.Inv)
    (hv : s.isValid k = true) (hp : s.encodePayload k = .ok p) (hrs : s.encodeFields k (s.descIndexes k) = .ok rs) :
    Encoding s k p rs := by
  have hf := hi.kindFacts_of_valid hv
  have hpay : (s.slot k).kpayMin.toNat ≤ p ∧ p ≤ (s.slot k).kpayMax.toNat := by
    have := State.encodePayload_eq_ok.1 hp
    split at this
    · exact this.2
    · rw [this]; exact ⟨le_refl _, hf.payMin_le⟩
  obtain ⟨ds, hds⟩ := descFacts (hi.validSchema k hv).2
  have hmap : rs.map Prod.fst = ds := by
    obtain ⟨hlen, hread⟩ := State.encodeFields_eq_ok.1 hrs
    rw [State.descIndexes, List.length_range] at hlen
    refine List.ext_getElem? fun i => ?_
    rcases Nat.lt_or_ge i (s.slot k).kndesc.toNat with hlt | hge
    · obtain ⟨d, hd⟩ := hds.exists_desc hlt
      obtain ⟨d', r, hr, ⟨hd', -⟩, -⟩ := hread i (by rwa [State.descIndexes, List.length_range])
      have hindex : (s.descIndexes k)[i]'(by rwa [State.descIndexes, List.length_range]) = i := by
        simp [State.descIndexes]
      rw [hindex, hds.read i d hd] at hd'
      cases hd'
      rw [List.getElem?_map, hr, hd]; rfl
    · rw [List.getElem?_eq_none (by rw [List.length_map]; omega), List.getElem?_eq_none (by rw [hds.len]; omega)]
  exact ⟨hf, hp, hpay.1, hpay.2, hrs, hmap ▸ hds⟩

section
variable {s : State} {k : Kind} {p : Nat} {rs : List (Desc × Int)} (he : Encoding s k p rs)
include he

omit he in
theorem Encoding.getElem?_descs {i : Nat} {d : Desc} {r : Int} (h : rs[i]? = some (d, r)) :
    (rs.map Prod.fst)[i]? = some d := by
  rw [List.getElem?_map, h]; rfl

theorem Encoding.totalLength_le : s.totalLength k p ≤ s.params.bufSize := by
  have hfits := he.kind.fits
  have hp := he.payMax
  rw [State.totalLength]
  omega

theorem Encoding.field_le {q : Desc × Int} (hq : q ∈ rs) : q.1.offset + q.1.w ≤ p := by
  obtain ⟨i, hi⟩ := List.mem_iff_getElem?.1 hq
  exact (he.descs.bound i q.1 (Encoding.getElem?_descs hi)).trans he.payMin

/-- The three parts before the checksum all succeed. -/
theorem Encoding.exists_body :
    ∃ s1 s2 s3, s.putDisc k = .ok s1 ∧ s1.putLength k p = .ok s2 ∧ s2.putFields 0 rs = .ok s3 ∧ s.sameButRams s1
      ∧ s.sameButRams s2 ∧ s.sameButRams s3 := by
  have hT := he.totalLength_le
  rw [State.totalLength] at hT
  obtain ⟨s1, h1⟩ : ∃ s1, s.putDisc k = .ok s1 :=
    ⟨_, State.writeUInt_of_within (by have := he.kind.disc; omega)⟩
  have hs1 := State.sameButRams_of_writeUInt h1
  obtain ⟨s2, h2⟩ : ∃ s2, s1.putLength k p = .ok s2 := State.putLength_of_within fun hm => by
    rw [hs1] at hm ⊢
    obtain ⟨hlen, -⟩ := he.kind.len hm
    exact hlen.trans (by change s.hdrLen ≤ s.params.bufSize; omega)
  have hs2 := hs1.trans (State.sameButRams_of_putLength h2)
  obtain ⟨s3, h3⟩ := State.putFields_of_within (s := s2) (i := 0) (rs := rs) fun q hq => by
    have := he.field_le hq
    rw [hs2]
    change s.hdrLen + q.1.offset + q.1.w ≤ s.params.bufSize
    omega
  exact ⟨s1, s2, s3, h1, h2, h3, hs1, hs2, hs2.trans (State.sameButRams_of_putFields h3)⟩

theorem Encoding.encodeWrites_fault {f : Fault} (h : s.encodeWrites k p rs = .error (.fault f)) :
    f = .unwrittenBuffer := by
  obtain ⟨s1, s2, s3, h1, h2, h3, -, -, hs3⟩ := he.exists_body
  have hT := he.totalLength_le
  have hstart := he.kind.start
  have htotal : s.totalLength k p = s.hdrLen + p + (s.profile k).csw := rfl
  have hparams : s3.params = s.params := by rw [hs3]
  have hslot : s3.slot k = s.slot k := by rw [hs3]; rfl
  have hcsw : s3.profile k = s.profile k := by rw [hs3]; rfl
  simp only [State.encodeWrites, h1, h2, h3, ok_bind] at h
  rcases bind_eq_error.1 h with h | ⟨x, -, h⟩
  · cases State.frameCsum_error_within (by rwa [hparams]) (by rw [hslot]; omega) h
    rfl
  · rcases bind_eq_error.1 h with h | ⟨_, -, h⟩
    · obtain ⟨hout, -⟩ := State.writeUInt_eq_error.1 h
      rw [hparams, hcsw] at hout
      omega
    · cases h

end

theorem State.encodeFields_fault {s : State} {k : Kind} {f : Fault} (hs : s.schemaHolds k)
    (h : s.encodeFields k (s.descIndexes k) = .error (.fault f)) : f = .unwrittenResult := by
  obtain ⟨n, hn, -, h⟩ := State.encodeFields_eq_error.1 h
  have hin : (s.descIndexes k)[n] < (s.slot k).kndesc.toNat := List.mem_range.1 (List.getElem_mem hn)
  obtain ⟨d, hread, -⟩ := hs.readDesc hin
  rcases h with h | ⟨d', -, h⟩
  · rw [hread] at h; cases h
  · exact State.encodeRaw_fault h

theorem State.Inv.frameEncoded_fault {s : State} {k : Kind} {f : Fault} (hi : s.Inv)
    (h : s.frameEncoded k = .error (.fault f)) : f = .unwrittenBuffer ∨ f = .unwrittenResult := by
  rcases State.frameEncoded_eq_error.1 h with ⟨-, h⟩ | ⟨hv, h | ⟨p, hp, h | ⟨rs, hrs, h⟩⟩⟩
  · cases h
  · obtain ⟨-, -, h⟩ := State.encodePayload_eq_error.1 h; cases h
  · exact .inr (State.encodeFields_fault (hi.validSchema k hv) h)
  · exact .inl ((hi.encoding hv hp hrs).encodeWrites_fault h)

end Sys2Proof.Machine
end

section
/-! SUPPORT. The faults of a command in a state of the invariant, and of a host step (60_exceptions.md R309, R316). -/

namespace Sys2Proof.Machine

theorem execTrailerAppend_eq_fault {k : Kind} {s : State} {f : Fault} :
    execTrailerAppend k s = .fault f ↔ s.trailerAppended k = .error (.fault f) := by
  rw [execTrailerAppend]
  cases s.trailerAppended k with
  | error e => simp [State.stop_eq_fault]
  | ok x => simp

theorem execFieldExtract_eq_fault {k : Kind} {idx : BitVec 8} {s : State} {f : Fault} :
    execFieldExtract k idx s = .fault f ↔ s.fieldExtracted k idx = .error (.fault f) := by
  rw [execFieldExtract]
  cases s.fieldExtracted k idx with
  | error e => simp [State.stop_eq_fault]
  | ok x => simp

theorem execFieldInsert_eq_fault {k : Kind} {idx : BitVec 8} {s : State} {f : Fault} :
    execFieldInsert k idx s = .fault f ↔ s.fieldInserted k idx = .error (.fault f) := by
  rw [execFieldInsert]
  cases s.fieldInserted k idx with
  | error e => simp [State.stop_eq_fault]
  | ok x => simp

theorem execFrameEncode_eq_fault {k : Kind} {s : State} {f : Fault} :
    execFrameEncode k s = .fault f ↔ s.frameEncoded k = .error (.fault f) := by
  rw [execFrameEncode]
  cases s.frameEncoded k with
  | error e => simp [State.stop_eq_fault]
  | ok x => simp

theorem execSchemaCheck_fault {k : Kind} {s : State} {f : Fault} (h : execSchemaCheck k s = .fault f) :
    f = .unwrittenDescriptor := by
  rw [execSchemaCheck] at h
  split at h
  · split at h
    · next he => cases State.descFail_eq_error he; cases h; rfl
    · cases h
    · cases h
  · cases h

/-- The only faults a command meets from a state of the invariant. -/
theorem exec_fault {i : Instr} {s : State} {f : Fault} (hi : s.Inv) (h : exec i s = .fault f) :
    f = .unwrittenBuffer ∨ f = .unwrittenResult ∨ (f = .unwrittenDescriptor ∧ ∃ k, i = .schemaCheck k) := by
  cases i with
  | nop => cases h
  | csumCompute k => exact .inl (State.rangeCsum_fault (execCsumCompute_eq_fault.1 h))
  | csumVerify k => exact .inl (State.rangeCsum_fault (execCsumVerify_eq_fault.1 h))
  | trailerVerify k => exact .inl (State.trailerValues_fault (execTrailerVerify_eq_fault.1 h))
  | trailerAppend k => exact .inl (State.trailerAppended_fault (execTrailerAppend_eq_fault.1 h))
  | fieldExtract k idx => exact .inl (hi.fieldExtracted_fault (execFieldExtract_eq_fault.1 h))
  | fieldInsert k idx => exact .inr (.inl (hi.fieldInserted_fault (execFieldInsert_eq_fault.1 h)))
  | schemaCheck k => exact .inr (.inr ⟨execSchemaCheck_fault h, k, rfl⟩)
  | frameDecode sel =>
    rcases execFrameDecode_eq_fault.1 h with h | ⟨k, hk, h⟩ | ⟨k, p, hk, hp, h | ⟨x, -, h⟩⟩
    · exact .inl (hi.decodeKindOf_fault h)
    · exact .inl (hi.decodePayload_fault hk h)
    · exact .inl ((hi.decoding hk hp).decodeChecksums_fault h)
    · exact .inl ((hi.decoding hk hp).decodeFields_fault h)
  | frameEncode k =>
    rcases hi.frameEncoded_fault (execFrameEncode_eq_fault.1 h) with h | h
    · exact .inl h
    · exact .inr (.inl h)

theorem engineStep_eq_fault {s : State} {f : Fault} (h : engineStep s = .fault f) :
    ∃ i, decode s.params.nDesc s.cmd = .ok i ∧ exec i s = .fault f := by
  rw [engineStep] at h
  split at h
  · next i hi => exact ⟨i, hi, h⟩
  · cases h

theorem hostStep_fault {s : State} {f : Fault} (h : hostStep s = .fault f) : f = .hostWriteWhileBusy := by
  rw [hostStep] at h
  split at h
  · cases h
  next c _ =>
  cases c with
  | wr a v =>
    rw [State.runStmt, State.hostWrite] at h
    split at h
    · cases h
    · split at h <;> cases h
      rfl
  | rd a x =>
    rw [State.runStmt, State.hostReadInto] at h
    split at h <;> cases h
  | bz e n =>
    rw [State.runStmt, State.hostBranch] at h
    split at h
    · split at h <;> cases h
    · cases h
  | bnz e n =>
    rw [State.runStmt, State.hostBranch] at h
    split at h
    · split at h <;> cases h
    · cases h
  | _ => cases h

/-! ## The VALID bits of a host step -/

theorem State.writeLocation_isValid {s : State} {l : Location} {v : Word32} {k : Kind}
    (h : (s.writeLocation l v).isValid k = true) : s.isValid k = true := by
  cases l with
  | global r =>
    cases r with
    | hdrCfg => rw [State.writeLocation, State.writeGlobal, State.clearAllValid_isValid] at h; cases h
    | discOff => rw [State.writeLocation, State.writeGlobal, State.clearAllValid_isValid] at h; cases h
    | _ => exact h
  | slot j r => rw [State.writeLocation, State.clearAllValid_isValid] at h; cases h
  | desc j i n =>
    rw [State.writeLocation, State.setValid_isValid] at h
    split at h
    · cases h
    · exact h
  | _ => exact h

theorem hostStep_isValid {s t : State} {k : Kind} (h : hostStep s = .next t) (ht : t.isValid k = true) :
    s.isValid k = true := by
  rw [hostStep] at h
  split at h
  · cases h; exact ht
  rcases State.runStmt_eq_next h with hsame | ⟨a, v, hw⟩ | ⟨-, rfl⟩
  · rw [hsame] at ht; exact ht
  · obtain ⟨-, -, -, rfl⟩ := State.hostWrite_eq_next.1 hw
    exact State.writeLocation_isValid (s := s.passLatency.hostAdvance) ht
  · rw [State.resetBlock_isValid] at ht; cases ht

end Sys2Proof.Machine
end

section
/-! The statements about faults and about the setting of a VALID bit (60_exceptions.md R309; 10_state.md R67). -/

namespace Sys2Proof.Machine

/-- Settles O54: the faults of the engine's step are those of its command, and the host's only fault is the busy write. -/
theorem noStepLeavesTheBuffer : Obligations.NoStepLeavesTheBuffer := by
  intro s hi
  have cases_of {f : Fault} (h : step s = .fault f) :
      f = .hostWriteWhileBusy ∨ f = .unwrittenBuffer ∨ f = .unwrittenResult
        ∨ (f = .unwrittenDescriptor ∧ ∃ k, decode s.params.nDesc s.cmd = .ok (.schemaCheck k)) := by
    rw [step] at h
    split at h
    · obtain ⟨i, hd, he⟩ := engineStep_eq_fault h
      rcases exec_fault hi he with hf | hf | ⟨hf, k, rfl⟩
      · exact .inr (.inl hf)
      · exact .inr (.inr (.inl hf))
      · exact .inr (.inr (.inr ⟨hf, k, hd⟩))
    · exact .inl (hostStep_fault h)
  refine ⟨fun h => ?_, fun h => ?_⟩
  · rcases cases_of h with hf | hf | hf | ⟨hf, -⟩ <;> cases hf
  · rcases cases_of h with hf | hf | hf | ⟨-, hk⟩
    · cases hf
    · cases hf
    · cases hf
    · exact hk

/-- Settles O39: no host step and no illegal word sets a VALID bit, and of the commands only SCHEMA.CHECK touches one. -/
theorem onlySchemaCheckSetsAValidBit : Obligations.OnlySchemaCheckSetsAValidBit := by
  intro s t k h hs ht
  by_cases hturn : s.atEngine
  · rw [step_of_atEngine hturn, engineStep] at h
    split at h
    · next i hd =>
      obtain ⟨rfl, hok, hschema⟩ := exec_sets_valid h hs ht
      exact ⟨hturn, hd, hok, hschema⟩
    · cases h
      change s.isValid k = true at ht
      rw [hs] at ht; cases ht
  · rw [step_of_not_atEngine hturn] at h
    rw [hostStep_isValid h ht] at hs; cases hs

end Sys2Proof.Machine
end

section
/-! SUPPORT. A command in a state whose results of earlier commands and whose host's side have been exchanged: each part
reads nothing of them, and each update commutes with the exchange (20_memory.md R112; 40_command.md R169). -/

namespace Sys2Proof.Machine

/-- State s with the results of earlier commands and the host's side of state e. -/
def State.withEarlier (s e : State) : State :=
  { s with
    cmd := e.cmd, status := e.status, err := e.err, pending := e.pending, csum := e.csum, csrx := e.csrx
    kindOut := e.kindOut, host := e.host, latency := e.latency, latencies := e.latencies, draws := e.draws }

/-- How two completions of one command agree that began in s and s'. -/
def Alike (s s' t t' : State) : Prop :=
  t' = { t with
    cmd := s'.cmd, csum := t'.csum, csrx := t'.csrx, kindOut := t'.kindOut, host := s'.host
    latency := s'.latency, latencies := s'.latencies, draws := s'.draws }
  ∧ (t'.csum = t.csum ∨ t.csum = s.csum ∧ t'.csum = s'.csum)
  ∧ (t'.csrx = t.csrx ∨ t.csrx = s.csrx ∧ t'.csrx = s'.csrx)
  ∧ (t'.kindOut = t.kindOut ∨ t.kindOut = s.kindOut ∧ t'.kindOut = s'.kindOut)

/-- Both outcomes are the same fault, or two completions that agree. -/
def OutcomesAlike (s s' : State) (o o' : Outcome) : Prop :=
  (∃ f, o = .fault f ∧ o' = .fault f) ∨ ∃ t t', o = .next t ∧ o' = .next t' ∧ Alike s s' t t'

section
variable (s e : State)

/-! ## The parts that answer a value -/

theorem rangeCsum_withEarlier (k : Kind) : (s.withEarlier e).rangeCsum k = s.rangeCsum k := rfl

theorem trailerValues_withEarlier (k : Kind) : (s.withEarlier e).trailerValues k = s.trailerValues k := rfl

theorem fieldExtracted_withEarlier (k : Kind) (idx : BitVec 8) :
    (s.withEarlier e).fieldExtracted k idx = s.fieldExtracted k idx := rfl

theorem kindChecksOk_withEarlier (k : Kind) : (s.withEarlier e).kindChecksOk k = s.kindChecksOk k := rfl

theorem descFail_withEarlier (k : Kind) : (s.withEarlier e).descFail k = s.descFail k := by
  rw [State.descFail, State.readDescs_congr (s := s.withEarlier e) (t := s) fun _ _ => rfl]
  rfl

theorem decodeKindOf_withEarlier (sel : DecodeSel) : (s.withEarlier e).decodeKindOf sel = s.decodeKindOf sel := rfl

theorem decodePayload_withEarlier (k : Kind) : (s.withEarlier e).decodePayload k = s.decodePayload k := rfl

theorem decodeChecksums_withEarlier (k : Kind) (t : Nat) :
    (s.withEarlier e).decodeChecksums k t = s.decodeChecksums k t := rfl

theorem decodeFields_withEarlier (k : Kind) (is : List Nat) :
    (s.withEarlier e).decodeFields k is = s.decodeFields k is := by
  induction is with
  | nil => rfl
  | cons i is ih => rw [State.decodeFields, State.decodeFields, ih]; rfl

theorem encodeFields_withEarlier (k : Kind) (is : List Nat) :
    (s.withEarlier e).encodeFields k is = s.encodeFields k is := by
  induction is with
  | nil => rfl
  | cons i is ih => rw [State.encodeFields, State.encodeFields, ih]; rfl

/-! ## The parts that answer a state -/

/-- A state with the host's side and the results of e, but for CSUM, which a command has just written. -/
def State.withEarlierButCsum (s e : State) : State := { s.withEarlier e with csum := s.csum }

theorem storeValue_withEarlier (i : Nat) (r : Int) (d : Desc) :
    (s.withEarlier e).storeValue i r d = (s.storeValue i r d).withEarlier e := rfl

theorem storeValues_withEarlier (i : Nat) (rs : List (Desc × Int)) :
    (s.withEarlier e).storeValues i rs = (s.storeValues i rs).withEarlier e := by
  induction rs generalizing s i with
  | nil => rfl
  | cons q rs ih => rw [State.storeValues, State.storeValues, storeValue_withEarlier, ih]

theorem writeUInt_withEarlier (a w u : Nat) (ord : ByteOrder) :
    (s.withEarlier e).writeUInt a w ord u = (s.writeUInt a w ord u).map (·.withEarlier e) := by
  simp only [State.writeUInt, State.memWrite]
  split
  · next h => rw [if_pos (show a + _ ≤ s.params.bufSize from h)]; rfl
  · next h => rw [if_neg (show ¬(a + _ ≤ s.params.bufSize) from h)]; rfl

theorem putField_withEarlier (i : Nat) (d : Desc) (r : Int) :
    (s.withEarlier e).putField i d r = (s.putField i d r).map (·.withEarlier e) := by
  rw [State.putField, State.putField, writeUInt_withEarlier]
  change Except.map _ (s.writeUInt (s.fieldPos d) d.w d.ord (d.pattern r)) >>= _ = _
  cases s.writeUInt (s.fieldPos d) d.w d.ord (d.pattern r) <;> rfl

theorem putLength_withEarlier (k : Kind) (p : Nat) :
    (s.withEarlier e).putLength k p = (s.putLength k p).map (·.withEarlier e) := by
  rw [State.putLength, State.putLength]
  change (if (s.slot k).lenMode then _ else _) = _
  split
  · exact writeUInt_withEarlier s e _ _ _ _
  · rfl

theorem putFields_withEarlier (i : Nat) (rs : List (Desc × Int)) :
    (s.withEarlier e).putFields i rs = (s.putFields i rs).map (·.withEarlier e) := by
  induction rs generalizing s i with
  | nil => rfl
  | cons q rs ih =>
    rw [State.putFields, State.putFields, putField_withEarlier]
    cases s.putField i q.1 q.2 with
    | error x => rfl
    | ok t => exact ih t (i + 1)

theorem trailerAppended_withEarlier (k : Kind) :
    (s.withEarlier e).trailerAppended k = (s.trailerAppended k).map (·.withEarlierButCsum e) := by
  have put (x : Nat) : (s.withEarlier e).putTrailer k s.frameLen.toNat x
      = (s.putTrailer k s.frameLen.toNat x).map (·.withEarlier e) := writeUInt_withEarlier s e _ _ _ _
  rw [State.trailerAppended, State.trailerAppended]
  change (s.trailerChecks k >>= fun _ => s.frameCsum k s.frameLen.toNat >>= fun x =>
    (s.withEarlier e).putTrailer k s.frameLen.toNat x >>= fun t => pure (t.setCsum x)) = _
  simp only [put]
  cases s.trailerChecks k with
  | error x => rfl
  | ok _ =>
    cases s.frameCsum k s.frameLen.toNat with
    | error x => rfl
    | ok x => simp only [ok_bind]; cases s.putTrailer k s.frameLen.toNat x <;> rfl

theorem fieldInserted_withEarlier (k : Kind) (idx : BitVec 8) :
    (s.withEarlier e).fieldInserted k idx = (s.fieldInserted k idx).map (·.withEarlier e) := by
  rw [State.fieldInserted, State.fieldInserted]
  change (s.fieldChecks k idx >>= fun d => s.encodeRaw idx.toNat d >>= fun r =>
    (s.withEarlier e).putField idx.toNat d r) = _
  simp only [putField_withEarlier]
  cases s.fieldChecks k idx with
  | error x => rfl
  | ok d =>
    simp only [ok_bind]
    cases s.encodeRaw idx.toNat d <;> rfl

theorem encodeWrites_withEarlier (k : Kind) (p : Nat) (rs : List (Desc × Int)) :
    (s.withEarlier e).encodeWrites k p rs = (s.encodeWrites k p rs).map (·.withEarlierButCsum e) := by
  have putDisc : (s.withEarlier e).putDisc k = (s.putDisc k).map (·.withEarlier e) := writeUInt_withEarlier s e _ _ _ _
  have putTrailer (u : State) (t x : Nat) :
      (u.withEarlier e).putTrailer k t x = (u.putTrailer k t x).map (·.withEarlier e) := writeUInt_withEarlier u e _ _ _ _
  have frameCsum (u : State) (t : Nat) : (u.withEarlier e).frameCsum k t = u.frameCsum k t := rfl
  have total : (s.withEarlier e).totalLength k p = s.totalLength k p := rfl
  simp only [State.encodeWrites, putDisc, total]
  cases s.putDisc k with
  | error x => rfl
  | ok s1 =>
    simp only [Except.map, ok_bind, putLength_withEarlier]
    cases s1.putLength k p with
    | error x => rfl
    | ok s2 =>
      simp only [Except.map, ok_bind, putFields_withEarlier]
      cases s2.putFields 0 rs with
      | error x => rfl
      | ok s3 =>
        simp only [ok_bind, frameCsum]
        cases s3.frameCsum k (s.totalLength k p) with
        | error x => rfl
        | ok x =>
          simp only [ok_bind, putTrailer]
          cases s3.putTrailer k (s.totalLength k p) x <;> rfl

theorem frameEncoded_withEarlier (k : Kind) :
    (s.withEarlier e).frameEncoded k = (s.frameEncoded k).map (·.withEarlierButCsum e) := by
  have encodePayload : (s.withEarlier e).encodePayload k = s.encodePayload k := rfl
  have isValid : (s.withEarlier e).isValid k = s.isValid k := rfl
  have descIndexes : (s.withEarlier e).descIndexes k = s.descIndexes k := rfl
  simp only [State.frameEncoded, encodePayload, isValid, descIndexes, encodeFields_withEarlier,
    encodeWrites_withEarlier]
  cases require (s.isValid k) .configError 0xFF with
  | error x => rfl
  | ok _ =>
    simp only [ok_bind]
    cases s.encodePayload k with
    | error x => rfl
    | ok p =>
      simp only [ok_bind]
      cases s.encodeFields k (s.descIndexes k) <;> rfl

/-! ## How commands complete -/

theorem outcomesAlike_stop (q : BitVec 3) (x : Stop) :
    OutcomesAlike s (s.withEarlier e) (s.stop q x) ((s.withEarlier e).stop q x) := by
  cases x with
  | fault f => exact .inl ⟨f, rfl, rfl⟩
  | raise c y => exact .inr ⟨_, _, rfl, rfl, rfl, .inr ⟨rfl, rfl⟩, .inr ⟨rfl, rfl⟩, .inr ⟨rfl, rfl⟩⟩

variable {s e}

theorem alike_finish {u : State} (hc : u.csum = s.csum) (hr : u.csrx = s.csrx) (hk : u.kindOut = s.kindOut)
    (x : BitVec 8) (q : BitVec 3) (m p : Bool) :
    Alike s (s.withEarlier e) (u.finish x q m p) ((u.withEarlier e).finish x q m p) :=
  ⟨rfl, .inr ⟨hc, rfl⟩, .inr ⟨hr, rfl⟩, .inr ⟨hk, rfl⟩⟩

theorem alike_finish_csum {u : State} (hr : u.csrx = s.csrx) (hk : u.kindOut = s.kindOut) (x : BitVec 8) (q : BitVec 3)
    (m p : Bool) : Alike s (s.withEarlier e) (u.finish x q m p) ((u.withEarlierButCsum e).finish x q m p) :=
  ⟨rfl, .inl rfl, .inr ⟨hr, rfl⟩, .inr ⟨hk, rfl⟩⟩

variable (s e)

theorem execFrameDecode_alike (sel : DecodeSel) :
    OutcomesAlike s (s.withEarlier e) (execFrameDecode sel s) (execFrameDecode sel (s.withEarlier e)) := by
  rw [execFrameDecode, execFrameDecode, decodeKindOf_withEarlier]
  cases s.decodeKindOf sel with
  | error x => exact outcomesAlike_stop s e _ x
  | ok k =>
  simp only [decodePayload_withEarlier]
  cases s.decodePayload k with
  | error x => exact outcomesAlike_stop s e _ x
  | ok p =>
  have total : (s.withEarlier e).totalLength k p = s.totalLength k p := rfl
  simp only [State.decodeBody, total, decodeChecksums_withEarlier]
  cases s.decodeChecksums k (s.totalLength k p) with
  | error x => exact outcomesAlike_stop s e _ x
  | ok v =>
  obtain ⟨x, rx⟩ := v
  dsimp only
  split
  · have hsums : ((s.withEarlier e).setCsum x).setCsrx rx
        = ((s.setCsum x).setCsrx rx).withEarlier ((e.setCsum x).setCsrx rx) := rfl
    have indexes : (((s.setCsum x).setCsrx rx).withEarlier ((e.setCsum x).setCsrx rx)).descIndexes k
        = ((s.setCsum x).setCsrx rx).descIndexes k := rfl
    rw [hsums, State.decodeCommit, State.decodeCommit, indexes, decodeFields_withEarlier]
    cases ((s.setCsum x).setCsrx rx).decodeFields k (((s.setCsum x).setCsrx rx).descIndexes k) with
    | error x =>
      cases x with
      | fault f => exact .inl ⟨f, rfl, rfl⟩
      | raise c y => exact .inr ⟨_, _, rfl, rfl, rfl, .inl rfl, .inl rfl, .inr ⟨rfl, rfl⟩⟩
    | ok rs =>
      simp only [storeValues_withEarlier]
      obtain ⟨res, hres⟩ := storeValues_eq_of_res ((s.setCsum x).setCsrx rx) 0 rs
      rw [hres]
      exact .inr ⟨_, _, rfl, rfl, rfl, .inl rfl, .inl rfl, .inl rfl⟩
  · exact .inr ⟨_, _, rfl, rfl, rfl, .inl rfl, .inl rfl, .inr ⟨rfl, rfl⟩⟩

theorem exec_alike (i : Instr) : OutcomesAlike s (s.withEarlier e) (exec i s) (exec i (s.withEarlier e)) := by
  cases i with
  | nop => exact .inr ⟨_, _, rfl, rfl, alike_finish rfl rfl rfl _ _ _ _⟩
  | csumCompute k =>
    simp only [exec, execCsumCompute, rangeCsum_withEarlier]
    cases s.rangeCsum k with
    | error x => exact outcomesAlike_stop s e _ x
    | ok x => exact .inr ⟨_, _, rfl, rfl, rfl, .inl rfl, .inr ⟨rfl, rfl⟩, .inr ⟨rfl, rfl⟩⟩
  | csumVerify k =>
    simp only [exec, execCsumVerify, rangeCsum_withEarlier]
    cases s.rangeCsum k with
    | error x => exact outcomesAlike_stop s e _ x
    | ok x => exact .inr ⟨_, _, rfl, rfl, rfl, .inl rfl, .inr ⟨rfl, rfl⟩, .inr ⟨rfl, rfl⟩⟩
  | trailerVerify k =>
    simp only [exec, execTrailerVerify, trailerValues_withEarlier]
    cases s.trailerValues k with
    | error x => exact outcomesAlike_stop s e _ x
    | ok v => exact .inr ⟨_, _, rfl, rfl, rfl, .inl rfl, .inl rfl, .inr ⟨rfl, rfl⟩⟩
  | trailerAppend k =>
    simp only [exec, execTrailerAppend, trailerAppended_withEarlier]
    cases hu : s.trailerAppended k with
    | error x => exact outcomesAlike_stop s e _ x
    | ok u =>
      have hkeeps : u.csrx = s.csrx ∧ u.kindOut = s.kindOut := by
        obtain ⟨-, x, v, -, hv, rfl⟩ := State.trailerAppended_eq_ok.1 hu
        obtain ⟨-, rfl⟩ := State.writeUInt_eq_ok.1 hv
        exact ⟨rfl, rfl⟩
      exact .inr ⟨_, _, rfl, rfl, alike_finish_csum hkeeps.1 hkeeps.2 _ _ _ _⟩
  | fieldExtract k idx =>
    simp only [exec, execFieldExtract, fieldExtracted_withEarlier]
    cases s.fieldExtracted k idx with
    | error x => exact outcomesAlike_stop s e _ x
    | ok v =>
      simp only [storeValue_withEarlier]
      obtain ⟨res, hres⟩ := storeValue_eq_of_res s idx.toNat v.2 v.1
      rw [hres]
      exact .inr ⟨_, _, rfl, rfl, alike_finish rfl rfl rfl _ _ _ _⟩
  | fieldInsert k idx =>
    simp only [exec, execFieldInsert, fieldInserted_withEarlier]
    cases hu : s.fieldInserted k idx with
    | error x => exact outcomesAlike_stop s e _ x
    | ok u =>
      obtain ⟨d, r, -, -, hput⟩ := State.fieldInserted_eq_ok.1 hu
      obtain ⟨-, rfl⟩ := State.putField_eq_ok.1 hput
      exact .inr ⟨_, _, rfl, rfl, alike_finish rfl rfl rfl _ _ _ _⟩
  | schemaCheck k =>
    simp only [exec, execSchemaCheck, kindChecksOk_withEarlier, descFail_withEarlier]
    split
    · cases s.descFail k with
      | error x => exact outcomesAlike_stop s e _ x
      | ok o =>
        cases o with
        | some i => exact .inr ⟨_, _, rfl, rfl, rfl, .inr ⟨rfl, rfl⟩, .inr ⟨rfl, rfl⟩, .inr ⟨rfl, rfl⟩⟩
        | none => exact .inr ⟨_, _, rfl, rfl, alike_finish (u := s.setValid k true) rfl rfl rfl _ _ _ _⟩
    · exact .inr ⟨_, _, rfl, rfl, rfl, .inr ⟨rfl, rfl⟩, .inr ⟨rfl, rfl⟩, .inr ⟨rfl, rfl⟩⟩
  | frameDecode sel => exact execFrameDecode_alike s e sel
  | frameEncode k =>
    simp only [exec, execFrameEncode, frameEncoded_withEarlier]
    cases hu : s.frameEncoded k with
    | error x => exact outcomesAlike_stop s e _ x
    | ok u =>
      obtain ⟨-, p, rs, -, -, hw⟩ := State.frameEncoded_eq_ok.1 hu
      have hframe := State.encodeWrites_frame hw
      exact .inr ⟨_, _, rfl, rfl, alike_finish_csum (by rw [hframe]) (by rw [hframe]) _ _ _ _⟩

end

/-- Settles O13: the second state is the first with its earlier results and its host's side exchanged, and a command's
parts read none of them. -/
theorem earlierResultsDoNotInfluenceACommand : Obligations.EarlierResultsDoNotInfluenceACommand := by
  intro i s s' h
  have hs : s' = s.withEarlier s' := h
  generalize hi : s' = e at *
  rw [hs]
  exact exec_alike s e i

end Sys2Proof.Machine
end

section
/-! SUPPORT. The CRC register is linear, and no single bit fed to it dies out; so each algorithm tells two byte lists apart
that differ in one bit (41_checksum.md R186, R194). -/

namespace Sys2Proof.Machine

/-! ## Linearity -/

theorem crcBit_xor (w poly a b : Nat) : crcBit w poly (a ^^^ b) = crcBit w poly a ^^^ crcBit w poly b := by
  simp only [crcBit, Nat.testBit_xor]
  cases a.testBit (w - 1) <;> cases b.testBit (w - 1) <;>
    refine Nat.eq_of_testBit_eq fun i => ?_ <;>
    simp only [Nat.shiftLeft_xor_distrib, Nat.testBit_xor, Nat.testBit_mod_two_pow, Bool.xor_false, Bool.false_xor,
      Bool.xor_self, Bool.false_eq_true, if_true, if_false] <;>
    cases decide (i < w) <;> simp [Bool.xor_comm, Bool.xor_left_comm]

theorem crcBits_xor (w poly n a b : Nat) : crcBits w poly n (a ^^^ b) = crcBits w poly n a ^^^ crcBits w poly n b := by
  induction n generalizing a b with
  | zero => rfl
  | succ n ih => rw [crcBits, crcBits, crcBits, crcBit_xor, ih]

theorem reflect_xor (n a b : Nat) : reflect n (a ^^^ b) = reflect n a ^^^ reflect n b := by
  refine Nat.eq_of_testBit_eq fun i => ?_
  simp only [Nat.testBit_xor, testBit_reflect]
  cases decide (i < n) <;> simp

theorem crcInput_xor (refIn : Bool) (a b : Byte) : crcInput refIn (a ^^^ b) = crcInput refIn a ^^^ crcInput refIn b := by
  cases refIn with
  | true => exact (congrArg (reflect 8) (BitVec.toNat_xor a b)).trans (reflect_xor 8 _ _)
  | false => exact BitVec.toNat_xor a b

/-- The register and the byte that enters it are exclusive-ored before the bits are shifted through. -/
theorem crcReg_cons_xor (w poly : Nat) (refIn : Bool) (r r' : Nat) (b b' : Byte) :
    crcBits w poly 8 ((r ^^^ r') ^^^ (crcInput refIn (b ^^^ b') <<< (w - 8)))
      = crcBits w poly 8 (r ^^^ (crcInput refIn b <<< (w - 8)))
        ^^^ crcBits w poly 8 (r' ^^^ (crcInput refIn b' <<< (w - 8))) := by
  rw [← crcBits_xor, crcInput_xor, Nat.shiftLeft_xor_distrib]
  congr 1
  ac_rfl

/-- Settles O16, by induction on the two lists together. -/
theorem crcRegisterIsLinearInTheData : Obligations.CrcRegisterIsLinearInTheData := by
  intro w poly refIn r r' bs bs' hlen
  induction bs generalizing r r' bs' with
  | nil =>
    cases bs' with
    | nil => rfl
    | cons b' bs' => cases hlen
  | cons b bs ih =>
    cases bs' with
    | nil => cases hlen
    | cons b' bs' =>
      rw [List.zipWith_cons_cons, crcReg, crcReg, crcReg, crcReg_cons_xor]
      exact ih _ _ bs' (Nat.succ.inj hlen)

/-! ## The register that a single bit leaves -/

/-- A register that the polynomial's shift leaves non-zero, v being the polynomial's lowest bit: a single bit, or one with
no bit below v. -/
structure CrcAlive (w v x : Nat) : Prop where
  lt : x < 2 ^ w
  ne : x ≠ 0
  form : (∃ m, x = 2 ^ m) ∨ ∀ i < v, x.testBit i = false

theorem exists_lowest_bit {w poly : Nat} (h0 : 0 < poly) (hw : poly < 2 ^ w) :
    ∃ v < w, poly.testBit v = true ∧ ∀ i < v, poly.testBit i = false := by
  have hex : ∃ v, poly.testBit v = true := Nat.exists_testBit_of_ne_zero h0.ne'
  refine ⟨Nat.find hex, ?_, Nat.find_spec hex, fun i hi => Bool.eq_false_iff.2 (Nat.find_min hex hi)⟩
  by_contra hge
  have hzero := Nat.testBit_eq_false_of_lt (hw.trans_le (Nat.pow_le_pow_right two_pos (not_lt.1 hge)))
  rw [Nat.find_spec hex] at hzero
  cases hzero

section Alive
variable {w poly v x : Nat} (hv : v < w) (hbit : poly.testBit v = true) (hlow : ∀ i < v, poly.testBit i = false)
include hv hbit hlow

/-- A single bit moves up, or leaves at the top and brings the polynomial in. Of another register no bit below v comes
about, and bit v comes from the polynomial when the top bit leaves. -/
theorem CrcAlive.crcBit (h : CrcAlive w v x) : CrcAlive w v (crcBit w poly x) := by
  have bit (i : Nat) : (Machine.crcBit w poly x).testBit i
      = (decide (i < w) && ((decide (1 ≤ i) && x.testBit (i - 1)) ^^ (x.testBit (w - 1) && poly.testBit i))) := by
    rw [Machine.crcBit]
    split
    · next ht => simp [Nat.testBit_mod_two_pow, Nat.testBit_shiftLeft, ht]
    · next ht => simp [Nat.testBit_mod_two_pow, Nat.testBit_shiftLeft, ht]
  have ne_of_bit {j : Nat} (hj : (Machine.crcBit w poly x).testBit j = true) : Machine.crcBit w poly x ≠ 0 :=
    fun h0 => by rw [h0, Nat.zero_testBit] at hj; cases hj
  rcases h.form with ⟨m, rfl⟩ | hclear
  · have hm : m < w := (Nat.pow_lt_pow_iff_right (by decide)).1 h.lt
    rcases Nat.lt_or_ge (m + 1) w with hup | htop
    · have hshift : Machine.crcBit w poly (2 ^ m) = 2 ^ (m + 1) := by
        refine Nat.eq_of_testBit_eq fun i => ?_
        have hnot_top : m ≠ w - 1 := by omega
        rw [bit, Nat.testBit_two_pow, Nat.testBit_two_pow, Nat.testBit_two_pow, decide_eq_false hnot_top, Bool.false_and,
          Bool.xor_false]
        by_cases hi : m + 1 = i
        · subst hi; simp [hup]
        · simp [hi]
          omega
      exact ⟨crcBit_lt _ _ _, by rw [hshift]; positivity, .inl ⟨m + 1, hshift⟩⟩
    · have hpoly (i : Nat) (hi : i < w) : (Machine.crcBit w poly (2 ^ m)).testBit i = poly.testBit i := by
        have hout : ¬(1 ≤ i ∧ m = i - 1) := by omega
        have hm' : m = w - 1 := by omega
        rw [bit, Nat.testBit_two_pow, Nat.testBit_two_pow, ← Bool.decide_and, decide_eq_false hout, decide_eq_true hi,
          decide_eq_true hm', Bool.true_and, Bool.true_and, Bool.false_xor]
      exact ⟨crcBit_lt _ _ _, ne_of_bit ((hpoly v hv).trans hbit), .inr fun i hi => (hpoly i (by omega)).trans (hlow i hi)⟩
  · have hbelow (i : Nat) (hi : i ≤ v) : (decide (1 ≤ i) && x.testBit (i - 1)) = false := by
      by_cases h1 : 1 ≤ i
      · rw [hclear (i - 1) (by omega), Bool.and_false]
      · rw [decide_eq_false h1, Bool.false_and]
    refine ⟨crcBit_lt _ _ _, ?_, .inr fun i hi => ?_⟩
    · cases htop : x.testBit (w - 1) with
      | true => exact ne_of_bit (j := v) (by rw [bit, hbelow v le_rfl, htop, hbit, decide_eq_true hv]; rfl)
      | false =>
        obtain ⟨j, hj⟩ := Nat.exists_testBit_of_ne_zero h.ne
        have hjw : j < w := by
          by_contra hge
          rw [Nat.testBit_eq_false_of_lt (h.lt.trans_le (Nat.pow_le_pow_right two_pos (not_lt.1 hge)))] at hj
          cases hj
        have hj_top : j ≠ w - 1 := fun hj' => by rw [← hj', hj] at htop; cases htop
        refine ne_of_bit (j := j + 1) ?_
        rw [bit, Nat.add_sub_cancel, hj, htop, decide_eq_true (by omega), decide_eq_true (by omega)]
        rfl
    · rw [bit, hbelow i hi.le, hlow i hi, Bool.and_false, Bool.false_xor, Bool.and_false]

theorem CrcAlive.crcBits (n : Nat) (h : CrcAlive w v x) : CrcAlive w v (crcBits w poly n x) := by
  induction n generalizing x with
  | zero => exact h
  | succ n ih => exact ih (h.crcBit hv hbit hlow)

theorem CrcAlive.crcReg_zeros {refIn : Bool} (n : Nat) (h : CrcAlive w v x) :
    CrcAlive w v (crcReg w poly refIn x (List.replicate n 0)) := by
  have input_zero : crcInput refIn 0 = 0 := by cases refIn <;> decide
  induction n generalizing x with
  | zero => exact h
  | succ n ih =>
    rw [List.replicate_succ, crcReg, input_zero, Nat.zero_shiftLeft, Nat.xor_zero]
    exact ih (h.crcBits hv hbit hlow 8)

end Alive

/-- One bit fed into an empty register. -/
theorem crcAlive_input {w v : Nat} (refIn : Bool) {j : Nat} (hw : 8 ≤ w) (hj : j < 8) :
    CrcAlive w v (0 ^^^ (crcInput refIn (1#8 <<< j) <<< (w - 8))) := by
  have hinput : ∃ m < 8, crcInput refIn (1#8 <<< j) = 2 ^ m := by
    cases refIn with
    | true => exact ⟨7 - j, by omega, by interval_cases j <;> decide⟩
    | false => exact ⟨j, hj, by interval_cases j <;> decide⟩
  obtain ⟨m, hm, hinput⟩ := hinput
  have hreg : 0 ^^^ (crcInput refIn (1#8 <<< j) <<< (w - 8)) = 2 ^ (m + (w - 8)) := by
    rw [hinput, Nat.zero_xor, Nat.shiftLeft_eq, ← pow_add]
  rw [hreg]
  exact ⟨Nat.pow_lt_pow_right (by decide) (by omega), by positivity, .inl ⟨_, rfl⟩⟩

/-! ## Two lists that differ in one bit -/

theorem zipWith_xor_zeros (bs : List Byte) : List.zipWith (· ^^^ ·) bs (List.replicate bs.length 0) = bs := by
  induction bs with
  | nil => rfl
  | cons b bs ih =>
    rw [List.length_cons, List.replicate_succ, List.zipWith_cons_cons, ih]
    exact congrArg (· :: bs) BitVec.xor_zero

theorem crcReg_lt_of_lt {w poly r : Nat} {refIn : Bool} (bs : List Byte) (h : r < 2 ^ w) :
    crcReg w poly refIn r bs < 2 ^ w := crcReg_lt h

/-- By linearity the two registers differ by what the one bit leaves, which is not zero. -/
theorem crcReg_flip_ne {w poly r : Nat} {refIn : Bool} {j : Nat} (hw : 8 ≤ w) (h0 : 0 < poly) (hp : poly < 2 ^ w)
    (hj : j < 8) (pre post : List Byte) (b : Byte) :
    crcReg w poly refIn r (pre ++ (b ^^^ (1#8 <<< j)) :: post) ≠ crcReg w poly refIn r (pre ++ b :: post) := by
  obtain ⟨v, hv, hbit, hlow⟩ := exists_lowest_bit h0 hp
  generalize hR : crcReg w poly refIn r pre = R
  have hflip : (b ^^^ (1#8 <<< j)) :: post
      = List.zipWith (· ^^^ ·) (b :: post) ((1#8 <<< j) :: List.replicate post.length 0) := by
    rw [List.zipWith_cons_cons, zipWith_xor_zeros]
  have hsplit : crcReg w poly refIn R ((b ^^^ (1#8 <<< j)) :: post)
      = crcReg w poly refIn R (b :: post) ^^^ crcReg w poly refIn 0 ((1#8 <<< j) :: List.replicate post.length 0) := by
    rw [hflip, ← crcRegisterIsLinearInTheData w poly refIn R 0 _ _ (by simp), Nat.xor_zero]
  have halive : CrcAlive w v (crcReg w poly refIn 0 ((1#8 <<< j) :: List.replicate post.length 0)) :=
    ((crcAlive_input refIn hw hj).crcBits hv hbit hlow 8).crcReg_zeros hv hbit hlow _
  rw [crcReg_append, crcReg_append, hR, hsplit]
  intro heq
  refine halive.ne ?_
  have hcancel := congrArg (crcReg w poly refIn R (b :: post) ^^^ ·) heq
  simpa [← Nat.xor_assoc] using hcancel

theorem reflect_injective {n a b : Nat} (ha : a < 2 ^ n) (hb : b < 2 ^ n) (h : reflect n a = reflect n b) : a = b := by
  refine Nat.eq_of_testBit_eq fun i => ?_
  rcases Nat.lt_or_ge i n with hi | hi
  · have hbit := congrArg (·.testBit (n - 1 - i)) h
    simp only [testBit_reflect, show n - 1 - i < n by omega, show n - 1 - (n - 1 - i) = i by omega, decide_true,
      Bool.true_and] at hbit
    exact hbit
  · have hpow := Nat.pow_le_pow_right (show 0 < 2 by decide) hi
    rw [Nat.testBit_eq_false_of_lt (ha.trans_le hpow), Nat.testBit_eq_false_of_lt (hb.trans_le hpow)]

theorem crcCsum_flip_ne {p : Profile} (hl : p.legal = true) (ha : p.alg = .crc) (hw : 8 ≤ p.w) {j : Nat} (hj : j < 8)
    (pre post : List Byte) (b : Byte) :
    crcCsum p (pre ++ (b ^^^ (1#8 <<< j)) :: post) ≠ crcCsum p (pre ++ b :: post) := by
  obtain ⟨-, hinit, -, -, -, hpoly⟩ := p.legal_iff.1 hl
  obtain ⟨h0, hp⟩ := hpoly ha
  have hne := crcReg_flip_ne (r := p.init) (refIn := p.refIn) hw h0 hp hj pre post b
  have hlt (bs : List Byte) := crcReg_lt_of_lt (poly := p.poly) (refIn := p.refIn) bs hinit
  rw [crcCsum, crcCsum]
  intro heq
  have heq := Nat.xor_left_injective heq
  split at heq
  · exact hne (reflect_injective (hlt _) (hlt _) heq)
  · exact hne heq

/-! ## SUM and XOR -/

theorem xorCsum_flip_ne (p : Profile) {j : Nat} (hj : j < 8) (pre post : List Byte) (b : Byte) :
    xorCsum p (pre ++ (b ^^^ (1#8 <<< j)) :: post) ≠ xorCsum p (pre ++ b :: post) := by
  have move (c : Byte) (acc : Nat) (bs : List Byte) : xorAcc (acc ^^^ c.toNat) bs = c.toNat ^^^ xorAcc acc bs := by
    induction bs generalizing acc with
    | nil => exact Nat.xor_comm _ _
    | cons d bs ih => rw [xorAcc, xorAcc, ← ih]; congr 1; ac_rfl
  have append (acc : Nat) (as bs : List Byte) : xorAcc acc (as ++ bs) = xorAcc (xorAcc acc as) bs := by
    induction as generalizing acc with
    | nil => rfl
    | cons a as ih => exact ih _
  have value (c : Byte) : xorCsum p (pre ++ c :: post) = c.toNat ^^^ (xorAcc (xorAcc p.init pre) post ^^^ p.xorOut) := by
    rw [xorCsum, append, xorAcc, move, Nat.xor_assoc]
  rw [value, value]
  intro heq
  have hbyte : b ^^^ (1#8 <<< j) = b := BitVec.eq_of_toNat_eq (Nat.xor_left_injective heq)
  have hone : 1#8 <<< j = 0#8 := by simpa using congrArg (b ^^^ ·) hbyte
  revert hone
  interval_cases j <;> decide

/-- Flipping bit j of a byte changes its number by 2^j. -/
theorem toNat_flip {j : Nat} (hj : j < 8) (b : Byte) :
    (b ^^^ (1#8 <<< j)).toNat = b.toNat + 2 ^ j ∨ (b ^^^ (1#8 <<< j)).toNat + 2 ^ j = b.toNat := by
  revert b
  interval_cases j <;> decide

theorem sumFinish_injective {fin : SumFin} {w a b : Nat} (ha : a < 2 ^ w) (hb : b < 2 ^ w)
    (h : sumFinish fin w a = sumFinish fin w b) : a = b := by
  cases fin with
  | none => exact h
  | ones => exact Nat.xor_left_injective h
  | twos =>
    simp only [sumFinish] at h
    rcases Nat.eq_zero_or_pos a with rfl | ha0 <;> rcases Nat.eq_zero_or_pos b with rfl | hb0
    · rfl
    · rw [Nat.sub_zero, Nat.mod_self, Nat.mod_eq_of_lt (by omega)] at h; omega
    · rw [Nat.sub_zero, Nat.mod_self, Nat.mod_eq_of_lt (by omega)] at h; omega
    · rw [Nat.mod_eq_of_lt (by omega), Nat.mod_eq_of_lt (by omega)] at h; omega
  | illegal => exact h

theorem sumCsum_flip_ne {p : Profile} (hl : p.legal = true) (hw : 8 ≤ p.w) {j : Nat} (hj : j < 8)
    (pre post : List Byte) (b : Byte) :
    sumCsum p (pre ++ (b ^^^ (1#8 <<< j)) :: post) ≠ sumCsum p (pre ++ b :: post) := by
  obtain ⟨-, hinit, -, -, -, -⟩ := p.legal_iff.1 hl
  have hpos : 0 < 2 ^ p.w := by positivity
  rw [sumCsum, sumCsum, sumAcc_eq_mod _ hinit, sumAcc_eq_mod _ hinit]
  intro heq
  have hmod := sumFinish_injective (Nat.mod_lt _ hpos) (Nat.mod_lt _ hpos) (Nat.xor_left_injective heq)
  simp only [List.map_append, List.sum_append, List.map_cons, List.sum_cons] at hmod
  have hsmall : 2 ^ j < 2 ^ p.w := Nat.pow_lt_pow_right (by decide) (by omega)
  have hone : 0 < 2 ^ j := by positivity
  have no_small {n : Nat} (h : (n + 2 ^ j) % 2 ^ p.w = n % 2 ^ p.w) : False := by
    have hdvd : 2 ^ p.w ∣ n + 2 ^ j - n := (Nat.modEq_iff_dvd' (Nat.le_add_right _ _)).1 h.symm
    rw [Nat.add_sub_cancel_left] at hdvd
    exact absurd (Nat.le_of_dvd hone hdvd) (by omega)
  rcases toNat_flip hj b with hup | hdown
  · rw [hup] at hmod
    refine no_small (n := p.init + ((pre.map BitVec.toNat).sum + (b.toNat + (post.map BitVec.toNat).sum))) ?_
    rw [← hmod]
    congr 1
    omega
  · rw [← hdown] at hmod
    refine no_small (n := p.init + ((pre.map BitVec.toNat).sum
      + ((b ^^^ (1#8 <<< j)).toNat + (post.map BitVec.toNat).sum))) ?_
    rw [hmod]
    congr 1
    omega

/-- Settles O20: whichever the algorithm, flipping a bit of a byte changes what the algorithm has accumulated, and its
finish forgets nothing. -/
theorem everySingleBitChangeIsDetected : Obligations.EverySingleBitChangeIsDetected := by
  intro q pre post b j hl hj
  have hw : 8 ≤ q.profile.w := by
    have := q.csw_pos
    rw [Profile.w]
    omega
  cases ha : q.profile.alg with
  | sum => rw [Profile.csum_of_sum ha, Profile.csum_of_sum ha]; exact sumCsum_flip_ne hl hw hj pre post b
  | xor => rw [Profile.csum_of_xor ha, Profile.csum_of_xor ha]; exact xorCsum_flip_ne _ hj pre post b
  | crc => rw [Profile.csum_of_crc ha, Profile.csum_of_crc ha]; exact crcCsum_flip_ne hl ha hw hj pre post b
  | illegal =>
    obtain ⟨hlegal, -⟩ := (Profile.legal_iff _).1 hl
    exact absurd ha hlegal

/-- Settles O18: with no bytes each algorithm finishes its start value, and a range of length 0 holds no byte to read. -/
theorem emptyRangeChecksum : Obligations.EmptyRangeChecksum := by
  refine ⟨fun p _ => ⟨fun ha => ?_, fun ha => ?_, fun ha => ?_⟩, fun s k a ha => ?_⟩
  · rw [Profile.csum_of_sum ha]; rfl
  · rw [Profile.csum_of_xor ha]; rfl
  · rw [Profile.csum_of_crc ha]; rfl
  · exact State.csumOf_eq_ok.2 ⟨ha, [], rfl, nofun, rfl⟩

end Sys2Proof.Machine
end

section
/-! The statements about the trailer (41_checksum.md R192, R193): what TRAILER.APPEND writes is what TRAILER.VERIFY
reads. -/

namespace Sys2Proof.Machine

section Append
variable {s : State} {k : Kind}

theorem State.trailerAppended_of_illegal (hl : (s.profile k).legal = false) :
    s.trailerAppended k = .error (.raise .configError 0xFF) :=
  State.trailerAppended_eq_error.2 (.inl (State.trailerChecks_eq_error.2 (.inl ⟨hl, rfl⟩)))

theorem State.trailerAppended_of_outside (hl : (s.profile k).legal = true)
    (hT : s.params.bufSize < s.frameLen.toNat
      ∨ s.frameLen.toNat < (s.slot k).kcsStart.toNat + (s.profile k).csw) :
    s.trailerAppended k = .error (.raise .operandError 0) :=
  State.trailerAppended_eq_error.2 (.inl (State.trailerChecks_eq_error.2 (.inr ⟨hl, hT, rfl⟩)))

variable (hl : (s.profile k).legal = true) (hT : s.frameLen.toNat ≤ s.params.bufSize)
  (ha : (s.slot k).kcsStart.toNat + (s.profile k).csw ≤ s.frameLen.toNat)
include hl hT ha

theorem State.trailerAppended_of_unwritten
    (hu : ∃ j, (s.slot k).kcsStart.toNat ≤ j ∧ j < s.frameLen.toNat - (s.profile k).csw
      ∧ Memory.read s.buf j = none) :
    s.trailerAppended k = .error (.fault .unwrittenBuffer) := by
  obtain ⟨j, haj, hjT, hj⟩ := hu
  refine State.trailerAppended_eq_error.2 (.inr ⟨State.trailerChecks_eq_ok.2 ⟨hl, hT, ha⟩, .inl ?_⟩)
  refine State.csumOf_eq_error.2 (State.memRead_of_unwritten (by omega) ?_)
  exact ⟨j - (s.slot k).kcsStart.toNat, by omega, by rwa [Nat.add_sub_cancel' haj]⟩

theorem State.trailerAppended_of_written {bs : List Byte}
    (hbs : (s.slot k).kcsStart.toNat + bs.length + (s.profile k).csw = s.frameLen.toNat)
    (hb : s.holdsBytes (s.slot k).kcsStart.toNat bs) :
    ∃ u, s.putTrailer k s.frameLen.toNat ((s.profile k).csum bs) = .ok u
      ∧ s.trailerAppended k = .ok (u.setCsum ((s.profile k).csum bs)) := by
  have hsum : s.frameCsum k s.frameLen.toNat = .ok ((s.profile k).csum bs) :=
    State.csumOf_eq_ok.2 ⟨by omega, bs, by omega, hb, rfl⟩
  have hput : s.putTrailer k s.frameLen.toNat ((s.profile k).csum bs) = .ok _ :=
    State.writeUInt_of_within (by omega)
  exact ⟨_, hput, State.trailerAppended_eq_ok.2 ⟨State.trailerChecks_eq_ok.2 ⟨hl, hT, ha⟩, _, _, hsum, hput, rfl⟩⟩

end Append

/-- Settles O24: the four ways the command can come out; the trailer's bytes are the last ones of the frame. -/
theorem trailerAppendMeaning : Obligations.TrailerAppendMeaning := by
  intro k s
  refine ⟨fun hl => ?_, fun hl hT => ?_, fun hl hT ha => ⟨fun bs hbs hb => ?_, fun hu => ?_⟩, by cases k <;> rfl⟩
  · exact execTrailerAppend_eq_next.2 (.inl ⟨_, _, State.trailerAppended_of_illegal hl, rfl⟩)
  · exact execTrailerAppend_eq_next.2 (.inl ⟨_, _, State.trailerAppended_of_outside hl hT, rfl⟩)
  · obtain ⟨u, hput, hdone⟩ := State.trailerAppended_of_written hl hT ha hbs hb
    obtain ⟨hbytes, hframe, hother⟩ := State.writeUInt_effect hput
    refine ⟨_, execTrailerAppend_eq_next.2 (.inr ⟨_, hdone, rfl⟩), ?_, hbytes, fun c hc => hother c (by omega)⟩
    rw [hframe]
    rfl
  · exact execTrailerAppend_eq_fault.2 (State.trailerAppended_of_unwritten hl hT ha hu)

/-- A number written reads back. -/
theorem State.readUInt_of_writeUInt {s t : State} {a w u : Nat} {ord : ByteOrder} (h : s.writeUInt a w ord u = .ok t)
    (hu : u < 2 ^ (8 * w)) : t.readUInt a w ord = .ok u := by
  obtain ⟨hn, -⟩ := State.writeUInt_eq_ok.1 h
  obtain ⟨hbytes, hframe, -⟩ := State.writeUInt_effect h
  have hparams : t.params = s.params := by rw [hframe]
  rw [State.readUInt_of_holdsBytes _ (by rwa [hparams]) (natToBytes_length _ _ _) hbytes, bytesToNat_natToBytes,
    Nat.mod_eq_of_lt hu]

theorem State.frameTrailer_of_putTrailer {s t : State} {k : Kind} {T x : Nat} (h : s.putTrailer k T x = .ok t)
    (hx : x < 2 ^ (s.profile k).w) : t.frameTrailer k T = .ok x := by
  obtain ⟨-, hframe, -⟩ := State.writeUInt_effect h
  have hprofile : t.profile k = s.profile k := by rw [hframe]; rfl
  rw [State.frameTrailer, hprofile]
  exact State.readUInt_of_writeUInt h hx

/-- The trailer lies past the range of the checksum. -/
theorem State.frameCsum_of_putTrailer {s t : State} {k : Kind} {T x : Nat} (h : s.putTrailer k T x = .ok t)
    (ha : (s.slot k).kcsStart.toNat + (s.profile k).csw ≤ T) : t.frameCsum k T = s.frameCsum k T := by
  obtain ⟨-, hframe, hother⟩ := State.writeUInt_effect h
  have hslot : t.slot k = s.slot k := by rw [hframe]; rfl
  have hprofile : t.profile k = s.profile k := by rw [hframe]; rfl
  rw [State.frameCsum, State.frameCsum, hslot, hprofile]
  exact State.csumOf_congr (by rw [hframe]) hslot fun j hj => hother _ (by omega)

theorem State.frameCsum_lt {s : State} {k : Kind} {T x : Nat} (hl : (s.profile k).legal = true)
    (h : s.frameCsum k T = .ok x) : x < 2 ^ (s.profile k).w := by
  obtain ⟨-, bs, -, -, rfl⟩ := State.csumOf_eq_ok.1 h
  exact Profile.csum_lt bs hl

/-- Settles O25: in the state after the append the range still has its checksum, and the trailer is that checksum. -/
theorem verifyAfterAppendMatches : Obligations.VerifyAfterAppendMatches := by
  intro k s t h hok
  rcases execTrailerAppend_eq_next.1 h with ⟨c, y, hr, rfl⟩ | ⟨u, hu, rfl⟩
  · rcases raises_trailerAppended hr with ⟨rfl, -⟩ | ⟨rfl, -⟩ <;> cases hok
  obtain ⟨hc, x, v, hx, hput, rfl⟩ := State.trailerAppended_eq_ok.1 hu
  obtain ⟨hl, hT, ha⟩ := State.trailerChecks_eq_ok.1 hc
  have hsum := (State.frameCsum_of_putTrailer hput ha).trans hx
  have htrailer := State.frameTrailer_of_putTrailer hput (State.frameCsum_lt hl hx)
  obtain ⟨-, hframe, -⟩ := State.writeUInt_effect hput
  have hchecks : v.trailerChecks k = .ok () := by rw [hframe]; exact hc
  have hlen : v.frameLen = s.frameLen := by rw [hframe]
  have hvalues : ((v.setCsum x).finish 0 k.code false false).trailerValues k = .ok (x, x) := by
    refine State.trailerValues_eq_ok.2 ⟨hchecks, ?_, ?_⟩
    · exact (congrArg (fun n => v.frameCsum k n.toNat) hlen).trans hsum
    · exact (congrArg (fun n => v.frameTrailer k n.toNat) hlen).trans htrailer
  exact ⟨_, execTrailerVerify_eq_next.2 (.inr ⟨x, x, hvalues, rfl⟩), rfl, decide_eq_true rfl, rfl, rfl, rfl⟩

end Sys2Proof.Machine
end

section
/-! SUPPORT. The members of a descriptor, the raw integers of a field, and values that scale back (42_field.md R220, R225,
R226, R236). -/

namespace Sys2Proof.Machine

/-! ## Descriptors -/

theorem boundOf_eq (sgn : Bool) (lo hi : Word32) :
    boundOf sgn lo hi = if sgn then (hi ++ lo).toInt else ((hi ++ lo).toNat : Int) := by
  rw [boundOf, wordsToNat_two]
  exact ite_congr rfl (fun _ => sint_toNat (by decide) (hi ++ lo)) fun _ => rfl

theorem State.readDesc_of_unwritten {s : State} {k : Kind} {i : Nat}
    (h : ∃ j < 8, j ≠ 3 ∧ Memory.read s.desc (descAddr k i j) = none) :
    s.readDesc k i = .error (.fault .unwrittenDescriptor) := by
  cases hr : s.readDesc k i with
  | error e => rw [State.readDesc_eq_error hr]
  | ok d =>
    exfalso
    obtain ⟨j, hj, h3, hnone⟩ := h
    obtain ⟨d0, d1, d2, d4, d5, d6, d7, h0, h1, h2, h4, h5, h6, h7, -⟩ := State.readDesc_eq_ok.1 hr
    interval_cases j <;> simp_all

/-! ## Raw integers and patterns -/

theorem pattern_natCast {n u : Nat} (h : u < 2 ^ n) : pattern n u = u := by
  have hu : (u : Int) % 2 ^ n = u := Int.emod_eq_of_lt (by omega) (by exact_mod_cast h)
  rw [pattern, hu, Int.toNat_natCast]

theorem sint_bounds {n u : Nat} (hn : 0 < n) (hu : u < 2 ^ n) : -(2 ^ (n - 1)) ≤ sint n u ∧ sint n u ≤ 2 ^ (n - 1) - 1 := by
  have hpow : 2 ^ n = 2 * 2 ^ (n - 1) := by rw [← pow_succ']; congr 1; omega
  have hcast : ((2 ^ (n - 1) : Nat) : Int) = 2 ^ (n - 1) := by norm_cast
  have hcast' : ((2 ^ n : Nat) : Int) = 2 ^ n := by norm_cast
  rw [sint]
  split <;> omega

section Field
variable {d : Desc}

theorem Desc.lo_of_sgn (h : d.sgn = true) : d.lo = -(2 ^ (8 * d.w - 1)) := if_pos h

theorem Desc.lo_of_unsigned (h : d.sgn = false) : d.lo = 0 := by rw [Desc.lo, h]; rfl

theorem Desc.hi_of_sgn (h : d.sgn = true) : d.hi = 2 ^ (8 * d.w - 1) - 1 := if_pos h

theorem Desc.hi_of_unsigned (h : d.sgn = false) : d.hi = 2 ^ (8 * d.w) - 1 := by rw [Desc.hi, h]; rfl

theorem Desc.rawOf_of_sgn (h : d.sgn = true) (u : Nat) : d.rawOf u = sint (8 * d.w) u := if_pos h

theorem Desc.rawOf_of_unsigned (h : d.sgn = false) (u : Nat) : d.rawOf u = u := by rw [Desc.rawOf, h]; rfl

theorem Desc.pattern_lt (d : Desc) (r : Int) : d.pattern r < 2 ^ (8 * d.w) := Machine.pattern_lt _ _

/-- The pattern of the raw integer read from a pattern is that pattern. -/
theorem Desc.pattern_rawOf {u : Nat} (hu : u < 2 ^ (8 * d.w)) : d.pattern (d.rawOf u) = u := by
  cases hs : d.sgn with
  | true => rw [Desc.rawOf_of_sgn hs, Desc.pattern, pattern_sint hu]
  | false => rw [Desc.rawOf_of_unsigned hs, Desc.pattern, pattern_natCast hu]

variable (hw : 0 < d.w)
include hw

theorem Desc.rawOf_bounds {u : Nat} (hu : u < 2 ^ (8 * d.w)) : d.lo ≤ d.rawOf u ∧ d.rawOf u ≤ d.hi := by
  cases hs : d.sgn with
  | true =>
    rw [Desc.rawOf_of_sgn hs, Desc.lo_of_sgn hs, Desc.hi_of_sgn hs]
    exact sint_bounds (by omega) hu
  | false =>
    rw [Desc.rawOf_of_unsigned hs, Desc.lo_of_unsigned hs, Desc.hi_of_unsigned hs]
    have hu' : (u : Int) < 2 ^ (8 * d.w) := by exact_mod_cast hu
    omega

/-- A raw integer of the representable range is read back from its pattern. -/
theorem Desc.rawOf_pattern {r : Int} (hlo : d.lo ≤ r) (hhi : r ≤ d.hi) : d.rawOf (d.pattern r) = r := by
  cases hs : d.sgn with
  | true =>
    rw [Desc.lo_of_sgn hs] at hlo
    rw [Desc.hi_of_sgn hs] at hhi
    rw [Desc.rawOf_of_sgn hs, Desc.pattern, sint_pattern (by omega) hlo (by omega)]
  | false =>
    rw [Desc.lo_of_unsigned hs] at hlo
    rw [Desc.hi_of_unsigned hs] at hhi
    rw [Desc.rawOf_of_unsigned hs, Desc.pattern, Machine.pattern, Int.emod_eq_of_lt hlo (by omega),
      Int.toNat_of_nonneg hlo]

/-- A raw integer fits 64 bits with its sign apart. -/
theorem Desc.abs_lt_of_bounds {r : Int} (hw8 : d.w ≤ 8) (hlo : d.lo ≤ r) (hhi : r ≤ d.hi) : |r| < 2 ^ 64 := by
  have hpow {n : Nat} (hn : n ≤ 64) : (2 : Int) ^ n ≤ 2 ^ 64 := pow_le_pow_right₀ (by decide) hn
  rw [abs_lt]
  cases hs : d.sgn with
  | true =>
    rw [Desc.lo_of_sgn hs] at hlo
    rw [Desc.hi_of_sgn hs] at hhi
    have := hpow (show 8 * d.w - 1 ≤ 64 by omega)
    have hhalf := pow_lt_pow_right₀ (show (1 : Int) < 2 by decide) (show 8 * d.w - 1 < 64 by omega)
    omega
  | false =>
    rw [Desc.lo_of_unsigned hs] at hlo
    rw [Desc.hi_of_unsigned hs] at hhi
    have := hpow (show 8 * d.w ≤ 64 by omega)
    omega

end Field

/-- A raw integer read from the frame lies in the representable range and has the bytes read as its pattern. -/
theorem State.readRaw_facts {s : State} {k : Kind} {i a : Nat} {d : Desc} {r : Int} (hd : s.readDesc k i = .ok d)
    (h : s.readRaw a d = .ok r) :
    |r| < 2 ^ 64 ∧ ∃ bs, s.holdsBytes a bs ∧ natToBytes d.ord d.w (d.pattern r) = bs := by
  obtain ⟨hw, -, -⟩ := State.readDesc_bounds hd
  obtain ⟨u, hu, rfl⟩ := State.readRaw_eq_ok.1 h
  obtain ⟨-, bs, hlen, hbs, rfl⟩ := State.readUInt_eq_ok.1 hu
  have hlt : bytesToNat d.ord bs < 2 ^ (8 * d.w) := hlen ▸ bytesToNat_lt d.ord bs
  obtain ⟨hlo, hhi⟩ := Desc.rawOf_bounds (by omega) hlt
  refine ⟨Desc.abs_lt_of_bounds (by omega) (by omega) hlo hhi, bs, hbs, ?_⟩
  rw [Desc.pattern_rawOf hlt, ← hlen, natToBytes_bytesToNat]

/-! ## Rounding and scaling back -/

theorem roundHalfAway_of_multiple {n m q : Int} (hm : m ≠ 0) (h : n = q * m) : roundHalfAway n m = q := by
  obtain ⟨hnear, -⟩ := roundHalfAway_nearest n hm
  rw [h, ← sub_mul, abs_mul] at hnear
  have hpos : 0 < |m| := abs_pos.2 hm
  have hzero : |q - roundHalfAway (q * m) m| < 1 := by
    by_contra hge
    have := mul_le_mul_of_nonneg_right (not_lt.1 hge) hpos.le
    omega
  rw [h]
  exact (sub_eq_zero.1 (Int.abs_lt_one_iff.1 hzero)).symm

/-- Another multiple is at least |m| away from the one rounding picks, and that one is at most half of it from n. -/
theorem roundHalfAway_le_of_multiple (n : Int) {m : Int} (hm : m ≠ 0) (q : Int) :
    |n - roundHalfAway n m * m| ≤ |n - q * m| := by
  obtain ⟨hnear, -⟩ := roundHalfAway_nearest n hm
  by_cases hq : q = roundHalfAway n m
  · rw [hq]
  have hone : 1 ≤ |roundHalfAway n m - q| := Int.one_le_abs (sub_ne_zero.2 (Ne.symm hq))
  have hfar : |m| ≤ |(roundHalfAway n m - q) * m| := by
    rw [abs_mul]
    exact le_mul_of_one_le_left (abs_nonneg m) hone
  have htri : |(roundHalfAway n m - q) * m| ≤ |n - q * m| + |n - roundHalfAway n m * m| := by
    have hsplit : (roundHalfAway n m - q) * m = (n - q * m) - (n - roundHalfAway n m * m) := by ring
    rw [hsplit]
    exact abs_sub _ _
  omega

theorem State.invScale_storeValue {s : State} {i : Nat} {r : Int} {d : Desc} (hn : d.snum ≠ 0) (hd : d.sden ≠ 0)
    (hd32 : d.sden < 2 ^ 32) (hn31 : |d.snum| ≤ 2 ^ 31) (hr : |r| < 2 ^ 64) :
    (s.storeValue i r d).invScale i d = .ok r := by
  have words := State.holdsResWords_setResWords s i 0
    (natToWords 2 (pattern 64 r) ++ (natToWords 4 (pattern 128 (r * d.snum)) ++ [BitVec.ofNat 32 d.sden]))
  rw [← State.storeValue_eq_setResWords] at words
  obtain ⟨-, words⟩ := State.holdsResWords_append words
  obtain ⟨hnum, hden⟩ := State.holdsResWords_append words
  rw [natToWords_length] at hnum
  rw [natToWords_length, natToWords_length] at hden
  have hprod : |r * d.snum| ≤ 2 ^ 64 * 2 ^ 31 := by
    rw [abs_mul]
    exact mul_le_mul hr.le hn31 (abs_nonneg _) (by positivity)
  rw [abs_le] at hprod
  have hvnum : sint 128 (wordsToNat (natToWords 4 (pattern 128 (r * d.snum)))) = r * d.snum := by
    rw [wordsToNat_natToWords, Nat.mod_eq_of_lt (pattern_lt _ _), sint_pattern (by decide)] <;> norm_num at * <;> omega
  have hvden : wordsToNat [BitVec.ofNat 32 d.sden] = d.sden := by
    rw [wordsToNat_one, BitVec.toNat_ofNat, Nat.mod_eq_of_lt hd32]
  refine State.invScale_eq_ok.2 ⟨_, _, State.resWords_eq_ok.2 ⟨natToWords_length _ _, hnum⟩,
    State.resWords_eq_ok.2 ⟨rfl, hden⟩, by rwa [hvden], ?_⟩
  rw [hvnum, hvden]
  exact (roundHalfAway_of_multiple (mul_ne_zero (Int.natCast_ne_zero.2 hd) hn) (by ring)).symm

/-! ## Writing back what stands there -/

theorem Memory.read_writeSeq_held {α : Type} {m : Memory α} {stride a : Nat} {vs : List α} (hs : 0 < stride)
    (h : ∀ j, (hj : j < vs.length) → Memory.read m (a + stride * j) = some vs[j]) (c : Nat) :
    Memory.read (Memory.writeSeq stride m a vs) c = Memory.read m c := by
  by_cases hc : ∃ j < vs.length, c = a + stride * j
  · obtain ⟨j, hj, rfl⟩ := hc
    rw [Memory.read_writeSeq_same hs hj, h j hj]
  · exact Memory.read_writeSeq_other fun j hj hcj => hc ⟨j, hj, hcj⟩

theorem State.read_writeBuf_held {s : State} {a : Nat} {bs : List Byte} (h : s.holdsBytes a bs) (c : Nat) :
    Memory.read (Memory.writeSeq 1 s.buf a bs) c = Memory.read s.buf c :=
  Memory.read_writeSeq_held Nat.one_pos (fun j hj => by rw [Nat.one_mul]; exact h j hj) c

theorem State.read_setResWords_held {s : State} {i j : Nat} {ws : List Word32} (h : s.holdsResWords i j ws) (c : Nat) :
    Memory.read (s.setResWords i j ws).res c = Memory.read s.res c :=
  Memory.read_writeSeq_held (by decide) (fun n hn => by
    rw [← h n hn]
    congr 1
    simp only [resAddr]
    omega) c

/-- StoreValue leaves in RAW the words that storing the raw integer alone would. -/
theorem State.holdsResWords_raw_storeValue (s : State) (i : Nat) (r : Int) (d : Desc) :
    (s.storeValue i r d).holdsResWords i 0 (natToWords 2 (pattern 64 r)) := by
  rw [State.storeValue_eq_setResWords]
  exact (State.holdsResWords_append (State.holdsResWords_setResWords s i 0 _)).1

end Sys2Proof.Machine
end

section
/-! The statements about descriptors, raw integers and the round trip of a field (42_field.md R220 to R236). -/

namespace Sys2Proof.Machine

/-- Settles O28: each member is a run of bits or one bit of its word, and MIN and MAX are pairs of words. -/
theorem descriptorReadsItsWords : Obligations.DescriptorReadsItsWords := by
  refine fun s k i => ⟨fun d0 d1 d2 d4 d5 d6 d7 h0 h1 h2 h4 h5 h6 h7 => ?_, State.readDesc_of_unwritten⟩
  refine ⟨_, State.readDesc_eq_ok.2 ⟨d0, d1, d2, d4, d5, d6, d7, h0, h1, h2, h4, h5, h6, h7, rfl⟩, ?_,
    widthBytes_extractLsb' d0 16, ofBit_getLsbD_eq_big d0 18, getLsbD_iff_div_mod d0 19, getLsbD_iff_div_mod d0 20, ?_,
    sint_toNat (by decide) d1, rfl, boundOf_eq _ d4 d5, boundOf_eq _ d6 d7⟩
  · exact (toNat_extractLsb'_eq d0 0 16).trans (by rw [pow_zero, Nat.div_one])
  · refine (toNat_extractLsb'_eq d0 24 8).trans (Nat.mod_eq_of_lt ?_)
    have := d0.isLt
    omega

/-- Settles O29: two's complement and the plain number, each with its pattern. -/
theorem fieldHoldsItsRepresentableRange : Obligations.FieldHoldsItsRepresentableRange := by
  intro d hw
  have hw : 0 < d.w := by omega
  refine ⟨rfl, rfl, fun u hu => ?_, fun r hlo hhi => ⟨d.pattern_lt r, Desc.rawOf_pattern hw hlo hhi⟩⟩
  obtain ⟨hlo, hhi⟩ := Desc.rawOf_bounds hw hu
  exact ⟨hlo, hhi, Desc.pattern_rawOf hu⟩

/-- Settles O32: the stored VNUM and VDEN are exact, and their quotient by the scale is a multiple. -/
theorem fieldRoundTrip : Obligations.FieldRoundTrip :=
  ⟨fun _ _ _ _ hn hd hd32 hn31 hr => State.invScale_storeValue hn hd hd32 hn31 hr,
    fun n _ hm => ⟨roundHalfAway_le_of_multiple n hm, fun _ => roundHalfAway_of_multiple hm⟩⟩

/-- Settles O35: the stored value scales back to the raw integer, whose pattern is the bytes it was read from. -/
theorem insertAfterExtractWritesBack : Obligations.InsertAfterExtractWritesBack := by
  intro k idx s t d h hok hd hnum hden
  rcases execFieldExtract_eq_next.1 h with ⟨c, y, hr, rfl⟩ | ⟨d', r, hr, rfl⟩
  · rcases raises_fieldExtracted hr with ⟨rfl, -⟩ | ⟨rfl, -⟩ | ⟨rfl, -⟩ <;> cases hok
  obtain ⟨hc, hraw, hin⟩ := State.fieldExtracted_eq_ok.1 hr
  obtain ⟨hv, hlt, hd', hT, hp⟩ := State.fieldChecks_eq_ok.1 hc
  rw [hd] at hd'
  cases hd'
  obtain ⟨-, hd32, hn31⟩ := State.readDesc_bounds hd
  obtain ⟨hr64, bs, hbs, hbytes⟩ := State.readRaw_facts hd hraw
  have hscale : (s.storeValue idx.toNat r d).invScale idx.toNat d = .ok r :=
    State.invScale_storeValue hnum hden hd32 hn31 hr64
  have hraw_words := State.holdsResWords_raw_storeValue s idx.toNat r d
  obtain ⟨res, hres⟩ := storeValue_eq_of_res s idx.toNat r d
  rw [hres] at hscale hraw_words ⊢
  have hchecks : { s with res := res }.fieldChecks k idx = .ok d := hc
  have hinsert := execFieldInsert_of_in_range (s := ({ s with res := res } : State).finish idx k.code false false)
    hchecks hscale (Desc.inRange_iff.1 hin) (hp.trans hT)
  refine ⟨_, hinsert, rfl, fun a => ?_, fun a => ?_⟩
  · exact hbytes ▸ State.read_writeBuf_held hbs a
  · exact State.read_setResWords_held hraw_words a

end Sys2Proof.Machine
end

section
/-! SUPPORT. How a FRAME.DECODE goes on once each of its parts has answered, and the result entries it stores
(43_frame.md R266, R267). -/

namespace Sys2Proof.Machine

/-! ## The result entries -/

/-- The seven words of the entry of a raw integer (42_field.md R229). -/
def entryWords (d : Desc) (r : Int) : List Word32 :=
  natToWords 2 (pattern 64 r) ++ (natToWords 4 (pattern 128 (r * d.snum)) ++ [BitVec.ofNat 32 d.sden])

theorem entryWords_length (d : Desc) (r : Int) : (entryWords d r).length = 7 := by simp [entryWords]

theorem State.storeValue_eq_entryWords (s : State) (i : Nat) (r : Int) (d : Desc) :
    s.storeValue i r d = s.setResWords i 0 (entryWords d r) :=
  s.storeValue_eq_setResWords i r d

theorem State.holdsEntry_of_entryWords {s : State} {i : Nat} {d : Desc} {r : Int}
    (h : s.holdsResWords i 0 (entryWords d r)) : s.holdsEntry i d r := by
  rw [entryWords, natToWords_two, natToWords_four] at h
  exact ⟨_, _, _, _, _, _, _, h, (append_two _).trans (ofNat_pattern _ _), (append_four _).trans (ofNat_pattern _ _), rfl⟩

theorem State.storeValues_res_other {s : State} {i a : Nat} {rs : List (Desc × Int)}
    (h : ∀ n j, n < rs.length → j < 7 → a ≠ resAddr (i + n) j) :
    Memory.read (s.storeValues i rs).res a = Memory.read s.res a := by
  induction rs generalizing s i with
  | nil => rfl
  | cons q rs ih =>
    obtain ⟨d, r⟩ := q
    rw [State.storeValues, ih fun n j hn hj => by
        rw [Nat.add_right_comm, Nat.add_assoc]; exact h (n + 1) j (by simpa using hn) hj,
      State.storeValue_eq_entryWords]
    refine State.read_setResWords_other fun j hj => ?_
    rw [Nat.zero_add]
    exact h 0 j (by simp) (by rwa [entryWords_length] at hj)

theorem State.storeValues_holds {s : State} {i n : Nat} {rs : List (Desc × Int)} {d : Desc} {r : Int}
    (h : rs[n]? = some (d, r)) : (s.storeValues i rs).holdsResWords (i + n) 0 (entryWords d r) := by
  induction rs generalizing s i n with
  | nil => cases h
  | cons q rs ih =>
    cases n with
    | zero =>
      cases h
      intro j hj
      have hj7 : j < 7 := by rwa [entryWords_length] at hj
      rw [State.storeValues, State.storeValues_res_other, State.storeValue_eq_entryWords]
      · exact State.holdsResWords_setResWords s i 0 _ j hj
      · intro m j' _ hj'
        rw [resAddr, resAddr]
        omega
    | succ n =>
      have := ih (s := s.storeValue i q.2 q.1) (i := i + 1) h
      rwa [Nat.add_right_comm, Nat.add_assoc] at this

/-! ## The course of a decode -/

section Course
variable {s : State} {sel : DecodeSel} {k : Kind} {p : Nat}

theorem execFrameDecode_of_payload (hk : s.decodeKindOf sel = .ok k) (hp : s.decodePayload k = .ok p) :
    execFrameDecode sel s = s.decodeBody k p := by
  simp only [execFrameDecode, hk, hp]

theorem execFrameDecode_of_lengthMismatch (hk : s.decodeKindOf sel = .ok k)
    (hp : s.decodePayload k = .error (.raise .lengthMismatch 0)) :
    execFrameDecode sel s = .next (s.raise .lengthMismatch 0 k.code) :=
  execFrameDecode_eq_next.2 (.inr (.inl ⟨k, _, _, hk, hp, rfl⟩))

theorem State.decodeBody_of_mismatch {x rx : Nat} (hx : s.decodeChecksums k (s.totalLength k p) = .ok (x, rx))
    (hne : x ≠ rx) :
    s.decodeBody k p = .next (((s.setCsum x).setCsrx rx).raise .checksumMismatch 0 k.code) :=
  State.decodeBody_eq_next.2 (.inr (.inl ⟨x, rx, hx, hne, rfl⟩))

theorem State.decodeBody_of_fields {x : Nat} {rs : List (Desc × Int)}
    (hx : s.decodeChecksums k (s.totalLength k p) = .ok (x, x)) (hrs : s.decodeFields k (s.descIndexes k) = .ok rs) :
    s.decodeBody k p
      = .next (((((s.setCsum x).setCsrx x).storeValues 0 rs).setSnapshot k p).finish 0 k.code false true) :=
  State.decodeBody_eq_next.2 (.inr (.inr ⟨x, hx, State.decodeCommit_eq_next.2
    (.inr ⟨rs, (State.decodeFields_setCsum s x x k _).trans hrs, rfl⟩)⟩))

theorem State.decodeBody_of_fields_raise {x : Nat} {c : ResultCode} {y : BitVec 8}
    (hx : s.decodeChecksums k (s.totalLength k p) = .ok (x, x))
    (hrs : s.decodeFields k (s.descIndexes k) = .error (.raise c y)) :
    s.decodeBody k p = .next (((s.setCsum x).setCsrx x).raise c y k.code) :=
  State.decodeBody_eq_next.2 (.inr (.inr ⟨x, hx, State.decodeCommit_eq_next.2
    (.inl ⟨c, y, (State.decodeFields_setCsum s x x k _).trans hrs, rfl⟩)⟩))

theorem State.getElem_descIndexes {n : Nat} (h : n < (s.descIndexes k).length) : (s.descIndexes k)[n] = n := by
  simp [State.descIndexes]

theorem State.length_descIndexes (s : State) (k : Kind) : (s.descIndexes k).length = (s.slot k).kndesc.toNat :=
  List.length_range

/-- All that a FRAME.DECODE which ends with OK has read and computed. -/
theorem execFrameDecode_ok {t : State} (h : execFrameDecode sel s = .next t) (hok : t.err.code = .ok) :
    ∃ k p x rs, s.decodeKindOf sel = .ok k ∧ s.decodePayload k = .ok p
      ∧ s.decodeChecksums k (s.totalLength k p) = .ok (x, x) ∧ s.decodeFields k (s.descIndexes k) = .ok rs
      ∧ t = ((((s.setCsum x).setCsrx x).storeValues 0 rs).setSnapshot k p).finish 0 k.code false true := by
  rcases execFrameDecode_cases h with ⟨c, y, hr, rfl⟩ | ⟨_, -, -, rfl⟩ |
    ⟨k, p, x, rx, hk, hp, hx, ⟨-, rfl⟩ | ⟨-, _, -, rfl⟩ | ⟨rfl, rs, hrs, rfl⟩⟩
  · rcases raises_decodeKindOf hr with ⟨rfl, -⟩ | ⟨-, rfl | rfl | rfl⟩ <;> cases hok
  · cases hok
  · cases hok
  · cases hok
  · exact ⟨k, p, x, rs, hk, hp, hx, (State.decodeFields_setCsum s x x k _).symm.trans hrs, rfl⟩

/-- A header, a payload length and two checksums read as 43_frame.md R266 has them. -/
theorem execFrameDecode_of_checksum {d x : Nat} (hd : s.headerRead sel d) (hk : s.resolvesTo sel d k)
    (hp : s.payloadIs k p) (hlen : s.frameLen.toNat = s.hdrLen + p + (s.profile k).csw)
    (hx : s.frameCsum k s.frameLen.toNat = .ok x) (hrx : s.frameTrailer k s.frameLen.toNat = .ok x) :
    execFrameDecode sel s = s.decodeBody k p ∧ s.decodeChecksums k (s.totalLength k p) = .ok (x, x) := by
  rw [hlen] at hx hrx
  exact ⟨execFrameDecode_of_payload (State.decodeKindOf_of_resolvesTo hd hk) (State.decodePayload_eq_ok.2 ⟨hp, hlen⟩),
    State.decodeChecksums_eq_ok.2 ⟨hx, hrx⟩⟩

end Course

/-! ## CONFIG_ERROR -/

theorem configServes_of_not_configError {sel : DecodeSel} {s : State} {x : BitVec 8}
    (h : s.decodeKindOf sel = .error (.raise .configError x)) : ¬s.configServes sel := by
  rcases State.decodeKindOf_eq_error.1 h with ⟨hn, -⟩ | ⟨-, -, h⟩ | ⟨-, -, -, h⟩ | ⟨-, -, -, h⟩ | ⟨_, -, -, h⟩
  · exact hn
  · cases h
  · cases h
  · exact absurd (State.readUInt_eq_error.1 h) State.memRead_ne_raise
  · cases h

theorem execFrameDecode_ne_configError {sel : DecodeSel} {s t : State} (hc : s.configServes sel)
    (h : execFrameDecode sel s = .next t) : t.err.code ≠ .configError := by
  rintro hcode
  rcases execFrameDecode_cases h with ⟨c, y, hr, rfl⟩ | ⟨_, -, -, rfl⟩ |
    ⟨_, _, _, _, -, -, -, ⟨-, rfl⟩ | ⟨-, _, -, rfl⟩ | ⟨-, _, -, rfl⟩⟩
  · cases hcode
    exact configServes_of_not_configError hr hc
  all_goals cases hcode

theorem execFrameEncode_ne_configError {k : Kind} {s t : State} (hv : s.isValid k = true)
    (h : execFrameEncode k s = .next t) : t.err.code ≠ .configError := by
  rintro hcode
  rcases execFrameEncode_eq_next.1 h with ⟨c, y, hr, rfl⟩ | ⟨_, -, rfl⟩
  · cases hcode
    obtain ⟨-, hnot⟩ := fidx_of_frameEncoded_configError hr
    rw [hv] at hnot
    cases hnot
  · cases hcode

/-! ## The lowest failing descriptor -/

section Lowest
variable {s : State} {k : Kind} {i : Nat} (hi : i < (s.slot k).kndesc.toNat)
include hi

theorem State.decodeFields_out_of_range {e : Desc} {r : Int}
    (hlow : ∀ j < i, ∃ e' r', s.holdsField k j e' r' ∧ e'.vlo ≤ r' ∧ r' ≤ e'.vhi) (he : s.holdsField k i e r)
    (hout : ¬(e.vlo ≤ r ∧ r ≤ e.vhi)) :
    s.decodeFields k (s.descIndexes k) = .error (.raise .fieldOutOfRange (BitVec.ofNat 8 i)) := by
  obtain ⟨hd, hr⟩ := he
  have hlen : i < (s.descIndexes k).length := by rwa [State.length_descIndexes]
  refine State.decodeFields_eq_error.2 ⟨i, hlen, fun m hm => ?_, .inr ⟨e, ?_, .inr ⟨r, hr, ?_, ?_⟩⟩⟩
  · obtain ⟨e', r', hf, hin⟩ := hlow m hm
    rw [State.getElem_descIndexes]
    exact ⟨e', r', hf, Desc.inRange_iff.2 hin⟩
  · rwa [State.getElem_descIndexes]
  · exact Desc.inRange_eq_false_iff.2 hout
  · rw [State.getElem_descIndexes]

theorem State.encodeFields_stops {e : Desc} {x : Stop}
    (hlow : ∀ j < i, ∃ e' r', s.holdsValue k j e' r' ∧ e'.vlo ≤ r' ∧ r' ≤ e'.vhi) (hd : s.readDesc k i = .ok e)
    (hx : s.encodeRaw i e = .error x) : s.encodeFields k (s.descIndexes k) = .error x := by
  have hlen : i < (s.descIndexes k).length := by rwa [State.length_descIndexes]
  refine State.encodeFields_eq_error.2 ⟨i, hlen, fun m hm => ?_, .inr ⟨e, ?_, ?_⟩⟩
  · obtain ⟨e', r', hf, hin⟩ := hlow m hm
    rw [State.getElem_descIndexes]
    exact ⟨e', r', hf, Desc.inRange_iff.2 hin⟩
  · rwa [State.getElem_descIndexes]
  · rwa [State.getElem_descIndexes]

end Lowest

theorem execFrameEncode_of_error {k : Kind} {s : State} {x : Stop} (h : s.frameEncoded k = .error x) :
    execFrameEncode k s = s.stop k.code x := by
  rw [execFrameEncode, h]

end Sys2Proof.Machine
end

section
/-! The statements about decoding and the frame commands' errors (43_frame.md R266, R274; 60_exceptions.md R306 to
R310). -/

namespace Sys2Proof.Machine

/-- Settles O41: every part of the decode answers, and each result entry is written once. -/
theorem frameDecodeDeliversTheSnapshot : Obligations.FrameDecodeDeliversTheSnapshot := by
  intro sel s d p x k rs hd hk hp hlen hx hrx hcount hfields
  obtain ⟨hbody, hsums⟩ := execFrameDecode_of_checksum hd hk hp hlen hx hrx
  have hrs : s.decodeFields k (s.descIndexes k) = .ok rs := by
    refine State.decodeFields_eq_ok.2 ⟨by rw [hcount, State.length_descIndexes], fun n hn => ?_⟩
    have hn' : n < rs.length := by rwa [State.length_descIndexes, ← hcount] at hn
    obtain ⟨hf, hin⟩ := hfields n rs[n].1 rs[n].2 (List.getElem?_eq_getElem hn')
    rw [State.getElem_descIndexes]
    exact ⟨_, _, List.getElem?_eq_getElem hn', hf, Desc.inRange_iff.2 hin⟩
  have hother (a : Nat) (ha : ∀ i j, i < rs.length → j < 7 → a ≠ resAddr i j) :
      Memory.read (((s.setCsum x).setCsrx x).storeValues 0 rs).res a = Memory.read s.res a :=
    State.storeValues_res_other fun n j hn hj => by rw [Nat.zero_add]; exact ha n j hn hj
  have hentry (i : Nat) (e : Desc) (r : Int) (h : rs[i]? = some (e, r)) :
      (((s.setCsum x).setCsrx x).storeValues 0 rs).holdsEntry i e r := by
    have := State.storeValues_holds (s := (s.setCsum x).setCsrx x) (i := 0) h
    rw [Nat.zero_add] at this
    exact State.holdsEntry_of_entryWords this
  refine ⟨_, hbody.trans (State.decodeBody_of_fields hsums hrs), ?_, hentry, hother⟩
  obtain ⟨res, hres⟩ := storeValues_eq_of_res ((s.setCsum x).setCsrx x) 0 rs
  rw [hres]
  rfl

/-- Settles O45: the configuration is checked before anything else, and nothing after it raises CONFIG_ERROR. -/
theorem frameCommandsCheckConfigurationThenOperands : Obligations.FrameCommandsCheckConfigurationThenOperands := by
  refine fun s => ⟨fun sel => ⟨⟨fun h hc => ?_, fun hc => ?_⟩, fun hc t h => ?_, fun hc hT => ?_⟩,
    fun k => ⟨⟨fun h => ?_, fun hv => ?_⟩, fun hv t h => ?_, fun hv hl hp => ?_⟩⟩
  · exact execFrameDecode_ne_configError hc h rfl
  · exact execFrameDecode_eq_next.2 (.inl ⟨_, _, State.decodeKindOf_eq_error.2 (.inl ⟨hc, rfl⟩), rfl⟩)
  · exact execFrameDecode_ne_configError hc h
  · exact execFrameDecode_eq_next.2 (.inl ⟨_, _, State.decodeKindOf_eq_error.2 (.inr (.inl ⟨hc, hT, rfl⟩)), rfl⟩)
  · exact Bool.eq_false_iff.2 fun hv => execFrameEncode_ne_configError hv h rfl
  · exact execFrameEncode_of_error (State.frameEncoded_eq_error.2 (.inl ⟨hv, rfl⟩))
  · exact execFrameEncode_ne_configError hv h
  · have hpay := State.encodePayload_eq_error.2 ⟨hl, hp, rfl⟩
    exact execFrameEncode_of_error (State.frameEncoded_eq_error.2 (.inr ⟨hv, .inl hpay⟩))

/-- Settles O46: both commands go through the descriptors in index order; an encode scales a value before it checks its
range. -/
theorem lowestFailingDescriptorIsNamed : Obligations.LowestFailingDescriptorIsNamed := by
  refine ⟨fun sel s d p x i k e r hd hk hp hlen hx hrx hi hlow he hout => ?_, fun s p i k e hv hp hi hlow => ?_⟩
  · obtain ⟨hbody, hsums⟩ := execFrameDecode_of_checksum hd hk hp hlen hx hrx
    exact hbody.trans (State.decodeBody_of_fields_raise hsums (State.decodeFields_out_of_range hi hlow he hout))
  · have hpay : ∃ p, s.encodePayload k = .ok p := by
      cases hl : (s.slot k).lenMode with
      | true => exact ⟨p, State.encodePayload_eq_ok.2 (by rw [hl]; exact hp hl)⟩
      | false => exact ⟨_, State.encodePayload_eq_ok.2 (by rw [hl]; rfl)⟩
    obtain ⟨p', hpay⟩ := hpay
    have stops {x : Stop} {e : Desc} (hd : s.readDesc k i = .ok e) (hx : s.encodeRaw i e = .error x) :
        execFrameEncode k s = s.stop k.code x :=
      execFrameEncode_of_error (State.frameEncoded_eq_error.2
        (.inr ⟨hv, .inr ⟨p', hpay, .inl (State.encodeFields_stops hi hlow hd hx)⟩⟩))
    refine ⟨fun hd hz => ?_, fun hd hu => ?_, fun r ⟨hd, hr⟩ hout => ?_⟩
    · exact stops hd (State.encodeRaw_eq_error.2 (.inl hz))
    · exact stops hd (State.encodeRaw_eq_error.2 (.inl (State.invScale_of_unwritten e hu)))
    · exact stops hd (State.encodeRaw_eq_error.2 (.inr ⟨r, hr, Desc.inRange_eq_false_iff.2 hout, rfl⟩))

/-- Settles O47: the header still fits, since a trailer has at least one byte, and the same payload length no longer does. -/
theorem truncatedFrameIsALengthMismatch : Obligations.TruncatedFrameIsALengthMismatch := by
  intro sel s t h hok
  obtain ⟨k, p, x, rs, hk, hp, -, -, -⟩ := execFrameDecode_ok h hok
  obtain ⟨d, ⟨hc, hT, -, hd⟩, hr⟩ := State.decodeKindOf_eq_ok.1 hk
  obtain ⟨hpay, hlen⟩ := State.decodePayload_eq_ok.1 hp
  have hcsw : 0 < (s.profile k).csw := (s.slot k).csw_pos
  have hcut : (s.frameLen - 1).toNat = s.frameLen.toNat - 1 := by
    rw [State.totalLength] at hlen
    have := s.frameLen.isLt
    rw [BitVec.toNat_sub]
    change (2 ^ 16 - 1 + s.frameLen.toNat) % 2 ^ 16 = _
    omega
  rw [State.totalLength] at hlen
  have hk' : ({ s with frameLen := s.frameLen - 1 } : State).decodeKindOf sel = .ok k := by
    refine State.decodeKindOf_eq_ok.2 ⟨d, ⟨hc, ?_, ?_, hd⟩, hr⟩
    · change (s.frameLen - 1).toNat ≤ s.params.bufSize
      omega
    · change s.hdrLen ≤ (s.frameLen - 1).toNat
      omega
  have hp' : ({ s with frameLen := s.frameLen - 1 } : State).decodePayload k = .error (.raise .lengthMismatch 0) := by
    refine State.decodePayload_eq_error.2 (.inr ⟨rfl, .inr ⟨p, hpay, ?_⟩⟩)
    change (s.frameLen - 1).toNat ≠ s.hdrLen + p + (s.profile k).csw
    omega
  exact ⟨_, execFrameDecode_of_lengthMismatch hk' hp', rfl⟩

end Sys2Proof.Machine
end

section
/-! SUPPORT. On what a FRAME.DECODE depends, part by part (43_frame.md R272). -/

namespace Sys2Proof.Machine

/-! ## States a decode cannot tell apart but by the buffer -/

/-- t is s but for the buffer and for what no FRAME.DECODE reads. -/
def State.sameDecode (s t : State) : Prop :=
  t = { s with
    cmd := t.cmd, status := t.status, err := t.err, arg0 := t.arg0, arg1 := t.arg1, exp := t.exp, csum := t.csum
    csrx := t.csrx, kindOut := t.kindOut, payLen := t.payLen, pending := t.pending, res := t.res, buf := t.buf
    host := t.host, latency := t.latency, latencies := t.latencies, draws := t.draws }

section
variable {s t : State} {sel : DecodeSel} {k : Kind} {p : Nat} (h : s.sameDecode t)
include h

theorem State.sameDecode.decodeKindOf
    (hd : s.configServes sel → s.frameLen.toNat ≤ s.params.bufSize → s.hdrLen ≤ s.frameLen.toNat → t.disc = s.disc) :
    t.decodeKindOf sel = s.decodeKindOf sel := by
  have hconfig : t.decodeConfigOk sel = s.decodeConfigOk sel := by rw [h]; rfl
  have hfits : decide (t.frameLen.toNat ≤ t.params.bufSize) = decide (s.frameLen.toNat ≤ s.params.bufSize) := by
    rw [h]
  have hheader : decide (t.hdrLen ≤ t.frameLen.toNat) = decide (s.hdrLen ≤ s.frameLen.toNat) := by rw [h]; rfl
  have hresolve : t.resolve sel = s.resolve sel := by rw [h]; rfl
  simp only [State.decodeKindOf, hconfig, hfits, hheader, hresolve]
  cases hc : s.decodeConfigOk sel with
  | false => rfl
  | true =>
  by_cases hT : s.frameLen.toNat ≤ s.params.bufSize
  · by_cases hh : s.hdrLen ≤ s.frameLen.toNat
    · rw [hd (State.decodeConfigOk_iff.1 hc) hT hh]
    · rw [decide_eq_false hh]; rfl
  · rw [decide_eq_false hT]; rfl

theorem State.sameDecode.decodePayload (hl : (s.slot k).lenMode = true → t.lengthField k = s.lengthField k) :
    t.decodePayload k = s.decodePayload k := by
  have hslot : t.slot k = s.slot k := by rw [h]; rfl
  have hlen : t.frameLen = s.frameLen := by rw [h]
  have htotal : t.totalLength k = s.totalLength k := by rw [h]; rfl
  simp only [State.decodePayload, hslot, hlen, htotal]
  split
  · next hm => rw [hl hm]
  · rfl

theorem State.sameDecode.readDesc (i : Nat) : t.readDesc k i = s.readDesc k i :=
  State.readDesc_congr (by rw [h]) k i

theorem State.sameDecode.decodeFields {is : List Nat}
    (hr : ∀ i ∈ is, ∀ d, s.readDesc k i = .ok d → t.readRaw (s.fieldPos d) d = s.readRaw (s.fieldPos d) d) :
    t.decodeFields k is = s.decodeFields k is := by
  have hpos (d : Desc) : t.fieldPos d = s.fieldPos d := by rw [h]; rfl
  induction is with
  | nil => rfl
  | cons i is ih =>
    rw [State.decodeFields, State.decodeFields, h.readDesc, ih fun j hj => hr j (List.mem_cons_of_mem i hj)]
    cases hd : s.readDesc k i with
    | error e => rfl
    | ok d => simp only [ok_bind, hpos, hr i List.mem_cons_self d hd]

/-! ## Parts that read the same bytes -/

theorem State.sameDecode.readUInt {a w : Nat} (ord : ByteOrder)
    (hb : ∀ c, a ≤ c → c < a + w → Memory.read t.buf c = Memory.read s.buf c) :
    t.readUInt a w ord = s.readUInt a w ord :=
  State.readUInt_congr ord (by rw [h]) fun j hj => hb (a + j) (by omega) (by omega)

theorem State.sameDecode.disc
    (hb : ∀ c, s.discOff.toNat ≤ c → c < s.discOff.toNat + s.discBytes → Memory.read t.buf c = Memory.read s.buf c) :
    t.disc = s.disc := by
  have hoff : t.discOff = s.discOff := by rw [h]
  have hbytes : t.discBytes = s.discBytes := by rw [h]; rfl
  have hord : t.discOrd = s.discOrd := by rw [h]; rfl
  rw [State.disc, hoff, hbytes, hord]
  exact h.readUInt _ hb

theorem State.sameDecode.lengthField
    (hb : ∀ c, (s.slot k).klenOff.toNat ≤ c → c < (s.slot k).klenOff.toNat + (s.slot k).lenBytes →
      Memory.read t.buf c = Memory.read s.buf c) : t.lengthField k = s.lengthField k := by
  have hslot : t.slot k = s.slot k := by rw [h]; rfl
  rw [State.lengthField, hslot]
  exact h.readUInt _ hb

theorem State.sameDecode.frameCsum {T : Nat}
    (hb : ∀ c, (s.slot k).kcsStart.toNat ≤ c → c < T - (s.profile k).csw → Memory.read t.buf c = Memory.read s.buf c) :
    t.frameCsum k T = s.frameCsum k T := by
  have hslot : t.slot k = s.slot k := by rw [h]; rfl
  have hprofile : t.profile k = s.profile k := by rw [h]; rfl
  rw [State.frameCsum, State.frameCsum, hslot, hprofile]
  exact State.csumOf_congr (by rw [h]) hslot fun j hj => hb _ (by omega) (by omega)

theorem State.sameDecode.frameTrailer {T : Nat} (hw : (s.profile k).csw ≤ T)
    (hb : ∀ c, T - (s.profile k).csw ≤ c → c < T → Memory.read t.buf c = Memory.read s.buf c) :
    t.frameTrailer k T = s.frameTrailer k T := by
  have hprofile : t.profile k = s.profile k := by rw [h]; rfl
  rw [State.frameTrailer, hprofile]
  exact h.readUInt _ fun c h1 h2 => hb c h1 (by omega)

theorem State.sameDecode.readRaw {a : Nat} {d : Desc}
    (hb : ∀ c, a ≤ c → c < a + d.w → Memory.read t.buf c = Memory.read s.buf c) : t.readRaw a d = s.readRaw a d := by
  rw [State.readRaw, State.readRaw, h.readUInt _ hb]

end

/-! ## A frame that is decoded -/

section
variable {s t : State} {sel : DecodeSel} {k : Kind} {p : Nat} (h : s.sameDecode t) (hd : Decoding s sel k p)
include h hd

theorem Decoding.decodeChecksums_congr
    (hb : ∀ c, (s.slot k).kcsStart.toNat ≤ c → c < s.frameLen.toNat → Memory.read t.buf c = Memory.read s.buf c) :
    t.decodeChecksums k (s.totalLength k p) = s.decodeChecksums k (s.totalLength k p) := by
  have hlen := hd.length
  have hstart := hd.kind.start
  have htotal : s.totalLength k p = s.frameLen.toNat := hlen.symm
  rw [State.decodeChecksums, State.decodeChecksums, htotal, h.frameCsum fun c h1 h2 => hb c h1 (by omega),
    h.frameTrailer (by omega) fun c h1 h2 => hb c (by omega) h2]

/-- The fields lie between the header and the trailer. -/
theorem Decoding.decodeFields_congr
    (hb : ∀ c, s.hdrLen ≤ c → c < s.frameLen.toNat → Memory.read t.buf c = Memory.read s.buf c) :
    t.decodeFields k (s.descIndexes k) = s.decodeFields k (s.descIndexes k) := by
  refine h.decodeFields fun i hi d hread => h.readRaw fun c h1 h2 => ?_
  have hfield := hd.schema.field_le (List.mem_range.1 hi) hread
  have hlen := hd.length
  have hmin := hd.payMin
  rw [State.fieldPos] at h1 h2
  exact hb c (by omega) (by omega)

end

/-! ## Two decodes of one frame -/

/-- Both outcomes are the same fault, or completions with the same results (43_frame.md R272). -/
def DecodesAlike (s : State) (o o' : Outcome) : Prop :=
  (∃ f, o = .fault f ∧ o' = .fault f)
  ∨ ∃ t t', o = .next t ∧ o' = .next t'
    ∧ t'.err = t.err ∧ t'.status = t.status
    ∧ (t.err.code = .ok ∨ t.err.code = .checksumMismatch ∨ t.err.code = .fieldOutOfRange →
        t'.csum = t.csum ∧ t'.csrx = t.csrx)
    ∧ (t.err.code = .ok → t'.kindOut = t.kindOut ∧ t'.payLen = t.payLen
        ∧ ∀ k, t.kindOut = k.code → ∀ i < (s.slot k).kndesc.toNat, ∀ j < 7,
            Memory.read t'.res (resAddr i j) = Memory.read t.res (resAddr i j))

section
variable {s u u' : State} {q : BitVec 3}

theorem decodesAlike_stop {x : Stop}
    (hx : ∀ c y, x = .raise c y → c ≠ .ok ∧ c ≠ .checksumMismatch ∧ c ≠ .fieldOutOfRange) :
    DecodesAlike s (u.stop q x) (u'.stop q x) := by
  cases x with
  | fault f => exact .inl ⟨f, rfl, rfl⟩
  | raise c y =>
    obtain ⟨h1, h2, h3⟩ := hx c y rfl
    refine .inr ⟨_, _, rfl, rfl, rfl, rfl, fun h => ?_, fun h => absurd h h1⟩
    rcases h with h | h | h
    · exact absurd h h1
    · exact absurd h h2
    · exact absurd h h3

/-- Once both checksum registers are written, it does not matter with which error the decode ends. -/
theorem decodesAlike_stop_after_sums {x : Stop} (hc : u'.csum = u.csum) (hr : u'.csrx = u.csrx)
    (hx : ∀ c y, x = .raise c y → c ≠ .ok) : DecodesAlike s (u.stop q x) (u'.stop q x) := by
  cases x with
  | fault f => exact .inl ⟨f, rfl, rfl⟩
  | raise c y => exact .inr ⟨_, _, rfl, rfl, rfl, rfl, fun _ => ⟨hc, hr⟩, fun h => absurd h (hx c y rfl)⟩

theorem decodesAlike_snapshot {k : Kind} {p x : Nat} {rs : List (Desc × Int)}
    (hlen : rs.length = (s.slot k).kndesc.toNat) :
    DecodesAlike s (.next (((((u.setCsum x).setCsrx x).storeValues 0 rs).setSnapshot k p).finish 0 k.code false true))
      (.next (((((u'.setCsum x).setCsrx x).storeValues 0 rs).setSnapshot k p).finish 0 k.code false true)) := by
  have hentries (i : Nat) (hi : i < rs.length) (j : Nat) (hj : j < 7) :
      Memory.read (((u'.setCsum x).setCsrx x).storeValues 0 rs).res (resAddr i j)
        = Memory.read (((u.setCsum x).setCsrx x).storeValues 0 rs).res (resAddr i j) := by
    have hword : j < (entryWords rs[i].1 rs[i].2).length := by rwa [entryWords_length]
    have hentry := List.getElem?_eq_getElem hi
    have h1 := State.storeValues_holds (s := (u.setCsum x).setCsrx x) (i := 0) hentry j hword
    have h2 := State.storeValues_holds (s := (u'.setCsum x).setCsrx x) (i := 0) hentry j hword
    rw [Nat.zero_add, Nat.zero_add] at h1 h2
    rw [h1, h2]
  obtain ⟨res, hres⟩ := storeValues_eq_of_res ((u.setCsum x).setCsrx x) 0 rs
  obtain ⟨res', hres'⟩ := storeValues_eq_of_res ((u'.setCsum x).setCsrx x) 0 rs
  rw [hres, hres'] at hentries ⊢
  refine .inr ⟨_, _, rfl, rfl, rfl, rfl, fun _ => ⟨rfl, rfl⟩, fun _ => ⟨rfl, rfl, fun k' hk' i hi j hj => ?_⟩⟩
  have hk : k = k' := Kind.code_injective hk'
  subst hk
  exact hentries i (by rwa [hlen]) j hj

end

theorem decodesAlike_of_sameFrame {s t : State} {sel : DecodeSel} (hi : s.Inv) (h : s.sameDecode t)
    (hb : ∀ a < s.frameLen.toNat, Memory.read t.buf a = Memory.read s.buf a) :
    DecodesAlike s (execFrameDecode sel s) (execFrameDecode sel t) := by
  have hkind : t.decodeKindOf sel = s.decodeKindOf sel := h.decodeKindOf fun hc hT hh => h.disc fun c _ hc2 => by
    obtain ⟨j, hj⟩ := hi.kindFacts_of_serves hc
    have := hj.disc
    exact hb c (by omega)
  rw [execFrameDecode, execFrameDecode, hkind]
  cases hk : s.decodeKindOf sel with
  | error x =>
    refine decodesAlike_stop fun c y hx => ?_
    subst hx
    rcases raises_decodeKindOf hk with ⟨rfl, -⟩ | ⟨-, rfl | rfl | rfl⟩ <;> exact ⟨nofun, nofun, nofun⟩
  | ok k =>
  have hpayload : t.decodePayload k = s.decodePayload k := h.decodePayload fun hm => h.lengthField fun c _ hc2 => by
    obtain ⟨_, ⟨-, -, hh, -⟩, -⟩ := State.decodeKindOf_eq_ok.1 hk
    obtain ⟨hlen, -⟩ := (hi.kindFacts_of_decodeKindOf hk).len hm
    exact hb c (by omega)
  simp only [hpayload]
  cases hp : s.decodePayload k with
  | error x =>
    refine decodesAlike_stop fun c y hx => ?_
    subst hx
    obtain ⟨rfl, -⟩ := raises_decodePayload hp
    exact ⟨nofun, nofun, nofun⟩
  | ok p =>
  have hd := hi.decoding hk hp
  have htotal : t.totalLength k p = s.totalLength k p := by rw [h]; rfl
  have hindexes : t.descIndexes k = s.descIndexes k := by rw [h]; rfl
  have hsums := hd.decodeChecksums_congr h fun c _ hc => hb c hc
  have hfields := hd.decodeFields_congr h fun c _ hc => hb c hc
  simp only [State.decodeBody, htotal, hsums]
  cases hx : s.decodeChecksums k (s.totalLength k p) with
  | error x =>
    refine decodesAlike_stop fun c y hxr => ?_
    subst hxr
    exact absurd hx decodeChecksums_ne_raise
  | ok v =>
  obtain ⟨x, rx⟩ := v
  dsimp only
  split
  · next hxr =>
    subst hxr
    have hs : ((s.setCsum x).setCsrx x).decodeFields k (((s.setCsum x).setCsrx x).descIndexes k)
        = s.decodeFields k (s.descIndexes k) := State.decodeFields_setCsum s x x k _
    have ht : ((t.setCsum x).setCsrx x).decodeFields k (((t.setCsum x).setCsrx x).descIndexes k)
        = s.decodeFields k (s.descIndexes k) :=
      (State.decodeFields_setCsum t x x k _).trans ((congrArg (t.decodeFields k) hindexes).trans hfields)
    rw [State.decodeCommit, State.decodeCommit, hs, ht]
    cases hrs : s.decodeFields k (s.descIndexes k) with
    | error e =>
      refine decodesAlike_stop_after_sums rfl rfl fun c y he => ?_
      subst he
      cases raises_decodeFields hrs
      exact nofun
    | ok rs =>
      obtain ⟨hlen, -⟩ := State.decodeFields_eq_ok.1 hrs
      exact decodesAlike_snapshot (by rw [hlen, State.length_descIndexes])
  · exact decodesAlike_stop_after_sums (x := .raise .checksumMismatch 0) rfl rfl (by rintro _ _ ⟨⟩; exact nofun)

/-- Settles O48: in a state of the invariant every byte a decode reads lies below FRAMELEN. -/
theorem decodeDependsOnTheFrameOnly : Obligations.DecodeDependsOnTheFrameOnly := by
  intro sel s s' hi _ hparams hhdr hdisc hslots hvalid hdesc hlen hb
  have h : s.sameDecode s' := by
    rw [State.sameDecode, ← hparams, ← hhdr, ← hdisc, ← hslots, ← hvalid, ← hdesc, ← hlen]
  exact decodesAlike_of_sameFrame hi h hb

end Sys2Proof.Machine
end

section
/-! SUPPORT. The address of each host register, and which location an address is (10_state.md §2, R47; 20_memory.md
R108). -/

namespace Sys2Proof.Machine

/-- The address of a global register (10_state.md §2). -/
def GlobalReg.addr : GlobalReg → Nat
  | .cmd => 0x000
  | .status => 0x004
  | .err => 0x008
  | .frameLen => 0x00C
  | .arg0 => 0x010
  | .arg1 => 0x014
  | .expLo => 0x018
  | .expHi => 0x01C
  | .csumLo => 0x020
  | .csumHi => 0x024
  | .csrxLo => 0x028
  | .csrxHi => 0x02C
  | .kindOut => 0x030
  | .payLen => 0x034
  | .cap => 0x038
  | .kvalid => 0x03C
  | .hdrCfg => 0x040
  | .discOff => 0x044

/-- The offset of a slot register in its slot (10_state.md R47). -/
def SlotReg.offset : SlotReg → Nat
  | .kcfg => 0x00
  | .kdisc => 0x04
  | .klenOff => 0x08
  | .kpayMin => 0x0C
  | .kpayMax => 0x10
  | .kcsStart => 0x14
  | .kndesc => 0x18
  | .kpolyLo => 0x20
  | .kpolyHi => 0x24
  | .kinitLo => 0x28
  | .kinitHi => 0x2C
  | .kxorOutLo => 0x30
  | .kxorOutHi => 0x34

@[simp] theorem locate_globalAddr (p : Params) (r : GlobalReg) : locate p r.addr = .global r := by cases r <;> rfl

theorem locate_slotAddr (p : Params) (k : Kind) (r : SlotReg) :
    locate p (0x100 + 0x40 * k.index + r.offset) = .slot k r := by
  cases k <;> cases r <;> rfl

theorem globalAt_eq {n : Nat} {r : GlobalReg} (h : globalAt n = .global r) : 4 * n = r.addr := by
  unfold globalAt at h
  split at h <;> cases h <;> rfl

theorem slotAt_ne_global (off : Nat) (r : GlobalReg) : slotAt off ≠ .global r := by
  unfold slotAt
  split <;> nofun

theorem descAt_ne_global (n off : Nat) (r : GlobalReg) : descAt n off ≠ .global r := by
  unfold descAt
  dsimp only
  split
  · split <;> nofun
  · nofun

theorem resAt_ne_global (n off : Nat) (r : GlobalReg) : resAt n off ≠ .global r := by
  unfold resAt
  dsimp only
  split <;> nofun

/-- A global register has one address. -/
theorem eq_addr_of_locate {p : Params} {a : Nat} {r : GlobalReg} (ha : a % 4 = 0) (h : locate p a = .global r) :
    a = r.addr := by
  rw [locate] at h
  split at h
  · have := globalAt_eq h; omega
  split at h
  · exact absurd h (slotAt_ne_global _ _)
  split at h
  · cases h
  split at h
  · exact absurd h (descAt_ne_global _ _ _)
  split at h
  · cases h
  split at h
  · exact absurd h (resAt_ne_global _ _ _)
  split at h <;> cases h

theorem isSlotAddr_bounds {a : Nat} (h : isSlotAddr a) : 0x100 ≤ a ∧ a < 0x240 := by
  obtain ⟨k, off, hoff, -, -, -, -, rfl⟩ := h
  have := index_lt k
  omega

theorem isDescAddr_bounds {p : Params} {k : Kind} {a : Nat} (hp : p.nDesc ≤ 32) (h : isDescAddr p k a) :
    0x2000 ≤ a ∧ a < 0x3400 := by
  obtain ⟨i, j, hi, hj, -, rfl⟩ := h
  have := index_lt k
  omega

theorem isResAddr_bounds {p : Params} {a : Nat} (hp : p.nDesc ≤ 32) (h : isResAddr p a) :
    0x4000 ≤ a ∧ a < 0x4400 := by
  obtain ⟨i, j, hi, hj, rfl⟩ := h
  omega

/-- The addresses the map leaves reserved (20_memory.md R108). -/
theorem locate_eq_reserved {p : Params} {a : Nat} (hp : p.nDesc ≤ 32) (ha : a % 4 = 0)
    (h : (0x048 ≤ a ∧ a < 0x100) ∨ (0x100 ≤ a ∧ a < 0x2000 ∧ ¬isSlotAddr a)
      ∨ (0x2000 ≤ a ∧ a < 0x4000 ∧ ∀ k, ¬isDescAddr p k a)
      ∨ (0x4000 ≤ a ∧ a < 0x8000 ∧ ¬isResAddr p a) ∨ 0x8000 + p.bufSize ≤ a) : locate p a = .reserved := by
  have hat := locate_isAt (p := p) ha
  cases hl : locate p a with
  | reserved => rfl
  | global r => rw [hl] at hat; simp only [Location.isAt] at hat; omega
  | slot k r =>
    rw [hl] at hat
    have hslot : isSlotAddr a := hat
    have := isSlotAddr_bounds hslot
    simp only [hslot, not_true_eq_false, and_false, false_or] at h
    omega
  | desc k i j =>
    rw [hl] at hat
    have hdesc : isDescAddr p k a := ⟨i, j, hat⟩
    have := isDescAddr_bounds hp hdesc
    have hno : ¬∀ k, ¬isDescAddr p k a := fun hk => hk k hdesc
    simp only [hno, and_false, false_or] at h
    omega
  | res i j =>
    rw [hl] at hat
    have hres : isResAddr p a := ⟨i, j, hat⟩
    have := isResAddr_bounds hp hres
    simp only [hres, not_true_eq_false, and_false, false_or] at h
    omega
  | window b => rw [hl] at hat; simp only [Location.isAt] at hat; omega

theorem locate_window {p : Params} {b : Nat} (hb : b < p.bufSize) : locate p (0x8000 + b) = .window b := by
  rw [locate, if_neg (by omega), if_neg (by omega), if_neg (by omega), if_neg (by omega), if_neg (by omega),
    if_neg (by omega), if_pos (by omega), Nat.add_sub_cancel_left]

end Sys2Proof.Machine
end

section
/-! SUPPORT. What a write to each location changes, and that a write other than to CMD is idempotent (10_state.md R31, R67;
20_memory.md R107). -/

namespace Sys2Proof.Machine

variable {s : State} {l : Location} {v : Word32}

/-! ## What no write changes -/

theorem State.writeLocation_outputs : (s.writeLocation l v).err = s.err ∧ (s.writeLocation l v).csum = s.csum
    ∧ (s.writeLocation l v).csrx = s.csrx ∧ (s.writeLocation l v).kindOut = s.kindOut
    ∧ (s.writeLocation l v).params = s.params := by
  cases l with
  | global r => cases r <;> exact ⟨rfl, rfl, rfl, rfl, rfl⟩
  | _ => exact ⟨rfl, rfl, rfl, rfl, rfl⟩

@[simp] theorem State.writeLocation_params : (s.writeLocation l v).params = s.params := by
  obtain ⟨-, -, -, -, h⟩ := State.writeLocation_outputs (s := s) (l := l) (v := v)
  exact h

/-- Only a write to CMD issues. -/
theorem State.writeLocation_flags (h : l ≠ .global .cmd) : (s.writeLocation l v).cmd = s.cmd
    ∧ (s.writeLocation l v).status = s.status ∧ (s.writeLocation l v).pending = s.pending := by
  cases l with
  | global r =>
    cases r with
    | cmd => exact absurd rfl h
    | _ => exact ⟨rfl, rfl, rfl⟩
  | _ => exact ⟨rfl, rfl, rfl⟩

/-- The VALID bits stand but for a write to the configuration or to a descriptor. -/
theorem State.writeLocation_valid (h0 : l ≠ .global .hdrCfg) (h1 : l ≠ .global .discOff) (hs : ∀ k r, l ≠ .slot k r)
    (hd : ∀ k i j, l ≠ .desc k i j) : (s.writeLocation l v).valid = s.valid := by
  cases l with
  | global r =>
    cases r with
    | hdrCfg => exact absurd rfl h0
    | discOff => exact absurd rfl h1
    | _ => rfl
  | slot k r => exact absurd rfl (hs k r)
  | desc k i j => exact absurd rfl (hd k i j)
  | _ => rfl

theorem State.writeLocation_desc (h : ∀ k i j, l ≠ .desc k i j) : (s.writeLocation l v).desc = s.desc := by
  cases l with
  | global r => cases r <;> rfl
  | desc k i j => exact absurd rfl (h k i j)
  | _ => rfl

theorem State.writeLocation_res (h : ∀ i j, l ≠ .res i j) : (s.writeLocation l v).res = s.res := by
  cases l with
  | global r => cases r <;> rfl
  | res i j => exact absurd rfl (h i j)
  | _ => rfl

/-! ## Idempotence -/

/-- A write commutes with a sequence of writes at other keys. -/
theorem Memory.write_writeSeq_comm {α : Type} {m : Memory α} {stride a b : Nat} {v : α} {vs : List α}
    (h : ∀ j < vs.length, a ≠ b + stride * j) :
    Memory.write (Memory.writeSeq stride m b vs) a v = Memory.writeSeq stride (Memory.write m a v) b vs := by
  induction vs generalizing m b with
  | nil => rfl
  | cons w vs ih =>
    rw [Memory.writeSeq_cons, Memory.writeSeq_cons, ih, Memory.write_comm]
    · simpa using (h 0 (by simp)).symm
    · intro j hj
      have := h (j + 1) (by simpa using hj)
      rw [Nat.mul_succ] at this
      omega

theorem Memory.writeSeq_writeSeq_same {α : Type} {m : Memory α} {stride a : Nat} {vs : List α} (hs : 0 < stride) :
    Memory.writeSeq stride (Memory.writeSeq stride m a vs) a vs = Memory.writeSeq stride m a vs := by
  induction vs generalizing m a with
  | nil => rfl
  | cons v vs ih =>
    rw [Memory.writeSeq_cons, Memory.writeSeq_cons, Memory.write_writeSeq_comm, Memory.write_write_same, ih]
    intro j _
    have : 0 ≤ stride * j := Nat.zero_le _
    omega

@[simp] theorem setLo_setLo_same (x : Word64) (v : Word32) : setLo (setLo x v) v = setLo x v := by
  rw [setLo, hiWord_setLo, setLo]

@[simp] theorem setHi_setHi_same (x : Word64) (v : Word32) : setHi (setHi x v) v = setHi x v := by
  rw [setHi, loWord_setHi, setHi]

theorem KindSlot.writeReg_writeReg_same (q : KindSlot) (r : SlotReg) (v : Word32) :
    (q.writeReg r v).writeReg r v = q.writeReg r v := by
  cases r <;> simp [KindSlot.writeReg]

theorem State.writeGlobal_writeGlobal_same {r : GlobalReg} (h : r ≠ .cmd) :
    (s.writeGlobal r v).writeGlobal r v = s.writeGlobal r v := by
  cases r with
  | cmd => exact absurd rfl h
  | expLo => simp [State.writeGlobal]
  | expHi => simp [State.writeGlobal]
  | _ => rfl

theorem State.writeLocation_writeLocation_same (h : l ≠ .global .cmd) :
    (s.writeLocation l v).writeLocation l v = s.writeLocation l v := by
  cases l with
  | global r => exact State.writeGlobal_writeGlobal_same fun hr => h (hr ▸ rfl)
  | slot k r =>
    simp [State.writeLocation, State.clearAllValid, State.slot, PerKind.set_set, KindSlot.writeReg_writeReg_same]
  | desc k i j => simp [State.writeLocation, State.setValid, PerKind.set_set]
  | res i j => simp [State.writeLocation]
  | window a => simp [State.writeLocation, Memory.writeSeq_writeSeq_same]
  | reserved => rfl

end Sys2Proof.Machine
end

section
/-! The host interface: what a host write does, the buffer window, reserved addresses, reads without side effect, reads
while BUSY = 1, and reset. -/

namespace Sys2Proof.Machine

theorem locate_ne_cmd {p : Params} {a : Word32} (ha : a.toNat % 4 = 0) (h : a ≠ 0) :
    locate p a.toNat ≠ .global .cmd := fun hl =>
  h (BitVec.eq_of_toNat_eq (eq_addr_of_locate ha hl))

theorem locate_ne_global {p : Params} {a : Nat} {r : GlobalReg} (ha : a % 4 = 0) (h : a ≠ r.addr) :
    locate p a ≠ .global r := fun hl => h (eq_addr_of_locate ha hl)

/-- An address that is no slot register's names none. -/
theorem locate_ne_slot {p : Params} {a : Nat} (ha : a % 4 = 0) (h : ¬isSlotAddr a) (k : Kind) (r : SlotReg) :
    locate p a ≠ .slot k r := fun hl => by
  have hat := locate_isAt (p := p) ha
  rw [hl] at hat
  exact h hat

theorem locate_ne_desc {p : Params} {a : Nat} (ha : a % 4 = 0) (h : ∀ k, ¬isDescAddr p k a) (k : Kind) (i j : Nat) :
    locate p a ≠ .desc k i j := fun hl => by
  have hat := locate_isAt (p := p) ha
  rw [hl] at hat
  exact h k ⟨i, j, hat⟩

theorem locate_ne_res {p : Params} {a : Nat} (ha : a % 4 = 0) (h : ¬isResAddr p a) (i j : Nat) :
    locate p a ≠ .res i j := fun hl => by
  have hat := locate_isAt (p := p) ha
  rw [hl] at hat
  exact h ⟨i, j, hat⟩

/-- A read right after a write to the same location, CMD excepted, is still an idle one. -/
theorem State.readWord_writeLocation {s : State} {a : Nat} {l : Location} {v : Word32} (hb : s.status.busy = false)
    (hl : locate s.params a = l) (h0 : l ≠ .global .cmd) :
    (s.writeLocation l v).readWord a = ((s.writeLocation l v).readLocation l, s.writeLocation l v) := by
  obtain ⟨-, hstatus, -⟩ := State.writeLocation_flags (s := s) (v := v) h0
  rw [State.readWord_idle (by rw [hstatus, hb]), State.writeLocation_params, hl]

/-- A RAM word written reads back. -/
theorem State.ramWord_of_read {s : State} {m : Memory Word32} {a : Nat} {w : Word32} (h : Memory.read m a = some w) :
    s.ramWord m a = w := by
  rw [State.ramWord, h]

/-- A write to HDRCFG, DISCOFF or a slot register clears every VALID bit. -/
theorem State.writeLocation_clears {s : State} {a : Nat} {v : Word32} (h : a = 0x40 ∨ a = 0x44 ∨ isSlotAddr a) (j : Kind) :
    (s.writeLocation (locate s.params a) v).isValid j = false := by
  rcases h with rfl | rfl | h
  · exact State.clearAllValid_isValid _ j
  · exact State.clearAllValid_isValid _ j
  · obtain ⟨k, r, hl⟩ := locate_slot (p := s.params) h
    rw [hl]
    exact State.clearAllValid_isValid _ j

theorem isDescAddr.locate_eq {p : Params} {k : Kind} {a : Nat} (hp : p.nDesc ≤ 32) (h : isDescAddr p k a) :
    ∃ i j, locate p a = .desc k i j ∧ a = descAddr k i j := by
  obtain ⟨i, j, hi, hj, h3, rfl⟩ := h
  exact ⟨i, j, locate_desc hp hi hj h3, rfl⟩

theorem isResAddr.locate_eq {p : Params} {a : Nat} (hp : p.nDesc ≤ 32) (h : isResAddr p a) :
    ∃ i j, locate p a = .res i j ∧ a = resAddr i j := by
  obtain ⟨i, j, hi, hj, rfl⟩ := h
  exact ⟨i, j, locate_res hp hi hj, rfl⟩

/-- Settles O40: by the class of the location that the address names. -/
theorem hostWriteEffects : Obligations.HostWriteEffects := by
  intro s t a v hp hb h
  obtain ⟨-, -, -, -, hmax⟩ := hp
  obtain ⟨-, ha, -, rfl⟩ := State.hostWrite_eq_next.1 h
  obtain ⟨herr, hcsum, hcsrx, hkind, hparams⟩ :=
    State.writeLocation_outputs (s := s) (l := locate s.params a.toNat) (v := v)
  refine ⟨State.writeLocation_clears, fun k hk j => ?_, fun h0 h1 hs hd => ?_, herr, hcsum, hcsrx, hkind, hparams,
    fun h0 => State.writeLocation_flags (locate_ne_cmd ha h0), fun c hc => ?_, fun c hc => ?_, fun k hk => ?_, fun hr => ?_⟩
  · obtain ⟨i, n, hl, -⟩ := hk.locate_eq hmax
    rw [hl, State.writeLocation, State.setValid_isValid]
    by_cases hjk : j = k <;> simp [hjk, State.isValid]
  · exact State.writeLocation_valid (locate_ne_global ha h0) (locate_ne_global ha h1) (locate_ne_slot ha hs)
      (locate_ne_desc ha hd)
  · by_cases hd : ∃ k, isDescAddr s.params k a.toNat
    · obtain ⟨k, hk⟩ := hd
      obtain ⟨i, n, hl, hat⟩ := hk.locate_eq hmax
      rw [hl]
      exact Memory.read_write_other _ _ (hat ▸ fun heq => hc ⟨k, hk, heq⟩)
    · rw [State.writeLocation_desc (locate_ne_desc ha (not_exists.1 hd))]
  · by_cases hr : isResAddr s.params a.toNat
    · obtain ⟨i, n, hl, hat⟩ := hr.locate_eq hmax
      rw [hl]
      exact Memory.read_write_other _ _ (hat ▸ fun heq => hc ⟨hr, heq⟩)
    · rw [State.writeLocation_res (locate_ne_res ha hr)]
  · obtain ⟨i, n, hl, hat⟩ := hk.locate_eq hmax
    have hread : Memory.read (s.writeLocation (.desc k i n) v).desc a.toNat = some v :=
      hat ▸ Memory.read_write_same _ _ _
    rw [hl]
    refine ⟨hread, ?_⟩
    rw [State.readWord_writeLocation hb hl nofun, State.readLocation, ← hat, State.ramWord_of_read hread]
  · obtain ⟨i, n, hl, hat⟩ := hr.locate_eq hmax
    have hread : Memory.read (s.writeLocation (.res i n) v).res a.toNat = some v :=
      hat ▸ Memory.read_write_same _ _ _
    rw [hl]
    refine ⟨hread, ?_⟩
    rw [State.readWord_writeLocation hb hl nofun, State.readLocation, ← hat, State.ramWord_of_read hread]

/-- Settles O58: an idle read leaves the state as it is, and the second of two equal writes changes nothing. -/
theorem readsArePureAndWritesIdempotent : Obligations.ReadsArePureAndWritesIdempotent := by
  refine fun s hb => ⟨fun a => by rw [State.readWord_idle hb], fun a v t h0 h => ?_⟩
  obtain ⟨hlt, ha, -, rfl⟩ := State.hostWrite_eq_next.1 h
  have hl := locate_ne_cmd (p := s.params) ha h0
  obtain ⟨-, hstatus, -⟩ := State.writeLocation_flags (s := s) (v := v) hl
  refine State.hostWrite_eq_next.2 ⟨hlt, ha, by rw [hstatus, hb], ?_⟩
  rw [State.writeLocation_params, State.writeLocation_writeLocation_same hl]

/-- Settles O56: the read-only registers by their addresses, the reserved addresses by their location. -/
theorem readOnlyAndReservedAddressesIgnoreWrites : Obligations.ReadOnlyAndReservedAddressesIgnoreWrites := by
  intro s v a hp hb hlt ha
  obtain ⟨-, -, -, -, hmax⟩ := hp
  have hnat : (BitVec.ofNat 32 a).toNat = a := by rw [BitVec.toNat_ofNat]; omega
  refine ⟨fun h => ?_, fun h => ?_⟩
  · have hro : s = s.writeLocation (locate s.params a) v := by
      simp only [List.mem_cons, List.not_mem_nil, or_false] at h
      rcases h with rfl | rfl | rfl | rfl | rfl | rfl | rfl | rfl | rfl <;> rfl
    exact State.hostWrite_eq_next.2 ⟨by omega, by omega, hb, by rw [hnat]; exact hro⟩
  · have hl := locate_eq_reserved hmax ha h
    refine ⟨State.hostWrite_eq_next.2 ⟨by omega, by omega, hb, by rw [hnat, hl]; rfl⟩, ?_⟩
    rw [State.readWord_idle hb, hl]
    rfl

/-! ## The window -/

theorem toNat_append_add {m n : Nat} (x : BitVec m) (y : BitVec n) :
    (x ++ y).toNat = y.toNat + x.toNat * 2 ^ n := by
  rw [BitVec.toNat_append, Nat.shiftLeft_eq, Nat.mul_comm x.toNat, ← Nat.two_pow_add_eq_or_of_lt y.isLt, Nat.add_comm]

theorem State.lane_eq (s : State) (a : Nat) :
    s.lane a = (Memory.read s.buf a).getD (Config.unwrittenByte s.draws a) := by
  rw [State.lane]
  cases Memory.read s.buf a <;> rfl

theorem State.windowWord_toNat (s : State) (a : Nat) :
    (s.windowWord a).toNat = ∑ j ∈ Finset.range 4, (s.lane (a + j)).toNat * 2 ^ (8 * j) := by
  simp only [State.windowWord, toNat_append_add, Finset.sum_range_succ, Finset.sum_range_zero, Nat.add_zero]
  ring

/-- Settles O57: a window word is four lanes, the lowest byte first. -/
theorem windowLanesAreLittleEndian : Obligations.WindowLanesAreLittleEndian := by
  intro s m v hp hb hm
  obtain ⟨-, -, hsize, -⟩ := hp
  have hnat : (BitVec.ofNat 32 (0x8000 + 4 * m)).toNat = 0x8000 + 4 * m := by rw [BitVec.toNat_ofNat]; omega
  have hl := locate_window hm
  refine ⟨⟨_, State.hostWrite_eq_next.2 ⟨by omega, by omega, hb, rfl⟩, ?_⟩, ?_⟩
  · rw [hnat, hl]
    refine ⟨rfl, fun j hj => ?_, fun c hc => Memory.read_writeSeq_other fun j hj => ?_⟩
    · have hlane := Memory.read_writeSeq_same (m := s.buf) (a := 4 * m) (vs := laneBytes v) Nat.one_pos (j := j) hj
      rw [Nat.one_mul] at hlane
      refine hlane.trans (congrArg some ?_)
      interval_cases j <;> rfl
    · have : j < 4 := hj
      omega
  · rw [State.readWord_idle hb, hl, State.readLocation, State.windowWord_toNat]
    simp only [State.lane_eq]

/-! ## Reads while BUSY = 1 -/

theorem State.readBusy_other {s : State} {l : Location} (h0 : l ≠ .global .cmd) (h1 : l ≠ .global .status) :
    s.readBusy l = (Config.busyRead s.draws, { s with draws := s.draws + 1 }) := by
  unfold State.readBusy
  split
  · exact absurd rfl h1
  · exact absurd rfl h0
  · rfl

/-- Where STATUS and ERR agree, BUSY = 1 means the flags of issue. -/
theorem State.flagsAgree.issued_of_busy {s : State} (h : s.flagsAgree) (hb : s.status.busy = true) :
    s.status = Status.issued := by
  rcases h with ⟨h, -⟩ | h | ⟨m, p, h, -⟩
  · rw [h] at hb; cases hb
  · exact h
  · rw [h] at hb; cases hb

/-- Settles O59: by the location of the address. -/
theorem busyReadsShowStatusAndCmdOnly : Obligations.BusyReadsShowStatusAndCmdOnly := by
  refine fun s a hb => ⟨if_pos hb, if_pos hb, fun hf => ?_, fun ha h0 h1 => ?_⟩
  · rw [hf.issued_of_busy hb]
    rfl
  · rw [State.readWord, if_pos hb]
    exact State.readBusy_other (locate_ne_global ha h0) (locate_ne_global ha h1)

/-! ## Reset -/

theorem KindSlot.readReg_reset (r : SlotReg) : KindSlot.reset.readReg r = 0 := by cases r <;> decide

/-- Every register but CAP reads as 0 after reset. -/
theorem State.readLocation_resetBlock (s : State) {a : Nat} (ha : a % 4 = 0) (hlt : a < 0x2000) (hcap : a ≠ 0x38) :
    s.resetBlock.readLocation (locate s.params a) = 0 := by
  have hat := locate_isAt (p := s.params) ha
  cases hl : locate s.params a with
  | global r =>
    cases r with
    | cap => exact absurd (eq_addr_of_locate ha hl) hcap
    | expHi | csumHi | csrxHi => exact (by decide : hiWord 0 = 0)
    | _ => rfl
  | slot k r => rw [State.readLocation, State.resetBlock_slot, KindSlot.readReg_reset]
  | reserved => rfl
  | desc k i j => rw [hl] at hat; simp only [Location.isAt, descAddr] at hat; omega
  | res i j => rw [hl] at hat; simp only [Location.isAt, resAddr] at hat; omega
  | window b => rw [hl] at hat; simp only [Location.isAt] at hat; omega

/-- Settles O60: at a host step the statement reset answers the block as after reset. -/
theorem resetClearsTheBlock : Obligations.ResetClearsTheBlock := by
  intro s hturn hc
  have hpos := (List.getElem?_eq_some_iff.1 hc).1
  have hstep : step s = .next s.passLatency.hostAdvance.resetBlock := by
    rw [step_of_not_atEngine (not_atEngine_iff.2 (hturn.imp id fun h => ⟨h, hpos⟩)), hostStep_of_current hc]
    rfl
  refine ⟨_, hstep, rfl, rfl, rfl, rfl, rfl, State.resetBlock_isValid _, fun a hlt ha hcap => ?_, fun hp => ?_⟩
  · rw [State.readWord_idle rfl]
    exact congrArg (·, _) (State.readLocation_resetBlock s.passLatency.hostAdvance ha hlt hcap)
  · obtain ⟨-, -, hsize, -, hmax⟩ := hp
    rw [State.readWord_idle rfl]
    change (BitVec.ofNat 32 (s.params.bufSize + 0x10000 * s.params.nDesc + 0x1000000 * 5)).toNat = _
    rw [BitVec.toNat_ofNat]
    omega

end Sys2Proof.Machine
end

section
/-! SUPPORT. The registers the host writes but CMD: what each stores of a written word, that a write changes no other, and
the 73 of them as locations (10_state.md R31, R35 to R54). -/

namespace Sys2Proof.Machine

/-- The global registers that hold what the host writes (10_state.md R35 to R38, R42, R45, R46). -/
def GlobalReg.hostWritten : GlobalReg → Bool
  | .frameLen | .arg0 | .arg1 | .expLo | .expHi | .payLen | .hdrCfg | .discOff => true
  | _ => false

/-- The bits of a written word that a global register of the host's stores. -/
def GlobalReg.mask : GlobalReg → Nat
  | .expLo | .expHi => 0xFFFFFFFF
  | .hdrCfg => 0x7FFFF
  | _ => 0xFFFF

/-- The bits of a written word that a slot register stores (10_state.md R48 to R54). -/
def SlotReg.mask : SlotReg → Nat
  | .kcfg => 0x7FDF
  | .klenOff | .kpayMin | .kpayMax | .kcsStart => 0xFFFF
  | .kndesc => 0xFF
  | _ => 0xFFFFFFFF

/-- A register the host writes but CMD, at its address, with the bits it stores. -/
inductive StoredReg : Location → Nat → Nat → Prop
  | global (r : GlobalReg) (h : r.hostWritten = true) : StoredReg (.global r) r.addr r.mask
  | slot (k : Kind) (r : SlotReg) : StoredReg (.slot k r) (0x100 + 0x40 * k.index + r.offset) r.mask

variable {s : State} {l l' : Location} {a a' m m' : Nat} {v : Word32}

theorem StoredReg.locate_eq (h : StoredReg l a m) (p : Params) : locate p a = l := by
  cases h with
  | global r => exact locate_globalAddr p r
  | slot k r => exact locate_slotAddr p k r

theorem StoredReg.ne_cmd (h : StoredReg l a m) : l ≠ .global .cmd := by
  rintro rfl
  cases h with
  | global _ h => cases h

theorem StoredReg.addr_unique (h : StoredReg l a m) (h' : StoredReg l a' m') : a = a' := by
  cases h <;> cases h' <;> rfl

theorem StoredReg.addr_ok (h : StoredReg l a m) : a < 0x10000 ∧ a % 4 = 0 := by
  cases h with
  | global r => cases r <;> decide
  | slot k r => cases k <;> cases r <;> decide

/-! ## What a register stores -/

/-- A register of n bits stores the n low bits of a word. -/
theorem setWidth_setWidth_eq_and (v : Word32) {n : Nat} (hn : n ≤ 32) :
    (v.setWidth n).setWidth 32 = v &&& BitVec.ofNat 32 (2 ^ n - 1) := by
  have hpow : 2 ^ n ≤ 2 ^ 32 := Nat.pow_le_pow_right (by decide) hn
  have hpos : 0 < 2 ^ n := by positivity
  apply BitVec.eq_of_toNat_eq
  rw [BitVec.toNat_setWidth, BitVec.toNat_setWidth, BitVec.toNat_and, BitVec.toNat_ofNat, Nat.mod_eq_of_lt (b := 2 ^ 32),
    Nat.mod_eq_of_lt (a := 2 ^ n - 1), Nat.and_two_pow_sub_one_eq_mod]
  · omega
  · exact lt_of_lt_of_le (Nat.mod_lt _ hpos) hpow

/-- KCFG stores 15 bits but the reserved one. -/
theorem setWidth_kcfg_eq_and (v : Word32) : (v.setWidth 15 &&& kcfgMask).setWidth 32 = v &&& 0x7FDF#32 := by
  rw [BitVec.setWidth_and, setWidth_setWidth_eq_and v (by decide), BitVec.and_assoc]
  rfl

theorem and_allOnes_word (v : Word32) : v &&& BitVec.ofNat 32 0xFFFFFFFF = v := BitVec.and_allOnes

theorem KindSlot.readReg_writeReg_same (q : KindSlot) (r : SlotReg) (v : Word32) :
    (q.writeReg r v).readReg r = v &&& BitVec.ofNat 32 r.mask := by
  cases r with
  | kcfg => exact setWidth_kcfg_eq_and v
  | klenOff | kpayMin | kpayMax | kcsStart => exact setWidth_setWidth_eq_and v (n := 16) (by decide)
  | kndesc => exact setWidth_setWidth_eq_and v (n := 8) (by decide)
  | _ => simp [KindSlot.readReg, KindSlot.writeReg, SlotReg.mask, and_allOnes_word]

theorem KindSlot.readReg_writeReg_other (q : KindSlot) {r r' : SlotReg} (v : Word32) (h : r' ≠ r) :
    (q.writeReg r v).readReg r' = q.readReg r' := by
  cases r <;> cases r' <;> simp [KindSlot.readReg, KindSlot.writeReg] at h ⊢

theorem State.readGlobal_writeGlobal_same {r : GlobalReg} (h : r.hostWritten = true) :
    (s.writeGlobal r v).readGlobal r = v &&& BitVec.ofNat 32 r.mask := by
  cases r with
  | frameLen | arg0 | arg1 | payLen | discOff => exact setWidth_setWidth_eq_and v (n := 16) (by decide)
  | hdrCfg => exact setWidth_setWidth_eq_and v (n := 19) (by decide)
  | expLo | expHi => simp [State.readGlobal, State.writeGlobal, GlobalReg.mask, and_allOnes_word]
  | _ => cases h

theorem State.readGlobal_writeGlobal_other {r r' : GlobalReg} (h : r.hostWritten = true) (h' : r'.hostWritten = true)
    (hne : r' ≠ r) : (s.writeGlobal r v).readGlobal r' = s.readGlobal r' := by
  cases r <;> cases h <;> cases r' <;> cases h' <;>
    simp [State.readGlobal, State.writeGlobal, State.clearAllValid] at hne ⊢

theorem State.writeGlobal_slots (s : State) (r : GlobalReg) (v : Word32) : (s.writeGlobal r v).slots = s.slots := by
  cases r <;> rfl

/-- A written register reads back as the bits it stores. -/
theorem StoredReg.read_write_same (h : StoredReg l a m) :
    (s.writeLocation l v).readLocation l = v &&& BitVec.ofNat 32 m := by
  cases h with
  | global r h => exact State.readGlobal_writeGlobal_same h
  | slot k r =>
    rw [State.readLocation, State.writeLocation, State.slot, State.clearAllValid_slots, PerKind.get_set_same,
      KindSlot.readReg_writeReg_same]

/-- A write leaves every other register as it is. -/
theorem StoredReg.read_write_other (h : StoredReg l a m) (h' : StoredReg l' a' m') (hne : l' ≠ l) :
    (s.writeLocation l v).readLocation l' = s.readLocation l' := by
  cases h with
  | global r h =>
    cases h' with
    | global r' h' => exact State.readGlobal_writeGlobal_other h h' fun hr => hne (hr ▸ rfl)
    | slot k r' => rw [State.readLocation, State.writeLocation, State.slot, State.writeGlobal_slots]; rfl
  | slot k r =>
    cases h' with
    | global r' h' =>
      cases r' with
      | frameLen | arg0 | arg1 | expLo | expHi | payLen | hdrCfg | discOff => rfl
      | _ => cases h'
    | slot k' r' =>
      rw [State.readLocation, State.writeLocation, State.slot, State.clearAllValid_slots, PerKind.get_set]
      split
      · next hk =>
        subst hk
        exact KindSlot.readReg_writeReg_other _ _ fun hr => hne (hr ▸ rfl)
      · rfl

/-! ## The 73 registers -/

/-- A register of the list is the one at a location. -/
structure HostReg.Names (r : HostReg) (l : Location) : Prop where
  stored : StoredReg l r.addr r.mask
  word : ∀ s : State, (s.readLocation l).toNat = r.word s

theorem HostReg.names_of_mem_globalRegs {r : HostReg} (h : r ∈ globalRegs) : ∃ l, r.Names l := by
  simp only [globalRegs, pairRegs, List.cons_append, List.nil_append, List.mem_cons, List.not_mem_nil, or_false] at h
  rcases h with rfl | rfl | rfl | rfl | rfl | rfl | rfl | rfl
  · exact ⟨_, .global .frameLen rfl, fun s => by simp [State.readLocation, State.readGlobal]; omega⟩
  · exact ⟨_, .global .arg0 rfl, fun s => by simp [State.readLocation, State.readGlobal]; omega⟩
  · exact ⟨_, .global .arg1 rfl, fun s => by simp [State.readLocation, State.readGlobal]; omega⟩
  · exact ⟨_, .global .payLen rfl, fun s => by simp [State.readLocation, State.readGlobal]; omega⟩
  · exact ⟨_, .global .hdrCfg rfl, fun s => by simp [State.readLocation, State.readGlobal]; omega⟩
  · exact ⟨_, .global .discOff rfl, fun s => by simp [State.readLocation, State.readGlobal]; omega⟩
  · exact ⟨_, .global .expLo rfl, fun s => loWord_toNat _⟩
  · exact ⟨_, .global .expHi rfl, fun s => hiWord_toNat _⟩

theorem HostReg.names_of_mem_slotRegs (k : Kind) {r : HostReg}
    (h : r ∈ slotRegs (0x100 + 0x40 * k.index) fun s => s.slot k) : ∃ l, r.Names l := by
  simp only [slotRegs, pairRegs, List.cons_append, List.nil_append, List.mem_cons, List.not_mem_nil, or_false] at h
  rcases h with rfl | rfl | rfl | rfl | rfl | rfl | rfl | rfl | rfl | rfl | rfl | rfl | rfl
  · exact ⟨_, .slot k .kcfg, fun s => by simp [State.readLocation, KindSlot.readReg]; omega⟩
  · exact ⟨_, .slot k .kdisc, fun s => rfl⟩
  · exact ⟨_, .slot k .klenOff, fun s => by simp [State.readLocation, KindSlot.readReg]; omega⟩
  · exact ⟨_, .slot k .kpayMin, fun s => by simp [State.readLocation, KindSlot.readReg]; omega⟩
  · exact ⟨_, .slot k .kpayMax, fun s => by simp [State.readLocation, KindSlot.readReg]; omega⟩
  · exact ⟨_, .slot k .kcsStart, fun s => by simp [State.readLocation, KindSlot.readReg]; omega⟩
  · exact ⟨_, .slot k .kndesc, fun s => by simp [State.readLocation, KindSlot.readReg]; omega⟩
  · exact ⟨_, .slot k .kpolyLo, fun s => loWord_toNat _⟩
  · exact ⟨_, .slot k .kpolyHi, fun s => hiWord_toNat _⟩
  · exact ⟨_, .slot k .kinitLo, fun s => loWord_toNat _⟩
  · exact ⟨_, .slot k .kinitHi, fun s => hiWord_toNat _⟩
  · exact ⟨_, .slot k .kxorOutLo, fun s => loWord_toNat _⟩
  · exact ⟨_, .slot k .kxorOutHi, fun s => hiWord_toNat _⟩

theorem HostReg.names_of_mem {r : HostReg} (h : r ∈ hostRegs) : ∃ l, r.Names l := by
  simp only [hostRegs, List.mem_append] at h
  rcases h with ((((h | h) | h) | h) | h) | h
  · exact names_of_mem_globalRegs h
  · exact names_of_mem_slotRegs .settings h
  · exact names_of_mem_slotRegs .sensorValues h
  · exact names_of_mem_slotRegs .strings h
  · exact names_of_mem_slotRegs .ambientColor h
  · exact names_of_mem_slotRegs .soundData h

/-- What a write to a register of the list does to it. -/
theorem HostReg.Names.write {r : HostReg} (h : r.Names l) (hb : s.status.busy = false) (v : Word32) :
    s.hostWrite (BitVec.ofNat 32 r.addr) v = .next (s.writeLocation l v)
    ∧ ((s.writeLocation l v).readWord r.addr).1 = v &&& BitVec.ofNat 32 r.mask
    ∧ r.word (s.writeLocation l v) = (v &&& BitVec.ofNat 32 r.mask).toNat := by
  obtain ⟨hlt, h4⟩ := h.stored.addr_ok
  have hnat : (BitVec.ofNat 32 r.addr).toNat = r.addr := by rw [BitVec.toNat_ofNat]; omega
  have hl := h.stored.locate_eq s.params
  refine ⟨State.hostWrite_eq_next.2 ⟨by omega, by omega, hb, by rw [hnat, hl]⟩, ?_, ?_⟩
  · rw [State.readWord_writeLocation hb hl h.stored.ne_cmd, h.stored.read_write_same]
  · rw [← h.word, h.stored.read_write_same]

/-! ## The words of the engine's registers -/

theorem Status.word_toNat (s : Status) : s.word.toNat
    = s.done.toNat + 2 * s.busy.toNat + 4 * s.errv.toNat + 8 * s.matched.toNat + 16 * s.snapValid.toNat := by
  have h0 := s.done.toNat_le
  have h1 := s.busy.toNat_le
  have h2 := s.errv.toNat_le
  have h3 := s.matched.toNat_le
  have h4 := s.snapValid.toNat_le
  rw [Status.word, BitVec.toNat_ofNat, Nat.mod_eq_of_lt (by omega)]

theorem ResultCode.number_le (c : ResultCode) : c.number ≤ 8 := by cases c <;> decide

theorem Err.word_toNat (e : Err) : e.word.toNat = e.code.number + 2 ^ 8 * e.fidx.toNat + 2 ^ 16 * e.kind.toNat := by
  have := e.code.number_le
  have := e.fidx.isLt
  have := e.kind.isLt
  rw [Err.word, BitVec.toNat_ofNat]
  omega

/-- The bits of a number of five binary digits. -/
theorem testBit_five (b0 b1 b2 b3 b4 : Bool) (k : Kind) :
    (b0.toNat + 2 * b1.toNat + 4 * b2.toNat + 8 * b3.toNat + 16 * b4.toNat).testBit k.index
      = PerKind.get ⟨b0, b1, b2, b3, b4⟩ k := by
  revert b0 b1 b2 b3 b4
  cases k <;> decide

theorem State.kvalidWord_getLsbD (s : State) (i : Nat) :
    s.kvalidWord.getLsbD i = true ↔ ∃ k : Kind, k.code.toNat = i ∧ s.isValid k = true := by
  have h0 := s.valid.settings.toNat_le
  have h1 := s.valid.sensorValues.toNat_le
  have h2 := s.valid.strings.toNat_le
  have h3 := s.valid.ambientColor.toNat_le
  have h4 := s.valid.soundData.toNat_le
  have bit (k : Kind) : s.kvalidWord.getLsbD k.index = s.isValid k := by
    rw [State.kvalidWord, BitVec.getLsbD_ofNat, testBit_five]
    have := index_lt k
    simp only [show k.index < 32 by omega, decide_true, Bool.true_and]
    rfl
  constructor
  · intro h
    by_cases hi : i < 5
    · obtain ⟨k, rfl⟩ : ∃ k : Kind, k.index = i := by
        interval_cases i
        exacts [⟨.settings, rfl⟩, ⟨.sensorValues, rfl⟩, ⟨.strings, rfl⟩, ⟨.ambientColor, rfl⟩, ⟨.soundData, rfl⟩]
      exact ⟨k, k.code_toNat, by rw [← bit, h]⟩
    · rw [State.kvalidWord, BitVec.getLsbD_ofNat, Nat.testBit_lt_two_pow] at h
      · simp at h
      · exact lt_of_lt_of_le (by omega : _ < 2 ^ 5) (Nat.pow_le_pow_right (by decide) (by omega))
  · rintro ⟨k, rfl, hk⟩
    rw [k.code_toNat, bit, hk]

end Sys2Proof.Machine
end

section
/-! The registers the host writes read back, and the words of the engine's registers (10_state.md section 2). -/

namespace Sys2Proof.Machine

/-- An idle read of a global register. -/
theorem State.readWord_global {s : State} (hb : s.status.busy = false) (r : GlobalReg) :
    (s.readWord r.addr).1 = s.readGlobal r := by
  rw [State.readWord_idle hb, locate_globalAddr]
  rfl

/-- What the registers that the engine writes read as. -/
theorem State.readWord_engineRegs {s : State} (hb : s.status.busy = false) :
    s.readWord 0x000 = (s.cmd, s)
    ∧ (s.readWord 0x004).1.toNat
        = s.status.done.toNat + 2 ^ 2 * s.status.errv.toNat + 2 ^ 3 * s.status.matched.toNat + 2 ^ 4 * s.status.snapValid.toNat
    ∧ (s.readWord 0x008).1.toNat = s.err.code.number + 2 ^ 8 * s.err.fidx.toNat + 2 ^ 16 * s.err.kind.toNat
    ∧ (s.readWord 0x020).1.toNat = s.csum.toNat % 2 ^ 32 ∧ (s.readWord 0x024).1.toNat = s.csum.toNat / 2 ^ 32
    ∧ (s.readWord 0x028).1.toNat = s.csrx.toNat % 2 ^ 32 ∧ (s.readWord 0x02C).1.toNat = s.csrx.toNat / 2 ^ 32
    ∧ (s.readWord 0x030).1.toNat = s.kindOut.toNat
    ∧ ∀ i, (s.readWord 0x03C).1.getLsbD i = true ↔ ∃ k : Kind, k.code.toNat = i ∧ s.isValid k = true := by
  have read := State.readWord_global hb
  have hstatus := s.status.word_toNat
  rw [hb, Bool.toNat_false] at hstatus
  refine ⟨State.readWord_idle hb, (congrArg _ (read .status)).trans (by rw [State.readGlobal, hstatus]; omega),
    (congrArg _ (read .err)).trans (Err.word_toNat _), (congrArg _ (read .csumLo)).trans (loWord_toNat _),
    (congrArg _ (read .csumHi)).trans (hiWord_toNat _), (congrArg _ (read .csrxLo)).trans (loWord_toNat _),
    (congrArg _ (read .csrxHi)).trans (hiWord_toNat _), (congrArg _ (read .kindOut)).trans ?_, fun i => ?_⟩
  · exact BitVec.toNat_setWidth_of_le (by decide)
  · rw [show s.readWord 0x03C = s.readWord GlobalReg.kvalid.addr from rfl, read .kvalid]
    exact s.kvalidWord_getLsbD i

/-- Settles O55: each register of the list is at a location of its own. -/
theorem writtenRegistersReadBack : Obligations.WrittenRegistersReadBack := by
  refine ⟨fun s hb => ?_, fun s r v hb hr => ?_⟩
  · obtain ⟨hcmd, hstatus, herr, hrest⟩ := State.readWord_engineRegs hb
    refine ⟨hcmd, hstatus, fun code n hn hcode => ?_, hrest⟩
    have hnum : code.number = n := by
      simp only [List.mem_cons, Prod.mk.injEq, List.not_mem_nil, or_false] at hn
      rcases hn with ⟨rfl, rfl⟩ | ⟨rfl, rfl⟩ | ⟨rfl, rfl⟩ | ⟨rfl, rfl⟩ | ⟨rfl, rfl⟩ | ⟨rfl, rfl⟩ | ⟨rfl, rfl⟩ |
        ⟨rfl, rfl⟩ | ⟨rfl, rfl⟩ <;> rfl
    rw [herr, hcode, hnum]
  · obtain ⟨l, hl⟩ := HostReg.names_of_mem hr
    obtain ⟨hwrite, hread, hword⟩ := hl.write hb v
    refine ⟨?_, _, hwrite, hword, hread, fun r' hr' hne => ?_⟩
    · rw [State.readWord_idle hb, hl.stored.locate_eq, hl.word]
    · obtain ⟨l', hl'⟩ := HostReg.names_of_mem hr'
      have hll : l' ≠ l := by
        rintro rfl
        exact hne (hl'.stored.addr_unique hl.stored)
      rw [← hl'.word, ← hl'.word, hl.stored.read_write_other hl'.stored hll]

end Sys2Proof.Machine
end

section
/-! SUPPORT. A buffer with one bit flipped: what the numbers and the checksums that cover the bit become (43_frame.md
R273). -/

namespace Sys2Proof.Machine

/-- The state with bit j of buffer byte b, which holds v, flipped. -/
def State.flip (s : State) (b j : Nat) (v : Byte) : State :=
  { s with buf := Memory.write s.buf b (v ^^^ (1#8 <<< j)) }

theorem State.sameDecode_flip (s : State) (b j : Nat) (v : Byte) : s.sameDecode (s.flip b j v) := rfl

theorem State.read_flip_other {s : State} {b j c : Nat} {v : Byte} (h : c ≠ b) :
    Memory.read (s.flip b j v).buf c = Memory.read s.buf c :=
  Memory.read_write_other _ _ h

theorem flip_ne {j : Nat} (hj : j < 8) (v : Byte) : v ^^^ (1#8 <<< j) ≠ v := by
  intro h
  have := toNat_flip hj v
  rw [h] at this
  have : 0 < 2 ^ j := by positivity
  omega

/-- The number of some bytes determines them. -/
theorem bytesToNat_injective {ord : ByteOrder} {bs cs : List Byte} (hlen : bs.length = cs.length)
    (h : bytesToNat ord bs = bytesToNat ord cs) : bs = cs := by
  rw [← natToBytes_bytesToNat ord bs, h, hlen, natToBytes_bytesToNat]

section
variable {s : State} {b j : Nat} {v : Byte} (hv : Memory.read s.buf b = some v)
include hv

/-- The bytes of a range around the flipped one. -/
theorem State.holdsBytes_flip {a : Nat} {bs : List Byte} (h : s.holdsBytes a bs) (ha : a ≤ b) (hb : b < a + bs.length) :
    ∃ pre post, bs = pre ++ v :: post ∧ (s.flip b j v).holdsBytes a (pre ++ (v ^^^ (1#8 <<< j)) :: post) := by
  have hn : b - a < bs.length := by omega
  have hat : bs[b - a] = v := by
    have := h (b - a) hn
    rw [Nat.add_sub_cancel' ha, hv] at this
    exact (Option.some.inj this).symm
  refine ⟨bs.take (b - a), bs.drop (b - a + 1), ?_, ?_⟩
  · rw [← hat, List.getElem_cons_drop, List.take_append_drop]
  · rw [← List.set_eq_take_cons_drop _ hn]
    intro i hi
    rw [List.length_set] at hi
    rw [List.getElem_set]
    split
    · next heq => rw [← heq, Nat.add_sub_cancel' ha]; exact Memory.read_write_same _ _ _
    · next hne => exact (State.read_flip_other (by omega)).trans (h i hi)

variable (hj : j < 8)
include hj

/-- A number over the flipped byte is another one. -/
theorem State.readUInt_flip {a w u : Nat} {ord : ByteOrder} (h : s.readUInt a w ord = .ok u) (ha : a ≤ b)
    (hb : b < a + w) : ∃ u', (s.flip b j v).readUInt a w ord = .ok u' ∧ u' ≠ u := by
  obtain ⟨hin, bs, rfl, hbs, rfl⟩ := State.readUInt_eq_ok.1 h
  obtain ⟨pre, post, rfl, hflip⟩ := State.holdsBytes_flip (j := j) hv hbs ha hb
  refine ⟨_, State.readUInt_of_holdsBytes ord hin (by simp) hflip, fun heq => ?_⟩
  have := bytesToNat_injective (by simp) heq
  exact flip_ne hj v (by simpa using this)

/-- A checksum over the flipped byte is another one. -/
theorem State.frameCsum_flip {k : Kind} {T x : Nat} (hl : (s.profile k).legal = true) (h : s.frameCsum k T = .ok x)
    (ha : (s.slot k).kcsStart.toNat ≤ b) (hb : b < T - (s.profile k).csw) :
    ∃ x', (s.flip b j v).frameCsum k T = .ok x' ∧ x' ≠ x := by
  obtain ⟨hin, bs, hlen, hbs, rfl⟩ := State.csumOf_eq_ok.1 h
  obtain ⟨pre, post, rfl, hflip⟩ := State.holdsBytes_flip (j := j) hv hbs ha (by omega)
  have hlen' : (pre ++ (v ^^^ (1#8 <<< j)) :: post).length = T - (s.profile k).csw - (s.slot k).kcsStart.toNat := by
    simpa using hlen
  exact ⟨_, State.csumOf_eq_ok.2 ⟨hin, _, hlen', hflip, rfl⟩,
    everySingleBitChangeIsDetected (s.slot k) pre post v j hl hj⟩

end

/-! ## The stored snapshot does not read the buffer -/

theorem State.storeValues_setBuf (s : State) (m : Memory Byte) (i : Nat) (rs : List (Desc × Int)) :
    ({ s with buf := m } : State).storeValues i rs = { s.storeValues i rs with buf := m } := by
  induction rs generalizing s i with
  | nil => rfl
  | cons q rs ih =>
    obtain ⟨d, r⟩ := q
    rw [State.storeValues, State.storeValues, ← ih, State.storeValue_eq_entryWords, State.storeValue_eq_entryWords]
    rfl

end Sys2Proof.Machine
end

section
/-! The second decode of a frame with one bit flipped, by where the bit lies (43_frame.md R273). -/

namespace Sys2Proof.Machine

section
variable {s : State} {sel : DecodeSel} {k : Kind} {p b j : Nat} {v : Byte}

/-- Outside the discriminator the flip leaves the kind. -/
theorem State.decodeKindOf_flip (hk : s.decodeKindOf sel = .ok k)
    (hout : ¬(s.discOff.toNat ≤ b ∧ b < s.discOff.toNat + s.discBytes)) :
    (s.flip b j v).decodeKindOf sel = .ok k := by
  rw [(s.sameDecode_flip b j v).decodeKindOf fun _ _ _ => (s.sameDecode_flip b j v).disc fun c h1 h2 =>
    State.read_flip_other (by rintro rfl; exact hout ⟨h1, h2⟩), hk]

/-- Outside the length field the flip leaves the payload length. -/
theorem State.decodePayload_flip (hp : s.decodePayload k = .ok p)
    (hout : ¬((s.slot k).lenMode = true ∧ (s.slot k).klenOff.toNat ≤ b
      ∧ b < (s.slot k).klenOff.toNat + (s.slot k).lenBytes)) :
    (s.flip b j v).decodePayload k = .ok p := by
  rw [(s.sameDecode_flip b j v).decodePayload fun hm => (s.sameDecode_flip b j v).lengthField fun c h1 h2 =>
    State.read_flip_other (by rintro rfl; exact hout ⟨hm, h1, h2⟩), hp]

variable (hv : Memory.read s.buf b = some v) (hj : j < 8)
include hv hj

/-- In the checksummed range the checksum changes and the trailer does not. -/
theorem Decoding.flip_covered (hd : Decoding s sel k p) {x : Nat}
    (hx : s.decodeChecksums k (s.totalLength k p) = .ok (x, x)) (ha : (s.slot k).kcsStart.toNat ≤ b)
    (hb : b < s.frameLen.toNat - (s.profile k).csw) :
    ∃ y, (s.flip b j v).decodeChecksums k (s.totalLength k p) = .ok (y, x) ∧ y ≠ x := by
  have htotal : s.totalLength k p = s.frameLen.toNat := hd.length.symm
  have hlen := hd.length
  rw [htotal] at hx ⊢
  obtain ⟨hsum, htrailer⟩ := State.decodeChecksums_eq_ok.1 hx
  obtain ⟨y, hy, hne⟩ := State.frameCsum_flip hv hj hd.kind.legal hsum ha hb
  refine ⟨y, State.decodeChecksums_eq_ok.2 ⟨hy, ?_⟩, hne⟩
  rw [(s.sameDecode_flip b j v).frameTrailer (by omega) fun c h1 _ => State.read_flip_other (by omega), htrailer]

/-- In the trailer the checksum stays and the trailer changes, to another value of the register. -/
theorem Decoding.flip_trailer (hd : Decoding s sel k p) {x : Nat}
    (hx : s.decodeChecksums k (s.totalLength k p) = .ok (x, x)) (ha : s.frameLen.toNat - (s.profile k).csw ≤ b)
    (hb : b < s.frameLen.toNat) :
    ∃ y, (s.flip b j v).decodeChecksums k (s.totalLength k p) = .ok (x, y) ∧ y ≠ x
      ∧ BitVec.ofNat 64 y ≠ BitVec.ofNat 64 x := by
  have htotal : s.totalLength k p = s.frameLen.toNat := hd.length.symm
  have hlen := hd.length
  rw [htotal] at hx ⊢
  obtain ⟨hsum, htrailer⟩ := State.decodeChecksums_eq_ok.1 hx
  obtain ⟨y, hy, hne⟩ := State.readUInt_flip hv hj htrailer ha (by omega)
  have hsum' : (s.flip b j v).frameCsum k s.frameLen.toNat = .ok x := by
    rw [(s.sameDecode_flip b j v).frameCsum fun c _ h2 => State.read_flip_other (by omega), hsum]
  have hfits : 2 ^ (8 * (s.profile k).csw) ≤ 2 ^ 64 := by
    have : (s.profile k).csw ≤ 8 := (s.slot k).csw_le
    exact Nat.pow_le_pow_right (by decide) (by omega)
  have hx64 := (State.readUInt_lt htrailer).trans_le hfits
  have hy64 := (State.readUInt_lt hy).trans_le hfits
  refine ⟨y, State.decodeChecksums_eq_ok.2 ⟨hsum', hy⟩, hne, fun h => hne ?_⟩
  have := congrArg BitVec.toNat h
  rwa [BitVec.toNat_ofNat, BitVec.toNat_ofNat, Nat.mod_eq_of_lt hy64, Nat.mod_eq_of_lt hx64] at this

/-- Another length never fits the same frame. -/
theorem State.decodePayload_flip_length (hp : s.decodePayload k = .ok p) (hm : (s.slot k).lenMode = true)
    (ha : (s.slot k).klenOff.toNat ≤ b) (hb : b < (s.slot k).klenOff.toNat + (s.slot k).lenBytes) :
    (s.flip b j v).decodePayload k = .error (.raise .lengthMismatch 0) := by
  obtain ⟨hpay, hlen⟩ := State.decodePayload_eq_ok.1 hp
  rw [State.payloadIs, if_pos hm] at hpay
  obtain ⟨q, hq, hne⟩ := State.readUInt_flip hv hj hpay.1 ha hb
  refine State.decodePayload_eq_error.2 (.inr ⟨rfl, ?_⟩)
  by_cases hrange : (s.slot k).kpayMin.toNat ≤ q ∧ q ≤ (s.slot k).kpayMax.toNat
  · refine .inr ⟨q, ?_, ?_⟩
    · rw [State.payloadIs]
      exact (if_pos hm).mpr ⟨hq, hrange⟩
    · change s.frameLen.toNat ≠ s.hdrLen + q + (s.profile k).csw
      rw [State.totalLength] at hlen
      omega
  · exact .inl ⟨hm, q, hq, by change q < (s.slot k).kpayMin.toNat ∨ (s.slot k).kpayMax.toNat < q; omega⟩

/-- Another discriminator is no more that of the kind. -/
theorem State.decodeKindOf_flip_disc (hk : s.decodeKindOf sel = .ok k) (ha : s.discOff.toNat ≤ b)
    (hb : b < s.discOff.toNat + s.discBytes)
    (hsel : sel = .kind k ∨ (sel = .any ∧ ∀ d, (s.flip b j v).disc = .ok d → (s.flip b j v).resolvesToNone .any d)) :
    (s.flip b j v).decodeKindOf sel = .error (.raise .unknownFrameType 0) := by
  obtain ⟨d, ⟨hc, hT, hh, hd⟩, hr⟩ := State.decodeKindOf_eq_ok.1 hk
  obtain ⟨d', hd', hne⟩ := State.readUInt_flip hv hj hd ha hb
  have hnone : (s.flip b j v).resolvesToNone sel d' := by
    rcases hsel with rfl | ⟨rfl, hany⟩
    · have hkd := State.kdisc_of_resolve hr
      exact fun h => hne (h.symm.trans hkd)
    · exact hany d' hd'
  exact State.decodeKindOf_eq_error.2 (.inr (.inr (.inr (.inr ⟨d', ⟨hc, hT, hh, hd'⟩, hnone, rfl⟩))))

end

/-- Settles O49: what each region of the frame is read for, and that a flipped bit changes the number or the checksum read
from it. -/
theorem flippedFrameBitIsAChecksumMismatch : Obligations.FlippedFrameBitIsAChecksumMismatch := by
  intro sel s t k b j v hi h hok hkind hj hv
  obtain ⟨k', p, x, rs, hk, hp, hx, hrs, rfl⟩ := execFrameDecode_ok h hok
  obtain ⟨res, hres⟩ := storeValues_eq_of_res ((s.setCsum x).setCsrx x) 0 rs
  have hkk : k' = k := Kind.code_injective hkind
  subst hkk
  have hd := hi.decoding hk hp
  have hlen := hd.length
  have hstart := hd.kind.start
  have hdisc := hd.kind.disc
  refine ⟨fun hnd hnl ha hb => ?_, fun ha hb => ?_, fun ⟨hm, ha, hb⟩ => ?_, fun ⟨ha, hb⟩ hsel => ?_, fun hnd hnl hb => ?_⟩
  · obtain ⟨y, hy, hne⟩ := hd.flip_covered hv hj hx ha hb
    exact ⟨_, (execFrameDecode_of_payload (State.decodeKindOf_flip hk hnd) (State.decodePayload_flip hp hnl)).trans
      (State.decodeBody_of_mismatch hy hne), rfl⟩
  · obtain ⟨y, hy, hne, h64⟩ := hd.flip_trailer hv hj hx ha hb
    have hnd : ¬(s.discOff.toNat ≤ b ∧ b < s.discOff.toNat + s.discBytes) := by omega
    have hnl : ¬((s.slot k').lenMode = true ∧ (s.slot k').klenOff.toNat ≤ b
        ∧ b < (s.slot k').klenOff.toNat + (s.slot k').lenBytes) := fun ⟨hm, _, h2⟩ => by
      obtain ⟨hle, -⟩ := hd.kind.len hm
      omega
    refine ⟨_, (execFrameDecode_of_payload (State.decodeKindOf_flip hk hnd) (State.decodePayload_flip hp hnl)).trans
      (State.decodeBody_of_mismatch hy hne.symm), rfl, ?_, ?_⟩
    · rw [hres]; rfl
    · rw [hres]; exact h64
  · have hnd : ¬(s.discOff.toNat ≤ b ∧ b < s.discOff.toNat + s.discBytes) := by
      obtain ⟨-, hsep, -⟩ := hd.kind.len hm
      omega
    exact ⟨_, execFrameDecode_of_lengthMismatch (State.decodeKindOf_flip hk hnd)
      (State.decodePayload_flip_length hv hj hp hm ha hb), rfl⟩
  · exact ⟨_, execFrameDecode_eq_next.2 (.inl ⟨_, _, State.decodeKindOf_flip_disc hv hj hk ha hb hsel, rfl⟩), rfl⟩
  · have hsums := hd.decodeChecksums_congr (s.sameDecode_flip b j v) fun c h1 _ => State.read_flip_other (by omega)
    have hfields := hd.decodeFields_congr (s.sameDecode_flip b j v) fun c h1 _ => State.read_flip_other (by omega)
    refine ((execFrameDecode_of_payload (State.decodeKindOf_flip hk hnd) (State.decodePayload_flip hp hnl)).trans
      (State.decodeBody_of_fields (hsums.trans hx) (hfields.trans hrs))).trans (congrArg _ ?_)
    have hstore := State.storeValues_setBuf ((s.setCsum x).setCsrx x) (s.flip b j v).buf 0 rs
    change (((((s.flip b j v).setCsum x).setCsrx x).storeValues 0 rs).setSnapshot k' p).finish 0 k'.code false true = _
    rw [show ((s.flip b j v).setCsum x).setCsrx x
        = ({ (s.setCsum x).setCsrx x with buf := (s.flip b j v).buf } : State) from rfl, hstore, hres]
    rfl

end Sys2Proof.Machine
end

section
/-! SUPPORT. What stands in the frame that FRAME.ENCODE has written: each part reads back as it was written, since no later
write lies over it (43_frame.md R269, R270). -/

namespace Sys2Proof.Machine

/-! ## States that differ in the buffer and the result RAM -/

section
variable {s t : State} (h : s.sameButRams t)
include h

theorem State.sameButRams.sameDecode : s.sameDecode t := by
  rw [State.sameButRams] at h
  rw [State.sameDecode, h]

theorem State.sameButRams.params_eq : t.params = s.params := by rw [h]
theorem State.sameButRams.hdrLen_eq : t.hdrLen = s.hdrLen := by rw [h]; rfl
theorem State.sameButRams.slot_eq (k : Kind) : t.slot k = s.slot k := by rw [h]; rfl
theorem State.sameButRams.profile_eq (k : Kind) : t.profile k = s.profile k := by rw [h]; rfl

theorem State.sameButRams.disc_eq : t.disc = t.readUInt s.discOff.toNat s.discBytes s.discOrd := by
  have hoff : t.discOff = s.discOff := by rw [h]
  have hbytes : t.discBytes = s.discBytes := by rw [h]; rfl
  have hord : t.discOrd = s.discOrd := by rw [h]; rfl
  rw [State.disc, hoff, hbytes, hord]

theorem State.sameButRams.lengthField_eq (k : Kind) :
    t.lengthField k = t.readUInt (s.slot k).klenOff.toNat (s.slot k).lenBytes (s.slot k).lenOrd := by
  rw [State.lengthField, h.slot_eq]

end

/-- No part of the frame before the trailer lies over byte a. -/
structure Untouched (s : State) (k : Kind) (rs : List (Desc × Int)) (a : Nat) : Prop where
  disc : a < s.discOff.toNat ∨ s.discOff.toNat + s.discBytes ≤ a
  length : (s.slot k).lenMode = true → a < (s.slot k).klenOff.toNat ∨ (s.slot k).klenOff.toNat + (s.slot k).lenBytes ≤ a
  field : ∀ (i : Nat) (e : Desc) (r : Int), rs[i]? = some (e, r) →
    a < s.hdrLen + e.offset ∨ s.hdrLen + e.offset + e.w ≤ a

/-- The parts of the frame before the trailer stand in t. -/
structure Built (s : State) (k : Kind) (p : Nat) (rs : List (Desc × Int)) (t : State) : Prop where
  same : s.sameButRams t
  disc : t.disc = .ok (s.slot k).kdisc.toNat
  length : (s.slot k).lenMode = true → t.lengthField k = .ok p
  field : ∀ (i : Nat) (e : Desc) (r : Int), rs[i]? = some (e, r) → t.readRaw (s.hdrLen + e.offset) e = .ok r
  raw : ∀ (i : Nat) (e : Desc) (r : Int), rs[i]? = some (e, r) → t.holdsResWords i 0 (natToWords 2 (pattern 64 r))

theorem State.putLength_effect {s t : State} {k : Kind} {p : Nat} (h : s.putLength k p = .ok t) :
    t.res = s.res ∧ ((s.slot k).lenMode = true →
        s.writeUInt (s.slot k).klenOff.toNat (s.slot k).lenBytes (s.slot k).lenOrd p = .ok t)
      ∧ ∀ a, ((s.slot k).lenMode = true → a < (s.slot k).klenOff.toNat
        ∨ (s.slot k).klenOff.toNat + (s.slot k).lenBytes ≤ a) → Memory.read t.buf a = Memory.read s.buf a := by
  rw [State.putLength] at h
  split at h
  · next hm =>
    obtain ⟨-, hframe, hother⟩ := State.writeUInt_effect h
    exact ⟨by rw [hframe], fun _ => h, fun a ha => hother a (ha hm)⟩
  · next hm => cases h; exact ⟨rfl, fun h => absurd h hm, fun _ _ => rfl⟩

/-- The descriptors' ranges bound the raw integers that are encoded. -/
theorem Encoding.raw_bounds {s : State} {k : Kind} {p : Nat} {rs : List (Desc × Int)} (he : Encoding s k p rs) {i : Nat}
    {e : Desc} {r : Int} (h : rs[i]? = some (e, r)) : e.lo ≤ r ∧ r ≤ e.hi := by
  obtain ⟨hlen, hread⟩ := State.encodeFields_eq_ok.1 he.fields
  have hi : i < (s.descIndexes k).length := by rw [← hlen]; exact (List.getElem?_eq_some_iff.1 h).1
  obtain ⟨e', r', hr, -, hin⟩ := hread i hi
  rw [h] at hr
  cases hr
  obtain ⟨hlo, hhi⟩ := Desc.inRange_iff.1 hin
  obtain ⟨h1, h2⟩ := he.descs.range i e (Encoding.getElem?_descs h)
  exact ⟨h1.trans hlo, hhi.trans h2⟩

section
variable {s s1 s2 s3 : State} {k : Kind} {p : Nat} {rs : List (Desc × Int)} (he : Encoding s k p rs)
  (h1 : s.putDisc k = .ok s1) (h2 : s1.putLength k p = .ok s2) (h3 : s2.putFields 0 rs = .ok s3)
include h1 h2 h3

/-- A byte that no part lies over is as before. -/
theorem State.body_buf_other {a : Nat} (ha : Untouched s k rs a) : Memory.read s3.buf a = Memory.read s.buf a := by
  have hs1 := State.sameButRams_of_writeUInt h1
  have hs2 := hs1.trans (State.sameButRams_of_putLength h2)
  obtain ⟨-, -, hdisc⟩ := State.writeUInt_effect h1
  obtain ⟨-, -, hlength⟩ := State.putLength_effect h2
  rw [hs1.slot_eq] at hlength
  rw [State.putFields_buf_other h3, hlength a ha.length, hdisc a ha.disc]
  rintro ⟨e, r⟩ hq
  obtain ⟨i, hi⟩ := List.mem_iff_getElem?.1 hq
  rw [hs2.hdrLen_eq]
  exact ha.field i e r hi

/-- A result word that is no RAW word of the kind's entries is as before. -/
theorem State.body_res_other {a : Nat} (ha : ∀ i < rs.length, a ≠ resAddr i 0 ∧ a ≠ resAddr i 1) :
    Memory.read s3.res a = Memory.read s.res a := by
  obtain ⟨-, hframe, -⟩ := State.writeUInt_effect h1
  obtain ⟨hres, -, -⟩ := State.putLength_effect h2
  rw [State.putFields_res_other h3 fun n hn => by rw [Nat.zero_add]; exact ha n hn, hres, hframe]

include he

/-- The header's parts lie below HDRLEN and apart, the fields above it and apart. -/
theorem Encoding.built : Built s k p rs s3 := by
  have hs1 := State.sameButRams_of_writeUInt h1
  have hs12 := State.sameButRams_of_putLength h2
  have hs23 := State.sameButRams_of_putFields h3
  have hs2 := hs1.trans hs12
  have hs3 := hs2.trans hs23
  have hT := he.totalLength_le
  rw [State.totalLength] at hT
  obtain ⟨-, hwrite, hlength⟩ := State.putLength_effect h2
  rw [hs1.slot_eq] at hwrite hlength
  have hheader {a : Nat} (ha : a < s.hdrLen) : Memory.read s3.buf a = Memory.read s2.buf a :=
    State.putFields_buf_other h3 fun q _ => by rw [hs2.hdrLen_eq]; omega
  refine ⟨hs3, ?_, fun hm => ?_, fun i e r hir => ?_, fun i e r hir => ?_⟩
  · have hdisc := he.kind.disc
    rw [hs3.disc_eq, (hs12.trans hs23).sameDecode.readUInt, State.readUInt_of_writeUInt h1 he.kind.kdisc]
    intro c _ hc
    rw [hheader (by omega), hlength c fun hm => by obtain ⟨-, hsep, -⟩ := he.kind.len hm; omega]
  · obtain ⟨hin, -, -, hmax⟩ := he.kind.len hm
    rw [hs3.lengthField_eq, hs23.sameDecode.readUInt _ fun c _ hc => hheader (by omega),
      State.readUInt_of_writeUInt (hwrite hm) (lt_of_le_of_lt he.payMax hmax)]
  · have hle := he.field_le (List.mem_of_getElem? hir)
    obtain ⟨hbytes, -⟩ := State.putFields_holds h3 hir fun m e' r' hm hr' =>
      he.descs.sep i m e e' (by omega) (Encoding.getElem?_descs hir) (Encoding.getElem?_descs hr')
    obtain ⟨hlo, hhi⟩ := he.raw_bounds hir
    obtain ⟨hwidth, -, -⟩ := State.readDesc_bounds (he.descs.read i e (Encoding.getElem?_descs hir))
    rw [hs2.hdrLen_eq] at hbytes
    have hin : s.hdrLen + e.offset + e.w ≤ s3.params.bufSize := by
      rw [hs3.params_eq]
      change e.offset + e.w ≤ p at hle
      omega
    rw [State.readRaw, State.readUInt_of_holdsBytes _ hin (natToBytes_length _ _ _) hbytes, bytesToNat_natToBytes,
      Nat.mod_eq_of_lt (e.pattern_lt r)]
    exact congrArg _ (Desc.rawOf_pattern (by omega) hlo hhi)
  · obtain ⟨-, hwords⟩ := State.putFields_holds h3 hir fun m e' r' hm hr' =>
      he.descs.sep i m e e' (by omega) (Encoding.getElem?_descs hir) (Encoding.getElem?_descs hr')
    rwa [Nat.zero_add] at hwords

/-- Where every byte of the range is written, before or by the command itself, the frame has its checksum. -/
theorem Encoding.exists_frameCsum (hw : ∀ a, (s.slot k).kcsStart.toNat ≤ a → a < s.hdrLen + p →
      Memory.read s.buf a ≠ none ∨ ¬Untouched s k rs a) :
    ∃ x, s3.frameCsum k (s.totalLength k p) = .ok x := by
  have hb := he.built h1 h2 h3
  have written {a n b u : Nat} {ord : ByteOrder} (h : s3.readUInt a n ord = .ok u) (ha : a ≤ b) (hn : b < a + n) :
      Memory.read s3.buf b ≠ none := by
    obtain ⟨-, bs, hlen, hbs, -⟩ := State.readUInt_eq_ok.1 h
    have := hbs (b - a) (by omega)
    rw [Nat.add_sub_cancel' ha] at this
    rw [this]
    nofun
  cases hx : s3.frameCsum k (s.totalLength k p) with
  | ok x => exact ⟨x, rfl⟩
  | error x =>
    have hstart := he.kind.start
    have hT := he.totalLength_le
    rw [State.frameCsum, State.csumOf_eq_error, hb.same.slot_eq, hb.same.profile_eq, State.memRead_eq_error,
      hb.same.params_eq] at hx
    rw [State.totalLength] at hx hT
    rcases hx with ⟨-, ⟨j, hj, hnone⟩, -⟩ | ⟨hout, -⟩
    · refine absurd hnone ?_
      by_cases hu : Untouched s k rs ((s.slot k).kcsStart.toNat + j)
      · rw [State.body_buf_other h1 h2 h3 hu]
        exact (hw _ (by omega) (by omega)).resolve_right (not_not.2 hu)
      · by_contra hnone
        refine hu ⟨?_, fun hm => ?_, fun i e r hir => ?_⟩
        · by_contra hc
          exact written (hb.same.disc_eq.symm.trans hb.disc) (by omega) (by omega) hnone
        · by_contra hc
          exact written ((hb.same.lengthField_eq k).symm.trans (hb.length hm)) (by omega) (by omega) hnone
        · by_contra hc
          obtain ⟨u, hu, -⟩ := map_eq_ok.1 (hb.field i e r hir)
          exact written hu (by omega) (by omega) hnone
    · omega

end

/-- The trailer lies past every part. -/
theorem Built.putTrailer {s t u : State} {k : Kind} {p x : Nat} {rs : List (Desc × Int)} (he : Encoding s k p rs)
    (hb : Built s k p rs t) (h : t.putTrailer k (s.totalLength k p) x = .ok u) : Built s k p rs u := by
  obtain ⟨-, hframe, hother⟩ := State.writeUInt_effect h
  have htu := State.sameButRams_of_writeUInt h
  have hsu := hb.same.trans htu
  rw [hb.same.profile_eq, State.totalLength] at hother
  have hbelow {c : Nat} (hc : c < s.hdrLen + p) : Memory.read u.buf c = Memory.read t.buf c := hother c (by omega)
  have hres : u.res = t.res := by rw [hframe]
  refine ⟨hsu, ?_, fun hm => ?_, fun i e r hir => ?_, fun i e r hir j hj => ?_⟩
  · have hdisc := he.kind.disc
    rw [hsu.disc_eq, htu.sameDecode.readUInt _ fun c _ hc => hbelow (by omega), ← hb.same.disc_eq, hb.disc]
  · obtain ⟨hin, -⟩ := he.kind.len hm
    rw [hsu.lengthField_eq, htu.sameDecode.readUInt _ fun c _ hc => hbelow (by omega), ← hb.same.lengthField_eq,
      hb.length hm]
  · have hle := he.field_le (List.mem_of_getElem? hir)
    change e.offset + e.w ≤ p at hle
    rw [htu.sameDecode.readRaw fun c _ hc => hbelow (by omega), hb.field i e r hir]
  · rw [hres]
    exact hb.raw i e r hir j hj

/-- The whole frame stands in t, with the checksum x in its trailer. -/
structure Framed (s : State) (k : Kind) (p : Nat) (rs : List (Desc × Int)) (x : Nat) (t : State) : Prop where
  built : Built s k p rs t
  csum : t.frameCsum k (s.totalLength k p) = .ok x
  trailer : t.frameTrailer k (s.totalLength k p) = .ok x
  bytes : ∀ a, Untouched s k rs a → (a < s.hdrLen + p ∨ s.totalLength k p ≤ a) →
    Memory.read t.buf a = Memory.read s.buf a
  words : ∀ a, (∀ i < rs.length, a ≠ resAddr i 0 ∧ a ≠ resAddr i 1) → Memory.read t.res a = Memory.read s.res a

section
variable {s : State} {k : Kind} {p : Nat} {rs : List (Desc × Int)} (he : Encoding s k p rs)
include he

/-- The writes of an encode that goes through leave the whole frame. -/
theorem Encoding.framed {u : State} (h : s.encodeWrites k p rs = .ok u) :
    ∃ x t, Framed s k p rs x t ∧ u = t.setEncoded x (s.totalLength k p) p := by
  obtain ⟨s1, s2, s3, x, s4, h1, h2, h3, hx, h4, rfl⟩ := State.encodeWrites_eq_ok.1 h
  have hb := he.built h1 h2 h3
  have hstart := he.kind.start
  have hlegal : (s3.profile k).legal = true := by rw [hb.same.profile_eq]; exact he.kind.legal
  obtain ⟨-, hframe, hother⟩ := State.writeUInt_effect h4
  refine ⟨x, s4, ⟨hb.putTrailer he h4, ?_, State.frameTrailer_of_putTrailer h4 (State.frameCsum_lt hlegal hx),
    fun a ha hout => ?_, fun a ha => ?_⟩, rfl⟩
  · rw [State.frameCsum_of_putTrailer h4, hx]
    rw [hb.same.slot_eq, hb.same.profile_eq, State.totalLength]
    omega
  · rw [hb.same.profile_eq, State.totalLength] at hother
    rw [State.totalLength] at hout
    rw [hother a (by omega), State.body_buf_other h1 h2 h3 ha]
  · rw [hframe]
    exact State.body_res_other h1 h2 h3 ha

theorem Encoding.exists_encodeWrites (hw : ∀ a, (s.slot k).kcsStart.toNat ≤ a → a < s.hdrLen + p →
      Memory.read s.buf a ≠ none ∨ ¬Untouched s k rs a) : ∃ u, s.encodeWrites k p rs = .ok u := by
  obtain ⟨s1, s2, s3, h1, h2, h3, -, -, hs3⟩ := he.exists_body
  obtain ⟨x, hx⟩ := he.exists_frameCsum h1 h2 h3 hw
  have hT := he.totalLength_le
  have hput : s3.putTrailer k (s.totalLength k p) x = .ok _ := State.writeUInt_of_within (by
    rw [hs3.profile_eq, hs3.params_eq]
    rw [State.totalLength] at hT ⊢
    omega)
  exact ⟨_, State.encodeWrites_eq_ok.2 ⟨s1, s2, s3, x, _, h1, h2, h3, hx, hput, rfl⟩⟩

end

/-- The state FRAME.ENCODE answers once the frame stands in v. -/
def State.encodeDone (v : State) (k : Kind) (x T p : Nat) : State := (v.setEncoded x T p).finish 0 k.code false false

/-- All that a FRAME.ENCODE which ends with OK has read and written. -/
theorem State.Inv.execFrameEncode_ok {s t : State} {k : Kind} (hi : s.Inv) (h : execFrameEncode k s = .next t)
    (hok : t.err.code = .ok) : ∃ p rs x v, Encoding s k p rs ∧ s.isValid k = true ∧ Framed s k p rs x v
      ∧ t = v.encodeDone k x (s.totalLength k p) p := by
  rcases execFrameEncode_eq_next.1 h with ⟨c, y, hr, rfl⟩ | ⟨u, hu, rfl⟩
  · rcases raises_frameEncoded hr with ⟨rfl, -⟩ | rfl | rfl <;> cases hok
  obtain ⟨hv, p, rs, hp, hrs, hw⟩ := State.frameEncoded_eq_ok.1 hu
  have he := hi.encoding hv hp hrs
  obtain ⟨x, v, hf, rfl⟩ := he.framed hw
  exact ⟨p, rs, x, v, he, hv, hf, rfl⟩

end Sys2Proof.Machine
end

section
/-! The statements about the encoder (43_frame.md R269 to R271). -/

namespace Sys2Proof.Machine

/-- Settles O50: the parts go through and stand in the frame; a byte of the range that no part writes was written before. -/
theorem frameEncodeBuildsTheFrame : Obligations.FrameEncodeBuildsTheFrame := by
  intro k s p rs hi hv hpay hcount hvals hwritten
  have hrs : s.encodeFields k (s.descIndexes k) = .ok rs := by
    refine State.encodeFields_eq_ok.2 ⟨by rw [hcount, State.length_descIndexes], fun n hn => ?_⟩
    have hn' : n < rs.length := by rwa [State.length_descIndexes, ← hcount] at hn
    obtain ⟨hval, hin⟩ := hvals n rs[n].1 rs[n].2 (List.getElem?_eq_getElem hn')
    rw [State.getElem_descIndexes]
    exact ⟨_, _, List.getElem?_eq_getElem hn', hval, Desc.inRange_iff.2 hin⟩
  have hp := State.encodePayload_eq_ok.2 hpay
  have he := hi.encoding hv hp hrs
  obtain ⟨u, hu⟩ := he.exists_encodeWrites fun a ha hlt => by
    rcases hwritten a ha hlt with h | ⟨h1, h2⟩ | ⟨hm, h1, h2⟩ | ⟨i, e, r, hir, h1, h2⟩
    · exact .inl h
    · exact .inr fun hun => by have := hun.disc; omega
    · exact .inr fun hun => by have := hun.length hm; omega
    · exact .inr fun hun => by have := hun.field i e r hir; omega
  obtain ⟨x, v, hf, rfl⟩ := he.framed hu
  have hsame := hf.built.same
  have hdesc (i : Nat) (e : Desc) (r : Int) (hir : rs[i]? = some (e, r)) : v.readDesc k i = .ok e := by
    rw [hsame.sameDecode.readDesc]
    exact he.descs.read i e (Encoding.getElem?_descs hir)
  refine ⟨_, x, execFrameEncode_eq_next.2 (.inr ⟨_, State.frameEncoded_eq_ok.2 ⟨hv, p, rs, hp, hrs, hu⟩, rfl⟩), ?_,
    hf.built.disc, hf.built.length, fun i e r hir => ⟨⟨hdesc i e r hir, ?_⟩, hf.built.raw i e r hir⟩, hf.csum, hf.trailer,
    fun a h1 h2 h3 h4 => hf.bytes a ⟨h1, h2, h3⟩ h4, hf.words⟩
  · rw [hsame]
    rfl
  · refine Eq.trans ?_ (hf.built.field i e r hir)
    rw [← hsame.hdrLen_eq]
    rfl

/-! ## The frame decoded again -/

theorem State.configServes_congr {s t : State} {sel : DecodeSel} (hslots : t.slots = s.slots) (hvalid : t.valid = s.valid)
    (h : s.configServes sel) : t.configServes sel := by
  cases sel <;> simpa only [State.configServes, State.isValid, State.slot, hslots, hvalid] using h

section
variable {s v : State} {sel : DecodeSel} {k : Kind} {p x : Nat} {rs : List (Desc × Int)} (hi : s.Inv)
  (he : Encoding s k p rs) (hf : Framed s k p rs x v)
include hi he

theorem Encoding.frameLen_encodeDone (v : State) (x : Nat) :
    (v.encodeDone k x (s.totalLength k p) p).frameLen.toNat = s.totalLength k p := by
  obtain ⟨-, -, hsize, -⟩ := hi.params
  have hT := he.totalLength_le
  exact (BitVec.toNat_ofNat _ _).trans (Nat.mod_eq_of_lt (by omega))

include hf

theorem Framed.headerRead (hc : s.configServes sel) :
    (v.encodeDone k x (s.totalLength k p) p).headerRead sel (s.slot k).kdisc.toNat := by
  have hsame := hf.built.same
  have hT := he.totalLength_le
  refine ⟨State.configServes_congr ?_ ?_ hc, ?_, ?_, hf.built.disc⟩
  · change v.slots = s.slots
    rw [hsame]
  · change v.valid = s.valid
    rw [hsame]
  · rw [he.frameLen_encodeDone hi]
    change _ ≤ v.params.bufSize
    rwa [hsame.params_eq]
  · rw [he.frameLen_encodeDone hi]
    change v.hdrLen ≤ _
    rw [hsame.hdrLen_eq, State.totalLength]
    omega

omit hi

/-- No other enabled kind carries the discriminator of a kind whose schema holds. -/
theorem Framed.resolvesTo (hsel : sel = .kind k ∨ sel = .any) :
    (v.encodeDone k x (s.totalLength k p) p).resolvesTo sel (s.slot k).kdisc.toNat k := by
  have hslot (j : Kind) : (v.encodeDone k x (s.totalLength k p) p).slot j = s.slot j := hf.built.same.slot_eq j
  rcases hsel with rfl | rfl
  · exact ⟨rfl, by rw [hslot]⟩
  · refine ⟨by rw [hslot]; exact he.kind.en, by rw [hslot], fun j hen hdisc => ?_⟩
    rw [hslot] at hen hdisc
    by_contra hne
    exact he.kind.clash j hne hen (BitVec.eq_of_toNat_eq hdisc)

theorem Framed.payloadIs : (v.encodeDone k x (s.totalLength k p) p).payloadIs k p := by
  have hslot : (v.encodeDone k x (s.totalLength k p) p).slot k = s.slot k := hf.built.same.slot_eq k
  have hpay := State.encodePayload_eq_ok.1 he.payload
  rw [State.payloadIs, hslot]
  split
  · next hm => exact ⟨hf.built.length hm, he.payMin, he.payMax⟩
  · next hm => rwa [if_neg hm] at hpay

theorem Framed.decodeFields :
    (v.encodeDone k x (s.totalLength k p) p).decodeFields k
      ((v.encodeDone k x (s.totalLength k p) p).descIndexes k) = .ok rs := by
  have hsame := hf.built.same
  have hslot : (v.encodeDone k x (s.totalLength k p) p).slot k = s.slot k := hsame.slot_eq k
  obtain ⟨hlen, hvals⟩ := State.encodeFields_eq_ok.1 he.fields
  rw [State.length_descIndexes] at hlen
  refine State.decodeFields_eq_ok.2 ⟨by rw [hlen, State.length_descIndexes, hslot], fun n hn => ?_⟩
  rw [State.length_descIndexes, hslot] at hn
  obtain ⟨e, r, hr, ⟨hdesc, -⟩, hin⟩ := hvals n (by rwa [State.length_descIndexes])
  rw [State.getElem_descIndexes] at hdesc
  refine ⟨e, r, hr, ⟨?_, ?_⟩, hin⟩
  · rw [State.getElem_descIndexes]
    exact (hsame.sameDecode.readDesc n).trans hdesc
  · refine Eq.trans ?_ (hf.built.field n e r hr)
    rw [← hsame.hdrLen_eq]
    rfl

include hi

/-- The frame that stands after an encode decodes to the kind, the payload length and the raw integers encoded. -/
theorem Framed.execFrameDecode (hsel : sel = .kind k ∨ sel = .any) (hc : s.configServes sel) :
    execFrameDecode sel (v.encodeDone k x (s.totalLength k p) p)
      = .next ((((((v.encodeDone k x (s.totalLength k p) p).setCsum x).setCsrx x).storeValues 0 rs).setSnapshot k p).finish
          0 k.code false true) := by
  have hlength := he.frameLen_encodeDone hi v x
  have hprofile : (v.encodeDone k x (s.totalLength k p) p).profile k = s.profile k := hf.built.same.profile_eq k
  have hheader : (v.encodeDone k x (s.totalLength k p) p).hdrLen = s.hdrLen := hf.built.same.hdrLen_eq
  obtain ⟨hbody, hsums⟩ := execFrameDecode_of_checksum (hf.headerRead hi he hc) (hf.resolvesTo he hsel) (hf.payloadIs he)
    (by rw [hlength, hprofile, hheader, State.totalLength]) (by rw [hlength]; exact hf.csum)
    (by rw [hlength]; exact hf.trailer)
  exact hbody.trans (State.decodeBody_of_fields hsums (hf.decodeFields he))

end

/-- Settles O51: the frame that stands after the encode passes every check of the decode, and reads as what was encoded. -/
theorem decodeAfterEncodeRoundTrip : Obligations.DecodeAfterEncodeRoundTrip := by
  intro k s t sel hi h hok hsel
  obtain ⟨p, rs, x, v, he, hv, hf, rfl⟩ := hi.execFrameEncode_ok h hok
  have hc : s.configServes sel := by
    rcases hsel with rfl | ⟨rfl, hc⟩
    · exact hv
    · exact hc
  have hentry {i : Nat} {e : Desc} {r : Int} (hr : rs[i]? = some (e, r)) :
      ((((v.encodeDone k x (s.totalLength k p) p).setCsum x).setCsrx x).storeValues 0 rs).holdsResWords i 0
        (entryWords e r) := by
    have := State.storeValues_holds (s := ((v.encodeDone k x (s.totalLength k p) p).setCsum x).setCsrx x) (i := 0) hr
    rwa [Nat.zero_add] at this
  have hdecode := hf.execFrameDecode hi he (hsel.imp id And.left) hc
  obtain ⟨res, hres⟩ := storeValues_eq_of_res (((v.encodeDone k x (s.totalLength k p) p).setCsum x).setCsrx x) 0 rs
  rw [hres] at hdecode hentry
  refine ⟨_, hdecode, rfl, rfl, rfl, rfl, rfl, rfl, rfl, fun i hlt => ?_⟩
  obtain ⟨hlen, hvals⟩ := State.encodeFields_eq_ok.1 he.fields
  obtain ⟨e, r, hr, hval, -⟩ := hvals i (by rwa [State.length_descIndexes])
  rw [State.getElem_descIndexes] at hval
  refine ⟨e, r, hval, State.holdsEntry_of_entryWords (hentry hr), fun j hj => ?_⟩
  have hword : j < (natToWords 2 (pattern 64 r)).length := by rwa [natToWords_length]
  have hdecoded := hentry hr j (by rw [entryWords_length]; omega)
  have hencoded := hf.built.raw i e r hr j hword
  rw [Nat.zero_add] at hdecoded hencoded
  exact hdecoded.trans ((congrArg some (List.getElem_append_left hword)).trans hencoded.symm)

end Sys2Proof.Machine
end
